-- ==== Sys2Proof/Word.lean ====
section
/-! DEFINITION. Bytes, the two saturation limits, and the field shapes of request frames (10 R192). -/

namespace Sys2Proof

/-- One byte of a host frame, a response, a loop frame or a display. -/
abbrev Byte := BitVec 8

/-- The top figure of the fleet seconds count and of every deadline (R164). -/
abbrev maxCount : Nat := 4294967295

/-- The top figure of an account's used amount, 2^48 - 1 (R6, R18). -/
abbrev maxMoney : Nat := 281474976710655

/-- An optional field of a request frame: the presence byte and the value bytes as sent (R192). -/
structure Opt (w : Nat) where
  presence : Byte
  value    : BitVec w
deriving DecidableEq, Repr

/-- The five optional one-byte fields of a calendar pattern, in frame order (R192). -/
structure PatternFields where
  minute  : Opt 8
  hour    : Opt 8
  weekday : Opt 8
  day     : Opt 8
  month   : Opt 8
deriving DecidableEq, Repr

/-- A record table: (index, record) pairs, indices strictly rising, no record equal to what an unlisted index reads as
(log 9). -/
abbrev Table (α : Type) := List (Nat × α)

end Sys2Proof
end

