-- ==== Sys2Proof/Syntax.lean ====
section
/-! DEFINITION. The commands of the block: one constructor for each row of spec/opcode_table.json, in the table's order.

A host request carries `len`, the field length its frame states, and its fields as the frame lays them out (R192, R193):
numbers of the width of R193, codes, flags and sets as their byte, optional fields with their presence byte.
A loop event names its loop, and the terminal by its address where the event belongs to one terminal. -/

namespace Sys2Proof

/-- What made RESET_N's side of the part enter full reset (R189). -/
inductive ResetCause where
  /-- RESET_N driven low. -/
  | pin
  /-- The supply below its operating level. -/
  | supply
deriving DecidableEq, Repr

/-- The commands, one for each row of the opcode table. -/
inductive Instr where
  -- Tenant Table (R2, R4, R187)
  | setTenantPolicy (len tenant mono colour credit hold resume : BitVec 16) (policy : Byte) (warn : BitVec 16) (rollover : PatternFields)
  | readTenant (len tenant : BitVec 16)
  | lockPolicy (len : BitVec 16)
  -- Account Table (R9 to R15)
  | loadAccount (len account : BitVec 16) (state kind : Byte) (tenant : BitVec 16) (badge : Opt 24) (department : Opt 16) (limit : Opt 32) (used : BitVec 48)
  | setLimit (len account : BitVec 16) (limit : Opt 32)
  | suspendAccount (len account : BitVec 16)
  | resumeAccount (len account : BitVec 16)
  | retireAccount (len account : BitVec 16)
  | readAccount (len account : BitVec 16)
  -- Job Table (R30 to R38, R98 to R108)
  | holdJob (len owner : BitVec 16) (pool : Opt 16) (sidesMono sidesColour copies : BitVec 16) (size duplex : Byte) (covK covC covM covY : BitVec 16)
  | readJob (len handle : BitVec 16)
  | findJobs (len start : BitVec 16) (owner : Opt 16) (state : Opt 8)
  | cancelJob (len handle : BitVec 16)
  | removeJob (len handle : BitVec 16)
  | takeDispatch (len : BitVec 16)
  | readDispatch (len : BitVec 16)
  | reportProgress (len handle count : BitVec 16)
  /-- Report Job End with outcome code 01h. It also carries the frames of kind 38h whose length is wrong or whose outcome
  code is none of the three (R106 check 1), which no row of the table names (DESIGN CHOICE, log 7). -/
  | reportJobEndComplete (len handle : BitVec 16) (outcome : Byte)
  | reportJobEndCancelledAtPrinter (len handle : BitVec 16)
  | reportJobEndDeliveryFailed (len handle : BitVec 16)
  -- Loop Controller requests (R57, R58, R67, R68)
  | enrollTerminal (len : BitVec 16) (loop addr : Byte) (pool : BitVec 16)
  | retireTerminal (len : BitVec 16) (loop addr : Byte)
  | loopReset (len : BitVec 16) (loop : Byte)
  | readLoop (len : BitVec 16) (loop : Byte)
  -- Printer Table and Pool Table (R81 to R85, R91 to R94)
  | enrollPrinter (len printer : BitVec 16) (capability : Byte) (modelK modelC modelM modelY : BitVec 16) (deskGroup routeMode contact surveyed : Byte)
  | retirePrinter (len printer : BitVec 16)
  | setService (len printer : BitVec 16) (on : Byte)
  | printerStatus (len printer : BitVec 16) (reported empty : Byte)
  | readPrinter (len printer : BitVec 16)
  | setPool (len pool : BitVec 16) (printers : List (BitVec 16))
  | readPool (len pool : BitVec 16)
  -- Supply Table and Survey Unit (R115, R117, R122, R123, R126, R131)
  | setSupplyModel (len model : BitVec 16) (capacity : BitVec 32) (lead : Byte)
  | readSupplyModel (len model : BitVec 16)
  | readSupplies (len printer : BitVec 16)
  | supplyReport (len printer : BitVec 16) (channel percent : Byte)
  | supplyReplaced (len printer : BitVec 16) (channel : Byte)
  | surveyNow (len : BitVec 16) (printer : Opt 16)
  | readSurvey (len : BitVec 16)
  -- Callout Controller (R137, R146, R148, R153, R157, R158, R160, R161)
  | setCondition (len : BitVec 16) (kind cls sense autoClose : Byte)
  | readConditionTable (len : BitVec 16)
  | setClassMode (len : BitVec 16) (cls mode : Byte)
  | setClassBase (len : BitVec 16) (cls : Byte) (base : BitVec 16)
  | readClasses (len : BitVec 16)
  | setDeskMode (len : BitVec 16) (desk mode : Byte)
  | acknowledgeCallout (len : BitVec 16) (desk : Byte)
  /-- Close Callout in its specific form. It also carries the frames of kind 77h whose length is neither 1 nor 4, which no
  row of the table names (DESIGN CHOICE, log 7). -/
  | closeCalloutSpecific (len : BitVec 16) (desk : Byte) (printer : BitVec 16) (kind : Byte)
  | closeCalloutNonSpecific (len : BitVec 16) (desk : Byte)
  | readDesk (len : BitVec 16) (desk : Byte)
  | readCallouts (len printer : BitVec 16)
  -- Calendar Unit and Attention Summary (R169, R171, R173, R186)
  | setClock (len : BitVec 16) (year month day hour minute second : Byte)
  | readClock (len : BitVec 16)
  | setSurveyPattern (len : BitVec 16) (pattern : PatternFields)
  | readPattern (len : BitVec 16) (pattern : Byte)
  | readAttention (len : BitVec 16)
  -- Host Link Port frames that are no request (R180, R181, R190)
  /-- A frame of kind A5h with this many clock edges, those of the kind byte included. -/
  | responseRead (clocks : Nat)
  | shortFrame
  | badKind (kind : Byte)
  /-- A frame whose select fell in STARTING. -/
  | discardedStartingFrame
  -- Full reset (R189 to R191)
  | fullReset (cause : ResetCause)
  | powerOn
  | resetRelease
  | startingEnd
  -- The timebase and the deadlines it runs (R163, R174, R32, R112, R86, R78, R127)
  | secondsEvent
  | minuteBoundary
  | holdExpiry (slot : Fin 2048)
  | resumeWindowExpiry (slot : Fin 2048)
  | contactExpiry (printer : Fin 256)
  | visitIdleExpiry (loop : Fin 4) (addr : Fin 16)
  | surveyStep
  -- The terminal loops (R59 to R66, R70 to R77)
  | wake (loop : Fin 4)
  | rollCallIntervalExpiry (loop : Fin 4)
  | presenceIntervalExpiry (loop : Fin 4)
  | answer (loop : Fin 4) (addr : Fin 16) (flagged : Bool)
  | noAnswer (loop : Fin 4) (addr : Fin 16)
  | displaySend (loop : Fin 4)
  | fetchFailed (loop : Fin 4) (addr : Fin 16)
  | unknownMessage (loop : Fin 4) (addr : Fin 16)
  | badge (loop : Fin 4) (addr : Fin 16) (number : BitVec 24)
  | pick (loop : Fin 4) (addr : Fin 16) (entry : Byte)
  | pickAll (loop : Fin 4) (addr : Fin 16)
  | more (loop : Fin 4) (addr : Fin 16)
  | done (loop : Fin 4) (addr : Fin 16)
  | refresh (loop : Fin 4) (addr : Fin 16)
  | rollCallClose (loop : Fin 4)
  | loopFault (loop : Fin 4)
  | faultEnd (loop : Fin 4)
deriving DecidableEq, Repr

end Sys2Proof
end

