-- ==== Sys2Proof/WellFormed.lean ====
section
/-! DEFINITION. The commands a frame or an event of the part can spell: the splits the opcode table makes of one frame kind
into several rows leave no two constructors for the same frame. `exec` is defined on every command, well formed or not. -/

namespace Sys2Proof

/-- The kind codes of requests (R193). -/
def requestKinds : List Nat :=
  [0x10, 0x11, 0x12, 0x20, 0x21, 0x22, 0x23, 0x24, 0x25, 0x30, 0x31, 0x32, 0x33, 0x34, 0x35, 0x36, 0x37, 0x38]
  ++ [0x40, 0x41, 0x42, 0x43, 0x50, 0x51, 0x52, 0x53, 0x54, 0x55, 0x56, 0x60, 0x61, 0x62, 0x63, 0x64, 0x65, 0x66]
  ++ [0x70, 0x71, 0x72, 0x73, 0x74, 0x75, 0x76, 0x77, 0x78, 0x79, 0x80, 0x81, 0x82, 0x83, 0x90]

/-- The Response Read code (R193 Note 1). -/
def responseReadKind : Nat := 0xA5

/-- The code is none of a request kind and not Response Read (R181 check 2). -/
def unknownKind (b : Byte) : Bool := !requestKinds.contains b.toNat && b.toNat != responseReadKind

/-- A Set Pool of a good length carries one printer number for each two bytes after the pool number (R193). -/
def poolLengthAgrees (len : BitVec 16) (printers : List (BitVec 16)) : Bool :=
  len.toNat % 2 != 0 || len.toNat < 2 || len.toNat > 512 || printers.length == len.toNat / 2 - 1

/-- The command is one that a frame or an event spells, and the one row of the table for it: a BAD_KIND carries an unknown
code (R181); a PICK's entry is not ALL (R199: FFh is PICK_ALL); a Report Job End of a good length with a code of another row
is that row's (R193, log 7); the two forms of Close Callout go by their length (R193, log 7); a Set Pool's list agrees with
its length; a response read has clocked its kind byte (R180). -/
def WellFormed : Instr → Bool
  | .badKind kind => unknownKind kind
  | .pick _ _ entry => entry != 0xFF
  | .reportJobEndComplete len _ outcome => len != 3 || (outcome != 3 && outcome != 5)
  | .reportJobEndCancelledAtPrinter len _ => len == 3
  | .reportJobEndDeliveryFailed len _ => len == 3
  | .closeCalloutSpecific len _ _ _ => len != 1
  | .closeCalloutNonSpecific len _ => len == 1
  | .setPool len _ printers => poolLengthAgrees len printers
  | .responseRead clocks => decide (8 ≤ clocks)
  | .shortFrame => true
  | .setTenantPolicy .. => true
  | .readTenant .. => true
  | .lockPolicy .. => true
  | .loadAccount .. => true
  | .setLimit .. => true
  | .suspendAccount .. => true
  | .resumeAccount .. => true
  | .retireAccount .. => true
  | .readAccount .. => true
  | .holdJob .. => true
  | .readJob .. => true
  | .findJobs .. => true
  | .cancelJob .. => true
  | .removeJob .. => true
  | .takeDispatch .. => true
  | .readDispatch .. => true
  | .reportProgress .. => true
  | .enrollTerminal .. => true
  | .retireTerminal .. => true
  | .loopReset .. => true
  | .readLoop .. => true
  | .enrollPrinter .. => true
  | .retirePrinter .. => true
  | .setService .. => true
  | .printerStatus .. => true
  | .readPrinter .. => true
  | .readPool .. => true
  | .setSupplyModel .. => true
  | .readSupplyModel .. => true
  | .readSupplies .. => true
  | .supplyReport .. => true
  | .supplyReplaced .. => true
  | .surveyNow .. => true
  | .readSurvey .. => true
  | .setCondition .. => true
  | .readConditionTable .. => true
  | .setClassMode .. => true
  | .setClassBase .. => true
  | .readClasses .. => true
  | .setDeskMode .. => true
  | .acknowledgeCallout .. => true
  | .readDesk .. => true
  | .readCallouts .. => true
  | .setClock .. => true
  | .readClock .. => true
  | .setSurveyPattern .. => true
  | .readPattern .. => true
  | .readAttention .. => true
  | .discardedStartingFrame => true
  | .fullReset _ => true
  | .powerOn => true
  | .resetRelease => true
  | .startingEnd => true
  | .secondsEvent => true
  | .minuteBoundary => true
  | .holdExpiry _ => true
  | .resumeWindowExpiry _ => true
  | .contactExpiry _ => true
  | .visitIdleExpiry .. => true
  | .surveyStep => true
  | .wake _ => true
  | .rollCallIntervalExpiry _ => true
  | .presenceIntervalExpiry _ => true
  | .answer .. => true
  | .noAnswer .. => true
  | .displaySend _ => true
  | .fetchFailed .. => true
  | .unknownMessage .. => true
  | .badge .. => true
  | .pickAll .. => true
  | .more .. => true
  | .done .. => true
  | .refresh .. => true
  | .rollCallClose _ => true
  | .loopFault _ => true
  | .faultEnd _ => true

end Sys2Proof
end

