-- ==== Sys2Proof/Decode.lean ====
section
/-! DEFINITION. How bits and bytes on the part's lines spell commands: a frame of the host port (R177, R178, R181, R192,
R193), and characters of a terminal as a WAKE, a reply in a roll-call slot and a reply in a fetch (R198, R199). The opcode
table gives no row any bits, so `decodeTableWord` spells nothing (log 5). -/

namespace Sys2Proof

/-- The command a table word spells: no row of spec/opcode_table.json has bits, so none (log 5). -/
def decodeTableWord (_nbits _w : Nat) : Option Instr := none

/-! ## Fields of a frame -/

/-- Byte `n` of a byte list; a byte the frame does not hold reads as 0. -/
def byteAt (b : List Byte) (n : Nat) : Byte := b[n]?.getD 0

/-- The number in the `w` bytes from byte `n` on, most significant first (R192). -/
def numAt (b : List Byte) (n w : Nat) : Nat :=
  (List.range w).foldl (fun acc i => acc * 256 + (byteAt b (n + i)).toNat) 0

/-- The two-byte number at byte `n`. -/
def at2 (b : List Byte) (n : Nat) : BitVec 16 := BitVec.ofNat 16 (numAt b n 2)

/-- The optional field at byte `n`: the presence byte and the value's `w` bytes after it (R192). -/
def optAt (b : List Byte) (n w : Nat) : Opt (8 * w) :=
  { presence := byteAt b n, value := BitVec.ofNat (8 * w) (numAt b (n + 1) w) }

/-- The pattern at byte `n` (R192). -/
def patternAt (b : List Byte) (n : Nat) : PatternFields :=
  { minute := optAt b n 1, hour := optAt b (n + 2) 1, weekday := optAt b (n + 4) 1, day := optAt b (n + 6) 1
    month := optAt b (n + 8) 1 }

/-- The two-byte numbers of a byte list; a byte left over spells none. -/
def pairs : List Byte → List (BitVec 16)
  | x :: y :: rest => (x ++ y) :: pairs rest
  | _ => []

/-! ## The host port -/

/-- The request of a kind code, from its field length and its field bytes (R193). The host has counted as many field bytes
as the length states; fields a wrong length does not reach read as 0 and are not looked at (R181 check 3; log 8). -/
def decodeRequest (kind : Nat) (len : BitVec 16) (f : List Byte) : Instr :=
  match kind with
  | 0x10 => .setTenantPolicy len (at2 f 0) (at2 f 2) (at2 f 4) (at2 f 6) (at2 f 8) (at2 f 10) (byteAt f 12) (at2 f 13)
      (patternAt f 15)
  | 0x11 => .readTenant len (at2 f 0)
  | 0x12 => .lockPolicy len
  | 0x20 => .loadAccount len (at2 f 0) (byteAt f 2) (byteAt f 3) (at2 f 4) (optAt f 6 3) (optAt f 10 2) (optAt f 13 4)
      (BitVec.ofNat 48 (numAt f 18 6))
  | 0x21 => .setLimit len (at2 f 0) (optAt f 2 4)
  | 0x22 => .suspendAccount len (at2 f 0)
  | 0x23 => .resumeAccount len (at2 f 0)
  | 0x24 => .retireAccount len (at2 f 0)
  | 0x25 => .readAccount len (at2 f 0)
  | 0x30 => .holdJob len (at2 f 0) (optAt f 2 2) (at2 f 5) (at2 f 7) (at2 f 9) (byteAt f 11) (byteAt f 12) (at2 f 13)
      (at2 f 15) (at2 f 17) (at2 f 19)
  | 0x31 => .readJob len (at2 f 0)
  | 0x32 => .findJobs len (at2 f 0) (optAt f 2 2) (optAt f 5 1)
  | 0x33 => .cancelJob len (at2 f 0)
  | 0x34 => .removeJob len (at2 f 0)
  | 0x35 => .takeDispatch len
  | 0x36 => .readDispatch len
  | 0x37 => .reportProgress len (at2 f 0) (at2 f 2)
  | 0x38 =>
    if len = 3 ∧ byteAt f 2 = 3 then .reportJobEndCancelledAtPrinter len (at2 f 0)
    else if len = 3 ∧ byteAt f 2 = 5 then .reportJobEndDeliveryFailed len (at2 f 0)
    else .reportJobEndComplete len (at2 f 0) (byteAt f 2)
  | 0x40 => .enrollTerminal len (byteAt f 0) (byteAt f 1) (at2 f 2)
  | 0x41 => .retireTerminal len (byteAt f 0) (byteAt f 1)
  | 0x42 => .loopReset len (byteAt f 0)
  | 0x43 => .readLoop len (byteAt f 0)
  | 0x50 => .enrollPrinter len (at2 f 0) (byteAt f 2) (at2 f 3) (at2 f 5) (at2 f 7) (at2 f 9) (byteAt f 11) (byteAt f 12)
      (byteAt f 13) (byteAt f 14)
  | 0x51 => .retirePrinter len (at2 f 0)
  | 0x52 => .setService len (at2 f 0) (byteAt f 2)
  | 0x53 => .printerStatus len (at2 f 0) (byteAt f 2) (byteAt f 3)
  | 0x54 => .readPrinter len (at2 f 0)
  | 0x55 => .setPool len (at2 f 0) (pairs ((f.take len.toNat).drop 2))
  | 0x56 => .readPool len (at2 f 0)
  | 0x60 => .setSupplyModel len (at2 f 0) (BitVec.ofNat 32 (numAt f 2 4)) (byteAt f 6)
  | 0x61 => .readSupplyModel len (at2 f 0)
  | 0x62 => .readSupplies len (at2 f 0)
  | 0x63 => .supplyReport len (at2 f 0) (byteAt f 2) (byteAt f 3)
  | 0x64 => .supplyReplaced len (at2 f 0) (byteAt f 2)
  | 0x65 => .surveyNow len (optAt f 0 2)
  | 0x66 => .readSurvey len
  | 0x70 => .setCondition len (byteAt f 0) (byteAt f 1) (byteAt f 2) (byteAt f 3)
  | 0x71 => .readConditionTable len
  | 0x72 => .setClassMode len (byteAt f 0) (byteAt f 1)
  | 0x73 => .setClassBase len (byteAt f 0) (at2 f 1)
  | 0x74 => .readClasses len
  | 0x75 => .setDeskMode len (byteAt f 0) (byteAt f 1)
  | 0x76 => .acknowledgeCallout len (byteAt f 0)
  | 0x77 =>
    if len = 1 then .closeCalloutNonSpecific len (byteAt f 0)
    else .closeCalloutSpecific len (byteAt f 0) (at2 f 1) (byteAt f 3)
  | 0x78 => .readDesk len (byteAt f 0)
  | 0x79 => .readCallouts len (at2 f 0)
  | 0x80 => .setClock len (byteAt f 0) (byteAt f 1) (byteAt f 2) (byteAt f 3) (byteAt f 4) (byteAt f 5)
  | 0x81 => .readClock len
  | 0x82 => .setSurveyPattern len (patternAt f 0)
  | 0x83 => .readPattern len (byteAt f 0)
  | 0x90 => .readAttention len
  | k => .badKind (BitVec.ofNat 8 k)

/-- The command that a frame of the host port spells, from its clock edges and its whole bytes: short with no whole byte, a
response read, an unknown kind, a request cut short, or a request (R178, R181 checks 1 and 2). Bytes after the last field byte
are ignored (R178). -/
def decodeFrame (clocks : Nat) : List Byte → Instr
  | [] => .shortFrame
  | k :: rest =>
    if k.toNat = responseReadKind then .responseRead clocks
    else if unknownKind k then .badKind k
    else if rest.length < 2 + numAt rest 0 2 then .shortFrame
    else decodeRequest k.toNat (at2 rest 0) (rest.drop 2)

/-- One byte from eight bits, most significant first (R177). -/
def byteOf (bits : List Bool) : Byte := BitVec.ofNat 8 (bits.foldl (fun acc b => acc * 2 + b.toNat) 0)

/-- The whole bytes among a list of bits, bits after the last whole byte ignored (R178). -/
def wholeBytes : List Bool → List Byte
  | b7 :: b6 :: b5 :: b4 :: b3 :: b2 :: b1 :: b0 :: rest => byteOf [b7, b6, b5, b4, b3, b2, b1, b0] :: wholeBytes rest
  | _ => []

/-- The command that the bits of one select of the host port spell: none when no clock edge came (R178). -/
def decodeSelect (bits : List Bool) : Option Instr :=
  if bits.isEmpty then none else some (decodeFrame bits.length (wholeBytes bits))

/-! ## The terminal loops -/

/-- A character as the part receives it: its data bits as a byte, and whether it had its stop bit (R198). -/
structure Character where
  data : Byte
  stop : Bool
deriving DecidableEq, Repr

/-- The byte of eight data bits, least significant first (R198). -/
def dataByte (bits : List Bool) : Byte := byteOf bits.reverse

/-- The bit times of a full-length frame: a RESULT display of 64 content bytes, 68 characters of ten bits (R198). -/
def fullFrameBits : Nat := 680

/-- The line is held in break from the first of these bits on: at the start-bit level for longer than a full-length frame
(R65, R198). -/
def inBreak (line : List Bool) : Bool := decide (fullFrameBits < (line.takeWhile (!·)).length)

/-- The characters the part receives from the bits on a loop line: a character is a start bit, eight data bits and the bit
where its stop bit is due, and a break is none (R198). `held` says that the line has not been at the stop-bit level, at which
it idles, since a break or a character without a stop bit: reception then waits for that level, and a low bit starts no
character (DESIGN CHOICE, log 28). A character that the bits given end within has no stop bit. -/
def receive (held : Bool) : List Bool → List Character
  | [] => []
  | true :: rest => receive false rest
  | false :: rest =>
    if held || inBreak (false :: rest) then receive true rest
    else
      match rest with
      | b0 :: b1 :: b2 :: b3 :: b4 :: b5 :: b6 :: b7 :: stop :: later =>
        { data := dataByte [b0, b1, b2, b3, b4, b5, b6, b7], stop := stop } :: receive (!stop) later
      | cut => [{ data := dataByte cut, stop := false }]

/-- The characters on a loop line that has been idle (R198). -/
def charsOf (line : List Bool) : List Character := receive false line

/-- A terminal's frame taken apart: address, type and content, none when it fails its check. The failing cases are the four
of R198: a character without a stop bit, a length byte above 64, an end before byte 3 + L, bytes that do not sum to 0. Bytes
after byte 3 + L are bytes of the frame, so they count in the sum, and otherwise carry nothing (DEDUCED, log 26). -/
def loopParts (frame : List Character) : Option (Nat × Nat × List Byte) :=
  match frame.map Character.data with
  | addr :: type :: length :: rest =>
    if (frame.any fun c => !c.stop) || decide (64 < length.toNat) || decide (rest.length < length.toNat + 1)
        || (frame.map Character.data).foldl (· + ·) 0 != 0 then none
    else some (addr.toNat, type.toNat, rest.take length.toNat)
  | _ => none

/-- What a loop line spells as a line: a LOOP_FAULT when it is held in break (R65, R198). -/
def decodeBreak (l : Fin 4) : List Bool → Option Instr
  | [] => none
  | b :: rest => if inBreak (b :: rest) then some (.loopFault l) else decodeBreak l rest

/-- What a character spells on a loop line between roll calls: with its stop bit a WAKE, whatever its value, and without one
nothing (R198). -/
def decodeWake (l : Fin 4) (c : Character) : Option Instr := if c.stop then some (.wake l) else none

/-- The WAKEs that the bits on a loop line between roll calls spell: one for each character with its stop bit, and none for a
break (R198). -/
def decodeWakes (l : Fin 4) (line : List Bool) : List Instr := (charsOf line).filterMap (decodeWake l)

/-- What the characters received in the answer slot of a called terminal spell: an answer, no answer (an empty slot, a failed
check, or an answer of unsuitable content), or nothing at all: a frame of another type or address is ignored (R60, R198), and
the slot then stays open for an ANSWER or a NO_ANSWER to come. That the ignored frame is not itself a NO_ANSWER is the
model's choice (DESIGN CHOICE, log 27). -/
def decodeSlot (l : Fin 4) (a : Fin 16) (frame : List Character) : Option Instr :=
  match loopParts frame with
  | none => some (.noAnswer l a)
  | some (addr, type, content) =>
    if addr ≠ a.val ∨ type ≠ 2 then none
    else
      match content with
      | [c] => if c = 0 then some (.answer l a false) else if c = 1 then some (.answer l a true) else some (.noAnswer l a)
      | _ => some (.noAnswer l a)

/-- What the characters received in the fetch of a terminal spell: its message, a message of unknown kind or of unsuitable
length, or a failed fetch (R62, R198, R199). -/
def decodeFetch (l : Fin 4) (a : Fin 16) (frame : List Character) : Instr :=
  match loopParts frame with
  | none => .fetchFailed l a
  | some (addr, type, content) =>
    if addr ≠ a.val ∨ type ≠ 5 then .fetchFailed l a
    else
      match content.map BitVec.toNat with
      | [1, b2, b1, b0] => .badge l a (BitVec.ofNat 24 (b2 * 65536 + b1 * 256 + b0))
      | [2, e] => if e = 255 then .pickAll l a else .pick l a (BitVec.ofNat 8 e)
      | [3] => .more l a
      | [4] => .done l a
      | [5] => .refresh l a
      | _ => .unknownMessage l a

end Sys2Proof
end

