-- ==== Sys2Proof/Config.lean ====
section
/-! DEFINITION. The free values: constants without a body, for the points where the spec gives no value.
No proof can see what they are, so a claim that holds, holds whatever they are. -/

namespace Sys2Proof

/-- DESIGN CHOICE (log 1). The present system-clock time at the n-th moment the part reads it (R55, R59): the spec
gives the machine no way to state it, and the model has no system-clock tick. Safe: nothing constrains it. -/
opaque Config.sysTime : Nat → Nat

/-- DESIGN CHOICE (log 20). The "minutes left" of a listed job whose expires_at lies this many seconds in the past, a
case R42 says does not arise. Safe: nothing constrains it. -/
opaque Config.overdueMinutes : Nat → Nat

/-- DESIGN CHOICE (log 21). The scope printer bytes of a Read Survey response whose scope is not one printer (R197).
Safe: nothing constrains it. -/
opaque Config.surveyScopeFill : Nat → Nat

/-- DESIGN CHOICE (log 24). What the part drives on HSDO at clock edge `i` of the n-th frame whose select fell in STARTING:
R177 says that it drives HSDO and no rule says with what. Safe: nothing constrains it. -/
opaque Config.startingBit (n i : Nat) : Bool

end Sys2Proof
end

