-- ==== Sys2Proof/Machine/State.lean ====
section
/-! DEFINITION. The state of the JF-2400: every record, flag, counter and pin the spec gives the part, as plain data, and
its value after full reset. A record type's default field values are its values after full reset (FREE contents,
unenrolled values), so `{}` is the reset record. Optional fields (absent or a value) are `Option`. -/

namespace Sys2Proof.Machine

/-! ## Host Link Port (R177, R179, R183) -/

/-- The framing state of the Host Link Port (R177). -/
inductive PortState where
  | reset | starting | deselected | selected
deriving DecidableEq, Repr

/-- What the part does with HSDO (R177): nothing while select is high, and while it is low one bit for each clock edge of
the frame, from the first on. -/
inductive HsdoOutput where
  /-- Nothing is driven: HSDO is at high impedance (R177). -/
  | highImpedance
  /-- Filler, for as many clock edges as the host gives the frame (R180). -/
  | filler
  /-- These bits, one for each clock edge of a response read, whose edges the command counts (R180). -/
  | shifted (bits : List Bool)
  /-- The frame began in STARTING, and no rule says what is driven: the free value of this draw (R177, R190; log 24). -/
  | unstated (draw : Nat)
deriving DecidableEq, Repr

/-- The response codes (R183). -/
inductive Code where
  | ok | empty | none | busy | noSuch | badField | badKind | tableFull | inUse | duplicate | wrongState | locked
  | needsSpecific | shortFrame
deriving DecidableEq, Repr

/-- The latest response (R179, R194). `number` is the response number. The defaults are the reset response. -/
structure Response where
  code   : Code := .ok
  kind   : Byte := 0
  number : Nat := 0
  body   : List Byte := []
deriving DecidableEq, Repr

/-! ## Tenants and accounts (R1, R6) -/

/-- over_quota_policy (R1). -/
inductive QuotaPolicy where
  | refuse | monoFallback
deriving DecidableEq, Repr

/-- A tenant record less its rollover pattern, which is pattern record t of the Calendar Unit (R1 Note 1). -/
structure Tenant where
  monoRate      : Nat := 40
  colourRate    : Nat := 150
  duplexCredit  : Nat := 10
  holdMinutes   : Nat := 1440
  resumeMinutes : Nat := 10
  policy        : QuotaPolicy := .refuse
  warnPermille  : Nat := 900
  period        : Nat := 0
deriving DecidableEq, Repr

inductive AccountState where
  | free | active | suspended
deriving DecidableEq, Repr

inductive AccountKind where
  | user | department
deriving DecidableEq, Repr

/-- An account record (R6). -/
structure Account where
  state      : AccountState := .free
  kind       : AccountKind := .user
  tenant     : Nat := 0
  badge      : Option Nat := none
  department : Option Nat := none
  limit      : Option Nat := none
  used       : Nat := 0
  reserved   : Nat := 0
  stamp      : Nat := 0
  warned     : Bool := false
deriving DecidableEq, Repr

/-! ## Jobs (R27) -/

inductive JobState where
  | free | held | released | printing | interrupted | done | cancelled | expired
deriving DecidableEq, Repr

inductive Size where
  | a4 | letter | legal | a3
deriving DecidableEq, Repr

inductive JobOutcome where
  | complete | cancelledByUser | cancelledAtPrinter | expiredUnreleased
deriving DecidableEq, Repr

/-- A job record (R27). A pool of `none` is ANY. -/
structure Job where
  state          : JobState := .free
  owner          : Nat := 0
  pool           : Option Nat := some 0
  sidesMono      : Nat := 0
  sidesColour    : Nat := 0
  copies         : Nat := 0
  size           : Size := .a4
  duplex         : Bool := false
  covK           : Nat := 0
  covC           : Nat := 0
  covM           : Nat := 0
  covY           : Nat := 0
  heldAt         : Nat := 0
  expiresAt      : Nat := 0
  releasePool    : Option Nat := none
  printer        : Option Nat := none
  perCopyApplied : Option Nat := none
  forcedMono     : Bool := false
  chargedDept    : Option Nat := none
  releaseSeq     : Nat := 0
  copiesDone     : Nat := 0
  resumeDeadline : Option Nat := none
  outcome        : Option JobOutcome := none
deriving DecidableEq, Repr

/-- A job slot: its generation and its record (R27). -/
structure Slot where
  generation : Nat := 0
  job        : Job := {}
deriving DecidableEq, Repr

/-! ## Printers, supplies, survey (R80, R114, R116, R124) -/

inductive Capability where
  | mono | colour
deriving DecidableEq, Repr

inductive RouteMode where
  | fixed | leastBusy
deriving DecidableEq, Repr

inductive Channel where
  | k | c | m | y
deriving DecidableEq, Repr

inductive Reorder where
  | none | due | ordered
deriving DecidableEq, Repr

/-- A supply record (R116). -/
structure Supply where
  model       : Nat
  level       : Nat
  accumulator : Nat := 0
  usage       : Option Nat := none
  forecast    : Option Nat := none
  low         : Bool := false
  reorder     : Reorder := .none
  lastSurvey  : Nat
deriving DecidableEq, Repr

/-- A printer record with its supply records in the order K, C, M, Y (R80, R116). `reported` uses the bits of the
condition set (R192): bit n - 1 is the kind at position n of the condition table. -/
structure Printer where
  enrolled        : Bool := false
  capability      : Capability := .mono
  reported        : BitVec 8 := 0
  noContact       : Bool := false
  everReported    : Bool := false
  service         : Bool := false
  deskGroup       : BitVec 8 := 0
  routeMode       : RouteMode := .fixed
  contactMinutes  : Nat := 5
  contactDeadline : Option Nat := none
  queueCount      : Nat := 0
  surveyed        : Bool := true
  supplies        : List (Channel × Supply) := []
deriving DecidableEq, Repr

/-- A supply model (R114). -/
structure SupplyModel where
  capacity : Nat := 600000
  lead     : Nat := 10
deriving DecidableEq, Repr

/-- The scope of a survey in flight (R124). -/
inductive Scope where
  | all
  | one (printer : Nat)
deriving DecidableEq, Repr

/-- The Survey Unit (R124). in_flight is `scope.isSome`: the scope is present exactly while a survey is in flight. -/
structure Survey where
  scope  : Option Scope := none
  cursor : Nat := 0
  done   : Bool := false
deriving DecidableEq, Repr

/-! ## Callouts (R136, R138, R144, R147) -/

/-- The eight condition kinds in condition-table order (R136). -/
inductive CondKind where
  | fuserFault | paperJam | doorOpen | noContact | paperOut | tonerEmpty | wasteFull | tonerReorder
deriving DecidableEq, Repr

inductive Sense where
  | level | edge
deriving DecidableEq, Repr

/-- An entry of the condition table (R136). -/
structure CondEntry where
  cls       : Nat
  sense     : Sense
  autoClose : Bool
deriving DecidableEq, Repr

/-- A calendar time of day and date (R138, R165), less the weekday. -/
structure Stamp where
  year   : Nat
  month  : Nat
  day    : Nat
  hour   : Nat
  minute : Nat
  second : Nat
deriving DecidableEq, Repr

inductive CalloutState where
  | pending | inService
deriving DecidableEq, Repr

/-- A callout record (R138). Its printer and kind are its place in the table (`calloutKey`). -/
structure Callout where
  state     : CalloutState
  cls       : Nat
  sense     : Sense
  autoClose : Bool
  desk      : Nat
  raisedAt  : Stamp
  ackedAt   : Option Nat
  again     : Bool
deriving DecidableEq, Repr

inductive ClassMode where
  | fixed | rotating
deriving DecidableEq, Repr

/-- A class record (R144). -/
structure ClassRec where
  mode : ClassMode := .fixed
  base : Nat := 255
deriving DecidableEq, Repr

/-- The desk modes NESTED and OPEN (R147). -/
inductive DeskMode where
  | nested | opened
deriving DecidableEq, Repr

/-- A desk record: its mode and its in-service list, oldest first (R147). -/
structure Desk where
  mode      : DeskMode := .nested
  inService : List (Nat × CondKind) := []
deriving DecidableEq, Repr

/-! ## Displays, loops, terminals, visits (R55, R56, R69, R71, R74) -/

/-- The result codes of a release decision (R48, R74). -/
inductive PickResult where
  | released | releasedMono | noPrinter | overQuota | tooLarge | gone
deriving DecidableEq, Repr

/-- An entry of a LIST display (R42). -/
structure ListEntry where
  index       : Nat
  volume      : Nat
  colour      : Bool
  minutesLeft : Nat
deriving DecidableEq, Repr

/-- The figures of a LIST display (R71). `credits` of none is UNLIMITED. -/
structure ListPart where
  account   : Nat
  credits   : Option Nat
  warned    : Bool
  page      : Nat
  pageCount : Nat
  entries   : List ListEntry
deriving DecidableEq, Repr

/-- The result part of a RESULT display (R74). -/
inductive ResultPart where
  | single (code : PickResult) (warning : Bool)
  | all (released releasedMono refused : Nat) (warning : Bool)
deriving DecidableEq, Repr

/-- A display, computed when it is made pending (R56). -/
inductive Display where
  | list (part : ListPart)
  | result (res : ResultPart) (part : ListPart)
  | unknownBadge
  | suspended
  | goodbye
deriving DecidableEq, Repr

inductive LoopState where
  | off | quiet | continuous | fault
deriving DecidableEq, Repr

inductive Phase where
  | rollCall | display | fetch | close
deriving DecidableEq, Repr

/-- A loop record (R55). in_flight is `phase.isSome`: the phase is present exactly while a roll call is in progress.
`turns` is the model's own: the addresses whose turn in the present phase is still to come (R60 to R62, log 10).
`rollDue` and `presenceDue` are the model's own: the 250 ms and the 10 s interval have expired since the latest roll call
started (R59, log 12). -/
structure Loop where
  state       : LoopState := .off
  phase       : Option Phase := none
  lastStart   : Option Nat := none
  turns       : List Nat := []
  rollDue     : Bool := false
  presenceDue : Bool := false
deriving DecidableEq, Repr

inductive Presence where
  | unknown | present | absent
deriving DecidableEq, Repr

/-- A terminal record (R56). -/
structure Terminal where
  enrolled : Bool := false
  pool     : Nat := 0
  presence : Presence := .unknown
  missed   : Nat := 0
  pending  : Option Display := none
  current  : Display := .goodbye
  answered : Bool := false
  flagged  : Bool := false
deriving DecidableEq, Repr

/-- A visit (R69). Its terminal is its place in the Visit Table. -/
structure Visit where
  account      : Nat
  page         : Nat
  pageHandles  : List Nat
  idleDeadline : Nat
deriving DecidableEq, Repr

/-! ## Calendar (R165, R172) -/

/-- The calendar (R165). -/
structure Calendar where
  year    : Nat := 0
  month   : Nat := 1
  day     : Nat := 1
  hour    : Nat := 0
  minute  : Nat := 0
  second  : Nat := 0
  weekday : Nat := 6
deriving DecidableEq, Repr

/-- A pattern record (R172): a field of none is ANY. The defaults are the rollover default. -/
structure Pattern where
  minute  : Option Nat := some 0
  hour    : Option Nat := some 0
  weekday : Option Nat := none
  day     : Option Nat := some 1
  month   : Option Nat := none
deriving DecidableEq, Repr

/-! ## The whole state -/

/-- The state of the part. -/
structure State where
  /-- The commands waiting, first in first out (the model's own). -/
  pending        : List Instr := []
  -- Host Link Port
  port           : PortState := .deselected
  /-- Pin RESET_N is held low (R189). -/
  resetPinLow    : Bool := false
  /-- The supply is below its operating level (R189, R191). -/
  supplyLow      : Bool := false
  response       : Response := {}
  /-- What the part does with HSDO now: high impedance while select is high (R177). -/
  hsdo           : HsdoOutput := .highImpedance
  /-- What it drove while select was low in the latest frame (the model's own, log 13); nothing where none came. -/
  driven         : HsdoOutput := .highImpedance
  /-- Output ATTN is asserted (R185). -/
  attn           : Bool := false
  -- Tenant Table
  /-- The policy lock (R3). -/
  lock           : Bool := false
  tenants        : Table Tenant := []
  -- Account Table
  accounts       : Table Account := []
  /-- The badge map: badge number to account (R7). -/
  badgeMap       : Table (Option Nat) := []
  -- Job Table and Dispatch List
  jobs           : Table Slot := []
  releaseCounter : Nat := 0
  /-- The finished count (R39). -/
  finished       : Nat := 0
  /-- The Dispatch List, head first (R52). -/
  dispatch       : List Nat := []
  -- Printer Table, Pool Table, Supply Table, Survey Unit
  printers       : Table Printer := []
  pools          : Table (List Nat) := []
  models         : Table SupplyModel := []
  survey         : Survey := {}
  -- Callout Controller
  conditions     : Table CondEntry := []
  callouts       : Table (Option Callout) := []
  classes        : Table ClassRec := []
  desks          : Table Desk := []
  /-- The desks with a presentable callout (R151). -/
  deskSet        : BitVec 8 := 0
  -- Loop Controller and Visit Table
  loops          : Table Loop := []
  terminals      : Table Terminal := []
  visits         : Table (Option Visit) := []
  /-- The frames the part put on the loop lines in the latest command that sent any: the loop, and the bits of the frame's
  characters in the order they are sent (R198; log 13). -/
  sent           : List (Nat × List Bool) := []
  -- Calendar Unit
  /-- The fleet seconds count, "now" (R164). -/
  seconds        : Nat := 0
  calendar       : Calendar := {}
  /-- Pattern records 0 to 31, the rollover patterns (R172). -/
  rollovers      : Table Pattern := []
  /-- Pattern record 32, the survey pattern: 02:00 every day after full reset (R172). -/
  surveyPattern  : Pattern := { minute := some 0, hour := some 2, weekday := none, day := none, month := none }
  /-- The calendars of the minute boundaries reached by counting and not yet tested, in the order reached (log 3). -/
  boundaries     : List Calendar := []
  /-- How many free values have been drawn (the model's own, log 1). -/
  draws          : Nat := 0
deriving DecidableEq, Repr

/-- The machine right after full reset, at the end of STARTING (R190): every field at its default above, which is the
value the spec states for it (09, "State after full reset"). -/
def State.reset : State := {}

/-- The reasons a command can stop the machine with a fault. None: every refusal of the part is a response code in the
latest response, and the machine goes on (R183). Safe: a type without constructors can be raised by nobody. -/
inductive Fault where
deriving DecidableEq, Repr

/-- The reasons a command has no meaning. -/
inductive Refusal where
  /-- A row of the opcode table that has no meaning yet, by its mnemonic. Raised by `exec` alone, by no arm now. Safe. -/
  | notModelled (mnemonic : String)
deriving DecidableEq, Repr

end Sys2Proof.Machine
end

