-- ==== Sys2Proof/Machine/Table.lean ====
section
/-! DEFINITION. The record tables: a read of one record, a write of one record that keeps the canonical form, and the
canonical form itself (log 9). Also the two searches the spec asks for: the lowest index with a property, and a stable
ordering by a key. -/

namespace Sys2Proof.Machine

/-- The record at index `k`, or `d`, its reset value, where the table lists none. -/
def Table.get {α : Type} (d : α) (k : Nat) : Table α → α
  | [] => d
  | (i, v) :: t => if i = k then v else Table.get d k t

/-- The table with no record at index `k`. -/
def Table.erase {α : Type} (k : Nat) : Table α → Table α
  | [] => []
  | (i, v) :: t => if i = k then Table.erase k t else (i, v) :: Table.erase k t

/-- The table with `v` put before the first larger index. -/
def Table.insert {α : Type} (k : Nat) (v : α) : Table α → Table α
  | [] => [(k, v)]
  | (i, w) :: t => if k < i then (k, v) :: (i, w) :: t else (i, w) :: Table.insert k v t

/-- The table whose record at index `k` is `v`; a record equal to the reset value `d` is not listed. -/
def Table.put {α : Type} [DecidableEq α] (d : α) (k : Nat) (v : α) (t : Table α) : Table α :=
  if v = d then Table.erase k t else Table.insert k v (Table.erase k t)

/-- Every index of the table is above `k`. -/
def Table.above {α : Type} (k : Nat) : Table α → Bool
  | [] => true
  | (i, _) :: t => decide (k < i) && Table.above k t

/-- The canonical form: indices strictly rising and no record equal to its reset value `d index`. -/
def Table.wf {α : Type} [DecidableEq α] (d : Nat → α) : Table α → Bool
  | [] => true
  | (i, v) :: t => decide (v ≠ d i) && Table.above i t && Table.wf d t

/-- The lowest number at or above `start`, among the next `count`, that has property `p`. -/
def firstFrom (p : Nat → Bool) (start : Nat) : Nat → Option Nat
  | 0 => none
  | n + 1 => if p start then some start else firstFrom p (start + 1) n

/-- `x` put after every element whose key is at or below its own. -/
def insertByKey {α : Type} (key : α → Nat) (x : α) : List α → List α
  | [] => [x]
  | y :: ys => if key x < key y then x :: y :: ys else y :: insertByKey key x ys

/-- The list ordered by key, lowest first, elements of equal key in their given order. -/
def sortByKey {α : Type} (key : α → Nat) (l : List α) : List α :=
  l.foldl (fun acc x => insertByKey key x acc) []

/-- The first element of lowest key. -/
def leastByKey {α : Type} (key : α → Nat) : List α → Option α
  | [] => none
  | x :: xs =>
    match leastByKey key xs with
    | none => some x
    | some y => if key y < key x then some y else some x

/-- The set of members 0 to n - 1 with property `p`, bit n for member n (R192). -/
def maskOf (p : Nat → Bool) : Nat → BitVec 8
  | 0 => 0
  | n + 1 => maskOf p n ||| (if p n then 1#8 <<< n else 0)

/-- A number held to a range by clamping (conventions, "clamped"). -/
def clamp (low high v : Nat) : Nat :=
  if v < low then low else if high < v then high else v

/-- A deadline `d` seconds after `now`, saturating at the top of the count (R31, R69, R85, R108, R110). -/
def deadline (now d : Nat) : Nat :=
  if maxCount < now + d then maxCount else now + d

end Sys2Proof.Machine
end

