-- ==== Sys2Proof/Machine/Operands.lean ====
section
/-! DEFINITION. The operand forms of commands: optional fields, pattern fields, the code sets of R195 as they are read from
requests, and the numbers, optional values, flags and codes as they are written into responses (R192, R194, R195). -/

namespace Sys2Proof.Machine

/-! ## Reading request fields -/

/-- The presence byte is one the port accepts (R181 check 4, R192). -/
def presenceOk {w : Nat} (o : Opt w) : Bool :=
  o.presence == 0 || o.presence == 1

/-- The value of an optional field, absent for presence 00h (R192). -/
def optional {w : Nat} (o : Opt w) : Option Nat :=
  if o.presence = 0 then none else some o.value.toNat

/-- Every presence byte of a pattern is one the port accepts. -/
def patternPresenceOk (p : PatternFields) : Bool :=
  presenceOk p.minute && presenceOk p.hour && presenceOk p.weekday && presenceOk p.day && presenceOk p.month

/-- A pattern as Set Tenant Policy and Set Survey Pattern write it: a value is clamped to its calendar field's range,
absent is ANY (R2, R173). -/
def clampPattern (p : PatternFields) : Pattern where
  minute  := (optional p.minute).map (clamp 0 59)
  hour    := (optional p.hour).map (clamp 0 23)
  weekday := (optional p.weekday).map (clamp 1 7)
  day     := (optional p.day).map (clamp 1 31)
  month   := (optional p.month).map (clamp 1 12)

/-- A flag is clear for 00h and set for any other value (R192). -/
def flag (b : Byte) : Bool := b != 0

/-- over_quota_policy codes (R195). -/
def policyOf (b : Byte) : Option QuotaPolicy :=
  if b = 0 then some .refuse else if b = 1 then some .monoFallback else none

/-- The account states Load Account accepts (R9, R195). -/
def loadStateOf (b : Byte) : Option AccountState :=
  if b = 1 then some .active else if b = 2 then some .suspended else none

/-- Account kind codes (R195). -/
def accountKindOf (b : Byte) : Option AccountKind :=
  if b = 0 then some .user else if b = 1 then some .department else none

/-- Size codes (R195). -/
def sizeOf (b : Byte) : Option Size :=
  if b = 0 then some .a4 else if b = 1 then some .letter else if b = 2 then some .legal else if b = 3 then some .a3 else none

/-- Job state codes (R195). -/
def jobStateCode : JobState → Nat
  | .free => 0 | .held => 1 | .released => 2 | .printing => 3 | .interrupted => 4 | .done => 5 | .cancelled => 6
  | .expired => 7

/-- Job state codes as Find Jobs reads them (R38, R195). -/
def jobStateOf (n : Nat) : Option JobState :=
  match n with
  | 0 => some .free | 1 => some .held | 2 => some .released | 3 => some .printing | 4 => some .interrupted
  | 5 => some .done | 6 => some .cancelled | 7 => some .expired
  | _ => none

/-- Capability codes (R195). -/
def capabilityOf (b : Byte) : Option Capability :=
  if b = 0 then some .mono else if b = 1 then some .colour else none

/-- Route mode codes (R195). -/
def routeModeOf (b : Byte) : Option RouteMode :=
  if b = 0 then some .fixed else if b = 1 then some .leastBusy else none

/-- Channel codes (R195). -/
def channelOf (b : Byte) : Option Channel :=
  if b = 0 then some .k else if b = 1 then some .c else if b = 2 then some .m else if b = 3 then some .y else none

/-- Class mode codes (R195). -/
def classModeOf (b : Byte) : Option ClassMode :=
  if b = 0 then some .fixed else if b = 1 then some .rotating else none

/-- Desk mode codes (R195). -/
def deskModeOf (b : Byte) : Option DeskMode :=
  if b = 0 then some .nested else if b = 1 then some .opened else none

/-- Sense codes (R195). -/
def senseOf (b : Byte) : Option Sense :=
  if b = 0 then some .level else if b = 1 then some .edge else none

/-- A condition kind's position in the condition table, which is its code (R136, R195). -/
def CondKind.position : CondKind → Nat
  | .fuserFault => 1 | .paperJam => 2 | .doorOpen => 3 | .noContact => 4 | .paperOut => 5 | .tonerEmpty => 6
  | .wasteFull => 7 | .tonerReorder => 8

/-- The eight kinds in condition-table order (R136). -/
def CondKind.all : List CondKind :=
  [.fuserFault, .paperJam, .doorOpen, .noContact, .paperOut, .tonerEmpty, .wasteFull, .tonerReorder]

/-- The eight kinds in the order in which changes made by one event are handed (R87). -/
def CondKind.handing : List CondKind :=
  [.fuserFault, .paperJam, .doorOpen, .paperOut, .wasteFull, .noContact, .tonerEmpty, .tonerReorder]

/-- Condition kind codes (R195). -/
def condKindOf (n : Nat) : Option CondKind :=
  match n with
  | 1 => some .fuserFault | 2 => some .paperJam | 3 => some .doorOpen | 4 => some .noContact | 5 => some .paperOut
  | 6 => some .tonerEmpty | 7 => some .wasteFull | 8 => some .tonerReorder
  | _ => none

/-- The outcome codes of Report Job End: COMPLETE, CANCELLED_AT_PRINTER, DELIVERY_FAILED (R195). -/
def endOutcomeKnown (b : Byte) : Bool := b == 1 || b == 3 || b == 5

/-- Size quarters of a paper size (conventions, "Paper size and sides"). -/
def sizeQ : Size → Nat
  | .a4 => 4 | .letter => 4 | .legal => 5 | .a3 => 8

/-! ## Writing response fields -/

/-- A number in `w` bytes, most significant first (R192). -/
def num : Nat → Nat → List Byte
  | 0, _ => []
  | w + 1, v => num w (v / 256) ++ [BitVec.ofNat 8 v]

/-- The bits of a byte as the host port sends them, most significant first (R177). -/
def bitsOf (b : Byte) : List Bool := (List.range 8).map b.getMsbD

/-- An optional value: presence byte, then the value, or value bytes of 00h (R194). -/
def optNum (w : Nat) : Option Nat → List Byte
  | none => 0 :: List.replicate w 0
  | some v => 1 :: num w v

/-- A flag byte (R194). -/
def flagByte (b : Bool) : Byte := if b then 1 else 0

/-- A pattern's ten bytes (R192). -/
def patternBytes (p : Pattern) : List Byte :=
  optNum 1 p.minute ++ optNum 1 p.hour ++ optNum 1 p.weekday ++ optNum 1 p.day ++ optNum 1 p.month

/-- A calendar's six bytes (R192). -/
def stampBytes (t : Stamp) : List Byte :=
  num 1 t.year ++ num 1 t.month ++ num 1 t.day ++ num 1 t.hour ++ num 1 t.minute ++ num 1 t.second

/-- The six fields of the calendar that a callout record and a response carry (R138, R192). -/
def Calendar.stamp (c : Calendar) : Stamp :=
  { year := c.year, month := c.month, day := c.day, hour := c.hour, minute := c.minute, second := c.second }

def Code.byte : Code → Byte
  | .ok => 0x00 | .empty => 0x01 | .none => 0x02 | .busy => 0x03 | .noSuch => 0x04 | .badField => 0x05
  | .badKind => 0x06 | .tableFull => 0x07 | .inUse => 0x08 | .duplicate => 0x09 | .wrongState => 0x0A | .locked => 0x0B
  | .needsSpecific => 0x0C | .shortFrame => 0x0D

def AccountState.byte : AccountState → Byte
  | .free => 0 | .active => 1 | .suspended => 2

def AccountKind.byte : AccountKind → Byte
  | .user => 0 | .department => 1

def QuotaPolicy.byte : QuotaPolicy → Byte
  | .refuse => 0 | .monoFallback => 1

def JobState.byte (s : JobState) : Byte := BitVec.ofNat 8 (jobStateCode s)

def JobOutcome.code : JobOutcome → Nat
  | .complete => 1 | .cancelledByUser => 2 | .cancelledAtPrinter => 3 | .expiredUnreleased => 4

def Size.byte : Size → Byte
  | .a4 => 0 | .letter => 1 | .legal => 2 | .a3 => 3

def Capability.byte : Capability → Byte
  | .mono => 0 | .colour => 1

def RouteMode.byte : RouteMode → Byte
  | .fixed => 0 | .leastBusy => 1

def ClassMode.byte : ClassMode → Byte
  | .fixed => 0 | .rotating => 1

def Channel.byte : Channel → Byte
  | .k => 0 | .c => 1 | .m => 2 | .y => 3

def Reorder.byte : Reorder → Byte
  | .none => 0 | .due => 1 | .ordered => 2

def CondKind.byte (k : CondKind) : Byte := BitVec.ofNat 8 k.position

def Sense.byte : Sense → Byte
  | .level => 0 | .edge => 1

def CalloutState.byte : CalloutState → Byte
  | .pending => 0 | .inService => 1

def DeskMode.byte : DeskMode → Byte
  | .nested => 0 | .opened => 1

def LoopState.byte : LoopState → Byte
  | .off => 0 | .quiet => 1 | .continuous => 2 | .fault => 3

def Phase.code : Phase → Nat
  | .rollCall => 0 | .display => 1 | .fetch => 2 | .close => 3

def Presence.byte : Presence → Byte
  | .unknown => 0 | .present => 1 | .absent => 2

/-- Display kind codes; none is 0 (R195). -/
def Display.kindByte : Display → Byte
  | .list _ => 1 | .result _ _ => 2 | .unknownBadge => 3 | .suspended => 4 | .goodbye => 5

/-- Result codes of a RESULT display (R200). -/
def PickResult.byte : PickResult → Byte
  | .released => 0 | .releasedMono => 1 | .noPrinter => 2 | .overQuota => 3 | .tooLarge => 4 | .gone => 6

end Sys2Proof.Machine
end

