-- ==== Sys2Proof/Machine/Records.lean ====
section
/-! DEFINITION. The one read and the one write of each record table, with the reset record an unlisted index reads as. -/

namespace Sys2Proof.Machine

/-! ## Tenants and accounts -/

/-- Tenant record `t` (R1). -/
def tenantRec (s : State) (t : Nat) : Tenant := Table.get {} t s.tenants

def putTenant (s : State) (t : Nat) (r : Tenant) : State := { s with tenants := Table.put {} t r s.tenants }

/-- Account record `a` (R6). -/
def account (s : State) (a : Nat) : Account := Table.get {} a s.accounts

def putAccount (s : State) (a : Nat) (r : Account) : State := { s with accounts := Table.put {} a r s.accounts }

/-- The account that holds a badge number (R7). -/
def badgeHolder (s : State) (b : Nat) : Option Nat := Table.get none b s.badgeMap

/-- The badge map with the entry for `old` removed and one for `new` naming account `a` added (R7). -/
def moveBadge (s : State) (a : Nat) (old new : Option Nat) : State :=
  let cleared := match old with
    | none => s.badgeMap
    | some b => Table.put none b none s.badgeMap
  { s with badgeMap := match new with
    | none => cleared
    | some b => Table.put none b (some a) cleared }

/-! ## Jobs -/

/-- Job slot `i` (R27). -/
def slot (s : State) (i : Nat) : Slot := Table.get {} i s.jobs

/-- The job record of slot `i`. -/
def job (s : State) (i : Nat) : Job := (slot s i).job

/-- The handle of slot `i`: generation × 2048 + slot (R28). -/
def handleOf (s : State) (i : Nat) : Nat := (slot s i).generation * 2048 + i

/-- DONE, CANCELLED or EXPIRED: the states the finished count counts (R39). -/
def JobState.finished : JobState → Bool
  | .done => true | .cancelled => true | .expired => true
  | _ => false

/-- RELEASED, PRINTING or INTERRUPTED: the states whose jobs hold a reservation and count in a queue (R17, R90). -/
def JobState.routed : JobState → Bool
  | .released => true | .printing => true | .interrupted => true
  | _ => false

/-- 1 for true, 0 for false. -/
def oneIf (b : Bool) : Nat := if b then 1 else 0

/-- Slot `i` written, and the finished count moved as the job enters or leaves the counted states (R39). -/
def putSlot (s : State) (i : Nat) (r : Slot) : State :=
  { s with
    jobs := Table.put {} i r s.jobs
    finished := s.finished + oneIf r.job.state.finished - oneIf (job s i).state.finished }

/-- The job record of slot `i` written, its generation kept. -/
def putJob (s : State) (i : Nat) (j : Job) : State := putSlot s i { generation := (slot s i).generation, job := j }

/-! ## Printers, pools, models -/

/-- Printer record `p` (R80). -/
def printer (s : State) (p : Nat) : Printer := Table.get {} p s.printers

def putPrinter (s : State) (p : Nat) (r : Printer) : State := { s with printers := Table.put {} p r s.printers }

/-- The list of pool `q` (R92). -/
def pool (s : State) (q : Nat) : List Nat := Table.get [] q s.pools

def putPool (s : State) (q : Nat) (l : List Nat) : State := { s with pools := Table.put [] q l s.pools }

/-- Supply model `m` (R114). -/
def model (s : State) (m : Nat) : SupplyModel := Table.get {} m s.models

def putModel (s : State) (m : Nat) (r : SupplyModel) : State := { s with models := Table.put {} m r s.models }

/-! ## Callouts -/

/-- The condition table's entries after full reset (R136). -/
def CondKind.resetEntry : CondKind → CondEntry
  | .fuserFault => { cls := 0, sense := .level, autoClose := false }
  | .paperJam => { cls := 1, sense := .edge, autoClose := false }
  | .doorOpen => { cls := 1, sense := .level, autoClose := false }
  | .noContact => { cls := 1, sense := .level, autoClose := false }
  | .paperOut => { cls := 2, sense := .level, autoClose := false }
  | .tonerEmpty => { cls := 2, sense := .level, autoClose := false }
  | .wasteFull => { cls := 2, sense := .level, autoClose := false }
  | .tonerReorder => { cls := 3, sense := .edge, autoClose := true }

/-- The condition table's entry for a kind (R136). -/
def condEntry (s : State) (k : CondKind) : CondEntry := Table.get k.resetEntry k.position s.conditions

def putCondEntry (s : State) (k : CondKind) (e : CondEntry) : State :=
  { s with conditions := Table.put k.resetEntry k.position e s.conditions }

/-- The place of a printer's record for a kind (R138: each printer has one place for each kind). -/
def calloutKey (p : Nat) (k : CondKind) : Nat := p * 8 + (k.position - 1)

/-- The kind whose place a key is. -/
def kindOfKey (key : Nat) : CondKind := (condKindOf (key % 8 + 1)).getD .fuserFault

/-- The callout record of a printer and kind (R138). -/
def callout (s : State) (p : Nat) (k : CondKind) : Option Callout := Table.get none (calloutKey p k) s.callouts

def putCallout (s : State) (p : Nat) (k : CondKind) (c : Option Callout) : State :=
  { s with callouts := Table.put none (calloutKey p k) c s.callouts }

/-- Every callout record with its printer and kind, in order of printer and then of condition-table position. -/
def calloutList (s : State) : List (Nat × CondKind × Callout) :=
  s.callouts.filterMap fun e => e.2.map fun c => (e.1 / 8, kindOfKey e.1, c)

/-- Class record `c` (R144). -/
def classRec (s : State) (c : Nat) : ClassRec := Table.get {} c s.classes

def putClass (s : State) (c : Nat) (r : ClassRec) : State := { s with classes := Table.put {} c r s.classes }

/-- Desk record `d` (R147). -/
def desk (s : State) (d : Nat) : Desk := Table.get {} d s.desks

def putDesk (s : State) (d : Nat) (r : Desk) : State := { s with desks := Table.put {} d r s.desks }

/-! ## Loops, terminals, visits -/

/-- Loop record `l` (R55). -/
def loopRec (s : State) (l : Nat) : Loop := Table.get {} l s.loops

def putLoop (s : State) (l : Nat) (r : Loop) : State := { s with loops := Table.put {} l r s.loops }

/-- The number of a terminal: a terminal is named by its loop and address together (conventions). -/
def terminalNo (l a : Nat) : Nat := l * 16 + a

/-- Terminal record `t` (R56). -/
def terminal (s : State) (t : Nat) : Terminal := Table.get {} t s.terminals

def putTerminal (s : State) (t : Nat) (r : Terminal) : State := { s with terminals := Table.put {} t r s.terminals }

/-- The open visit of terminal `t` (R69). -/
def visit (s : State) (t : Nat) : Option Visit := Table.get none t s.visits

def putVisit (s : State) (t : Nat) (v : Option Visit) : State := { s with visits := Table.put none t v s.visits }

/-! ## Patterns -/

/-- Pattern record `t`, 0 to 31 (R172). -/
def rollover (s : State) (t : Nat) : Pattern := Table.get {} t s.rollovers

def putRollover (s : State) (t : Nat) (p : Pattern) : State := { s with rollovers := Table.put {} t p s.rollovers }

/-- Pattern record `n`, 0 to 32 (R172). -/
def patternRec (s : State) (n : Nat) : Pattern := if n = 32 then s.surveyPattern else rollover s n

end Sys2Proof.Machine
end

