-- ==== Sys2Proof/Machine/Flags.lean ====
section
/-! DEFINITION. The states and flags the part computes from its records: a printer's derived state, usability and condition
set (R87 to R89), a callout's presentability and priority (R144, R145, R149), the desks with a presentable callout (R151),
the items of the Attention Summary and the level of ATTN (R184, R185). -/

namespace Sys2Proof.Machine

/-! ## Printers -/

/-- The derived states of an enrolled printer (R88). -/
inductive Derived where
  | service | offline | faulted | unknown | busy | ready
deriving DecidableEq, Repr

/-- Derived state codes; a printer that is not enrolled has none, code 0 (R195). -/
def derivedByte : Option Derived → Byte
  | none => 0 | some .service => 1 | some .offline => 2 | some .faulted => 3 | some .unknown => 4 | some .busy => 5
  | some .ready => 6

/-- The bits of FUSER_FAULT, PAPER_JAM, DOOR_OPEN, PAPER_OUT and WASTE_FULL in a condition set (R192, R193 Note 3). -/
def reportedMask : BitVec 8 := 0x57#8

/-- The derived state: the first line of R88's table that matches. -/
def Printer.derived (pr : Printer) : Option Derived :=
  if !pr.enrolled then none
  else if pr.service then some .service
  else if pr.noContact then some .offline
  else if pr.reported &&& reportedMask ≠ 0 then some .faulted
  else if !pr.everReported then some .unknown
  else if 0 < pr.queueCount then some .busy
  else some .ready

/-- The supply record of a channel. -/
def Printer.supply (pr : Printer) (ch : Channel) : Option Supply :=
  (pr.supplies.find? fun e => e.1 == ch).map (·.2)

/-- The channel's supply has a level above 0. -/
def Printer.hasToner (pr : Printer) (ch : Channel) : Bool :=
  match pr.supply ch with
  | none => false
  | some x => decide (0 < x.level)

/-- READY or BUSY. -/
def Printer.up (pr : Printer) : Bool :=
  pr.derived == some .ready || pr.derived == some .busy

/-- SERVICE, OFFLINE or FAULTED. -/
def Printer.down (pr : Printer) : Bool :=
  pr.derived == some .service || pr.derived == some .offline || pr.derived == some .faulted

/-- The printer is usable (R89). -/
def Printer.usable (pr : Printer) : Bool := pr.up && pr.hasToner .k

/-- A condition kind is present on the printer (R87). -/
def Printer.condition (pr : Printer) (k : CondKind) : Bool :=
  match k with
  | .noContact => pr.noContact
  | .tonerEmpty => pr.supplies.any fun e => e.2.level == 0
  | .tonerReorder => pr.supplies.any fun e => e.2.reorder == .due
  | .fuserFault => pr.reported.getLsbD 0
  | .paperJam => pr.reported.getLsbD 1
  | .doorOpen => pr.reported.getLsbD 2
  | .paperOut => pr.reported.getLsbD 4
  | .wasteFull => pr.reported.getLsbD 6

/-- The condition set as R192 codes it: bit n - 1 is the kind at position n. -/
def Printer.conditionSet (pr : Printer) : BitVec 8 :=
  maskOf (fun n => pr.condition (kindOfKey n)) 8

/-- The pools that list printer `p`, lowest first. -/
def poolsOf (s : State) (p : Nat) : List Nat :=
  (List.range 64).filter fun q => (pool s q).contains p

/-- The home pool: the lowest-numbered pool that lists the printer (R92). -/
def homePool (s : State) (p : Nat) : Option Nat := (poolsOf s p).head?

/-- The pool count (R92). -/
def poolCount (s : State) (p : Nat) : Nat := (poolsOf s p).length

/-! ## Callouts -/

/-- The rank of printer `p` in class `c` under its present base (R144). -/
def rank (s : State) (c p : Nat) : Nat := (p + 511 - (classRec s c).base) % 256

/-- The place of a record in the priority order, lower first: its class, then its printer's rank, then its kind's
position, each test deciding before the next (R145). -/
def priority (s : State) (e : Nat × CondKind × Callout) : Nat :=
  (e.2.2.cls * 256 + rank s e.2.2.cls e.1) * 16 + e.2.1.position

/-- The class of a record in service, as copied at its raise. -/
def inServiceClass (s : State) (r : Nat × CondKind) : Nat :=
  match callout s r.1 r.2 with
  | none => 0
  | some c => c.cls

/-- The four tests of R149: the record of printer `p` is presentable at desk `d`. -/
def presentableAt (s : State) (d p : Nat) (c : Callout) : Bool :=
  c.state == .pending && c.desk == d
  && !(printer s p).service
  && decide ((desk s d).inService.length < 16)
  && ((desk s d).mode == .opened || (desk s d).inService.all fun r => decide (c.cls < inServiceClass s r))

/-- The records presentable at desk `d`. -/
def presentableList (s : State) (d : Nat) : List (Nat × CondKind × Callout) :=
  (calloutList s).filter fun e => presentableAt s d e.1 e.2.2

/-- The desks with a presentable callout (R151). -/
def presentableSet (s : State) : BitVec 8 := maskOf (fun d => !(presentableList s d).isEmpty) 8

/-! ## The Attention Summary (R184, R185) -/

/-- The loops in FAULT (R55). -/
def faultSet (s : State) : BitVec 8 := maskOf (fun l => (loopRec s l).state == .fault) 4

/-- The part is out of RESET and STARTING. -/
def running (s : State) : Bool := s.port == .deselected || s.port == .selected

/-- Some item of R184 is not empty. -/
def anyItem (s : State) : Bool :=
  presentableSet s != 0 || !s.dispatch.isEmpty || s.finished != 0 || faultSet s != 0 || s.survey.done

/-- The level ATTN has to have: asserted while any item is not empty, released in RESET and STARTING (R185). -/
def attnLevel (s : State) : Bool := running s && anyItem s

/-- The desk set and ATTN brought up to date, within the command that changed the records (R151, R185). -/
def settle (s : State) : State := { s with deskSet := presentableSet s, attn := attnLevel s }

end Sys2Proof.Machine
end

