-- ==== Sys2Proof/Machine/Ops.lean ====
section
/-! DEFINITION. The shared operations: taking a host frame and answering it, taking an event, full reset, and the touch,
fit, Reserve, Commit and Return of accounts (chapters 01 and 09). -/

namespace Sys2Proof.Machine

/-! ## The Host Link Port -/

/-- What a request's owning rule gives: the records as it leaves them, a response code and a body (R182). -/
structure Reply where
  state : State
  code  : Code
  body  : List Byte := []
deriving DecidableEq, Repr

/-- A refusal, which carries no body (R179). -/
def refuse (s : State) (c : Code) : Reply := { state := s, code := c }

/-- The response number after `n`: one more, and 1 after 255 (R179). -/
def nextNumber (n : Nat) : Nat := if n < 255 then n + 1 else 1

/-- The bit on HSDO at clock edge `i` of a frame that has such an edge; none at high impedance, and past the last edge of a
response read, whose edges are counted. Filler is the bits of FFh bytes (R177, R180, R194), and what a frame of STARTING shows
is a free value (log 24). -/
def hsdoBit (out : HsdoOutput) (i : Nat) : Option Bool :=
  match out with
  | .highImpedance => none
  | .filler => some true
  | .shifted bits => bits[i]?
  | .unstated n => some (Config.startingBit n i)

/-- Select falls: the port is SELECTED, and the part drives `out` on HSDO for as long as the frame is open (R177). -/
def openFrame (s : State) (out : HsdoOutput) : State := { s with port := .selected, hsdo := out }

/-- HSDO goes to high impedance at the rise of select (R177), and what it showed while select was low is recorded (log 13). -/
def releaseHsdo (s : State) : State := { s with hsdo := .highImpedance, driven := s.hsdo }

/-- Select rises: the port leaves SELECTED for DESELECTED and releases HSDO (R177). -/
def closeFrame (s : State) : State := { releaseHsdo s with port := .deselected }

/-- A frame with its two edges of select: the part drives `out` between them (R177; log 6). -/
def passFrame (s : State) (out : HsdoOutput) : State := closeFrame (openFrame s out)

/-- The latest response replaced (R179). -/
def respond (s : State) (kind : Byte) (r : Code) (body : List Byte) : State :=
  { s with response := { code := r, kind := kind, number := nextNumber s.response.number, body := body } }

/-- A request frame, in which the part drives filler, and its reply written as the latest response, with ATTN and the desk
set brought up to date (R177, R180, R182, R185). No rule reads the port or HSDO, so the frame's own part in the state is
written with its response. -/
def answered (kind : Byte) (r : Reply) : State := settle (respond (passFrame r.state .filler) kind r.code r.body)

/-- Taking a request frame that is neither short nor of unknown kind (R181 checks 3 and 4, R182). A frame that meets the
port in RESET is not taken and changes nothing (R189); one that meets it in STARTING is a DISCARDED_STARTING_FRAME (R190;
log 6). -/
def request (kind : Byte) (lengthOk presence : Bool) (rule : State → Reply) (s : State) :
    Host.Outcome State Fault Refusal :=
  .next <|
    if !running s then s
    else if !lengthOk || !presence then answered kind (refuse s .badField)
    else answered kind (rule s)

/-- An event that is not a host frame. In RESET and STARTING no seconds event or survey tick is produced, loop lines are
not watched and every record holds its reset value (R189, R190): the event does not occur. -/
def event (effect : State → State) (s : State) : Host.Outcome State Fault Refusal :=
  .next (if !running s then s else settle (effect s))

/-- Full reset: every record at its reset value, the port in RESET, ATTN released (R189). The queue of waiting commands and
the counter of free values are the model's own and stand. -/
def enterReset (s : State) (pinLow supplyLow : Bool) : State :=
  { State.reset with
    pending := s.pending
    draws := s.draws
    port := .reset
    resetPinLow := pinLow
    supplyLow := supplyLow }

/-! ## Touching accounts (R8) -/

/-- The record after a touch: rolled over when its stamp is not its tenant's current period (R8). -/
def rolledOver (period : Nat) (r : Account) : Account :=
  if r.stamp = period then r else { r with used := 0, warned := false, stamp := period }

/-- A touch of account `a`; a FREE account is not touched (R8). -/
def touch (s : State) (a : Nat) : State :=
  if (account s a).state = .free then s
  else putAccount s a (rolledOver (tenantRec s (account s a).tenant).period (account s a))

/-- A touch of an optional account. -/
def touchOpt (s : State) : Option Nat → State
  | none => s
  | some a => touch s a

/-- The available amount of a touched account, none for UNLIMITED (R16). -/
def available (r : Account) : Option Nat := r.limit.map fun l => l - (r.used + r.reserved)

/-! ## Reserve, Commit, Return (R22 to R26) -/

/-- A touched account fits an amount (R22). -/
def accountFits (r : Account) (amount : Nat) : Bool :=
  match r.limit with
  | none => true
  | some l => decide (r.used + r.reserved + amount ≤ l)

/-- `amount` added to an account's reserved. -/
def addReserved (s : State) (a amount : Nat) : State :=
  putAccount s a { account s a with reserved := (account s a).reserved + amount }

/-- `amount` taken from an account's reserved (R26). -/
def subReserved (s : State) (a amount : Nat) : State :=
  putAccount s a { account s a with reserved := (account s a).reserved - amount }

/-- `amount` moved from reserved to used, used saturating (R18, R25). -/
def moveToUsed (s : State) (a amount : Nat) : State :=
  putAccount s a
    { account s a with
      reserved := (account s a).reserved - amount
      used := if maxMoney < (account s a).used + amount then maxMoney else (account s a).used + amount }

/-- An operation on an optional account. -/
def onAccount (s : State) (op : State → Nat → Nat → State) (amount : Nat) : Option Nat → State
  | none => s
  | some a => op s a amount

/-- The warning test of R24 on account `a` passes with warned clear. -/
def crossesWarning (s : State) (a : Nat) : Bool :=
  match (account s a).limit with
  | none => false
  | some l =>
    let w := (tenantRec s (account s a).tenant).warnPermille
    w != 0 && decide (l * w ≤ ((account s a).used + (account s a).reserved) * 1000) && !(account s a).warned

/-- The warning test on one charged account: warned is set when the level is newly crossed (R24). -/
def warnAccount (s : State) (a : Nat) : State :=
  if crossesWarning s a then putAccount s a { account s a with warned := true } else s

/-- What Reserve reports: OVER_QUOTA (`ok` clear), or RESERVED with the warning outcome (R23). -/
structure Reserved where
  state   : State
  ok      : Bool
  warning : Bool
deriving DecidableEq, Repr

/-- The owner and its department as Reserve touches them (R23). -/
def reserveTouched (s : State) (owner : Nat) : State :=
  touchOpt (touch s owner) (account (touch s owner) owner).department

/-- Reserve for the job of slot `i` (R23), with the warning test of R24. -/
def reserve (s : State) (i perCopy due : Nat) (monoCharge : Bool) : Reserved :=
  let j := job s i
  let t := reserveTouched s j.owner
  let dept := (account t j.owner).department
  let deptFits := match dept with
    | none => true
    | some d => accountFits (account t d) due
  if !(accountFits (account t j.owner) due) || !deptFits then { state := t, ok := false, warning := false }
  else
    let charged := onAccount (addReserved t j.owner due) addReserved due dept
    let written := putJob charged i
      { job charged i with
        perCopyApplied := some perCopy
        forcedMono := monoCharge && decide (0 < j.sidesColour)
        chargedDept := dept }
    let ownerWarned := warnAccount written j.owner
    let deptWarns := match dept with
      | none => false
      | some d => crossesWarning ownerWarned d
    let deptWarned := match dept with
      | none => ownerWarned
      | some d => warnAccount ownerWarned d
    { state := deptWarned, ok := true, warning := crossesWarning written j.owner || deptWarns }

/-- Commit `k` copies of the job of slot `i` (R25): the money moves on the owner and any charged department, and
copies_done rises by `k` in the same step. -/
def commit (s : State) (i k : Nat) : State :=
  let j := job s i
  let amount := (j.perCopyApplied.getD 0) * k
  let t := touchOpt (touch s j.owner) j.chargedDept
  let moved := onAccount (moveToUsed t j.owner amount) moveToUsed amount j.chargedDept
  putJob moved i { job moved i with copiesDone := j.copiesDone + k }

/-- Return for the job of slot `i` (R26): the rest of its term leaves reserved, and its reservation fields are cleared. -/
def returnReservation (s : State) (i : Nat) : State :=
  let j := job s i
  let amount := (j.perCopyApplied.getD 0) * (j.copies - j.copiesDone)
  let t := touchOpt (touch s j.owner) j.chargedDept
  let moved := onAccount (subReserved t j.owner amount) subReserved amount j.chargedDept
  putJob moved i { job moved i with perCopyApplied := none, chargedDept := none, forcedMono := false }

/-! ## The charge (R19 to R21) -/

/-- The base of a colour or a mono charge (R20 stage 1). -/
def chargeBase (t : Tenant) (j : Job) (monoCharge : Bool) : Nat :=
  if monoCharge then (j.sidesMono + j.sidesColour) * t.monoRate
  else j.sidesMono * t.monoRate + j.sidesColour * t.colourRate

/-- The sized figure: base × sizeQ / 4, any remainder rounding up (R20 stage 2). -/
def chargeSized (t : Tenant) (j : Job) (monoCharge : Bool) : Nat :=
  (chargeBase t j monoCharge * sizeQ j.size + 3) / 4

/-- The duplex credit saved (R20 stage 3). -/
def chargeSaved (t : Tenant) (j : Job) : Nat :=
  if j.duplex then (j.sidesMono + j.sidesColour) / 2 * t.duplexCredit else 0

/-- per_copy: sized less saved, and never below 0 (R20 stage 4). -/
def perCopy (t : Tenant) (j : Job) (monoCharge : Bool) : Nat := chargeSized t j monoCharge - chargeSaved t j

/-- MAX_JOB_CHARGE (R21). -/
abbrev maxJobCharge : Nat := 1000000000

/-- The ceiling test of R21 passes. -/
def underCeiling (pc : Nat) (j : Job) : Bool := decide (pc * j.copies ≤ maxJobCharge)

/-- The amount due (R21). -/
def amountDue (pc : Nat) (j : Job) : Nat := pc * (j.copies - j.copiesDone)

end Sys2Proof.Machine
end

