-- ==== Sys2Proof/Machine/CalloutOps.lean ====
section
/-! DEFINITION. Raising, withdrawing and marking callout records as printer conditions change (R139 to R143). -/

namespace Sys2Proof.Machine

/-- The desks of a desk group, lowest first. -/
def groupDesks (g : BitVec 8) : List Nat := (List.range 8).filter fun d => g.getLsbD d

/-- The desk of a new record (R141): under FIXED the lowest of the group, under LEAST_BUSY the one with the fewest records
in service, the lowest-numbered of those; desk 0 for an empty group. -/
def routeDesk (s : State) (pr : Printer) : Nat :=
  match pr.routeMode with
  | .fixed => (groupDesks pr.deskGroup).head?.getD 0
  | .leastBusy => (leastByKey (fun d => (desk s d).inService.length) (groupDesks pr.deskGroup)).getD 0

/-- A new callout record of printer `p` and kind `k` (R140). -/
def raiseCallout (s : State) (p : Nat) (k : CondKind) : State :=
  let e := condEntry s k
  putCallout s p k <| some
    { state := .pending, cls := e.cls, sense := e.sense, autoClose := e.autoClose, desk := routeDesk s (printer s p)
      raisedAt := s.calendar.stamp, ackedAt := none, again := false }

/-- The action on one change of a kind's presence, by the record held for the printer and kind (R139, R142, R143). -/
def handChange (s : State) (p : Nat) (k : CondKind) (present : Bool) : State :=
  match callout s p k with
  | none => if present then raiseCallout s p k else s
  | some c =>
    match c.state, present, c.sense with
    | .pending, false, .level => putCallout s p k none
    | .inService, true, .edge => putCallout s p k (some { c with again := true })
    | _, _, _ => s

/-- Every kind whose presence differs between two condition sets of printer `p`, handed one at a time in the order of
R87. -/
def handChanges (s : State) (p : Nat) (before after : CondKind → Bool) : State :=
  CondKind.handing.foldl (fun s k => if before k = after k then s else handChange s p k (after k)) s

end Sys2Proof.Machine
end

