-- ==== Sys2Proof/Machine/PrinterOps.lean ====
section
/-! DEFINITION. Events on a printer and what the Printer Table hands on within them: going down and coming up to the Job
Table (R89, R110, R111), condition changes to the Callout Controller (R87); queue counts (R90); supply levels and
consumption (R118 to R121); the Router (R95, R96). -/

namespace Sys2Proof.Machine

/-! ## Jobs of a printer that goes down or comes up -/

/-- The slots whose job is in state `st` and names printer `p`, lowest first. -/
def slotsOn (s : State) (st : JobState) (p : Nat) : List Nat :=
  (s.jobs.filter fun e => e.2.job.state == st && e.2.job.printer == some p).map (·.1)

/-- The resume deadline of a job interrupted now: resume_minutes of its owner's tenant, saturating (R108, R110). Reading
the owner's tenant here is not a touch (DEDUCED, log 15). -/
def resumeDeadlineOf (s : State) (j : Job) : Nat :=
  deadline s.seconds ((tenantRec s (account s j.owner).tenant).resumeMinutes * 60)

/-- The job of slot `i` becomes INTERRUPTED with its resume window running (R108, R110). -/
def interruptJob (s : State) (i : Nat) : State :=
  putJob s i { job s i with state := .interrupted, resumeDeadline := some (resumeDeadlineOf s (job s i)) }

/-- Every PRINTING job of printer `p` becomes INTERRUPTED (R110). -/
def interruptJobs (s : State) (p : Nat) : State := (slotsOn s .printing p).foldl interruptJob s

/-- The job of slot `i` returns to RELEASED (R111). -/
def resumeJob (s : State) (i : Nat) : State :=
  putJob s i { job s i with state := .released, resumeDeadline := none }

/-- Every INTERRUPTED job of printer `p` returns to RELEASED, the group entering the Dispatch List at its head ordered by
release_seq (R54, R111). Two jobs of the group with equal release_seq, which the counter's wrap (R27) allows, go lower slot
first: R54 and R111 give no order for them (DESIGN CHOICE, log 14). -/
def resumeJobs (s : State) (p : Nat) : State :=
  let group := sortByKey (fun i => (job s i).releaseSeq) (slotsOn s .interrupted p)
  let returned := group.foldl resumeJob s
  { returned with dispatch := group.map (handleOf s) ++ s.dispatch }

/-! ## An event on a printer -/

/-- The job side of an event on printer `p`: a going down interrupts, a coming up returns (R89). -/
def handToJobs (s : State) (p : Nat) (old new : Printer) : State :=
  let s1 := if old.up && new.down then interruptJobs s p else s
  if !old.usable && new.usable then resumeJobs s1 p else s1

/-- An event that changes the record of printer `p`: the record is written, and what changed is handed to the Job Table
(R89) and to the Callout Controller (R87) within the event. -/
def printerEvent (s : State) (p : Nat) (f : Printer → Printer) : State :=
  let old := printer s p
  let new := f old
  handChanges (handToJobs (putPrinter s p new) p old new) p old.condition new.condition

/-! ## Queue counts (R90) -/

/-- The queue count of printer `p` raised by one. A change of the count moves the printer between READY and BUSY at most,
which hands nothing (R88, R89). -/
def raiseQueue (s : State) (p : Nat) : State :=
  putPrinter s p { printer s p with queueCount := (printer s p).queueCount + 1 }

/-- The queue count of an optional printer lowered by one, never below 0. -/
def lowerQueue (s : State) : Option Nat → State
  | none => s
  | some p => putPrinter s p { printer s p with queueCount := (printer s p).queueCount - 1 }

/-! ## Supply levels (R118 to R121) -/

/-- A supply with its level written; one that reaches 0 becomes DUE if it was NONE (R120). -/
def Supply.setLevel (x : Supply) (v : Nat) : Supply :=
  { x with
    level := v
    reorder := if 0 < x.level ∧ v = 0 ∧ x.reorder = .none then .due else x.reorder }

/-- The supply of one channel changed, the others kept. -/
def Printer.mapSupply (pr : Printer) (ch : Channel) (f : Supply → Supply) : Printer :=
  { pr with supplies := pr.supplies.map fun e => if e.1 = ch then (e.1, f e.2) else e }

/-- The toner of one copy on a channel (R118). -/
def copyToner (j : Job) (ch : Channel) : Nat :=
  let sides := j.sidesMono + j.sidesColour
  if j.forcedMono then
    match ch with
    | .k => sides * min 1000 (j.covK + (j.covC + j.covM + j.covY) / 3) * sizeQ j.size / 4
    | _ => 0
  else
    match ch with
    | .k => sides * j.covK * sizeQ j.size / 4
    | .c => j.sidesColour * j.covC * sizeQ j.size / 4
    | .m => j.sidesColour * j.covM * sizeQ j.size / 4
    | .y => j.sidesColour * j.covY * sizeQ j.size / 4

/-- `amount` consumed from a supply: the level does not go below 0, the accumulator saturates (R119). -/
def Supply.consume (x : Supply) (amount : Nat) : Supply :=
  { x.setLevel (x.level - amount) with
    accumulator := if maxCount < x.accumulator + amount then maxCount else x.accumulator + amount }

/-- `k` copies of job `j` consumed from every supply of a printer (R119). -/
def Printer.consume (pr : Printer) (j : Job) (k : Nat) : Printer :=
  { pr with supplies := pr.supplies.map fun e => (e.1, e.2.consume (copyToner j e.1 * k)) }

/-- Consumption of `k` copies of the job of slot `i` on the printer it names (R119). -/
def consume (s : State) (i k : Nat) : State :=
  match (job s i).printer with
  | none => s
  | some p => printerEvent s p fun pr => pr.consume (job s i) k

/-- Every DUE supply of a printer becomes ORDERED (R133, R134). -/
def Printer.order (pr : Printer) : Printer :=
  { pr with
    supplies := pr.supplies.map fun e =>
      if e.2.reorder = .due then (e.1, { e.2 with reorder := .ordered }) else e }

/-- The Supply Table's answer to an acknowledge or a close of a TONER_REORDER record of printer `p` (R133, R134). -/
def orderDue (s : State) (p : Nat) : State := printerEvent s p Printer.order

/-! ## The Router (R95, R96) -/

/-- The needs a caller asks the Router with (R95). -/
inductive Need where
  | mono | colour
deriving DecidableEq, Repr

/-- The printer is a candidate for a need (R95). -/
def Printer.candidate (pr : Printer) (need : Need) : Bool :=
  match need with
  | .mono => pr.usable
  | .colour => pr.usable && pr.capability == .colour && pr.hasToner .c && pr.hasToner .m && pr.hasToner .y

/-- The Router's choice in a pool: the candidate with the smallest queue count, the earliest in the list of those (R96). -/
def route (s : State) (q : Nat) (need : Need) : Option Nat :=
  leastByKey (fun p => (printer s p).queueCount) ((pool s q).filter fun p => (printer s p).candidate need)

end Sys2Proof.Machine
end

