-- ==== Sys2Proof/Machine/JobOps.lean ====
section
/-! DEFINITION. Resolving handles (R28), the revert of a released job (R33), the listing and its pages (R40 to R42), the
release decision for one job and for PICK ALL (R44 to R51), and the fit of a job to its printer (R98). -/

namespace Sys2Proof.Machine

/-! ## Handles -/

/-- The slot a handle names, none when it is above 32,767, stale, or names a FREE slot (R28). -/
def resolve (s : State) (h : Nat) : Option Nat :=
  if 32767 < h then none
  else if h / 2048 ≠ (slot s (h % 2048)).generation then none
  else if (job s (h % 2048)).state = .free then none
  else some (h % 2048)

/-- The lowest-numbered FREE slot (R31). -/
def freeSlot (s : State) : Option Nat := firstFrom (fun i => (job s i).state == .free) 0 2048

/-- Some job record in a state other than FREE names the account as owner or as charged department (R9, R14). -/
def jobNames (s : State) (a : Nat) : Bool :=
  s.jobs.any fun e => e.2.job.state != .free && (e.2.job.owner == a || e.2.job.chargedDept == some a)

/-! ## Revert (R33) -/

/-- The job of slot `i` leaves RELEASED or INTERRUPTED for HELD, or for EXPIRED when its hold time is over (R33). -/
def revertJob (s : State) (i : Nat) : State :=
  let j := { job s i with printer := none, releasePool := none, resumeDeadline := none }
  if j.expiresAt ≤ s.seconds then putJob s i { j with state := .expired, outcome := some .expiredUnreleased }
  else putJob s i { j with state := .held }

/-- Return, the printer's queue count lowered, then the revert: what a failed re-route and the end of a resume window both
do (R101, R112). -/
def giveUpRelease (s : State) (i : Nat) : State :=
  revertJob (lowerQueue (returnReservation s i) (job s i).printer) i

/-! ## The listing (R40 to R42) -/

/-- The job is in the listing of account `a` for pool `q` (R40). -/
def listed (j : Job) (a q : Nat) : Bool :=
  j.state == .held && j.owner == a && (j.pool == none || j.pool == some q)

/-- The slots of the listing of account `a` for pool `q`, ordered by held_at and then by handle (R40). A handle is below
32,768, so the two figures order as one number. -/
def listing (s : State) (a q : Nat) : List Nat :=
  sortByKey (fun i => (job s i).heldAt * 32768 + handleOf s i)
    ((s.jobs.filter fun e => listed e.2.job a q).map (·.1))

/-- The page count of a listing of `n` jobs (R41). -/
def pageCount (n : Nat) : Nat := if n = 0 then 1 else (n + 5) / 6

/-- The page number given for a page asked for (R41). -/
def pageGiven (n asked : Nat) : Nat := if asked < pageCount n then asked else 0

/-- The entries of page `n` of a listing (R41). -/
def pageOf (l : List Nat) (n : Nat) : List Nat := (l.drop (6 * n)).take 6

/-- The minutes left of a listed job (R42). Its expires_at is above now; should it not be, the figure is a free value
(log 20). -/
def minutesLeft (now expiresAt : Nat) : Nat :=
  if now ≤ expiresAt then
    (let m := (expiresAt - now + 59) / 60
     if 9999 < m then 9999 else m)
  else Config.overdueMinutes (now - expiresAt)

/-- The volume of a job (R42). -/
def volume (j : Job) : Nat :=
  let v := (j.sidesMono + j.sidesColour) * (j.copies - j.copiesDone)
  if 99999 < v then 99999 else v

/-- The entries of a page with their numbers, from `n` on (R42). -/
def entriesFrom (s : State) : Nat → List Nat → List ListEntry
  | _, [] => []
  | n, i :: rest =>
    { index := n, volume := volume (job s i), colour := decide (0 < (job s i).sidesColour)
      minutesLeft := minutesLeft s.seconds (job s i).expiresAt } :: entriesFrom s (n + 1) rest

/-! ## The release decision (R44 to R48) -/

/-- An attempt of a release decision: why it failed, or that it released, with the warning outcome (R45). -/
structure Attempt where
  state   : State
  failure : Option PickResult
  warning : Bool
deriving DecidableEq, Repr

/-- The job of slot `i` released to printer `p` from a terminal of pool `q` (R46). -/
def releaseJob (s : State) (i q p : Nat) : State :=
  let written := putJob s i
    { job s i with state := .released, releasePool := some q, printer := some p, releaseSeq := s.releaseCounter }
  let counted := { written with
    releaseCounter := (s.releaseCounter + 1) % 4294967296
    dispatch := s.dispatch ++ [handleOf s i] }
  raiseQueue counted p

/-- One attempt: route, price, reserve, release (R45). The owner is touched before it is priced (R19); of a failed attempt
only Reserve's touches stand (R45), and the RESULT display that follows touches the owner again in any case (R74, R71; log 23). -/
def attempt (s : State) (i q : Nat) (need : Need) (monoCharge : Bool) : Attempt :=
  let j := job s i
  match route s q need with
  | none => { state := s, failure := some .noPrinter, warning := false }
  | some p =>
    let t := touch s j.owner
    let pc := perCopy (tenantRec t (account t j.owner).tenant) j monoCharge
    if !underCeiling pc j then { state := s, failure := some .tooLarge, warning := false }
    else
      let r := reserve t i pc (amountDue pc j) monoCharge
      if !r.ok then { state := r.state, failure := some .overQuota, warning := false }
      else { state := releaseJob r.state i q p, failure := none, warning := r.warning }

/-- A release decision: its result and the warning flag (R46, R48). -/
structure Decision where
  state   : State
  result  : PickResult
  warning : Bool
deriving DecidableEq, Repr

/-- The decision passes the check of R44 for the job of slot `i`. -/
def mayRelease (s : State) (i a q : Nat) : Bool := listed (job s i) a q

/-- The mono fallback is allowed for the job by its owner's tenant (R47). -/
def fallbackAllowed (s : State) (j : Job) : Bool :=
  decide (0 < j.sidesColour) && (tenantRec s (account s j.owner).tenant).policy == .monoFallback

/-- The attempts for the job of slot `i`: the first, then the mono fallback where R47 allows it (R45 to R48). -/
def decideSlot (s : State) (i q : Nat) : Decision :=
  let j := job s i
  let first := attempt s i q (if 0 < j.sidesColour then .colour else .mono) false
  match first.failure with
  | none => { state := first.state, result := .released, warning := first.warning }
  | some f =>
    if !fallbackAllowed first.state j then { state := first.state, result := f, warning := false }
    else
      let second := attempt first.state i q .mono true
      match second.failure with
      | none => { state := second.state, result := .releasedMono, warning := second.warning }
      | some g => { state := second.state, result := g, warning := false }

/-- The release decision for a handle, the account of the visit and the pool of the terminal (R44 to R48). -/
def decideRelease (s : State) (h a q : Nat) : Decision :=
  match resolve s h with
  | none => { state := s, result := .gone, warning := false }
  | some i => if mayRelease s i a q then decideSlot s i q else { state := s, result := .gone, warning := false }

/-- The outcome of a PICK ALL so far: three counts and the warning flag (R51). -/
structure AllResult where
  state    : State
  released : Nat := 0
  mono     : Nat := 0
  refused  : Nat := 0
  warning  : Bool := false
deriving DecidableEq, Repr

/-- One decision added to a PICK ALL's outcome (R50, R51). -/
def AllResult.add (r : AllResult) (d : Decision) : AllResult :=
  { state := d.state
    released := r.released + oneIf (d.result == .released)
    mono := r.mono + oneIf (d.result == .releasedMono)
    refused := r.refused + oneIf (d.result != .released && d.result != .releasedMono)
    warning := r.warning || d.warning }

/-- PICK ALL: the set of handles fixed first, then one decision for each in listing order (R50). -/
def decideAll (s : State) (a q : Nat) : AllResult :=
  ((listing s a q).map (handleOf s)).foldl (fun r h => r.add (decideRelease r.state h a q)) { state := s }

/-! ## The fit of a job to its printer (R98) -/

/-- The print need of a released job (R98). -/
def printNeed (j : Job) : Need := if 0 < j.sidesColour ∧ j.forcedMono = false then .colour else .mono

/-- The job fits the printer it names (R98). -/
def fits (s : State) (j : Job) : Bool :=
  match j.printer with
  | none => false
  | some p => (printer s p).candidate (printNeed j)

end Sys2Proof.Machine
end

