-- ==== Sys2Proof/Machine/LoopOps.lean ====
section
/-! DEFINITION. The terminal loops: loop frames and displays as bytes (R198, R200), displays becoming pending (R64), roll
calls and their phases (R59 to R63), visits and their ends (R69, R79), and the LIST of a visit (R71). -/

namespace Sys2Proof.Machine

/-! ## Loop frames and displays as bytes (R198, R200) -/

/-- The sum of bytes modulo 256. -/
def byteSum (bytes : List Byte) : Byte := bytes.foldl (· + ·) 0

/-- A loop frame: address, type, content length, content, and the check byte that makes the sum 0 (R198). -/
def loopFrame (addr : Nat) (type : Byte) (content : List Byte) : List Byte :=
  let bytes := num 1 addr ++ [type] ++ num 1 content.length ++ content
  bytes ++ [0 - byteSum bytes]

/-- The frames the part sends: CALL, FETCH, ACCEPT carry nothing (R198). -/
def callFrame (addr : Nat) : List Byte := loopFrame addr 0x01 []
def fetchFrame (addr : Nat) : List Byte := loopFrame addr 0x04 []
def acceptFrame (addr : Nat) : List Byte := loopFrame addr 0x06 []

def listEntryBytes (e : ListEntry) : List Byte :=
  num 1 e.index ++ num 3 e.volume ++ [flagByte e.colour] ++ num 2 e.minutesLeft

/-- The fields of a LIST after its kind byte (R200). -/
def listPartBytes (p : ListPart) : List Byte :=
  num 2 p.account
  ++ (match p.credits with
      | none => List.replicate 4 0xFF
      | some c => num 4 c)
  ++ [flagByte p.warned] ++ num 2 p.page ++ num 2 p.pageCount ++ num 1 p.entries.length
  ++ p.entries.flatMap listEntryBytes

/-- The result part of a RESULT (R200). -/
def resultPartBytes : ResultPart → List Byte
  | .single code warning => [0x00, code.byte] ++ num 2 0 ++ num 2 0 ++ num 2 0 ++ [flagByte warning]
  | .all released mono refused warning =>
    [0x01, 0x00] ++ num 2 released ++ num 2 mono ++ num 2 refused ++ [flagByte warning]

/-- The content of a DISPLAY frame (R200). -/
def displayBytes (d : Display) : List Byte :=
  d.kindByte :: (match d with
    | .list p => listPartBytes p
    | .result r p => resultPartBytes r ++ listPartBytes p
    | .unknownBadge => []
    | .suspended => []
    | .goodbye => [])

def displayFrame (addr : Nat) (d : Display) : List Byte := loopFrame addr 0x03 (displayBytes d)

/-- A character on a loop line, in the order its bits are sent: one start bit, eight data bits least significant first, one
stop bit (R198). A bit at the start-bit level is `false`; a bit at the level of the stop bit, where the line idles, is `true`
(log 25). -/
def charBits (b : Byte) : List Bool := false :: (List.range 8).map b.getLsbD ++ [true]

/-- The bits of a run of characters (R198). -/
def lineBits (bytes : List Byte) : List Bool := bytes.flatMap charBits

/-- The frames the part sent within a command, on the line of each loop (R198; log 13). -/
def transmit (s : State) (frames : List (Nat × List Byte)) : State :=
  { s with sent := frames.map fun e => (e.1, lineBits e.2) }

/-! ## Roll calls (R59 to R63) -/

/-- A roll call is in flight on loop `l` (R55). -/
def inFlight (s : State) (l : Nat) : Bool := (loopRec s l).phase.isSome

/-- The addresses 0 to 15 of loop `l` whose terminal has property `p`, ascending. -/
def addressesOf (s : State) (l : Nat) (p : Terminal → Bool) : List Nat :=
  (List.range 16).filter fun a => p (terminal s (terminalNo l a))

/-- A change made to every terminal of loop `l`. -/
def mapTerminals (s : State) (l : Nat) (f : Terminal → Terminal) : State :=
  (List.range 16).foldl (fun s a => putTerminal s (terminalNo l a) (f (terminal s (terminalNo l a)))) s

/-- A roll call starts on loop `l` (R59). The present system-clock time is a free value (log 1). The enrolled addresses of
this moment are the ones it calls: a terminal enrolled later is not called in it (R57). -/
def startRollCall (s : State) (l : Nat) : State :=
  let cleared := mapTerminals s l fun t => { t with answered := false, flagged := false }
  { putLoop cleared l
      { loopRec s l with
        phase := some .rollCall
        lastStart := some (Config.sysTime s.draws)
        turns := addressesOf s l (·.enrolled)
        rollDue := false
        presenceDue := false } with
    draws := s.draws + 1 }

/-- A start cause on loop `l`: it starts a roll call when none is in flight there (R59). -/
def startIfIdle (s : State) (l : Nat) : State := if inFlight s l then s else startRollCall s l

/-- The addresses of a DISPLAY phase that are still to come: those in front whose terminal has no display pending are passed,
for the part has nothing to send there (R61; log 10). -/
def displayTurns (s : State) (l : Nat) (turns : List Nat) : List Nat :=
  turns.dropWhile fun a => (terminal s (terminalNo l a)).pending.isNone

/-- A phase with no turn left passes to the next: ROLL_CALL to DISPLAY over the terminals that answered, DISPLAY to FETCH
over the flagged ones, FETCH to CLOSE (R60 to R62; log 10). -/
def passPhases (s : State) (l : Nat) : State :=
  let r := loopRec s l
  let flaggedOnes := addressesOf s l fun t => t.enrolled && t.flagged
  let answeredOnes := displayTurns s l (addressesOf s l fun t => t.enrolled && t.answered)
  let afterFetch : Loop := { r with phase := some .close, turns := [] }
  let afterDisplay : Loop :=
    if flaggedOnes.isEmpty then afterFetch else { r with phase := some .fetch, turns := flaggedOnes }
  let afterRollCall : Loop :=
    if answeredOnes.isEmpty then afterDisplay else { r with phase := some .display, turns := answeredOnes }
  if !r.turns.isEmpty then s
  else
    match r.phase with
    | some .rollCall => putLoop s l afterRollCall
    | some .display => putLoop s l afterDisplay
    | some .fetch => putLoop s l afterFetch
    | _ => s

/-- The turns of loop `l` written, in the DISPLAY phase less the addresses it passes, and phases left without a turn
passed. -/
def setTurns (s : State) (l : Nat) (turns : List Nat) : State :=
  let kept := if (loopRec s l).phase = some .display then displayTurns s l turns else turns
  passPhases (putLoop s l { loopRec s l with turns := kept }) l

/-! ## Displays becoming pending (R64) -/

/-- Display `d` becomes pending for terminal `t`: it replaces one already pending and starts a roll call on a QUIET loop
with none in flight; on a loop in FAULT or OFF it becomes current at once and nothing is pending (R64). -/
def pend (s : State) (t : Nat) (d : Display) : State :=
  match (loopRec s (t / 16)).state with
  | .off => putTerminal s t { terminal s t with current := d, pending := none }
  | .fault => putTerminal s t { terminal s t with current := d, pending := none }
  | .quiet => startIfIdle (putTerminal s t { terminal s t with pending := some d }) (t / 16)
  | .continuous => putTerminal s t { terminal s t with pending := some d }

/-! ## Visits (R69, R79) -/

/-- The terminal of the account's open visit, lowest-numbered first (R69: there is at most one). -/
def visitOf (s : State) (a : Nat) : Option Nat :=
  (s.visits.find? fun e => match e.2 with
    | none => false
    | some v => v.account == a).map (·.1)

/-- The visit of terminal `t` ends without a display (R69). -/
def dropVisit (s : State) (t : Nat) : State := putVisit s t none

/-- The visit of terminal `t`, if there is one, ends with display `d` pending. -/
def endVisit (s : State) (t : Nat) (d : Display) : State :=
  match visit s t with
  | none => s
  | some _ => pend (dropVisit s t) t d

/-- The open visit of account `a`, if there is one, ends with display `d` pending (R79). -/
def endVisitOf (s : State) (a : Nat) (d : Display) : State :=
  match visitOf s a with
  | none => s
  | some t => endVisit s t d

/-- Every visit on loop `l` ends without a display (R65, R67). -/
def dropVisits (s : State) (l : Nat) : State :=
  (List.range 16).foldl (fun s a => dropVisit s (terminalNo l a)) s

/-- The idle deadline of a visit renewed now (R69, R70). -/
def idleDeadline (s : State) : Nat := deadline s.seconds 45

/-! ## The LIST of a visit (R71) -/

/-- Credits as a LIST shows them: whole credits rounded down, above 999,999 shown as 999,999 (R71). -/
def creditsShown (amount : Nat) : Nat := if 999999 < amount / 1000 then 999999 else amount / 1000

/-- A LIST computed for the visit `v` of terminal `t` at a page asked for: the records with the account touched and the
visit's page and page_handles written, and the figures of the display (R71). -/
def computeList (s : State) (t : Nat) (v : Visit) (asked : Nat) : State × ListPart :=
  let touched := touch s v.account
  let whole := listing touched v.account (terminal touched t).pool
  let page := pageGiven whole.length asked
  let slots := pageOf whole page
  let part : ListPart :=
    { account := v.account
      credits := (available (account touched v.account)).map creditsShown
      warned := (account touched v.account).warned
      page := page
      pageCount := pageCount whole.length
      entries := entriesFrom touched 0 slots }
  (putVisit touched t (some { v with page := page, pageHandles := slots.map (handleOf touched) }), part)

/-- A LIST computed and made pending (R71). -/
def showList (s : State) (t : Nat) (v : Visit) (asked : Nat) : State :=
  let r := computeList s t v asked
  pend r.1 t (.list r.2)

/-- A RESULT computed and made pending, its listing part for the visit's page after the decisions (R74). -/
def showResult (s : State) (t : Nat) (v : Visit) (res : ResultPart) : State :=
  let r := computeList s t v v.page
  pend r.1 t (.result res r.2)

/-! ## Collected messages (R62) -/

/-- The message of the terminal at address `a` is the one the part is asking for: its turn in the FETCH phase (R62). -/
def fetchTurn (s : State) (l a : Nat) : Bool :=
  (loopRec s l).phase == some .fetch && (loopRec s l).turns.head? == some a

/-- A fetch of the terminal at address `a` of loop `l`: with `accept`, a message with a good check, which is accepted,
clears flagged and has its effect before the next terminal is asked; without, a failed fetch, which keeps flagged set
(R62). A message outside its terminal's turn is ignored (log 11). -/
def fetch (s : State) (l a : Nat) (accept : Bool) (effect : State → State) : State :=
  if !fetchTurn s l a then s
  else
    let asked := transmit s ((l, fetchFrame a) :: (if accept then [(l, acceptFrame a)] else []))
    let taken := if accept then
        effect (putTerminal asked (terminalNo l a) { terminal asked (terminalNo l a) with flagged := false })
      else asked
    setTurns taken l (loopRec taken l).turns.tail

end Sys2Proof.Machine
end

