-- ==== Sys2Proof/Machine/Formats.lean ====
section
/-! DEFINITION. The bodies of OK responses, field by field (R196, R197), and a response's bytes (R194). -/

namespace Sys2Proof.Machine

/-- A response's bytes: five header bytes, then the body (R194). -/
def responseBytes (r : Response) : List Byte :=
  [r.code.byte, r.kind] ++ num 1 r.number ++ num 2 r.body.length ++ r.body

/-- Read Tenant, 30 bytes (R197). -/
def tenantBody (s : State) (t : Nat) : List Byte :=
  let r := tenantRec s t
  num 2 t ++ num 2 r.monoRate ++ num 2 r.colourRate ++ num 2 r.duplexCredit ++ num 2 r.holdMinutes
  ++ num 2 r.resumeMinutes ++ [r.policy.byte] ++ num 2 r.warnPermille ++ patternBytes (rollover s t) ++ num 4 r.period
  ++ [flagByte s.lock]

/-- Read Account, 35 bytes (R196). -/
def accountBody (a : Nat) (r : Account) : List Byte :=
  num 2 a ++ [r.state.byte, r.kind.byte] ++ num 2 r.tenant ++ optNum 3 r.badge ++ optNum 2 r.department
  ++ optNum 4 r.limit ++ num 6 r.used ++ num 6 r.reserved ++ num 4 r.stamp ++ [flagByte r.warned]

/-- Read Job, 60 bytes (R196). -/
def jobBody (h : Nat) (j : Job) : List Byte :=
  num 2 h ++ [j.state.byte] ++ num 2 j.owner ++ optNum 2 j.pool ++ num 2 j.sidesMono ++ num 2 j.sidesColour
  ++ num 2 j.copies ++ [j.size.byte, flagByte j.duplex] ++ num 2 j.covK ++ num 2 j.covC ++ num 2 j.covM ++ num 2 j.covY
  ++ num 4 j.heldAt ++ num 4 j.expiresAt ++ optNum 2 j.releasePool ++ optNum 2 j.printer ++ optNum 4 j.perCopyApplied
  ++ [flagByte j.forcedMono] ++ optNum 2 j.chargedDept ++ num 4 j.releaseSeq ++ num 2 j.copiesDone
  ++ optNum 4 j.resumeDeadline ++ optNum 1 (j.outcome.map JobOutcome.code)

/-- Handles, two bytes each. -/
def handlesBytes (hs : List Nat) : List Byte := hs.flatMap (num 2)

/-- Find Jobs: the more flag, the count, the handles (R197). -/
def findBody (more : Bool) (hs : List Nat) : List Byte := flagByte more :: num 1 hs.length ++ handlesBytes hs

/-- Take Dispatch answered OK, 10 bytes (R197). -/
def takenBody (h p : Nat) (j : Job) (rerouted : Bool) (reverted : Nat) : List Byte :=
  num 2 h ++ num 2 p ++ [flagByte j.forcedMono] ++ num 2 (j.copies - j.copiesDone) ++ [flagByte rerouted] ++ num 2 reverted

/-- Read Dispatch: the length, the count, up to 16 entries (R103, R197). -/
def dispatchBody (s : State) : List Byte :=
  let head := s.dispatch.take 16
  num 2 s.dispatch.length ++ num 1 head.length
  ++ head.flatMap fun h =>
      let j := job s (h % 2048)
      num 2 h ++ num 2 (j.printer.getD 0) ++ [flagByte (fits s j)]

/-- Display kind byte of an optional display; none is 0 (R195). -/
def displayKindByte : Option Display → Byte
  | none => 0
  | some d => d.kindByte

/-- An entry of Read Loop, 12 bytes; with no visit its flag and value bytes are 00h (R194, R197). -/
def terminalBytes (s : State) (t : Nat) : List Byte :=
  let r := terminal s t
  [flagByte r.enrolled] ++ num 2 r.pool ++ [r.presence.byte] ++ num 1 r.missed
  ++ [displayKindByte r.pending, r.current.kindByte]
  ++ (match visit s t with
      | none => List.replicate 5 0
      | some v => 1 :: num 2 v.account ++ num 2 v.page)

/-- Read Loop, 197 bytes (R68, R197). -/
def loopBody (s : State) (l : Nat) : List Byte :=
  let r := loopRec s l
  num 1 l ++ [r.state.byte, flagByte r.phase.isSome] ++ optNum 1 (r.phase.map Phase.code)
  ++ (List.range 16).flatMap fun a => terminalBytes s (terminalNo l a)

/-- Read Printer, 26 bytes (R91, R196). -/
def printerBody (s : State) (p : Nat) : List Byte :=
  let r := printer s p
  num 2 p ++ [flagByte r.enrolled, r.capability.byte, r.reported, flagByte r.noContact, flagByte r.everReported,
    flagByte r.service, r.deskGroup, r.routeMode.byte] ++ num 1 r.contactMinutes ++ optNum 4 r.contactDeadline
  ++ num 2 r.queueCount ++ [flagByte r.surveyed, derivedByte r.derived, flagByte r.usable, r.conditionSet]
  ++ optNum 2 (homePool s p) ++ num 1 (poolCount s p)

/-- Read Pool, 3 + 6n bytes (R94, R197). -/
def poolBody (s : State) (q : Nat) : List Byte :=
  num 2 q ++ num 1 (pool s q).length
  ++ (pool s q).flatMap fun p =>
      let r := printer s p
      num 2 p ++ [derivedByte r.derived, flagByte r.usable] ++ num 2 r.queueCount

/-- The supply records that name a model (R115). -/
def modelUsers (s : State) (m : Nat) : Nat :=
  (s.printers.flatMap fun e => e.2.supplies.filter fun x => x.2.model == m).length

/-- Read Supply Model, 9 bytes (R115, R197). -/
def modelBody (s : State) (m : Nat) : List Byte :=
  num 2 m ++ num 4 (model s m).capacity ++ num 1 (model s m).lead ++ num 2 (modelUsers s m)

/-- An entry of Read Supplies, 32 bytes (R196). -/
def supplyBytes (s : State) (e : Channel × Supply) : List Byte :=
  let x := e.2
  let m := model s x.model
  [e.1.byte] ++ num 2 x.model ++ num 4 m.capacity ++ num 1 m.lead ++ num 4 x.level ++ num 4 x.accumulator
  ++ optNum 6 x.usage ++ optNum 2 x.forecast ++ [flagByte x.low, x.reorder.byte] ++ num 4 x.lastSurvey

/-- Read Supplies, 3 + 32n bytes (R117, R196). -/
def suppliesBody (s : State) (p : Nat) : List Byte :=
  num 2 p ++ num 1 (printer s p).supplies.length ++ (printer s p).supplies.flatMap (supplyBytes s)

/-- Read Survey, 7 bytes (R131, R197). The scope printer of a scope that is not one printer is a free value (log 21). -/
def surveyBody (s : State) : List Byte :=
  let v := s.survey
  flagByte v.scope.isSome
    :: (match v.scope with
        | none => 0 :: num 2 (Config.surveyScopeFill s.draws)
        | some .all => 1 :: num 2 (Config.surveyScopeFill s.draws)
        | some (.one p) => 2 :: num 2 p)
  ++ num 2 v.cursor ++ [flagByte v.done]

/-- Read Condition Table, 32 bytes (R197). -/
def conditionTableBody (s : State) : List Byte :=
  CondKind.all.flatMap fun k =>
    let e := condEntry s k
    [k.byte] ++ num 1 e.cls ++ [e.sense.byte, flagByte e.autoClose]

/-- Read Classes, 12 bytes (R197). -/
def classesBody (s : State) : List Byte :=
  (List.range 4).flatMap fun c => (classRec s c).mode.byte :: num 2 (classRec s c).base

/-- The callout notice, 22 bytes (R154, R196), for the record `c` of printer `p` and kind `k` taken at desk `d`. -/
def noticeBody (s : State) (d p : Nat) (k : CondKind) (c : Callout) : List Byte :=
  num 1 d ++ num 2 p ++ [k.byte] ++ num 1 c.cls ++ [c.sense.byte, flagByte c.autoClose, (printer s p).routeMode.byte]
  ++ stampBytes c.raisedAt ++ num 4 s.seconds ++ optNum 2 (homePool s p) ++ num 1 (poolCount s p)

/-- An in-service entry of Read Desk, 17 bytes (R196). -/
def inServiceBytes (s : State) (r : Nat × CondKind) : List Byte :=
  match callout s r.1 r.2 with
  | none => []
  | some c =>
    num 2 r.1 ++ [r.2.byte] ++ num 1 c.cls ++ [c.sense.byte, flagByte c.autoClose] ++ stampBytes c.raisedAt
    ++ num 4 (c.ackedAt.getD 0) ++ [flagByte c.again]

/-- The PENDING records routed to a desk (R160). -/
def pendingCount (s : State) (d : Nat) : Nat :=
  ((calloutList s).filter fun e => e.2.2.state == .pending && e.2.2.desk == d).length

/-- Read Desk, 6 + 17n bytes (R160, R196). -/
def deskBody (s : State) (d : Nat) : List Byte :=
  num 1 d ++ [(desk s d).mode.byte, flagByte (!(presentableList s d).isEmpty)] ++ num 2 (pendingCount s d)
  ++ num 1 (desk s d).inService.length ++ (desk s d).inService.flatMap (inServiceBytes s)

/-- The callout records of a printer in table order of their kinds (R161). -/
def calloutsOf (s : State) (p : Nat) : List (CondKind × Callout) :=
  CondKind.all.filterMap fun k => (callout s p k).map fun c => (k, c)

/-- Read Callouts, 3 + 19n bytes (R161, R197). -/
def calloutsBody (s : State) (p : Nat) : List Byte :=
  num 2 p ++ num 1 (calloutsOf s p).length
  ++ (calloutsOf s p).flatMap fun e =>
      let c := e.2
      [e.1.byte, c.state.byte] ++ num 1 c.cls ++ [c.sense.byte, flagByte c.autoClose] ++ num 1 c.desk
      ++ stampBytes c.raisedAt ++ optNum 4 c.ackedAt ++ [flagByte c.again, flagByte (presentableAt s c.desk p c)]

/-- The calendar with its weekday (R197, Set Clock and Read Clock). -/
def calendarBytes (c : Calendar) : List Byte := stampBytes c.stamp ++ num 1 c.weekday

/-- Read Attention, 12 bytes (R186, R197). -/
def attentionBody (s : State) : List Byte :=
  [presentableSet s] ++ num 2 s.dispatch.length ++ num 2 s.finished ++ [faultSet s, flagByte s.survey.done]
  ++ num 4 s.seconds ++ [flagByte s.lock]

end Sys2Proof.Machine
end

