-- ==== Sys2Proof/Machine/Accounts.lean ====
section
/-! DEFINITION. The commands of the Tenant Table and the Account Table (chapter 01, R187). -/

namespace Sys2Proof.Machine

/-! ## Tenants -/

/-- Set Tenant Policy (R2): the lock, the tenant number, the policy code, then the whole record but the period, each
numeric field clamped to its range. -/
def setTenantPolicyRule (tenant mono colour credit hold resume : Nat) (policy : Option QuotaPolicy) (warn : Nat)
    (pattern : Pattern) (s : State) : Reply :=
  if s.lock then refuse s .locked
  else if 31 < tenant then refuse s .badField
  else
    match policy with
    | none => refuse s .badField
    | some q =>
      let written := putTenant s tenant
        { monoRate := clamp 0 65535 mono, colourRate := clamp 0 65535 colour, duplexCredit := clamp 0 65535 credit
          holdMinutes := clamp 1 10080 hold, resumeMinutes := clamp 1 60 resume, policy := q
          warnPermille := clamp 0 1000 warn, period := (tenantRec s tenant).period }
      { state := putRollover written tenant pattern, code := .ok }

def execSetTenantPolicy (len tenant mono colour credit hold resume : BitVec 16) (policy : Byte) (warn : BitVec 16)
    (rollover : PatternFields) (s : State) : Host.Outcome State Fault Refusal :=
  request 0x10 (len == 25) (patternPresenceOk rollover)
    (setTenantPolicyRule tenant.toNat mono.toNat colour.toNat credit.toNat hold.toNat resume.toNat (policyOf policy)
      warn.toNat (clampPattern rollover)) s

/-- Read Tenant (R4). -/
def readTenantRule (tenant : Nat) (s : State) : Reply :=
  if 31 < tenant then refuse s .badField else { state := s, code := .ok, body := tenantBody s tenant }

def execReadTenant (len tenant : BitVec 16) (s : State) : Host.Outcome State Fault Refusal :=
  request 0x11 (len == 2) true (readTenantRule tenant.toNat) s

/-- Lock Policy sets the policy lock (R3, R187). -/
def execLockPolicy (len : BitVec 16) (s : State) : Host.Outcome State Fault Refusal :=
  request 0x12 (len == 0) true (fun s => { state := { s with lock := true }, code := .ok }) s

/-! ## Load Account (R9, R10) -/

/-- What Load Account carries, decoded. -/
structure LoadFields where
  number     : Nat
  state      : Option AccountState
  kind       : Option AccountKind
  tenant     : Nat
  badge      : Option Nat
  department : Option Nat
  limit      : Option Nat
  used       : Nat
deriving DecidableEq, Repr

/-- Check 1 of R9 fails: a number outside its range or a code outside its set. -/
def LoadFields.outOfRange (f : LoadFields) : Bool :=
  decide (4095 < f.number) || decide (31 < f.tenant)
  || (match f.department with
      | none => false
      | some d => decide (4095 < d))
  || f.state.isNone || f.kind.isNone

/-- Check 4 of R9 fails: the department named is FREE, a USER, of another tenant, or the loaded account itself. -/
def LoadFields.badDepartment (f : LoadFields) (s : State) : Bool :=
  match f.department with
  | none => false
  | some d =>
    let r := account s d
    r.state == .free || r.kind == .user || r.tenant != f.tenant || d == f.number

/-- Check 5 of R9 fails: another account holds the badge. -/
def LoadFields.badgeTaken (f : LoadFields) (s : State) : Bool :=
  match f.badge with
  | none => false
  | some b =>
    match badgeHolder s b with
    | none => false
    | some a => a != f.number

/-- Some USER account names the account as its department (R9 check 7, R14). -/
def userNames (s : State) (a : Nat) : Bool :=
  s.accounts.any fun e => e.2.state != .free && e.2.kind == .user && e.2.department == some a

/-- Check 6 of R9 fails: tenant, kind or department changes while a job names the account. -/
def LoadFields.jobHolds (f : LoadFields) (s : State) : Bool :=
  let r := account s f.number
  r.state != .free && (r.tenant != f.tenant || some r.kind != f.kind || r.department != f.department)
  && jobNames s f.number

/-- Check 7 of R9 fails: tenant or kind of a DEPARTMENT changes while a USER names it. -/
def LoadFields.userHolds (f : LoadFields) (s : State) : Bool :=
  let r := account s f.number
  r.state != .free && r.kind == .department && (r.tenant != f.tenant || some r.kind != f.kind)
  && userNames s f.number

/-- The two touches Load Account makes before any check (R9). -/
def LoadFields.touched (f : LoadFields) (s : State) : State :=
  touchOpt (touch s f.number) f.department

/-- A limit held to its range: above 1,000,000,000 it is clamped (R9, R11). -/
def clampLimit (l : Option Nat) : Option Nat := l.map (clamp 0 1000000000)

/-- The record Load Account writes (R10). -/
def LoadFields.record (f : LoadFields) (s : State) (st : AccountState) (k : AccountKind) : Account :=
  { state := st, kind := k, tenant := f.tenant, badge := f.badge, department := f.department
    limit := clampLimit f.limit, used := f.used
    reserved := if (account s f.number).state = .free then 0 else (account s f.number).reserved
    stamp := (tenantRec s f.tenant).period, warned := false }

/-- The writes of a Load Account that passed its checks (R10): the record, the badge map brought into line, and the end of
an open visit when the written state is SUSPENDED. -/
def LoadFields.write (f : LoadFields) (s : State) (st : AccountState) (k : AccountKind) : State :=
  let written := putAccount (moveBadge s f.number (account s f.number).badge f.badge) f.number (f.record s st k)
  if st = .suspended then endVisitOf written f.number .suspended else written

/-- Load Account: the touches, the seven checks in order, the writes (R9, R10). -/
def loadAccountRule (f : LoadFields) (s : State) : Reply :=
  let t := f.touched s
  if f.outOfRange then refuse t .badField
  else if f.kind = some .department ∧ (f.badge.isSome ∨ f.department.isSome) then refuse t .badField
  else if f.badge = some 0 then refuse t .badField
  else if f.badDepartment t then refuse t .badField
  else if f.badgeTaken t then refuse t .duplicate
  else if f.jobHolds t then refuse t .inUse
  else if f.userHolds t then refuse t .inUse
  else
    match f.state, f.kind with
    | some st, some k => { state := f.write t st k, code := .ok }
    | _, _ => refuse t .badField

def execLoadAccount (len account : BitVec 16) (state kind : Byte) (tenant : BitVec 16) (badge : Opt 24)
    (department : Opt 16) (limit : Opt 32) (used : BitVec 48) (s : State) : Host.Outcome State Fault Refusal :=
  request 0x20 (len == 24) (presenceOk badge && presenceOk department && presenceOk limit)
    (loadAccountRule
      { number := account.toNat, state := loadStateOf state, kind := accountKindOf kind, tenant := tenant.toNat
        badge := optional badge, department := optional department, limit := optional limit, used := used.toNat }) s

/-! ## The other account requests -/

/-- No account has the number, or it is FREE (R11 to R14). -/
def noAccount (s : State) (a : Nat) : Bool := decide (4095 < a) || (account s a).state == .free

/-- Set Limit (R11). -/
def setLimitRule (a : Nat) (limit : Option Nat) (s : State) : Reply :=
  if noAccount s a then refuse s .noSuch
  else
    let t := touch s a
    { state := putAccount t a { account t a with limit := clampLimit limit }, code := .ok }

def execSetLimit (len account : BitVec 16) (limit : Opt 32) (s : State) : Host.Outcome State Fault Refusal :=
  request 0x21 (len == 7) (presenceOk limit) (setLimitRule account.toNat (optional limit)) s

/-- Suspend Account (R12): an ACTIVE account becomes SUSPENDED and its open visit ends. -/
def suspendAccountRule (a : Nat) (s : State) : Reply :=
  if noAccount s a then refuse s .noSuch
  else
    let t := touch s a
    if (account t a).state = .active then
      { state := endVisitOf (putAccount t a { account t a with state := .suspended }) a .suspended, code := .ok }
    else { state := t, code := .ok }

def execSuspendAccount (len account : BitVec 16) (s : State) : Host.Outcome State Fault Refusal :=
  request 0x22 (len == 2) true (suspendAccountRule account.toNat) s

/-- Resume Account (R13). -/
def resumeAccountRule (a : Nat) (s : State) : Reply :=
  if noAccount s a then refuse s .noSuch
  else
    let t := touch s a
    { state := putAccount t a { account t a with state := .active }, code := .ok }

def execResumeAccount (len account : BitVec 16) (s : State) : Host.Outcome State Fault Refusal :=
  request 0x23 (len == 2) true (resumeAccountRule account.toNat) s

/-- Retire Account (R14): refused IN_USE while a job or a USER account names it, else its visit ends with GOODBYE (R79),
its badge leaves the map and its record takes the FREE contents. -/
def retireAccountRule (a : Nat) (s : State) : Reply :=
  if noAccount s a then refuse s .noSuch
  else
    let t := touch s a
    if jobNames t a then refuse t .inUse
    else if userNames t a then refuse t .inUse
    else
      let ended := endVisitOf t a .goodbye
      { state := putAccount (moveBadge ended a (account ended a).badge none) a {}, code := .ok }

def execRetireAccount (len account : BitVec 16) (s : State) : Host.Outcome State Fault Refusal :=
  request 0x24 (len == 2) true (retireAccountRule account.toNat) s

/-- Read Account (R15): a FREE account is answered with its FREE contents and not touched. -/
def readAccountRule (a : Nat) (s : State) : Reply :=
  if 4095 < a then refuse s .noSuch
  else
    let t := touch s a
    { state := t, code := .ok, body := accountBody a (account t a) }

def execReadAccount (len account : BitVec 16) (s : State) : Host.Outcome State Fault Refusal :=
  request 0x25 (len == 2) true (readAccountRule account.toNat) s

end Sys2Proof.Machine
end

