-- ==== Sys2Proof/Machine/Printers.lean ====
section
/-! DEFINITION. The commands of the Printer Table and the Pool Table (chapter 04), and the contact deadline. -/

namespace Sys2Proof.Machine

/-- What Enroll Printer carries, decoded: the models in the order K, C, M, Y. -/
structure EnrollFields where
  printer    : Nat
  capability : Option Capability
  modelK     : Nat
  modelC     : Nat
  modelM     : Nat
  modelY     : Nat
  deskGroup  : BitVec 8
  routeMode  : Option RouteMode
  contact    : Nat
  surveyed   : Bool
deriving DecidableEq, Repr

/-- The channels a printer of a capability uses, with the model given for each (R81). -/
def EnrollFields.models (f : EnrollFields) : Capability → List (Channel × Nat)
  | .mono => [(.k, f.modelK)]
  | .colour => [(.k, f.modelK), (.c, f.modelC), (.m, f.modelM), (.y, f.modelY)]

/-- No printer has the number, or it is not enrolled. -/
def noPrinter (s : State) (p : Nat) : Bool := decide (255 < p) || !(printer s p).enrolled

/-- A supply record at its creation, full (R116). -/
def newSupply (s : State) (m : Nat) : Supply := { model := m, level := (model s m).capacity, lastSurvey := s.seconds }

/-- The record of a newly enrolled printer (R81). -/
def EnrollFields.record (f : EnrollFields) (s : State) (cap : Capability) (mode : RouteMode) : Printer :=
  { enrolled := true, capability := cap, deskGroup := f.deskGroup, routeMode := mode
    contactMinutes := clamp 1 60 f.contact, surveyed := f.surveyed
    supplies := (f.models cap).map fun e => (e.1, newSupply s e.2) }

/-- Enroll Printer of a printer already enrolled: its settings only, refused IN_USE when the capability or a model differs
(R82). -/
def reEnroll (f : EnrollFields) (s : State) (cap : Capability) (mode : RouteMode) : Reply :=
  let r := printer s f.printer
  if r.capability ≠ cap ∨ r.supplies.map (fun e => (e.1, e.2.model)) ≠ f.models cap then refuse s .inUse
  else
    { state := putPrinter s f.printer
        { r with deskGroup := f.deskGroup, routeMode := mode, contactMinutes := clamp 1 60 f.contact, surveyed := f.surveyed }
      code := .ok }

/-- Enroll Printer (R81, R82). -/
def enrollPrinterRule (f : EnrollFields) (s : State) : Reply :=
  match f.capability, f.routeMode with
  | some cap, some mode =>
    if 255 < f.printer then refuse s .badField
    else if (f.models cap).any fun e => decide (31 < e.2) then refuse s .badField
    else if (printer s f.printer).enrolled then reEnroll f s cap mode
    else { state := putPrinter s f.printer (f.record s cap mode), code := .ok }
  | _, _ => refuse s .badField

def execEnrollPrinter (len printer : BitVec 16) (capability : Byte) (modelK modelC modelM modelY : BitVec 16)
    (deskGroup routeMode contact surveyed : Byte) (s : State) : Host.Outcome State Fault Refusal :=
  request 0x50 (len == 15) true
    (enrollPrinterRule
      { printer := printer.toNat, capability := capabilityOf capability, modelK := modelK.toNat, modelC := modelC.toNat
        modelM := modelM.toNat, modelY := modelY.toNat, deskGroup := deskGroup, routeMode := routeModeOf routeMode
        contact := contact.toNat, surveyed := flag surveyed }) s

/-- The printer out of every pool list, the others keeping their order (R83). -/
def leavePools (s : State) (p : Nat) : State :=
  (List.range 64).foldl (fun s q => putPool s q ((pool s q).filter (· != p))) s

/-- Every callout record of the printer deleted, at every desk (R162). -/
def deleteCallouts (s : State) (p : Nat) : State :=
  let gone := CondKind.all.foldl (fun s k => putCallout s p k none) s
  (List.range 8).foldl
    (fun s d => putDesk s d { desk s d with inService := (desk s d).inService.filter fun r => r.1 != p }) gone

/-- Some job in RELEASED, PRINTING or INTERRUPTED names the printer (R83). -/
def printerNamed (s : State) (p : Nat) : Bool :=
  s.jobs.any fun e => e.2.job.state.routed && e.2.job.printer == some p

/-- Retire Printer (R83, R162). -/
def retirePrinterRule (p : Nat) (s : State) : Reply :=
  if noPrinter s p then refuse s .noSuch
  else if printerNamed s p then refuse s .inUse
  else { state := putPrinter (deleteCallouts (leavePools s p) p) p {}, code := .ok }

def execRetirePrinter (len printer : BitVec 16) (s : State) : Host.Outcome State Fault Refusal :=
  request 0x51 (len == 2) true (retirePrinterRule printer.toNat) s

/-- Set Service (R84). -/
def setServiceRule (p : Nat) (on : Bool) (s : State) : Reply :=
  if noPrinter s p then refuse s .noSuch
  else { state := printerEvent s p fun r => { r with service := on }, code := .ok }

def execSetService (len printer : BitVec 16) (on : Byte) (s : State) : Host.Outcome State Fault Refusal :=
  request 0x52 (len == 3) true (setServiceRule printer.toNat (flag on)) s

/-- The channel's bit of a toner-empty set (R192). -/
def emptyFlag (empty : BitVec 8) (ch : Channel) : Bool :=
  match ch with
  | .k => empty.getLsbD 0
  | .c => empty.getLsbD 1
  | .m => empty.getLsbD 2
  | .y => empty.getLsbD 3

/-- The record after a Printer Status (R85): the reported set replaced, the contact deadline renewed, each flagged channel's
level 0. -/
def Printer.status (r : Printer) (now : Nat) (reported empty : BitVec 8) : Printer :=
  { r with
    reported := reported &&& reportedMask
    everReported := true
    noContact := false
    contactDeadline := some (deadline now (r.contactMinutes * 60))
    supplies := r.supplies.map fun e => if emptyFlag empty e.1 then (e.1, e.2.setLevel 0) else e }

/-- Printer Status, one event (R85). -/
def printerStatusRule (p : Nat) (reported empty : BitVec 8) (s : State) : Reply :=
  if noPrinter s p then refuse s .noSuch
  else { state := printerEvent s p fun r => r.status s.seconds reported empty, code := .ok }

def execPrinterStatus (len printer : BitVec 16) (reported empty : Byte) (s : State) : Host.Outcome State Fault Refusal :=
  request 0x53 (len == 4) true (printerStatusRule printer.toNat reported empty) s

/-- Read Printer (R91). -/
def readPrinterRule (p : Nat) (s : State) : Reply :=
  if 255 < p then refuse s .noSuch else { state := s, code := .ok, body := printerBody s p }

def execReadPrinter (len printer : BitVec 16) (s : State) : Host.Outcome State Fault Refusal :=
  request 0x54 (len == 2) true (readPrinterRule printer.toNat) s

/-- Contact expiry of one printer: at or below now, no_contact is set and the deadline becomes absent (R86; log 2). -/
def loseContact (s : State) (p : Nat) : State :=
  match (printer s p).contactDeadline with
  | none => s
  | some d =>
    if (printer s p).enrolled = true ∧ d ≤ s.seconds then
      printerEvent s p fun r => { r with noContact := true, contactDeadline := none }
    else s

def execContactExpiry (p : Fin 256) (s : State) : Host.Outcome State Fault Refusal :=
  event (fun s => loseContact s p.val) s

/-! ## Pools -/

/-- Set Pool is refused (R93): the pool number, more than 8 numbers, a number not of an enrolled printer, or one given
twice. -/
def badPoolList (s : State) (q : Nat) (l : List Nat) : Bool :=
  decide (63 < q) || decide (8 < l.length) || l.any (noPrinter s) || !decide l.Nodup

/-- Set Pool (R93). -/
def setPoolRule (q : Nat) (l : List Nat) (s : State) : Reply :=
  if badPoolList s q l then refuse s .badField else { state := putPool s q l, code := .ok }

/-- A Set Pool length is even and 2 to 512 (R193). -/
def setPoolLength (len : BitVec 16) : Bool := decide (2 ≤ len.toNat) && decide (len.toNat ≤ 512) && len.toNat % 2 == 0

def execSetPool (len pool : BitVec 16) (printers : List (BitVec 16)) (s : State) : Host.Outcome State Fault Refusal :=
  request 0x55 (setPoolLength len) true (setPoolRule pool.toNat (printers.map BitVec.toNat)) s

/-- Read Pool (R94). -/
def readPoolRule (q : Nat) (s : State) : Reply :=
  if 63 < q then refuse s .badField else { state := s, code := .ok, body := poolBody s q }

def execReadPool (len pool : BitVec 16) (s : State) : Host.Outcome State Fault Refusal :=
  request 0x56 (len == 2) true (readPoolRule pool.toNat) s

end Sys2Proof.Machine
end

