-- ==== Sys2Proof/Machine/Supplies.lean ====
section
/-! DEFINITION. The commands of the Supply Table and the Survey Unit (chapter 06). -/

namespace Sys2Proof.Machine

/-! ## Supply models -/

/-- Set Supply Model (R115): refused IN_USE when it would change the capacity under a supply that names the model. -/
def setSupplyModelRule (m capacity lead : Nat) (s : State) : Reply :=
  if 31 < m then refuse s .badField
  else
    let r : SupplyModel := { capacity := clamp 1 16777215 capacity, lead := clamp 1 60 lead }
    if r.capacity ≠ (model s m).capacity ∧ 0 < modelUsers s m then refuse s .inUse
    else { state := putModel s m r, code := .ok }

def execSetSupplyModel (len model : BitVec 16) (capacity : BitVec 32) (lead : Byte) (s : State) :
    Host.Outcome State Fault Refusal :=
  request 0x60 (len == 7) true (setSupplyModelRule model.toNat capacity.toNat lead.toNat) s

/-- Read Supply Model (R115). -/
def readSupplyModelRule (m : Nat) (s : State) : Reply :=
  if 31 < m then refuse s .badField else { state := s, code := .ok, body := modelBody s m }

def execReadSupplyModel (len model : BitVec 16) (s : State) : Host.Outcome State Fault Refusal :=
  request 0x61 (len == 2) true (readSupplyModelRule model.toNat) s

/-! ## Supplies -/

/-- Read Supplies (R117). -/
def readSuppliesRule (p : Nat) (s : State) : Reply :=
  if noPrinter s p then refuse s .noSuch else { state := s, code := .ok, body := suppliesBody s p }

def execReadSupplies (len printer : BitVec 16) (s : State) : Host.Outcome State Fault Refusal :=
  request 0x62 (len == 2) true (readSuppliesRule printer.toNat) s

/-- The gauge figure of a percent, which is clamped to 100 (R122). -/
def gaugeFigure (capacity percent : Nat) : Nat := min percent 100 * capacity / 100

/-- The gauge figure and the level differ by more than the tolerance (R122). -/
def beyondTolerance (capacity level gauge : Nat) : Bool :=
  decide (capacity / 10 < gauge - level) || decide (capacity / 10 < level - gauge)

/-- The level a Supply Report leaves (R122). -/
def reportedLevel (capacity level percent : Nat) : Nat :=
  if beyondTolerance capacity level (gaugeFigure capacity percent) then gaugeFigure capacity percent else level

/-- The checks of Supply Report and Supply Replaced in order, then their effect on the supply (R122, R123). -/
def onSupply (p : Nat) (channel : Option Channel) (effect : Channel → Supply → Reply) (s : State) : Reply :=
  if noPrinter s p then refuse s .noSuch
  else
    match channel with
    | none => refuse s .badField
    | some ch =>
      match (printer s p).supply ch with
      | none => refuse s .noSuch
      | some x => effect ch x

/-- Supply Report (R122). -/
def supplyReportRule (p : Nat) (channel : Option Channel) (percent : Nat) (s : State) : Reply :=
  onSupply p channel (fun ch x =>
    let capacity := (model s x.model).capacity
    let level := reportedLevel capacity x.level percent
    { state := printerEvent s p fun r => r.mapSupply ch fun y => y.setLevel level
      code := .ok
      body := num 4 level ++ [flagByte (beyondTolerance capacity x.level (gaugeFigure capacity percent))] }) s

def execSupplyReport (len printer : BitVec 16) (channel percent : Byte) (s : State) :
    Host.Outcome State Fault Refusal :=
  request 0x63 (len == 4) true (supplyReportRule printer.toNat (channelOf channel) percent.toNat) s

/-- A supply with a new cartridge (R123). -/
def Supply.replaced (x : Supply) (capacity : Nat) : Supply :=
  { x with level := capacity, accumulator := 0, reorder := .none, low := false, forecast := none }

/-- Supply Replaced (R123). -/
def supplyReplacedRule (p : Nat) (channel : Option Channel) (s : State) : Reply :=
  onSupply p channel (fun ch x =>
    { state := printerEvent s p fun r => r.mapSupply ch fun y => y.replaced (model s x.model).capacity
      code := .ok }) s

def execSupplyReplaced (len printer : BitVec 16) (channel : Byte) (s : State) : Host.Outcome State Fault Refusal :=
  request 0x64 (len == 3) true (supplyReplacedRule printer.toNat (channelOf channel)) s

/-! ## The survey -/

/-- A survey starts with a scope (R125, R126). -/
def startSurvey (s : State) (scope : Scope) : State :=
  { s with survey := { s.survey with
      scope := some scope
      cursor := match scope with
        | .all => 0
        | .one p => p } }

/-- A match of the survey pattern: it starts a survey of all printers, or is skipped while one is in flight (R125). -/
def surveyMatch (s : State) : State := if s.survey.scope.isSome then s else startSurvey s .all

/-- The printer Survey Now names does not exist (R126). -/
def badSurveyPrinter (s : State) : Option Nat → Bool
  | none => false
  | some p => noPrinter s p

/-- Survey Now (R126). -/
def surveyNowRule (p : Option Nat) (s : State) : Reply :=
  if badSurveyPrinter s p then refuse s .noSuch
  else if s.survey.scope.isSome then refuse s .busy
  else
    { state := startSurvey s (match p with
        | none => .all
        | some p => .one p)
      code := .ok }

def execSurveyNow (len : BitVec 16) (printer : Opt 16) (s : State) : Host.Outcome State Fault Refusal :=
  request 0x65 (len == 3) (presenceOk printer) (surveyNowRule (optional printer)) s

/-- Whether Read Survey's scope printer bytes are a free value, whose drawing the model counts (log 21). -/
def drawsScopeFill (s : State) : Bool :=
  match s.survey.scope with
  | some (.one _) => false
  | _ => true

/-- Read Survey (R131). It changes nothing of the part's. -/
def readSurveyRule (s : State) : Reply :=
  { state := { s with draws := s.draws + oneIf (drawsScopeFill s) }, code := .ok, body := surveyBody s }

def execReadSurvey (len : BitVec 16) (s : State) : Host.Outcome State Fault Refusal :=
  request 0x66 (len == 0) true readSurveyRule s

/-- A printer the survey of a scope visits (R127). -/
def surveyEligible (s : State) (scope : Scope) (p : Nat) : Bool :=
  (printer s p).enrolled
  && (match scope with
      | .all => (printer s p).surveyed
      | .one q => p == q)

/-- The lowest eligible printer at or above a cursor (R127). -/
def nextSurveyed (s : State) (scope : Scope) (cursor : Nat) : Option Nat :=
  firstFrom (surveyEligible s scope) cursor (256 - cursor)

/-- The whole minutes since a supply's last computation (R128). -/
def surveyElapsed (now : Nat) (x : Supply) : Nat := (now - x.lastSurvey) / 60

/-- The daily figure (R128 step 1). -/
def dailyFigure (now : Nat) (x : Supply) : Nat := x.accumulator * 1440 / surveyElapsed now x

/-- The usage a computation gives (R128 step 2). -/
def newUsage (now : Nat) (x : Supply) : Nat :=
  match x.usage with
  | none => dailyFigure now x
  | some u => (7 * u + dailyFigure now x) / 8

/-- The forecast of a level under a usage (R129 step 1). -/
def forecastOf (level usage : Nat) : Nat :=
  if usage = 0 then 999 else if 999 < level / usage then 999 else level / usage

/-- A supply after a visit: skipped under an hour, else usage, forecast, the low edge and the low flag (R128, R129). -/
def Supply.visited (x : Supply) (now lead : Nat) : Supply :=
  if surveyElapsed now x < 60 then x
  else
    let usage := newUsage now x
    let forecast := forecastOf x.level usage
    let newLow := decide (forecast ≤ lead)
    { x with
      usage := some usage
      accumulator := 0
      lastSurvey := now
      forecast := some forecast
      reorder := if x.low = false ∧ newLow = true ∧ x.reorder = .none then .due else x.reorder
      low := newLow }

/-- A visit to printer `p`: its supplies in the order K, C, M, Y, the condition set compared once at the end (R128,
R129). -/
def visitPrinter (s : State) (p : Nat) : State :=
  printerEvent s p fun r =>
    { r with supplies := r.supplies.map fun e => (e.1, e.2.visited s.seconds (model s e.2.model).lead) }

/-- The survey completes (R131). -/
def completeSurvey (s : State) : State := { s with survey := { scope := none, cursor := 0, done := true } }

/-- A survey step: a visit to the next eligible printer, and completion when none remains (R127, R131). -/
def surveyOnce (s : State) : State :=
  match s.survey.scope with
  | none => s
  | some scope =>
    match nextSurveyed s scope s.survey.cursor with
    | none => completeSurvey s
    | some p =>
      let seen := visitPrinter s p
      let moved := { seen with survey := { seen.survey with cursor := p + 1 } }
      match nextSurveyed moved scope (p + 1) with
      | none => completeSurvey moved
      | some _ => moved

/-- A survey tick: it has no effect while no survey is in flight (R163). -/
def execSurveyStep (s : State) : Host.Outcome State Fault Refusal := event surveyOnce s

end Sys2Proof.Machine
end

