-- ==== Sys2Proof/Machine/CalendarUnit.lean ====
section
/-! DEFINITION. The Calendar Unit: the fleet seconds count, the calendar, patterns and their matches (chapter 08). -/

namespace Sys2Proof.Machine

/-! ## Dates -/

/-- A leap year of 0 to 99 (R167). -/
def leapYear (y : Nat) : Bool := y % 4 == 0

/-- The length of a month (R167). -/
def monthLength (y m : Nat) : Nat :=
  match m with
  | 2 => if leapYear y then 29 else 28
  | 4 => 30 | 6 => 30 | 9 => 30 | 11 => 30
  | _ => 31

/-- The days of year `y` before month `n + 1`. -/
def daysBeforeMonth (y : Nat) : Nat → Nat
  | 0 => 0
  | n + 1 => daysBeforeMonth y n + monthLength y (n + 1)

/-- The days from 1 January 2000 to 1 January of year `y` of the century. -/
def daysBeforeYear : Nat → Nat
  | 0 => 0
  | y + 1 => daysBeforeYear y + (if leapYear y then 366 else 365)

/-- The number of days from 1 January 2000 (R168). -/
def dayNumber (y m d : Nat) : Nat := daysBeforeYear y + daysBeforeMonth y (m - 1) + (d - 1)

/-- The weekday of a date, Monday 1 to Sunday 7 (R168). -/
def weekdayOf (y m d : Nat) : Nat := (dayNumber y m d + 5) % 7 + 1

/-- A calendar whose weekday is derived again when its day changed (R166, R168). -/
def Calendar.withWeekday (c : Calendar) : Calendar := { c with weekday := weekdayOf c.year c.month c.day }

/-- The day advanced, carrying into month and year (R166 steps 3 to 6). -/
def Calendar.nextDay (c : Calendar) : Calendar :=
  Calendar.withWeekday <|
    if c.day + 1 ≤ monthLength c.year c.month then { c with day := c.day + 1 }
    else if c.month + 1 < 13 then { c with day := 1, month := c.month + 1 }
    else { c with day := 1, month := 1, year := if c.year + 1 < 100 then c.year + 1 else 0 }

/-- The calendar advanced by one second (R166). -/
def Calendar.advance (c : Calendar) : Calendar :=
  if c.second + 1 < 60 then { c with second := c.second + 1 }
  else if c.minute + 1 < 60 then { c with second := 0, minute := c.minute + 1 }
  else if c.hour + 1 < 24 then { c with second := 0, minute := 0, hour := c.hour + 1 }
  else Calendar.nextDay { c with second := 0, minute := 0, hour := 0 }

/-! ## The seconds event and the minute boundary -/

/-- A seconds event (R164, R166): the count rises by one and stays at its top; the calendar advances; an advance that
leaves second at 0 has reached a minute boundary, whose patterns MINUTE_BOUNDARY tests (log 3). -/
def takeSecond (s : State) : State :=
  let c := s.calendar.advance
  { s with
    seconds := if s.seconds < maxCount then s.seconds + 1 else s.seconds
    calendar := c
    boundaries := if c.second = 0 then s.boundaries ++ [c] else s.boundaries }

def execSecondsEvent (s : State) : Host.Outcome State Fault Refusal := event takeSecond s

/-- A pattern field agrees with a calendar field: ANY agrees with every value (R174). -/
def agrees (field : Option Nat) (v : Nat) : Bool :=
  match field with
  | none => true
  | some x => x == v

/-- A pattern record matches a calendar minute (R174). -/
def Pattern.matches (p : Pattern) (c : Calendar) : Bool :=
  agrees p.minute c.minute && agrees p.hour c.hour && agrees p.weekday c.weekday && agrees p.day c.day
  && agrees p.month c.month

/-- The period of tenant `t` advanced by one, after 4,294,967,295 to 0 (R5). -/
def advancePeriod (s : State) (t : Nat) : State :=
  putTenant s t { tenantRec s t with period := ((tenantRec s t).period + 1) % 4294967296 }

/-- The rollover pattern of tenant `t` tested at a boundary (R174, R175). -/
def testRollover (c : Calendar) (s : State) (t : Nat) : State :=
  if (rollover s t).matches c then advancePeriod s t else s

/-- The 33 pattern records tested at a boundary reached with calendar `c` (R174, R175). -/
def testPatterns (s : State) (c : Calendar) : State :=
  let periods := (List.range 32).foldl (testRollover c) s
  if periods.surveyPattern.matches c then surveyMatch periods else periods

/-- A minute boundary: the oldest boundary reached and not yet tested is tested; with none, nothing (log 3). -/
def takeBoundary (s : State) : State :=
  match s.boundaries with
  | [] => s
  | c :: rest => testPatterns { s with boundaries := rest } c

def execMinuteBoundary (s : State) : Host.Outcome State Fault Refusal := event takeBoundary s

/-! ## Clock and pattern requests -/

/-- The calendar Set Clock writes: each field clamped, the day last, the weekday derived (R168, R169). -/
def clampedCalendar (year month day hour minute second : Nat) : Calendar :=
  let y := clamp 0 99 year
  let m := clamp 1 12 month
  Calendar.withWeekday
    { year := y, month := m, day := clamp 1 (monthLength y m) day, hour := clamp 0 23 hour, minute := clamp 0 59 minute
      second := clamp 0 59 second, weekday := 0 }

/-- Set Clock (R169). -/
def setClockRule (c : Calendar) (s : State) : Reply :=
  { state := { s with calendar := c }, code := .ok, body := calendarBytes c }

def execSetClock (len : BitVec 16) (year month day hour minute second : Byte) (s : State) :
    Host.Outcome State Fault Refusal :=
  request 0x80 (len == 6) true
    (setClockRule (clampedCalendar year.toNat month.toNat day.toNat hour.toNat minute.toNat second.toNat)) s

/-- Read Clock (R171). -/
def execReadClock (len : BitVec 16) (s : State) : Host.Outcome State Fault Refusal :=
  request 0x81 (len == 0) true
    (fun s => { state := s, code := .ok, body := calendarBytes s.calendar ++ num 4 s.seconds }) s

/-- Set Survey Pattern (R173). -/
def execSetSurveyPattern (len : BitVec 16) (pattern : PatternFields) (s : State) : Host.Outcome State Fault Refusal :=
  request 0x82 (len == 10) (patternPresenceOk pattern)
    (fun s => { state := { s with surveyPattern := clampPattern pattern }, code := .ok
                body := patternBytes (clampPattern pattern) }) s

/-- Read Pattern (R173). -/
def readPatternRule (n : Nat) (s : State) : Reply :=
  if 32 < n then refuse s .badField else { state := s, code := .ok, body := patternBytes (patternRec s n) }

def execReadPattern (len : BitVec 16) (pattern : Byte) (s : State) : Host.Outcome State Fault Refusal :=
  request 0x83 (len == 1) true (readPatternRule pattern.toNat) s

/-- Read Attention (R186): the items as they stand, then survey_done cleared. -/
def readAttentionRule (s : State) : Reply :=
  { state := { s with survey := { s.survey with done := false } }, code := .ok, body := attentionBody s }

def execReadAttention (len : BitVec 16) (s : State) : Host.Outcome State Fault Refusal :=
  request 0x90 (len == 0) true readAttentionRule s

end Sys2Proof.Machine
end

