-- ==== Sys2Proof/Machine/Callouts.lean ====
section
/-! DEFINITION. The commands of the Callout Controller (chapter 07). -/

namespace Sys2Proof.Machine

/-! ## The condition table, classes and desk modes -/

/-- Set Condition (R137): the lock, then the codes. -/
def setConditionRule (kind : Option CondKind) (cls : Nat) (sense : Option Sense) (autoClose : Bool) (s : State) : Reply :=
  if s.lock then refuse s .locked
  else
    match kind, sense with
    | some k, some e =>
      if 3 < cls then refuse s .badField
      else { state := putCondEntry s k { cls := cls, sense := e, autoClose := autoClose }, code := .ok }
    | _, _ => refuse s .badField

def execSetCondition (len : BitVec 16) (kind cls sense autoClose : Byte) (s : State) : Host.Outcome State Fault Refusal :=
  request 0x70 (len == 4) true
    (setConditionRule (condKindOf kind.toNat) cls.toNat (senseOf sense) (flag autoClose)) s

/-- Read Condition Table (R137). -/
def execReadConditionTable (len : BitVec 16) (s : State) : Host.Outcome State Fault Refusal :=
  request 0x71 (len == 0) true (fun s => { state := s, code := .ok, body := conditionTableBody s }) s

/-- Set Class Mode keeps the base (R146). -/
def setClassModeRule (c : Nat) (mode : Option ClassMode) (s : State) : Reply :=
  match mode with
  | none => refuse s .badField
  | some m => if 3 < c then refuse s .badField else { state := putClass s c { classRec s c with mode := m }, code := .ok }

def execSetClassMode (len : BitVec 16) (cls mode : Byte) (s : State) : Host.Outcome State Fault Refusal :=
  request 0x72 (len == 2) true (setClassModeRule cls.toNat (classModeOf mode)) s

/-- Set Class Base writes the base in either mode (R146). -/
def setClassBaseRule (c base : Nat) (s : State) : Reply :=
  if 3 < c ∨ 255 < base then refuse s .badField
  else { state := putClass s c { classRec s c with base := base }, code := .ok }

def execSetClassBase (len : BitVec 16) (cls : Byte) (base : BitVec 16) (s : State) : Host.Outcome State Fault Refusal :=
  request 0x73 (len == 3) true (setClassBaseRule cls.toNat base.toNat) s

/-- Read Classes (R146). -/
def execReadClasses (len : BitVec 16) (s : State) : Host.Outcome State Fault Refusal :=
  request 0x74 (len == 0) true (fun s => { state := s, code := .ok, body := classesBody s }) s

/-- Set Desk Mode keeps the in-service list (R148). -/
def setDeskModeRule (d : Nat) (mode : Option DeskMode) (s : State) : Reply :=
  match mode with
  | none => refuse s .badField
  | some m => if 7 < d then refuse s .badField else { state := putDesk s d { desk s d with mode := m }, code := .ok }

def execSetDeskMode (len : BitVec 16) (desk mode : Byte) (s : State) : Host.Outcome State Fault Refusal :=
  request 0x75 (len == 2) true (setDeskModeRule desk.toNat (deskModeOf mode)) s

/-! ## Retirement (R152) -/

/-- The re-raise test reads the retired record's sense and again flag and the condition as it stands (R152 step 3). -/
def reRaises (s : State) (p : Nat) (k : CondKind) (c : Callout) : Bool :=
  match c.sense with
  | .level => (printer s p).condition k
  | .edge => c.again

/-- The record `c` of printer `p` and kind `k` retired: out of its desk's list and removed, the DUE supplies ordered for a
TONER_REORDER record, then the re-raise test (R152). -/
def retireCallout (s : State) (p : Nat) (k : CondKind) (c : Callout) : State :=
  let left := match c.state with
    | .pending => s
    | .inService => putDesk s c.desk { desk s c.desk with inService := (desk s c.desk).inService.filter (· != (p, k)) }
  let removed := putCallout left p k none
  let ordered := if k = .tonerReorder then orderDue removed p else removed
  if reRaises ordered p k c then raiseCallout ordered p k else ordered

/-! ## Acknowledge (R153 to R155) -/

/-- The class base written at an acknowledge of a record of class `c` of printer `p` when the class is ROTATING (R153 step
1). -/
def rotateBase (s : State) (c p : Nat) : State :=
  match (classRec s c).mode with
  | .fixed => s
  | .rotating => putClass s c { classRec s c with base := p }

/-- The record put IN_SERVICE at the tail of desk `d`'s list (R153 step 2). -/
def putInService (s : State) (d p : Nat) (k : CondKind) (c : Callout) : State :=
  let taken := putCallout s p k (some { c with state := .inService, ackedAt := some s.seconds })
  putDesk taken d { desk taken d with inService := (desk taken d).inService ++ [(p, k)] }

/-- The record taken by an acknowledge at desk `d`: retired when it carries auto_close, else put in service with the DUE
supplies ordered for a TONER_REORDER record (R153 steps 1 to 3, R155). -/
def takeCallout (s : State) (d p : Nat) (k : CondKind) (c : Callout) : State :=
  let rotated := rotateBase s c.cls p
  if c.autoClose then retireCallout rotated p k c
  else
    let served := putInService rotated d p k c
    if k = .tonerReorder then orderDue served p else served

/-- Acknowledge Callout (R153): the first presentable record of the desk in the priority order, or NONE. -/
def acknowledgeRule (d : Nat) (s : State) : Reply :=
  if 7 < d then refuse s .badField
  else
    match leastByKey (priority s) (presentableList s d) with
    | none => { state := s, code := .none }
    | some (p, k, c) => { state := takeCallout s d p k c, code := .ok, body := noticeBody s d p k c }

def execAcknowledgeCallout (len : BitVec 16) (desk : Byte) (s : State) : Host.Outcome State Fault Refusal :=
  request 0x76 (len == 1) true (acknowledgeRule desk.toNat) s

/-! ## Close (R157, R158) -/

/-- Close Callout, specific form (R157). -/
def closeSpecificRule (d p : Nat) (kind : Option CondKind) (s : State) : Reply :=
  match kind with
  | none => refuse s .badField
  | some k =>
    if 7 < d ∨ 255 < p then refuse s .badField
    else
      match callout s p k with
      | none => refuse s .noSuch
      | some c =>
        if c.state = .inService ∧ c.desk = d then { state := retireCallout s p k c, code := .ok }
        else refuse s .noSuch

/-- Close Callout in its specific form. A frame of kind 77h whose length is neither 1 nor 4 is refused here (log 7). -/
def execCloseCalloutSpecific (len : BitVec 16) (desk : Byte) (printer : BitVec 16) (kind : Byte) (s : State) :
    Host.Outcome State Fault Refusal :=
  request 0x77 (len == 4) true (closeSpecificRule desk.toNat printer.toNat (condKindOf kind.toNat)) s

/-- The record a non-specific close of desk `d` chooses: the lowest class number, the latest to join of those (R158). -/
def closeChoice (s : State) (d : Nat) : Option (Nat × CondKind) :=
  leastByKey (inServiceClass s) (desk s d).inService.reverse

/-- Close Callout, non-specific form (R158). -/
def closeNonSpecificRule (d : Nat) (s : State) : Reply :=
  if 7 < d then refuse s .badField
  else if (desk s d).mode = .opened then refuse s .needsSpecific
  else
    match closeChoice s d with
    | none => refuse s .noSuch
    | some (p, k) =>
      match callout s p k with
      | none => refuse s .noSuch
      | some c => { state := retireCallout s p k c, code := .ok, body := num 2 p ++ [k.byte] }

def execCloseCalloutNonSpecific (len : BitVec 16) (desk : Byte) (s : State) : Host.Outcome State Fault Refusal :=
  request 0x77 (len == 1) true (closeNonSpecificRule desk.toNat) s

/-! ## Reading -/

/-- Read Desk (R160). -/
def readDeskRule (d : Nat) (s : State) : Reply :=
  if 7 < d then refuse s .badField else { state := s, code := .ok, body := deskBody s d }

def execReadDesk (len : BitVec 16) (desk : Byte) (s : State) : Host.Outcome State Fault Refusal :=
  request 0x78 (len == 1) true (readDeskRule desk.toNat) s

/-- Read Callouts (R161). -/
def readCalloutsRule (p : Nat) (s : State) : Reply :=
  if 255 < p then refuse s .badField else { state := s, code := .ok, body := calloutsBody s p }

def execReadCallouts (len printer : BitVec 16) (s : State) : Host.Outcome State Fault Refusal :=
  request 0x79 (len == 2) true (readCalloutsRule printer.toNat) s

end Sys2Proof.Machine
end

