-- ==== Sys2Proof/Machine/Jobs.lean ====
section
/-! DEFINITION. The commands that hold, read, find, cancel and remove jobs (chapter 02). -/

namespace Sys2Proof.Machine

/-- What Hold Job carries, decoded. A pool of `none` is ANY. -/
structure HoldFields where
  owner       : Nat
  pool        : Option Nat
  sidesMono   : Nat
  sidesColour : Nat
  copies      : Nat
  size        : Option Size
  duplex      : Bool
  covK        : Nat
  covC        : Nat
  covM        : Nat
  covY        : Nat
deriving DecidableEq, Repr

/-- Check 1 of R30 fails: the pool is neither ANY nor 0 to 63. -/
def HoldFields.badPool (f : HoldFields) : Bool :=
  match f.pool with
  | none => false
  | some q => decide (63 < q)

/-- The job record Hold Job writes (R31). -/
def HoldFields.record (f : HoldFields) (s : State) (size : Size) : Job :=
  { state := .held, owner := f.owner, pool := f.pool, sidesMono := clamp 0 9999 f.sidesMono
    sidesColour := clamp 0 9999 f.sidesColour, copies := clamp 0 999 f.copies, size := size, duplex := f.duplex
    covK := clamp 0 1000 f.covK, covC := clamp 0 1000 f.covC, covM := clamp 0 1000 f.covM, covY := clamp 0 1000 f.covY
    heldAt := s.seconds
    expiresAt := deadline s.seconds ((tenantRec s (account s f.owner).tenant).holdMinutes * 60) }

/-- Hold Job: the checks of R30 in order, with the owner touched at the third, then R31. -/
def holdJobRule (f : HoldFields) (s : State) : Reply :=
  match f.size with
  | none => refuse s .badField
  | some size =>
    if f.badPool then refuse s .badField
    else if 4095 < f.owner ∨ (account s f.owner).state = .free then refuse s .noSuch
    else
      let t := touch s f.owner
      if (account t f.owner).kind = .department then refuse t .badField
      else if (f.sidesMono = 0 ∧ f.sidesColour = 0) ∨ f.copies = 0 then refuse t .badField
      else
        match freeSlot t with
        | none => refuse t .tableFull
        | some i => { state := putJob t i (f.record t size), code := .ok, body := num 2 (handleOf t i) }

def execHoldJob (len owner : BitVec 16) (pool : Opt 16) (sidesMono sidesColour copies : BitVec 16) (size duplex : Byte)
    (covK covC covM covY : BitVec 16) (s : State) : Host.Outcome State Fault Refusal :=
  request 0x30 (len == 21) (presenceOk pool)
    (holdJobRule
      { owner := owner.toNat, pool := optional pool, sidesMono := sidesMono.toNat, sidesColour := sidesColour.toNat
        copies := copies.toNat, size := sizeOf size, duplex := flag duplex, covK := covK.toNat, covC := covC.toNat
        covM := covM.toNat, covY := covY.toNat }) s

/-- Read Job (R34). -/
def readJobRule (h : Nat) (s : State) : Reply :=
  match resolve s h with
  | none => refuse s .noSuch
  | some i => { state := s, code := .ok, body := jobBody h (job s i) }

def execReadJob (len handle : BitVec 16) (s : State) : Host.Outcome State Fault Refusal :=
  request 0x31 (len == 2) true (readJobRule handle.toNat) s

/-- A job matches the filters of Find Jobs (R38). -/
def findMatches (owner : Option Nat) (st : Option JobState) (j : Job) : Bool :=
  j.state != .free && (owner == none || owner == some j.owner) && (st == none || st == some j.state)

/-- The slots Find Jobs finds from slot `start` on, in slot order (R38). -/
def foundSlots (s : State) (start : Nat) (owner : Option Nat) (st : Option JobState) : List Nat :=
  (s.jobs.filter fun e => decide (start ≤ e.1) && findMatches owner st e.2.job).map (·.1)

/-- A filter value of Find Jobs is outside its set: an owner above 4,095, or a state code that names no job state or FREE
(R38). -/
def badFilter (owner state : Option Nat) : Bool :=
  (match owner with
   | none => false
   | some a => decide (4095 < a))
  || (match state with
      | none => false
      | some n => jobStateOf n == none || jobStateOf n == some .free)

/-- Find Jobs (R38): the first 16 matching handles in slot order and the more flag. -/
def findJobsRule (start : Nat) (owner state : Option Nat) (s : State) : Reply :=
  if 32767 < start ∨ badFilter owner state then refuse s .badField
  else
    let found := foundSlots s (start % 2048) owner (state.bind jobStateOf)
    { state := s, code := .ok
      body := findBody (decide (16 < found.length)) ((found.take 16).map (handleOf s)) }

def execFindJobs (len start : BitVec 16) (owner : Opt 16) (state : Opt 8) (s : State) :
    Host.Outcome State Fault Refusal :=
  request 0x32 (len == 7) (presenceOk owner && presenceOk state)
    (findJobsRule start.toNat (optional owner) (optional state)) s

/-- Cancel Job of a HELD job (R35). -/
def cancelHeld (s : State) (i : Nat) : State :=
  putJob s i { job s i with state := .cancelled, outcome := some .cancelledByUser }

/-- Cancel Job of a RELEASED or INTERRUPTED job (R36): off the Dispatch List, Return, the queue count lowered, CANCELLED. -/
def cancelRouted (s : State) (i : Nat) : State :=
  let off := if (job s i).state = .released then { s with dispatch := s.dispatch.filter (· != handleOf s i) } else s
  let lowered := lowerQueue (returnReservation off i) (job s i).printer
  putJob lowered i { job lowered i with resumeDeadline := none, state := .cancelled, outcome := some .cancelledByUser }

/-- Cancel Job (R35, R36). -/
def cancelJobRule (h : Nat) (s : State) : Reply :=
  match resolve s h with
  | none => refuse s .noSuch
  | some i =>
    match (job s i).state with
    | .held => { state := cancelHeld s i, code := .ok }
    | .released => { state := cancelRouted s i, code := .ok }
    | .interrupted => { state := cancelRouted s i, code := .ok }
    | _ => refuse s .wrongState

def execCancelJob (len handle : BitVec 16) (s : State) : Host.Outcome State Fault Refusal :=
  request 0x33 (len == 2) true (cancelJobRule handle.toNat) s

/-- Remove Job (R37): the slot takes the FREE contents and its generation advances, after 15 to 0. -/
def removeJobRule (h : Nat) (s : State) : Reply :=
  match resolve s h with
  | none => refuse s .noSuch
  | some i =>
    if (job s i).state.finished then
      { state := putSlot s i { generation := ((slot s i).generation + 1) % 16, job := {} }, code := .ok }
    else refuse s .wrongState

def execRemoveJob (len handle : BitVec 16) (s : State) : Host.Outcome State Fault Refusal :=
  request 0x34 (len == 2) true (removeJobRule handle.toNat) s

end Sys2Proof.Machine
end

