-- ==== Sys2Proof/Machine/Link.lean ====
section
/-! DEFINITION. The Host Link Port's frames that are no request, and full reset (chapter 09). -/

namespace Sys2Proof.Machine

/-- The bits driven over `n` clock edges of a response read: filler under the kind byte, the response, each byte most
significant bit first, and filler after its last byte (R177, R180, R194). -/
def readOut (r : Response) (n : Nat) : List Bool :=
  (List.replicate 8 true ++ (responseBytes r).flatMap bitsOf ++ List.replicate n true).take n

/-- A response read shifts out the latest response and changes neither it nor its number (R179, R180). A frame that meets
the port in RESET or STARTING is not taken. -/
def execResponseRead (clocks : Nat) (s : State) : Host.Outcome State Fault Refusal :=
  .next (if !running s then s else passFrame s (.shifted (readOut s.response clocks)))

/-- A short frame is answered SHORT_FRAME with no kind, and nothing is applied (R179, R181). -/
def execShortFrame (s : State) : Host.Outcome State Fault Refusal :=
  request 0x00 true true (fun s => refuse s .shortFrame) s

/-- A frame of unknown kind is answered BAD_KIND with the code it carried (R181, R194). -/
def execBadKind (kind : Byte) (s : State) : Host.Outcome State Fault Refusal :=
  request kind true true (fun s => refuse s .badKind) s

/-- A frame whose select fell during STARTING is discarded when its select rises, whenever that is: it writes no response,
leaves the records as they are and never enters SELECTED (R177, R190). What HSDO shows in it is a free value (log 24); in RESET
HSDO stays at high impedance (R177). -/
def execDiscardedStartingFrame (s : State) : Host.Outcome State Fault Refusal :=
  .next <|
    match s.port with
    | .reset => s
    | _ => { releaseHsdo { s with hsdo := .unstated s.draws } with draws := s.draws + 1 }

/-- RESET_N driven low, or the supply below its operating level (R189). -/
def execFullReset (cause : ResetCause) (s : State) : Host.Outcome State Fault Refusal :=
  .next <|
    match cause with
    | .pin => enterReset s true s.supplyLow
    | .supply => enterReset s s.resetPinLow true

/-- The supply rises: the part holds itself in full reset until it reaches its operating level (R191). -/
def execPowerOn (s : State) : Host.Outcome State Fault Refusal := .next (enterReset s s.resetPinLow true)

/-- RESET_N released with the supply at its operating level: the port enters STARTING (R190). It happens in RESET only. -/
def execResetRelease (s : State) : Host.Outcome State Fault Refusal :=
  .next <|
    match s.port with
    | .reset => { enterReset s false false with port := .starting }
    | _ => s

/-- STARTING ends: the records hold their reset values and the port enters DESELECTED (R190). It happens in STARTING
only. -/
def execStartingEnd (s : State) : Host.Outcome State Fault Refusal :=
  .next <|
    match s.port with
    | .starting => { enterReset s s.resetPinLow s.supplyLow with port := .deselected }
    | _ => s

end Sys2Proof.Machine
end

