-- ==== Sys2Proof/Machine/Printing.lean ====
section
/-! DEFINITION. Taking work from the Dispatch List, progress reports and end reports (chapter 05). -/

namespace Sys2Proof.Machine

/-- The job of slot `i` dispatched to printer `p`: PRINTING there (R99, R100). -/
def dispatchJob (s : State) (i p : Nat) : State := putJob s i { job s i with state := .printing, printer := some p }

/-- The job of slot `i` re-routed to printer `p` and dispatched: the old printer's queue count falls, the given printer's
rises (R100). -/
def rerouteJob (s : State) (i p : Nat) : State := dispatchJob (raiseQueue (lowerQueue s (job s i).printer) p) i p

/-- Take Dispatch over the handles of the Dispatch List, head first, `reverted` jobs reverted so far: the head is
dispatched when it fits its printer (R99), re-routed when the Router gives one (R100), else reverted and the next head is
examined (R101). -/
def takeFrom (s : State) (reverted : Nat) : List Nat → Reply
  | [] => { state := { s with dispatch := [] }, code := .empty, body := num 2 reverted }
  | h :: rest =>
    let i := h % 2048
    let off := { s with dispatch := rest }
    if fits s (job s i) then
      let p := (job s i).printer.getD 0
      { state := dispatchJob off i p, code := .ok, body := takenBody h p (job s i) false reverted }
    else
      match route s ((job s i).releasePool.getD 0) (printNeed (job s i)) with
      | some p => { state := rerouteJob off i p, code := .ok, body := takenBody h p (job s i) true reverted }
      | none => takeFrom (giveUpRelease off i) (reverted + 1) rest

/-- Take Dispatch (R99 to R101). -/
def execTakeDispatch (len : BitVec 16) (s : State) : Host.Outcome State Fault Refusal :=
  request 0x35 (len == 0) true (fun s => takeFrom s 0 s.dispatch) s

/-- Read Dispatch (R103). -/
def execReadDispatch (len : BitVec 16) (s : State) : Host.Outcome State Fault Refusal :=
  request 0x36 (len == 0) true (fun s => { state := s, code := .ok, body := dispatchBody s }) s

/-- PRINTING or INTERRUPTED: the states that take progress and end reports (R104, R106). -/
def reportable (j : Job) : Bool := j.state == .printing || j.state == .interrupted

/-- `k` copies newly reported for the job of slot `i`: Commit, then consumption (R105); nothing for none. -/
def reportCopies (s : State) (i k : Nat) : State := if k = 0 then s else consume (commit s i k) i k

/-- Report Progress (R104, R105). A count above copies is clamped; one at or below copies_done adds nothing. -/
def reportProgressRule (h count : Nat) (s : State) : Reply :=
  match resolve s h with
  | none => refuse s .noSuch
  | some i =>
    if !reportable (job s i) then refuse s .wrongState
    else { state := reportCopies s i (min count (job s i).copies - (job s i).copiesDone), code := .ok }

def execReportProgress (len handle count : BitVec 16) (s : State) : Host.Outcome State Fault Refusal :=
  request 0x37 (len == 4) true (reportProgressRule handle.toNat count.toNat) s

/-- The checks 2 and 3 of R106, then the effect of an accepted outcome on the job of the slot named. -/
def jobEndRule (effect : State → Nat → State) (h : Nat) (s : State) : Reply :=
  match resolve s h with
  | none => refuse s .noSuch
  | some i => if !reportable (job s i) then refuse s .wrongState else { state := effect s i, code := .ok }

/-- COMPLETE (R106): the copies left are committed and consumed, the queue count falls, the job is DONE. -/
def completeJob (s : State) (i : Nat) : State :=
  let reported := reportCopies s i ((job s i).copies - (job s i).copiesDone)
  let lowered := lowerQueue reported (job s i).printer
  putJob lowered i { job lowered i with resumeDeadline := none, state := .done, outcome := some .complete }

/-- CANCELLED_AT_PRINTER (R107): Return, the queue count falls, the job is CANCELLED. -/
def cancelAtPrinter (s : State) (i : Nat) : State :=
  let lowered := lowerQueue (returnReservation s i) (job s i).printer
  putJob lowered i
    { job lowered i with resumeDeadline := none, state := .cancelled, outcome := some .cancelledAtPrinter }

/-- DELIVERY_FAILED (R108): a PRINTING job becomes INTERRUPTED with its window running; an INTERRUPTED one keeps its
deadline. -/
def failDelivery (s : State) (i : Nat) : State := if (job s i).state = .printing then interruptJob s i else s

/-- Report Job End COMPLETE, with check 1 of R106 on the outcome code the frame carries (log 7). -/
def execReportJobEndComplete (len handle : BitVec 16) (outcome : Byte) (s : State) : Host.Outcome State Fault Refusal :=
  request 0x38 (len == 3) true
    (fun s => if !endOutcomeKnown outcome then refuse s .badField else jobEndRule completeJob handle.toNat s) s

def execReportJobEndCancelledAtPrinter (len handle : BitVec 16) (s : State) : Host.Outcome State Fault Refusal :=
  request 0x38 (len == 3) true (jobEndRule cancelAtPrinter handle.toNat) s

def execReportJobEndDeliveryFailed (len handle : BitVec 16) (s : State) : Host.Outcome State Fault Refusal :=
  request 0x38 (len == 3) true (jobEndRule failDelivery handle.toNat) s

/-! ## The deadlines of jobs -/

/-- Hold expiry of the job of one slot: a HELD job whose expires_at is at or below now becomes EXPIRED (R32; log 2). -/
def expireHeld (s : State) (i : Nat) : State :=
  if (job s i).state = .held ∧ (job s i).expiresAt ≤ s.seconds then
    putJob s i { job s i with state := .expired, outcome := some .expiredUnreleased }
  else s

def execHoldExpiry (i : Fin 2048) (s : State) : Host.Outcome State Fault Refusal := event (fun s => expireHeld s i.val) s

/-- The resume deadline of the job is at or below now. -/
def windowOver (s : State) (j : Job) : Bool :=
  match j.resumeDeadline with
  | none => false
  | some d => decide (d ≤ s.seconds)

/-- End of the resume window of the job of one slot (R112; log 2). -/
def endWindow (s : State) (i : Nat) : State :=
  if (job s i).state = .interrupted ∧ windowOver s (job s i) = true then giveUpRelease s i else s

def execResumeWindowExpiry (i : Fin 2048) (s : State) : Host.Outcome State Fault Refusal :=
  event (fun s => endWindow s i.val) s

end Sys2Proof.Machine
end

