-- ==== Sys2Proof/Machine/Terminals.lean ====
section
/-! DEFINITION. The requests of the Loop Controller, the events of a roll call, and the messages of terminals (chapter 03). -/

namespace Sys2Proof.Machine

/-! ## Enrolling and retiring terminals -/

/-- Some terminal of loop `l` is enrolled. -/
def anyEnrolled (s : State) (l : Nat) : Bool := !(addressesOf s l (·.enrolled)).isEmpty

/-- A newly enrolled terminal's loop: OFF becomes QUIET and a roll call starts, QUIET and CONTINUOUS start one when none is
in flight, FAULT stays (R57). -/
def joinLoop (s : State) (l : Nat) : State :=
  match (loopRec s l).state with
  | .off => startRollCall (putLoop s l { loopRec s l with state := .quiet }) l
  | .quiet => startIfIdle s l
  | .continuous => startIfIdle s l
  | .fault => s

/-- Enroll Terminal (R57, R79). -/
def enrollTerminalRule (l a q : Nat) (s : State) : Reply :=
  if 3 < l ∨ 15 < a ∨ 63 < q then refuse s .badField
  else
    let t := terminalNo l a
    if (terminal s t).enrolled then
      { state := endVisit (putTerminal s t { terminal s t with pool := q }) t .goodbye, code := .ok }
    else { state := joinLoop (putTerminal s t { enrolled := true, pool := q }) l, code := .ok }

def execEnrollTerminal (len : BitVec 16) (loop addr : Byte) (pool : BitVec 16) (s : State) :
    Host.Outcome State Fault Refusal :=
  request 0x40 (len == 4) true (enrollTerminalRule loop.toNat addr.toNat pool.toNat) s

/-- The loop after one of its terminals left: OFF with its roll call abandoned when no terminal remains, else a roll call in
flight goes on without the address (R58). -/
def leaveLoop (s : State) (l a : Nat) : State :=
  if !anyEnrolled s l then putLoop s l {}
  else if inFlight s l then setTurns s l ((loopRec s l).turns.filter (· != a))
  else s

/-- Retire Terminal (R58): its visit ends without a display and its record takes its full-reset values. -/
def retireTerminalRule (l a : Nat) (s : State) : Reply :=
  if 3 < l ∨ 15 < a then refuse s .badField
  else
    let t := terminalNo l a
    if !(terminal s t).enrolled then refuse s .noSuch
    else { state := leaveLoop (putTerminal (dropVisit s t) t {}) l a, code := .ok }

def execRetireTerminal (len : BitVec 16) (loop addr : Byte) (s : State) : Host.Outcome State Fault Refusal :=
  request 0x41 (len == 2) true (retireTerminalRule loop.toNat addr.toNat) s

/-! ## Faults and resets of a loop -/

/-- A roll call in flight abandoned, every visit ended without a display, every pending display absent and every current
one GOODBYE, the loop in state `st` (R65, R67). -/
def clearLoop (s : State) (l : Nat) (st : LoopState) : State :=
  let cleared := mapTerminals (dropVisits s l) l fun t => { t with pending := none, current := .goodbye }
  putLoop cleared l { loopRec s l with state := st, phase := none, turns := [] }

/-- The loop becomes QUIET with every presence UNKNOWN and missed 0, and a roll call starts at once (R66, R67). -/
def restartLoop (s : State) (l : Nat) : State :=
  let unknown := mapTerminals s l fun t => { t with presence := .unknown, missed := 0 }
  startRollCall (putLoop unknown l { loopRec s l with state := .quiet }) l

/-- Loop Reset (R67): nothing on an OFF loop, else what a fault and its ending do. -/
def loopResetRule (l : Nat) (s : State) : Reply :=
  if 3 < l then refuse s .badField
  else if (loopRec s l).state = .off then { state := s, code := .ok }
  else { state := restartLoop (clearLoop s l .quiet) l, code := .ok }

def execLoopReset (len : BitVec 16) (loop : Byte) (s : State) : Host.Outcome State Fault Refusal :=
  request 0x42 (len == 1) true (loopResetRule loop.toNat) s

/-- Read Loop (R68). -/
def readLoopRule (l : Nat) (s : State) : Reply :=
  if 3 < l then refuse s .badField else { state := s, code := .ok, body := loopBody s l }

def execReadLoop (len : BitVec 16) (loop : Byte) (s : State) : Host.Outcome State Fault Refusal :=
  request 0x43 (len == 1) true (readLoopRule loop.toNat) s

/-- The line of a loop that is not OFF is held in break: the loop enters FAULT (R65). -/
def faultLoop (s : State) (l : Nat) : State :=
  if (loopRec s l).state = .off then s else clearLoop s l .fault

def execLoopFault (l : Fin 4) (s : State) : Host.Outcome State Fault Refusal := event (fun s => faultLoop s l.val) s

/-- The line of a loop in FAULT returns to idle: the fault ends (R66). -/
def endFault (s : State) (l : Nat) : State :=
  if (loopRec s l).state = .fault then restartLoop s l else s

def execFaultEnd (l : Fin 4) (s : State) : Host.Outcome State Fault Refusal := event (fun s => endFault s l.val) s

/-! ## Start causes (R59) -/

/-- A WAKE starts a roll call on a QUIET loop with none in flight, and is ignored otherwise (R59). -/
def wakeLoop (s : State) (l : Nat) : State := if (loopRec s l).state = .quiet then startIfIdle s l else s

def execWake (l : Fin 4) (s : State) : Host.Outcome State Fault Refusal := event (fun s => wakeLoop s l.val) s

/-- The loop has roll calls at all: it is QUIET or CONTINUOUS (R55). -/
def polled (s : State) (l : Nat) : Bool := (loopRec s l).state == .quiet || (loopRec s l).state == .continuous

/-- 250 ms after last_start: on a CONTINUOUS loop with no roll call in flight the next one starts; else the expiry stands
until a CLOSE that chooses CONTINUOUS (R59, R63; log 12). -/
def rollCallInterval (s : State) (l : Nat) : State :=
  if !polled s l then s
  else if (loopRec s l).state = .continuous ∧ inFlight s l = false then startRollCall s l
  else putLoop s l { loopRec s l with rollDue := true }

def execRollCallIntervalExpiry (l : Fin 4) (s : State) : Host.Outcome State Fault Refusal :=
  event (fun s => rollCallInterval s l.val) s

/-- 10 s after last_start: on a QUIET loop with no roll call in flight one starts; else the expiry stands until a CLOSE that
chooses QUIET (R59, R63; log 12). -/
def presenceInterval (s : State) (l : Nat) : State :=
  if !polled s l then s
  else if (loopRec s l).state = .quiet ∧ inFlight s l = false then startRollCall s l
  else putLoop s l { loopRec s l with presenceDue := true }

def execPresenceIntervalExpiry (l : Fin 4) (s : State) : Host.Outcome State Fault Refusal :=
  event (fun s => presenceInterval s l.val) s

/-! ## The phases of a roll call -/

/-- The answer slot of address `a` is the one the part is in (R60). -/
def answerTurn (s : State) (l a : Nat) : Bool :=
  (loopRec s l).phase == some .rollCall && (loopRec s l).turns.head? == some a

/-- The slot of address `a` taken with `effect` on its terminal, after the part's CALL; outside the slot nothing (R60;
log 11). -/
def rollSlot (s : State) (l a : Nat) (effect : State → State) : State :=
  if !answerTurn s l a then s
  else
    let called := effect (transmit s [(l, callFrame a)])
    setTurns called l (loopRec called l).turns.tail

/-- A good answer (R60): a terminal that regains presence is brought back to its current display. -/
def takeAnswer (s : State) (t : Nat) (flagged : Bool) : State :=
  let r := terminal s t
  let heard := putTerminal s t { r with answered := true, flagged := flagged, missed := 0, presence := .present }
  if r.presence ≠ .present ∧ r.pending = none then pend heard t r.current else heard

def execAnswer (l : Fin 4) (a : Fin 16) (flagged : Bool) (s : State) : Host.Outcome State Fault Refusal :=
  event (fun s => rollSlot s l.val a.val fun s => takeAnswer s (terminalNo l.val a.val) flagged) s

/-- An empty slot or a failed check (R60): missed rises to 3 at most; reaching 3 makes the terminal ABSENT, ends its visit
without a display, drops its pending display and makes GOODBYE current. -/
def missAnswer (s : State) (t : Nat) : State :=
  let r := terminal s t
  if r.missed = 2 then
    putTerminal (dropVisit s t) t { r with missed := 3, presence := .absent, pending := none, current := .goodbye }
  else if r.missed < 2 then putTerminal s t { r with missed := r.missed + 1 }
  else s

def execNoAnswer (l : Fin 4) (a : Fin 16) (s : State) : Host.Outcome State Fault Refusal :=
  event (fun s => rollSlot s l.val a.val fun s => missAnswer s (terminalNo l.val a.val)) s

/-- The next send of the DISPLAY phase: the first address still to come whose terminal has a pending display is sent it,
which becomes current (R61). -/
def sendDisplay (s : State) (l : Nat) : State :=
  if (loopRec s l).phase ≠ some .display then s
  else
    match displayTurns s l (loopRec s l).turns with
    | [] => s
    | a :: rest =>
      let t := terminalNo l a
      match (terminal s t).pending with
      | none => s
      | some d =>
        let shown := putTerminal (transmit s [(l, displayFrame a d)]) t { terminal s t with current := d, pending := none }
        setTurns shown l rest

def execDisplaySend (l : Fin 4) (s : State) : Host.Outcome State Fault Refusal := event (fun s => sendDisplay s l.val) s

def execFetchFailed (l : Fin 4) (a : Fin 16) (s : State) : Host.Outcome State Fault Refusal :=
  event (fun s => fetch s l.val a.val false id) s

def execUnknownMessage (l : Fin 4) (a : Fin 16) (s : State) : Host.Outcome State Fault Refusal :=
  event (fun s => fetch s l.val a.val true id) s

/-- The mode a CLOSE chooses (R63): CONTINUOUS while a visit is open, a display is pending or a message is uncollected. -/
def busyLoop (s : State) (l : Nat) : Bool :=
  (List.range 16).any fun a =>
    let t := terminalNo l a
    (visit s t).isSome || (terminal s t).pending.isSome || (terminal s t).flagged

/-- CLOSE (R63): the mode is chosen, the roll call ends, and the next starts at once when the interval of the mode has
already expired (R59). -/
def closeRollCall (s : State) (l : Nat) : State :=
  let r := loopRec s l
  if r.phase ≠ some .close then s
  else
    let busy := busyLoop s l
    let closed := putLoop s l { r with state := if busy then .continuous else .quiet, phase := none, turns := [] }
    if (if busy then r.rollDue else r.presenceDue) then startRollCall closed l else closed

def execRollCallClose (l : Fin 4) (s : State) : Host.Outcome State Fault Refusal :=
  event (fun s => closeRollCall s l.val) s

/-! ## Messages -/

/-- The outcome of a badge lookup, with the account its entry names (R7): a badge of 0 is unknown (R70). -/
inductive BadgeLookup where
  | unknown
  | suspended (account : Nat)
  | found (account : Nat)
deriving DecidableEq, Repr

def lookupBadge (s : State) (n : Nat) : BadgeLookup :=
  if n = 0 then .unknown
  else
    match badgeHolder s n with
    | none => .unknown
    | some a =>
      match (account s a).state with
      | .active => .found a
      | .suspended => .suspended a
      | .free => .unknown

/-- The open visit of account `a` at a terminal other than `t`, if there is one, ends with GOODBYE (R70). -/
def endOtherVisit (s : State) (a t : Nat) : State :=
  match visitOf s a with
  | none => s
  | some u => if u = t then s else endVisit s u .goodbye

/-- A BADGE message of terminal `t` (R70). The lookup touches the account its entry names, ACTIVE or SUSPENDED: every access
to a non-FREE account is a touch, badge lookups included (R7, R8). -/
def takeBadge (s : State) (t n : Nat) : State :=
  match lookupBadge s n with
  | .unknown => pend (dropVisit s t) t .unknownBadge
  | .suspended a => pend (dropVisit (touch s a) t) t .suspended
  | .found a =>
    let ended := dropVisit (endOtherVisit (touch s a) a t) t
    showList ended t { account := a, page := 0, pageHandles := [], idleDeadline := idleDeadline s } 0

def execBadge (l : Fin 4) (a : Fin 16) (number : BitVec 24) (s : State) : Host.Outcome State Fault Refusal :=
  event (fun s => fetch s l.val a.val true fun s => takeBadge s (terminalNo l.val a.val) number.toNat) s

/-- The visit with its idle deadline renewed. -/
def renewed (s : State) (v : Visit) : Visit := { v with idleDeadline := idleDeadline s }

/-- PICK ALL for the visit of a terminal (R73, R74). -/
def pickEvery (s : State) (t : Nat) (v : Visit) : State :=
  let r := decideAll s v.account (terminal s t).pool
  showResult r.state t v (.all r.released r.mono r.refused r.warning)

/-- A PICK of one entry (R72, R74): an entry the page on display does not hold is GONE without a decision. -/
def pickOne (s : State) (t : Nat) (v : Visit) (entry : Nat) : State :=
  match v.pageHandles[entry]? with
  | none => showResult s t v (.single .gone false)
  | some h =>
    let d := decideRelease s h v.account (terminal s t).pool
    showResult d.state t v (.single d.result d.warning)

/-- A PICK message of terminal `t` (R72): ignored with no open visit; FFh is ALL (R199). -/
def takePick (s : State) (t entry : Nat) : State :=
  match visit s t with
  | none => s
  | some v => if entry = 255 then pickEvery s t (renewed s v) else pickOne s t (renewed s v) entry

def execPick (l : Fin 4) (a : Fin 16) (entry : Byte) (s : State) : Host.Outcome State Fault Refusal :=
  event (fun s => fetch s l.val a.val true fun s => takePick s (terminalNo l.val a.val) entry.toNat) s

/-- A PICK message with entry ALL (R73). -/
def takePickAll (s : State) (t : Nat) : State :=
  match visit s t with
  | none => s
  | some v => pickEvery s t (renewed s v)

def execPickAll (l : Fin 4) (a : Fin 16) (s : State) : Host.Outcome State Fault Refusal :=
  event (fun s => fetch s l.val a.val true fun s => takePickAll s (terminalNo l.val a.val)) s

/-- A MORE message (R75): the next page, page 0 after the last. -/
def takeMore (s : State) (t : Nat) : State :=
  match visit s t with
  | none => s
  | some v => showList s t (renewed s v) (v.page + 1)

def execMore (l : Fin 4) (a : Fin 16) (s : State) : Host.Outcome State Fault Refusal :=
  event (fun s => fetch s l.val a.val true fun s => takeMore s (terminalNo l.val a.val)) s

/-- A DONE message (R76). -/
def execDone (l : Fin 4) (a : Fin 16) (s : State) : Host.Outcome State Fault Refusal :=
  event (fun s => fetch s l.val a.val true fun s => endVisit s (terminalNo l.val a.val) .goodbye) s

/-- A REFRESH message (R77): the current display pending again unless one is pending already; a visit's idle deadline is
renewed. -/
def takeRefresh (s : State) (t : Nat) : State :=
  let shown := if (terminal s t).pending = none then pend s t (terminal s t).current else s
  match visit s t with
  | none => shown
  | some v => putVisit shown t (some (renewed s v))

def execRefresh (l : Fin 4) (a : Fin 16) (s : State) : Host.Outcome State Fault Refusal :=
  event (fun s => fetch s l.val a.val true fun s => takeRefresh s (terminalNo l.val a.val)) s

/-- Idle expiry of the visit of one terminal: at or below now it ends with GOODBYE (R78; log 2). -/
def idleOut (s : State) (t : Nat) : State :=
  match visit s t with
  | none => s
  | some v => if v.idleDeadline ≤ s.seconds then endVisit s t .goodbye else s

def execVisitIdleExpiry (l : Fin 4) (a : Fin 16) (s : State) : Host.Outcome State Fault Refusal :=
  event (fun s => idleOut s (terminalNo l.val a.val)) s

end Sys2Proof.Machine
end

