-- ==== Sys2Proof/Machine/Dispatch.lean ====
section
/-! DEFINITION. One arm for each command: its meaning. -/

namespace Sys2Proof.Machine

def exec (i : Instr) (s : State) : Host.Outcome State Fault Refusal :=
  match i with
  | .setTenantPolicy len tenant mono colour credit hold resume policy warn rollover => Sys2Proof.Machine.execSetTenantPolicy len tenant mono colour credit hold resume policy warn rollover s
  | .readTenant len tenant => Sys2Proof.Machine.execReadTenant len tenant s
  | .lockPolicy len => Sys2Proof.Machine.execLockPolicy len s
  | .loadAccount len account state kind tenant badge department limit used => Sys2Proof.Machine.execLoadAccount len account state kind tenant badge department limit used s
  | .setLimit len account limit => Sys2Proof.Machine.execSetLimit len account limit s
  | .suspendAccount len account => Sys2Proof.Machine.execSuspendAccount len account s
  | .resumeAccount len account => Sys2Proof.Machine.execResumeAccount len account s
  | .retireAccount len account => Sys2Proof.Machine.execRetireAccount len account s
  | .readAccount len account => Sys2Proof.Machine.execReadAccount len account s
  | .holdJob len owner pool sidesMono sidesColour copies size duplex covK covC covM covY => Sys2Proof.Machine.execHoldJob len owner pool sidesMono sidesColour copies size duplex covK covC covM covY s
  | .readJob len handle => Sys2Proof.Machine.execReadJob len handle s
  | .findJobs len start owner state => Sys2Proof.Machine.execFindJobs len start owner state s
  | .cancelJob len handle => Sys2Proof.Machine.execCancelJob len handle s
  | .removeJob len handle => Sys2Proof.Machine.execRemoveJob len handle s
  | .takeDispatch len => Sys2Proof.Machine.execTakeDispatch len s
  | .readDispatch len => Sys2Proof.Machine.execReadDispatch len s
  | .reportProgress len handle count => Sys2Proof.Machine.execReportProgress len handle count s
  | .reportJobEndComplete len handle outcome => Sys2Proof.Machine.execReportJobEndComplete len handle outcome s
  | .reportJobEndCancelledAtPrinter len handle => Sys2Proof.Machine.execReportJobEndCancelledAtPrinter len handle s
  | .reportJobEndDeliveryFailed len handle => Sys2Proof.Machine.execReportJobEndDeliveryFailed len handle s
  | .enrollTerminal len loop addr pool => Sys2Proof.Machine.execEnrollTerminal len loop addr pool s
  | .retireTerminal len loop addr => Sys2Proof.Machine.execRetireTerminal len loop addr s
  | .loopReset len loop => Sys2Proof.Machine.execLoopReset len loop s
  | .readLoop len loop => Sys2Proof.Machine.execReadLoop len loop s
  | .enrollPrinter len printer capability modelK modelC modelM modelY deskGroup routeMode contact surveyed => Sys2Proof.Machine.execEnrollPrinter len printer capability modelK modelC modelM modelY deskGroup routeMode contact surveyed s
  | .retirePrinter len printer => Sys2Proof.Machine.execRetirePrinter len printer s
  | .setService len printer on => Sys2Proof.Machine.execSetService len printer on s
  | .printerStatus len printer reported empty => Sys2Proof.Machine.execPrinterStatus len printer reported empty s
  | .readPrinter len printer => Sys2Proof.Machine.execReadPrinter len printer s
  | .setPool len pool printers => Sys2Proof.Machine.execSetPool len pool printers s
  | .readPool len pool => Sys2Proof.Machine.execReadPool len pool s
  | .setSupplyModel len model capacity lead => Sys2Proof.Machine.execSetSupplyModel len model capacity lead s
  | .readSupplyModel len model => Sys2Proof.Machine.execReadSupplyModel len model s
  | .readSupplies len printer => Sys2Proof.Machine.execReadSupplies len printer s
  | .supplyReport len printer channel percent => Sys2Proof.Machine.execSupplyReport len printer channel percent s
  | .supplyReplaced len printer channel => Sys2Proof.Machine.execSupplyReplaced len printer channel s
  | .surveyNow len printer => Sys2Proof.Machine.execSurveyNow len printer s
  | .readSurvey len => Sys2Proof.Machine.execReadSurvey len s
  | .setCondition len kind cls sense autoClose => Sys2Proof.Machine.execSetCondition len kind cls sense autoClose s
  | .readConditionTable len => Sys2Proof.Machine.execReadConditionTable len s
  | .setClassMode len cls mode => Sys2Proof.Machine.execSetClassMode len cls mode s
  | .setClassBase len cls base => Sys2Proof.Machine.execSetClassBase len cls base s
  | .readClasses len => Sys2Proof.Machine.execReadClasses len s
  | .setDeskMode len desk mode => Sys2Proof.Machine.execSetDeskMode len desk mode s
  | .acknowledgeCallout len desk => Sys2Proof.Machine.execAcknowledgeCallout len desk s
  | .closeCalloutSpecific len desk printer kind => Sys2Proof.Machine.execCloseCalloutSpecific len desk printer kind s
  | .closeCalloutNonSpecific len desk => Sys2Proof.Machine.execCloseCalloutNonSpecific len desk s
  | .readDesk len desk => Sys2Proof.Machine.execReadDesk len desk s
  | .readCallouts len printer => Sys2Proof.Machine.execReadCallouts len printer s
  | .setClock len year month day hour minute second => Sys2Proof.Machine.execSetClock len year month day hour minute second s
  | .readClock len => Sys2Proof.Machine.execReadClock len s
  | .setSurveyPattern len pattern => Sys2Proof.Machine.execSetSurveyPattern len pattern s
  | .readPattern len pattern => Sys2Proof.Machine.execReadPattern len pattern s
  | .readAttention len => Sys2Proof.Machine.execReadAttention len s
  | .responseRead clocks => Sys2Proof.Machine.execResponseRead clocks s
  | .shortFrame => Sys2Proof.Machine.execShortFrame s
  | .badKind kind => Sys2Proof.Machine.execBadKind kind s
  | .discardedStartingFrame => Sys2Proof.Machine.execDiscardedStartingFrame s
  | .fullReset cause => Sys2Proof.Machine.execFullReset cause s
  | .powerOn => Sys2Proof.Machine.execPowerOn s
  | .resetRelease => Sys2Proof.Machine.execResetRelease s
  | .startingEnd => Sys2Proof.Machine.execStartingEnd s
  | .secondsEvent => Sys2Proof.Machine.execSecondsEvent s
  | .minuteBoundary => Sys2Proof.Machine.execMinuteBoundary s
  | .holdExpiry slot => Sys2Proof.Machine.execHoldExpiry slot s
  | .resumeWindowExpiry slot => Sys2Proof.Machine.execResumeWindowExpiry slot s
  | .contactExpiry printer => Sys2Proof.Machine.execContactExpiry printer s
  | .visitIdleExpiry loop addr => Sys2Proof.Machine.execVisitIdleExpiry loop addr s
  | .surveyStep => Sys2Proof.Machine.execSurveyStep s
  | .wake loop => Sys2Proof.Machine.execWake loop s
  | .rollCallIntervalExpiry loop => Sys2Proof.Machine.execRollCallIntervalExpiry loop s
  | .presenceIntervalExpiry loop => Sys2Proof.Machine.execPresenceIntervalExpiry loop s
  | .answer loop addr flagged => Sys2Proof.Machine.execAnswer loop addr flagged s
  | .noAnswer loop addr => Sys2Proof.Machine.execNoAnswer loop addr s
  | .displaySend loop => Sys2Proof.Machine.execDisplaySend loop s
  | .fetchFailed loop addr => Sys2Proof.Machine.execFetchFailed loop addr s
  | .unknownMessage loop addr => Sys2Proof.Machine.execUnknownMessage loop addr s
  | .badge loop addr number => Sys2Proof.Machine.execBadge loop addr number s
  | .pick loop addr entry => Sys2Proof.Machine.execPick loop addr entry s
  | .pickAll loop addr => Sys2Proof.Machine.execPickAll loop addr s
  | .more loop addr => Sys2Proof.Machine.execMore loop addr s
  | .done loop addr => Sys2Proof.Machine.execDone loop addr s
  | .refresh loop addr => Sys2Proof.Machine.execRefresh loop addr s
  | .rollCallClose loop => Sys2Proof.Machine.execRollCallClose loop s
  | .loopFault loop => Sys2Proof.Machine.execLoopFault loop s
  | .faultEnd loop => Sys2Proof.Machine.execFaultEnd loop s

end Sys2Proof.Machine
end

