-- ==== Sys2Proof/Safety.lean ====
section
/-! DEFINITION. What claims are stated in: the frame of a request's answer and of an event, and the invariants of a state
that commands reach from full reset. -/

namespace Sys2Proof.Machine

/-! ## Answers and frames -/

/-- The desk set and ATTN agree with the records (R151, R185). -/
def Settled (s : State) : Prop := s.deskSet = presentableSet s ∧ s.attn = attnLevel s

/-- `t` holds the answer to a request frame of kind `kind` that met `s`: the latest response carries the code, the kind, the
next response number and the body, the port is DESELECTED again (R177, R179), and ATTN agrees with the records. -/
def Answers (s t : State) (kind : Byte) (code : Code) (body : List Byte) : Prop :=
  t.response =
    { code := code, kind := kind, number := if s.response.number < 255 then s.response.number + 1 else 1, body := body }
  ∧ t.port = .deselected ∧ Settled t

/-- `s` with the port, HSDO, the latest response, the desk set and ATTN of `t`: the frame of a request that changes no
record. A request that does is framed by a further `with`, naming the records it may change. -/
def linked (s t : State) : State :=
  { s with port := t.port, hsdo := t.hsdo, driven := t.driven, response := t.response, deskSet := t.deskSet, attn := t.attn }

/-- `s` with the desk set and ATTN of `t`: the frame of an event that changes no record. -/
def signalled (s t : State) : State := { s with deskSet := t.deskSet, attn := t.attn }

/-- The command is a request frame the port takes or refuses by itself: its kind code, and whether its
length and its presence bytes are ones R193 and R192 give (R181 checks 3 and 4). Every other row of the table gives none. -/
def requestShape : Instr → Option (Byte × Bool × Bool)
  | .setTenantPolicy len _ _ _ _ _ _ _ _ p => some (0x10, len == 25, patternPresenceOk p)
  | .readTenant len _ => some (0x11, len == 2, true)
  | .lockPolicy len => some (0x12, len == 0, true)
  | .loadAccount len _ _ _ _ b d l _ => some (0x20, len == 24, presenceOk b && presenceOk d && presenceOk l)
  | .setLimit len _ l => some (0x21, len == 7, presenceOk l)
  | .suspendAccount len _ => some (0x22, len == 2, true)
  | .resumeAccount len _ => some (0x23, len == 2, true)
  | .retireAccount len _ => some (0x24, len == 2, true)
  | .readAccount len _ => some (0x25, len == 2, true)
  | .holdJob len _ p _ _ _ _ _ _ _ _ _ => some (0x30, len == 21, presenceOk p)
  | .readJob len _ => some (0x31, len == 2, true)
  | .findJobs len _ o st => some (0x32, len == 7, presenceOk o && presenceOk st)
  | .cancelJob len _ => some (0x33, len == 2, true)
  | .removeJob len _ => some (0x34, len == 2, true)
  | .takeDispatch len => some (0x35, len == 0, true)
  | .readDispatch len => some (0x36, len == 0, true)
  | .reportProgress len _ _ => some (0x37, len == 4, true)
  | .reportJobEndComplete len _ _ => some (0x38, len == 3, true)
  | .reportJobEndCancelledAtPrinter len _ => some (0x38, len == 3, true)
  | .reportJobEndDeliveryFailed len _ => some (0x38, len == 3, true)
  | .enrollTerminal len _ _ _ => some (0x40, len == 4, true)
  | .retireTerminal len _ _ => some (0x41, len == 2, true)
  | .loopReset len _ => some (0x42, len == 1, true)
  | .readLoop len _ => some (0x43, len == 1, true)
  | .enrollPrinter len _ _ _ _ _ _ _ _ _ _ => some (0x50, len == 15, true)
  | .retirePrinter len _ => some (0x51, len == 2, true)
  | .setService len _ _ => some (0x52, len == 3, true)
  | .printerStatus len _ _ _ => some (0x53, len == 4, true)
  | .readPrinter len _ => some (0x54, len == 2, true)
  | .setPool len _ _ => some (0x55, decide (2 ≤ len.toNat) && decide (len.toNat ≤ 512) && len.toNat % 2 == 0, true)
  | .readPool len _ => some (0x56, len == 2, true)
  | .setSupplyModel len _ _ _ => some (0x60, len == 7, true)
  | .readSupplyModel len _ => some (0x61, len == 2, true)
  | .readSupplies len _ => some (0x62, len == 2, true)
  | .supplyReport len _ _ _ => some (0x63, len == 4, true)
  | .supplyReplaced len _ _ => some (0x64, len == 3, true)
  | .surveyNow len p => some (0x65, len == 3, presenceOk p)
  | .readSurvey len => some (0x66, len == 0, true)
  | .setCondition len _ _ _ _ => some (0x70, len == 4, true)
  | .readConditionTable len => some (0x71, len == 0, true)
  | .setClassMode len _ _ => some (0x72, len == 2, true)
  | .setClassBase len _ _ => some (0x73, len == 3, true)
  | .readClasses len => some (0x74, len == 0, true)
  | .setDeskMode len _ _ => some (0x75, len == 2, true)
  | .acknowledgeCallout len _ => some (0x76, len == 1, true)
  | .closeCalloutSpecific len _ _ _ => some (0x77, len == 4, true)
  | .closeCalloutNonSpecific len _ => some (0x77, len == 1, true)
  | .readDesk len _ => some (0x78, len == 1, true)
  | .readCallouts len _ => some (0x79, len == 2, true)
  | .setClock len _ _ _ _ _ _ => some (0x80, len == 6, true)
  | .readClock len => some (0x81, len == 0, true)
  | .setSurveyPattern len p => some (0x82, len == 10, patternPresenceOk p)
  | .readPattern len _ => some (0x83, len == 1, true)
  | .readAttention len => some (0x90, len == 0, true)
  | _ => none

/-- The command is one of full reset: RESET_N or the supply falls, the supply rises, the reset is released, STARTING ends
(R189 to R191). -/
def resetCommand : Instr → Bool
  | .fullReset _ => true
  | .powerOn => true
  | .resetRelease => true
  | .startingEnd => true
  | _ => false

/-! ## Invariants -/

/-- Every record table is in its canonical form (log 9). -/
def Canonical (s : State) : Bool :=
  Table.wf (fun _ => ({} : Tenant)) s.tenants
  && Table.wf (fun _ => ({} : Account)) s.accounts
  && Table.wf (fun _ => (none : Option Nat)) s.badgeMap
  && Table.wf (fun _ => ({} : Slot)) s.jobs
  && Table.wf (fun _ => ({} : Printer)) s.printers
  && Table.wf (fun _ => ([] : List Nat)) s.pools
  && Table.wf (fun _ => ({} : SupplyModel)) s.models
  && Table.wf (fun n => (kindOfKey (n + 7)).resetEntry) s.conditions
  && Table.wf (fun _ => (none : Option Callout)) s.callouts
  && Table.wf (fun _ => ({} : ClassRec)) s.classes
  && Table.wf (fun _ => ({} : Desk)) s.desks
  && Table.wf (fun _ => ({} : Loop)) s.loops
  && Table.wf (fun _ => ({} : Terminal)) s.terminals
  && Table.wf (fun _ => (none : Option Visit)) s.visits
  && Table.wf (fun _ => ({} : Pattern)) s.rollovers

/-- A calendar value the Calendar Unit holds: every field in its range, the day in the length of its month, the weekday that
of the date (R165, R167, R168). -/
def Calendar.legal (c : Calendar) : Bool :=
  decide (c.year ≤ 99) && decide (1 ≤ c.month) && decide (c.month ≤ 12) && decide (1 ≤ c.day)
  && decide (c.day ≤ monthLength c.year c.month) && decide (c.hour ≤ 23) && decide (c.minute ≤ 59)
  && decide (c.second ≤ 59) && c.weekday == weekdayOf c.year c.month c.day

/-- The clocks: a legal calendar, the fleet seconds count within its 32 bits, and every boundary still to be tested a legal
calendar with second 0 (R164 to R168, R174). -/
def ClocksLegal (s : State) : Bool :=
  s.calendar.legal && decide (s.seconds ≤ maxCount) && s.boundaries.all fun c => c.legal && c.second == 0

/-- The finished count is the number of jobs in DONE, CANCELLED or EXPIRED (R39). -/
def FinishedCounted (s : State) : Prop :=
  s.finished = (s.jobs.filter fun e => e.2.job.state.finished).length

/-- A loop is OFF exactly while none of its terminals is enrolled; a loop that is OFF or in FAULT has no roll call in flight,
and an OFF loop's last_start is absent (R55, R57, R58, R65). -/
def LoopsLegal (s : State) : Prop :=
  ∀ l < 4,
    ((loopRec s l).state = .off ↔ ∀ a < 16, (terminal s (terminalNo l a)).enrolled = false)
    ∧ ((loopRec s l).state = .off ∨ (loopRec s l).state = .fault → (loopRec s l).phase = none)
    ∧ ((loopRec s l).state = .off → (loopRec s l).lastStart = none)

/-- Every job slot in use is one of the 2,048 (R27). -/
def SlotsBounded (s : State) : Prop := ∀ e ∈ s.jobs, e.1 < 2048

/-- The Dispatch List holds the handle of each RELEASED job exactly once and nothing else (R52). -/
def DispatchExact (s : State) : Prop :=
  s.dispatch.Nodup
  ∧ ∀ h, h ∈ s.dispatch ↔ ∃ i < 2048, (job s i).state = .released ∧ h = handleOf s i

/-- The jobs of a printer that its queue count counts (R90). -/
def routedTo (s : State) (p : Nat) : List (Nat × Slot) :=
  s.jobs.filter fun e => e.2.job.state.routed && e.2.job.printer == some p

/-- A routed job names an enrolled printer, and each printer's queue count is the number of jobs routed to it (R29, R90). -/
def QueuesCounted (s : State) : Prop :=
  (∀ e ∈ s.jobs, e.2.job.state.routed = true → ∃ p, e.2.job.printer = some p ∧ (printer s p).enrolled = true)
  ∧ ∀ p, (printer s p).queueCount = (routedTo s p).length

/-- What a routed job holds in the reserved of account `a`: per_copy_applied × (copies - copies_done) when the account is its
owner or its charged department (R17). -/
def heldTerm (a : Nat) (e : Nat × Slot) : Nat :=
  let j := e.2.job
  if j.state.routed && (j.owner == a || j.chargedDept == some a) then
    j.perCopyApplied.getD 0 * (j.copies - j.copiesDone)
  else 0

/-- The books balance: each account's reserved is the sum of what routed jobs hold in it; the accounts a job names are not
FREE; an account with a department is a USER and names another account, a DEPARTMENT (R6, R9, R14, R17, R29). -/
def BooksBalance (s : State) : Prop :=
  (∀ a, (account s a).reserved = (s.jobs.map (heldTerm a)).sum)
  ∧ (∀ e ∈ s.jobs, e.2.job.state ≠ .free →
      (account s e.2.job.owner).state ≠ .free ∧ e.2.job.copiesDone ≤ e.2.job.copies
      ∧ ∀ d, e.2.job.chargedDept = some d → d ≠ e.2.job.owner ∧ (account s d).state ≠ .free)
  ∧ ∀ a d, (account s a).department = some d →
      d ≠ a ∧ (account s a).state ≠ .free ∧ (account s a).kind = .user
      ∧ (account s d).state ≠ .free ∧ (account s d).kind = .department

/-- The badge map holds an entry for each account with a badge and no other, and a FREE record holds the FREE contents (R6,
R7). -/
def BadgesExact (s : State) : Prop :=
  (∀ b a, badgeHolder s b = some a ↔ (account s a).badge = some b)
  ∧ ∀ a, (account s a).state = .free → account s a = {}

/-- A desk's in-service list holds each record IN_SERVICE at the desk exactly once and nothing else, at most 16 of them, and
every record's desk is one of the eight (R138, R147, R149). -/
def DesksExact (s : State) : Prop :=
  (∀ d, (desk s d).inService.Nodup ∧ (desk s d).inService.length ≤ 16)
  ∧ (∀ d p k, (p, k) ∈ (desk s d).inService ↔ ∃ c, callout s p k = some c ∧ c.state = .inService ∧ c.desk = d)
  ∧ ∀ p k c, callout s p k = some c → c.desk < 8

/-- Every account has at most one open visit (R69). -/
def VisitsUnique (s : State) : Prop :=
  ∀ t u v w, visit s t = some v → visit s u = some w → v.account = w.account → t = u

/-- A safe state: what every state that commands reach from full reset satisfies. -/
structure Consistent (s : State) : Prop where
  canonical : Canonical s = true
  settled   : Settled s
  clocks    : ClocksLegal s = true
  finished  : FinishedCounted s
  loops     : LoopsLegal s
  slots     : SlotsBounded s
  dispatch  : DispatchExact s
  queues    : QueuesCounted s
  books     : BooksBalance s
  badges    : BadgesExact s
  desks     : DesksExact s
  visits    : VisitsUnique s

end Sys2Proof.Machine
end

