-- ==== Sys2Proof/Certificates/Slice0/Obligations.lean ====
section
/-! DEFINITION. The statements for the provers, by the chapters of the spec. -/

open Sys2Proof Sys2Proof.Machine

/-! ## The machine and its invariants -/

/-- The front command of the queue is executed on the part with the queue's rest, and an empty queue idles (log 4). -/
def Obligations.StepRunsFrontCommand : Prop :=
  (∀ (c : Instr) (rest : List Instr) (s : State), step { s with pending := c :: rest } = exec c { s with pending := rest })
  ∧ ∀ s : State, s.pending = [] → step s = .next s

/-- The state after full reset satisfies every invariant of `Consistent`. What full reset leaves, at the end of STARTING:
the port DESELECTED and every record whole at the value its chapter gives. (The fields turns, rollDue and presenceDue of a
loop are the model's own and empty, logs 10 and 12.) -/
def Obligations.ResetIsConsistent : Prop :=
  (Consistent State.reset)
  ∧ (let s := State.reset
    s.port = .deselected ∧ s.hsdo = .highImpedance ∧ s.response = { code := .ok, kind := 0, number := 0, body := [] }
    ∧ s.attn = false ∧ s.lock = false
    ∧ s.seconds = 0 ∧ s.calendar = { year := 0, month := 1, day := 1, hour := 0, minute := 0, second := 0, weekday := 6 }
    ∧ s.dispatch = [] ∧ s.releaseCounter = 0 ∧ s.finished = 0 ∧ s.deskSet = 0
    ∧ s.survey = { scope := none, cursor := 0, done := false }
    ∧ (∀ t, tenantRec s t =
        { monoRate := 40, colourRate := 150, duplexCredit := 10, holdMinutes := 1440, resumeMinutes := 10, policy := .refuse
          warnPermille := 900, period := 0 })
    ∧ (∀ a, account s a =
        { state := .free, kind := .user, tenant := 0, badge := none, department := none, limit := none, used := 0
          reserved := 0, stamp := 0, warned := false })
    ∧ (∀ b, badgeHolder s b = none)
    ∧ (∀ i, slot s i =
        { generation := 0
          job :=
            { state := .free, owner := 0, pool := some 0, sidesMono := 0, sidesColour := 0, copies := 0, size := .a4
              duplex := false, covK := 0, covC := 0, covM := 0, covY := 0, heldAt := 0, expiresAt := 0, releasePool := none
              printer := none, perCopyApplied := none, forcedMono := false, chargedDept := none, releaseSeq := 0
              copiesDone := 0, resumeDeadline := none, outcome := none } })
    ∧ (∀ p, printer s p =
        { enrolled := false, capability := .mono, reported := 0, noContact := false, everReported := false, service := false
          deskGroup := 0, routeMode := .fixed, contactMinutes := 5, contactDeadline := none, queueCount := 0
          surveyed := true, supplies := [] })
    ∧ (∀ q, pool s q = [])
    ∧ (∀ m, model s m = { capacity := 600000, lead := 10 })
    ∧ (∀ p k, callout s p k = none)
    ∧ (∀ c, classRec s c = { mode := .fixed, base := 255 })
    ∧ (∀ d, desk s d = { mode := .nested, inService := [] })
    ∧ (∀ l, loopRec s l =
        { state := .off, phase := none, lastStart := none, turns := [], rollDue := false, presenceDue := false })
    ∧ (∀ t, terminal s t =
        { enrolled := false, pool := 0, presence := .unknown, missed := 0, pending := none, current := .goodbye
          answered := false, flagged := false })
    ∧ (∀ t, visit s t = none)
    ∧ (∀ t < 32, patternRec s t = { minute := some 0, hour := some 0, weekday := none, day := some 1, month := none })
    ∧ patternRec s 32 = { minute := some 0, hour := some 2, weekday := none, day := none, month := none }
    ∧ (CondKind.all.map fun k => ((condEntry s k).cls, (condEntry s k).sense, (condEntry s k).autoClose))
        = [(0, .level, false), (1, .edge, false), (1, .level, false), (1, .level, false), (2, .level, false),
           (2, .level, false), (2, .level, false), (3, .edge, true)])

/-- Every command keeps every record table in its canonical form. -/
def Obligations.TablesStayCanonical : Prop :=
  ∀ s t : State, Canonical s = true → step s = .next t → Canonical t = true

/-- ATTN is asserted exactly while an item of the summary is not empty and the part is out of RESET and STARTING, and the
desk set is the desks with a presentable callout, after every step. -/
def Obligations.AttentionFollowsTheItems : Prop :=
  ∀ s t : State, Settled s → step s = .next t →
    t.deskSet = presentableSet t
    ∧ (t.attn = true ↔ (t.port = .deselected ∨ t.port = .selected)
        ∧ (presentableSet t ≠ 0 ∨ t.dispatch ≠ [] ∨ 0 < t.finished ∨ faultSet t ≠ 0 ∨ t.survey.done = true))

/-- The calendar and every boundary waiting to be tested stay legal, and the fleet seconds count stays in its range. -/
def Obligations.ClocksStayLegal : Prop :=
  ∀ s t : State, ClocksLegal s = true → step s = .next t → ClocksLegal t = true

/-- The finished count stays the number of jobs in DONE, CANCELLED or EXPIRED. -/
def Obligations.FinishedCountCounts : Prop :=
  ∀ s t : State, Canonical s = true → FinishedCounted s → step s = .next t → FinishedCounted t

/-- A loop stays OFF exactly while none of its terminals is enrolled, and OFF and FAULT loops have no roll call. -/
def Obligations.LoopModesStayLegal : Prop :=
  ∀ s t : State, LoopsLegal s → step s = .next t → LoopsLegal t

/-- The Dispatch List stays an exact list of the RELEASED jobs. Every printer's queue count stays the number of jobs routed
to it. Every job slot in use stays one of the 2,048. -/
def Obligations.DispatchAndQueuesStayExact : Prop :=
  (∀ s t : State, Consistent s → step s = .next t → DispatchExact t)
  ∧ (∀ s t : State, Consistent s → step s = .next t → QueuesCounted t)
  ∧ (∀ s t : State, SlotsBounded s → step s = .next t → SlotsBounded t)

/-- Every account's reserved stays the sum of what its routed jobs hold. -/
def Obligations.BooksStayBalanced : Prop :=
  ∀ s t : State, Consistent s → step s = .next t → BooksBalance t

/-- The badge map stays exact. Every account keeps at most one open visit. -/
def Obligations.BadgesAndVisitsStayExact : Prop :=
  (∀ s t : State, Consistent s → step s = .next t → BadgesExact t)
  ∧ (∀ s t : State, Consistent s → step s = .next t → VisitsUnique t)

/-- Every desk's in-service list stays the list of its IN_SERVICE records, at most 16. -/
def Obligations.InServiceListsStayExact : Prop :=
  ∀ s t : State, Consistent s → step s = .next t → DesksExact t

/-! ## The Host Link Port and full reset -/

/-- Every request frame drives filler at every clock edge and leaves the port DESELECTED with HSDO at high impedance. One
whose stated length or presence byte the port does not accept is answered BAD_FIELD, and no record changes. A short frame
and a frame of unknown kind change the latest response alone and drive filler; a response read drives filler under its kind
byte, the latest response with each byte most significant bit first, and filler after it, and changes neither the response
nor its number; a frame of STARTING changes no record (what it drives is a free value, log 24), and in RESET it drives
nothing. Each leaves HSDO at high impedance. (That what was driven is recorded is the model's, log 13.) -/
def Obligations.FramesThePortAnswersItself : Prop :=
  (∀ (c : Instr) (kind : Byte) (lengthOk presence : Bool) (s : State),
      running s = true → requestShape c = some (kind, lengthOk, presence) →
      ∃ t, exec c s = .next t ∧ t.port = .deselected ∧ t.hsdo = .highImpedance
        ∧ (∀ i, hsdoBit t.driven i = some true)
        ∧ (lengthOk = false ∨ presence = false → Answers s t kind .badField [] ∧ t = linked s t))
  ∧ ((∀ (s : State) (n : Nat), running s = true →
      (∃ t, exec .shortFrame s = .next t ∧ Answers s t 0x00 .shortFrame [] ∧ (∀ i, hsdoBit t.driven i = some true)
        ∧ t = linked s t)
      ∧ (∀ kind, ∃ t, exec (.badKind kind) s = .next t ∧ Answers s t kind .badKind [] ∧ (∀ i, hsdoBit t.driven i = some true)
        ∧ t = linked s t)
      ∧ ∃ t, exec (.responseRead n) s = .next t ∧ t = { s with port := .deselected, hsdo := .highImpedance, driven := t.driven }
        ∧ ∀ i, hsdoBit t.driven i =
            if n ≤ i then none
            else if i < 8 then some true
            else
              match (responseBytes s.response)[i / 8 - 1]? with
              | none => some true
              | some b => some (b.getMsbD (i % 8)))
    ∧ ∀ s : State,
      (s.port ≠ .reset → ∃ t, exec .discardedStartingFrame s = .next t ∧ (∀ i, hsdoBit t.driven i ≠ none)
        ∧ t = { s with hsdo := .highImpedance, driven := t.driven, draws := t.draws })
      ∧ (s.port = .reset → exec .discardedStartingFrame s = .next s))

/-- Only request frames and full reset write the latest response. In RESET and STARTING no command but those of full reset
has an effect, beside what a frame of STARTING drives (log 24). HSDO is at high impedance and the port is not SELECTED after
every step from a state in which that holds: select is high between two frames, each of which is one command (log 6). -/
def Obligations.WhatLeavesTheResponse : Prop :=
  (∀ (c : Instr) (s t : State), requestShape c = none → resetCommand c = false → c ≠ .shortFrame →
      (∀ k, c ≠ .badKind k) → exec c s = .next t → t.response = s.response)
  ∧ (∀ (c : Instr) (s : State), running s = false → resetCommand c = false → c ≠ .discardedStartingFrame →
      exec c s = .next s)
  ∧ (∀ s t : State, s.hsdo = .highImpedance → s.port ≠ .selected → step s = .next t →
      t.hsdo = .highImpedance ∧ t.port ≠ .selected)

/-- Full reset: RESET_N low, a fall of the supply and a rising supply put the part in RESET with every record at its reset
value; the release leads to STARTING, whose end leaves the part DESELECTED with every record at its reset value. The model's
own queue and counter of free values stand. (The flags of RESET_N and the supply, and that a release outside RESET and an
end of STARTING outside STARTING do nothing, are the model's choice, log 18; that POWER_ON sets the supply flag and keeps
that of RESET_N is the model's reading, log 19.) -/
def Obligations.FullResetClearsEverything : Prop :=
  ∀ s : State,
    exec (.fullReset .pin) s =
        .next { State.reset with
          pending := s.pending, draws := s.draws, port := .reset, resetPinLow := true, supplyLow := s.supplyLow }
    ∧ exec (.fullReset .supply) s =
        .next { State.reset with
          pending := s.pending, draws := s.draws, port := .reset, resetPinLow := s.resetPinLow, supplyLow := true }
    ∧ exec .powerOn s =
        .next { State.reset with
          pending := s.pending, draws := s.draws, port := .reset, resetPinLow := s.resetPinLow, supplyLow := true }
    ∧ (s.port = .reset → exec .resetRelease s =
        .next { State.reset with pending := s.pending, draws := s.draws, port := .starting })
    ∧ (s.port = .starting → exec .startingEnd s =
        .next { State.reset with
          pending := s.pending, draws := s.draws, resetPinLow := s.resetPinLow, supplyLow := s.supplyLow })
    ∧ (s.port ≠ .reset → exec .resetRelease s = .next s)
    ∧ (s.port ≠ .starting → exec .startingEnd s = .next s)

/-- The policy lock: Lock Policy sets it and changes nothing else; while it is set every Set Tenant Policy and every Set
Condition is refused LOCKED with no record changed; no command but those of full reset clears it. Set Tenant Policy with the
lock clear: the tenant's record is written with each field held to its range and the period kept, its rollover pattern is
written, and no other record changes; a tenant above 31 and an unknown policy code are refused BAD_FIELD with nothing
written. -/
def Obligations.PolicyLockAndTenantPolicy : Prop :=
  ((∀ s : State, running s = true →
      ∃ t, exec (.lockPolicy 0) s = .next t ∧ Answers s t 0x12 .ok [] ∧ t = { linked s t with lock := true })
    ∧ (∀ (s : State) (tenant mono colour credit hold resume : BitVec 16) (policy : Byte) (warn : BitVec 16) (p : PatternFields),
        running s = true → s.lock = true → patternPresenceOk p = true →
        ∃ t, exec (.setTenantPolicy 25 tenant mono colour credit hold resume policy warn p) s = .next t
          ∧ Answers s t 0x10 .locked [] ∧ t = linked s t)
    ∧ (∀ (s : State) (kind cls sense autoClose : Byte), running s = true → s.lock = true →
        ∃ t, exec (.setCondition 4 kind cls sense autoClose) s = .next t ∧ Answers s t 0x70 .locked [] ∧ t = linked s t)
    ∧ ∀ (c : Instr) (s t : State), resetCommand c = false → s.lock = true → exec c s = .next t → t.lock = true)
  ∧ (∀ (s : State) (tenant mono colour credit hold resume : BitVec 16) (policy : Byte) (warn : BitVec 16) (p : PatternFields),
      running s = true → s.lock = false → patternPresenceOk p = true →
      ∃ t, exec (.setTenantPolicy 25 tenant mono colour credit hold resume policy warn p) s = .next t
        ∧ if 31 < tenant.toNat ∨ 1 < policy.toNat then Answers s t 0x10 .badField [] ∧ t = linked s t
          else
            Answers s t 0x10 .ok []
            ∧ t = { linked s t with tenants := t.tenants, rollovers := t.rollovers }
            ∧ tenantRec t tenant.toNat =
                { monoRate := mono.toNat, colourRate := colour.toNat, duplexCredit := credit.toNat
                  holdMinutes := max 1 (min 10080 hold.toNat), resumeMinutes := max 1 (min 60 resume.toNat)
                  policy := if policy = 0 then .refuse else .monoFallback
                  warnPermille := min 1000 warn.toNat, period := (tenantRec s tenant.toNat).period }
            ∧ rollover t tenant.toNat =
                { minute := (optional p.minute).map (min 59), hour := (optional p.hour).map (min 23)
                  weekday := (optional p.weekday).map fun v => max 1 (min 7 v)
                  day := (optional p.day).map fun v => max 1 (min 31 v)
                  month := (optional p.month).map fun v => max 1 (min 12 v) }
            ∧ ∀ x, x ≠ tenant.toNat → tenantRec t x = tenantRec s x ∧ rollover t x = rollover s x)

/-! ## Accounts and the charge -/

/-- A touch of a non-FREE account: a stamp that is not the tenant's current period clears used and warned and takes the
period; a stamp that is changes nothing; reserved and every other field are kept; a FREE account is not touched. Read
Account touches a non-FREE account and answers every field of its record after the touch, 35 bytes; a FREE account is not
touched. -/
def Obligations.TouchAndReadAccount : Prop :=
  (∀ (s : State) (a : Nat),
      let r := account s a
      let period := (tenantRec s r.tenant).period
      touch s a = { s with accounts := (touch s a).accounts }
      ∧ (∀ b, b ≠ a → account (touch s a) b = account s b)
      ∧ account (touch s a) a =
          if r.state ≠ .free ∧ r.stamp ≠ period then { r with used := 0, warned := false, stamp := period } else r)
  ∧ (∀ (s : State) (a : BitVec 16), running s = true → a.toNat ≤ 4095 →
      ∃ t, exec (.readAccount 2 a) s = .next t
        ∧ Answers s t 0x25 .ok (accountBody a.toNat (account (touch s a.toNat) a.toNat))
        ∧ t = { linked s t with accounts := t.accounts } ∧ t.response.body.length = 35
        ∧ account t a.toNat = account (touch s a.toNat) a.toNat
        ∧ (∀ b, b ≠ a.toNat → account t b = account s b)
        ∧ ((account s a.toNat).state = .free → t = linked s t))

/-- Set Limit and Resume Account of a non-FREE account: the account is touched and takes the limit, held to 1,000,000,000,
or the state ACTIVE; no other record changes. The account requests refuse an account number above 4,095 and a FREE account
NO_SUCH, with no record changed; Read Account refuses the number alone. -/
def Obligations.LimitAndResume : Prop :=
  (∀ (s : State) (a : BitVec 16) (limit : Opt 32),
      running s = true → presenceOk limit = true → a.toNat ≤ 4095 → (account s a.toNat).state ≠ .free →
      let touched := account (touch s a.toNat) a.toNat
      (∃ t, exec (.setLimit 7 a limit) s = .next t ∧ Answers s t 0x21 .ok [] ∧ t = { linked s t with accounts := t.accounts }
        ∧ account t a.toNat = { touched with limit := (optional limit).map (min 1000000000) }
        ∧ ∀ b, b ≠ a.toNat → account t b = account s b)
      ∧ (∃ t, exec (.resumeAccount 2 a) s = .next t ∧ Answers s t 0x23 .ok []
        ∧ t = { linked s t with accounts := t.accounts }
        ∧ account t a.toNat = { touched with state := .active }
        ∧ ∀ b, b ≠ a.toNat → account t b = account s b))
  ∧ (∀ (s : State) (a : BitVec 16) (limit : Opt 32), running s = true → presenceOk limit = true →
      (4095 < a.toNat ∨ (account s a.toNat).state = .free →
        (∃ t, exec (.setLimit 7 a limit) s = .next t ∧ Answers s t 0x21 .noSuch [] ∧ t = linked s t)
        ∧ (∃ t, exec (.suspendAccount 2 a) s = .next t ∧ Answers s t 0x22 .noSuch [] ∧ t = linked s t)
        ∧ (∃ t, exec (.resumeAccount 2 a) s = .next t ∧ Answers s t 0x23 .noSuch [] ∧ t = linked s t)
        ∧ ∃ t, exec (.retireAccount 2 a) s = .next t ∧ Answers s t 0x24 .noSuch [] ∧ t = linked s t)
      ∧ (4095 < a.toNat →
        ∃ t, exec (.readAccount 2 a) s = .next t ∧ Answers s t 0x25 .noSuch [] ∧ t = linked s t))

/-- Suspend Account of a non-FREE account: the account is touched and SUSPENDED and its open visit ends; every other account
and every job, tenant and printer stays. Retire Account of a non-FREE account: IN_USE while a job or a USER names it, with
the account touched and nothing else done; otherwise the record takes the FREE contents, its badge leaves the map and its
open visit ends. -/
def Obligations.SuspendAndRetireAccount : Prop :=
  (∀ (s : State) (a : BitVec 16),
      Canonical s = true → running s = true → a.toNat ≤ 4095 → (account s a.toNat).state ≠ .free →
      ∃ t, exec (.suspendAccount 2 a) s = .next t ∧ Answers s t 0x22 .ok []
        ∧ t = { linked s t with
            accounts := t.accounts, visits := t.visits, terminals := t.terminals, loops := t.loops, draws := t.draws }
        ∧ account t a.toNat = { account (touch s a.toNat) a.toNat with state := .suspended }
        ∧ (∀ b, b ≠ a.toNat → account t b = account s b)
        ∧ ((account s a.toNat).state = .active → ∀ u, visitOf s a.toNat = some u →
            visit t u = none ∧ ((terminal t u).pending = some .suspended ∨ (terminal t u).current = .suspended))
        ∧ ((account s a.toNat).state = .suspended ∨ visitOf s a.toNat = none →
            t = { linked s t with accounts := t.accounts }))
  ∧ (∀ (s : State) (a : BitVec 16),
      Canonical s = true → running s = true → a.toNat ≤ 4095 → (account s a.toNat).state ≠ .free →
      ((jobNames s a.toNat = true ∨ userNames s a.toNat = true) →
        ∃ t, exec (.retireAccount 2 a) s = .next t ∧ Answers s t 0x24 .inUse []
          ∧ t = { linked s t with accounts := (touch s a.toNat).accounts })
      ∧ (jobNames s a.toNat = false → userNames s a.toNat = false →
        ∃ t, exec (.retireAccount 2 a) s = .next t ∧ Answers s t 0x24 .ok []
          ∧ t = { linked s t with
              accounts := t.accounts, badgeMap := t.badgeMap, visits := t.visits, terminals := t.terminals
              loops := t.loops, draws := t.draws }
          ∧ account t a.toNat =
              { state := .free, kind := .user, tenant := 0, badge := none, department := none, limit := none, used := 0
                reserved := 0, stamp := 0, warned := false }
          ∧ (∀ b, b ≠ a.toNat → account t b = account s b)
          ∧ (∀ n, badgeHolder t n = if (account s a.toNat).badge = some n then none else badgeHolder s n)
          ∧ ∀ u, visitOf s a.toNat = some u →
              visit t u = none ∧ ((terminal t u).pending = some .goodbye ∨ (terminal t u).current = .goodbye)))

/-- Load Account touches the account named and the department given and runs the seven checks of R9 in order: a number or
code out of range, a DEPARTMENT with a badge or a department, a badge of 0, a department that is FREE, a USER, of another
tenant or the account itself are BAD_FIELD; a badge of another account is DUPLICATE; a change of tenant, kind or department
under a job that names the account, or of tenant or kind of a DEPARTMENT that a USER names, is IN_USE; a refusal leaves the
touches alone. Otherwise the record takes every field of the request, reserved is kept (0 from FREE), the stamp is the
written tenant's current period, warned is clear, the badge map is brought into line, and for the state SUSPENDED the
account's open visit ends with SUSPENDED shown; no other account but the touched department and no other record changes. -/
def Obligations.LoadAccount : Prop :=
  ∀ (s : State) (a : BitVec 16) (state kind : Byte) (tenant : BitVec 16) (badge : Opt 24) (dept : Opt 16) (limit : Opt 32)
    (used : BitVec 48),
    Canonical s = true → running s = true → presenceOk badge = true → presenceOk dept = true → presenceOk limit = true →
    let n := a.toNat
    let r := account s n
    let kindOf : AccountKind := if kind = 0 then .user else .department
    let refusal : Option Code :=
      if 4095 < n ∨ 31 < tenant.toNat ∨ (optional dept).any (fun d => 4095 < d) = true ∨ (state ≠ 1 ∧ state ≠ 2)
          ∨ 1 < kind.toNat then some .badField
      else if kind = 1 ∧ (optional badge ≠ none ∨ optional dept ≠ none) then some .badField
      else if optional badge = some 0 then some .badField
      else if (optional dept).any (fun d => decide ((account s d).state = .free ∨ (account s d).kind = .user
          ∨ (account s d).tenant ≠ tenant.toNat ∨ d = n)) = true then some .badField
      else if (optional badge).any (fun b => (badgeHolder s b).any fun x => x != n) = true then some .duplicate
      else if r.state ≠ .free ∧ (r.tenant ≠ tenant.toNat ∨ r.kind ≠ kindOf ∨ r.department ≠ optional dept)
          ∧ jobNames s n = true then some .inUse
      else if r.state ≠ .free ∧ r.kind = .department ∧ (r.tenant ≠ tenant.toNat ∨ kindOf = .user)
          ∧ userNames s n = true then some .inUse
      else none
    ∃ t, exec (.loadAccount 24 a state kind tenant badge dept limit used) s = .next t
      ∧ (∀ code, refusal = some code →
          Answers s t 0x20 code [] ∧ t = { linked s t with accounts := (touchOpt (touch s n) (optional dept)).accounts })
      ∧ (refusal = none →
          Answers s t 0x20 .ok []
          ∧ account t n =
              { state := if state = 1 then .active else .suspended, kind := kindOf, tenant := tenant.toNat
                badge := optional badge, department := optional dept, limit := (optional limit).map (min 1000000000)
                used := used.toNat, reserved := if r.state = .free then 0 else r.reserved
                stamp := (tenantRec s tenant.toNat).period, warned := false }
          ∧ (∀ b, b ≠ n → account t b = if optional dept = some b then account (touch s b) b else account s b)
          ∧ (∀ b, badgeHolder t b =
              if optional badge = some b then some n else if r.badge = some b then none else badgeHolder s b)
          ∧ (state = 1 ∨ visitOf s n = none → t = { linked s t with accounts := t.accounts, badgeMap := t.badgeMap })
          ∧ (∀ u, state = 2 → visitOf s n = some u →
              visit t u = none ∧ (∀ x, x ≠ u → visit t x = visit s x)
              ∧ ((terminal t u).pending = some .suspended ∨ (terminal t u).current = .suspended))
          ∧ t = { linked s t with
              accounts := t.accounts, badgeMap := t.badgeMap, visits := t.visits, terminals := t.terminals
              loops := t.loops, draws := t.draws })

/-- The charge of one copy: base by the kind of charge, times the size quarter over 4 rounded up, less the duplex credit of
each whole pair of sides, and never below 0; the ceiling test and the amount due. The toner of one copy: black from every
side, each colour from the colour sides, times coverage and size quarter over 4; a forced-mono copy takes black alone, its
coverage the black plus a third of the colours, at most 1000. -/
def Obligations.FiguresOfOneCopy : Prop :=
  (∀ (t : Tenant) (j : Job) (mono : Bool),
      let sides := j.sidesMono + j.sidesColour
      let base := if mono then sides * t.monoRate else j.sidesMono * t.monoRate + j.sidesColour * t.colourRate
      let q := match j.size with
        | .a4 => 4
        | .letter => 4
        | .legal => 5
        | .a3 => 8
      ∃ sized, 4 * sized < base * q + 4 ∧ base * q ≤ 4 * sized
        ∧ (∃ saved, (j.duplex = false → saved = 0) ∧ (j.duplex = true → saved = sides / 2 * t.duplexCredit)
            ∧ (saved ≤ sized → perCopy t j mono + saved = sized) ∧ (sized < saved → perCopy t j mono = 0))
        ∧ (underCeiling (perCopy t j mono) j = true ↔ perCopy t j mono * j.copies ≤ 1000000000)
        ∧ amountDue (perCopy t j mono) j = perCopy t j mono * (j.copies - j.copiesDone))
  ∧ (∀ (j : Job),
      let sides := j.sidesMono + j.sidesColour
      let q := match j.size with
        | .a4 => 4
        | .letter => 4
        | .legal => 5
        | .a3 => 8
      (j.forcedMono = false →
        copyToner j .k = sides * j.covK * q / 4 ∧ copyToner j .c = j.sidesColour * j.covC * q / 4
        ∧ copyToner j .m = j.sidesColour * j.covM * q / 4 ∧ copyToner j .y = j.sidesColour * j.covY * q / 4)
      ∧ (j.forcedMono = true →
        copyToner j .k = sides * min 1000 (j.covK + (j.covC + j.covM + j.covY) / 3) * q / 4
        ∧ copyToner j .c = 0 ∧ copyToner j .m = 0 ∧ copyToner j .y = 0))

/-- Reserve: the owner and its department are touched; when used + reserved + due is above a limit of either, nothing else
happens and no warning is reported; otherwise due is added to the reserved of each, per_copy, the department and the mono
mark are written to the job, and warned is set, and the warning reported, where one of them newly reaches its level. The
warning test: it passes on a limited account whose tenant's warn_permille is not 0 exactly when (used + reserved) × 1000
reaches limit × warn_permille with warned clear, and then sets warned, and nothing else. -/
def Obligations.ReserveTakesBothOrNone : Prop :=
  (∀ (s : State) (i pc due : Nat) (mono : Bool),
      let o := (job s i).owner
      let d := (account s o).department
      let touched := touchOpt (touch s o) d
      (∀ x, d = some x → x ≠ o) →
      let fits := fun a => ∀ l, (account touched a).limit = some l →
        (account touched a).used + (account touched a).reserved + due ≤ l
      let crosses := fun a => (account touched a).warned = false
        ∧ ∃ l, (account touched a).limit = some l ∧ 0 < (tenantRec s (account s a).tenant).warnPermille
          ∧ l * (tenantRec s (account s a).tenant).warnPermille
              ≤ ((account touched a).used + (account touched a).reserved + due) * 1000
      let r := reserve s i pc due mono
      (¬ (fits o ∧ ∀ x, d = some x → fits x) → r.ok = false ∧ r.state = touched ∧ r.warning = false)
      ∧ (fits o ∧ (∀ x, d = some x → fits x) →
          r.ok = true
          ∧ (∀ a, (account r.state a).reserved =
              (account touched a).reserved + if a = o ∨ d = some a then due else 0)
          ∧ (∀ a, (account r.state a).used = (account touched a).used ∧ (account r.state a).stamp = (account touched a).stamp
              ∧ (account r.state a).limit = (account s a).limit)
          ∧ (∀ a, (account r.state a).warned = true ↔
              (account touched a).warned = true ∨ (a = o ∨ d = some a) ∧ crosses a)
          ∧ (r.warning = true ↔ crosses o ∨ ∃ x, d = some x ∧ crosses x)
          ∧ job r.state i =
              { job s i with
                perCopyApplied := some pc, chargedDept := d, forcedMono := mono && decide (0 < (job s i).sidesColour) }
          ∧ (∀ x, x ≠ i → job r.state x = job s x)
          ∧ r.state = { s with accounts := r.state.accounts, jobs := r.state.jobs }))
  ∧ (∀ (s : State) (a : Nat),
      let r := account s a
      let w := (tenantRec s r.tenant).warnPermille
      let passes := ∃ l, r.limit = some l ∧ 0 < w ∧ l * w ≤ (r.used + r.reserved) * 1000 ∧ r.warned = false
      (passes → account (warnAccount s a) a = { r with warned := true })
      ∧ (¬ passes → warnAccount s a = s)
      ∧ ∀ b, b ≠ a → account (warnAccount s a) b = account s b)

/-- Commit of k copies and Return: Commit moves per_copy_applied × k from reserved to used, used stopping at 2^48 - 1, on
the owner and on any charged department; Return takes per_copy_applied × (copies - copies_done) off reserved of each. -/
def Obligations.CommitAndReturnMoveTheMoney : Prop :=
  ∀ (s : State) (i k : Nat),
    let j := job s i
    let touched := touchOpt (touch s j.owner) j.chargedDept
    (∀ x, j.chargedDept = some x → x ≠ j.owner) →
    let charged := fun a => a = j.owner ∨ j.chargedDept = some a
    let pc := j.perCopyApplied.getD 0
    (∀ a, charged a →
        (account (commit s i k) a).reserved = (account touched a).reserved - pc * k
        ∧ (account (commit s i k) a).used = min 281474976710655 ((account touched a).used + pc * k))
    ∧ (∀ a, charged a →
        (account (returnReservation s i) a).reserved = (account touched a).reserved - pc * (j.copies - j.copiesDone)
        ∧ (account (returnReservation s i) a).used = (account touched a).used)
    ∧ (∀ a, ¬ charged a → account (commit s i k) a = account s a ∧ account (returnReservation s i) a = account s a)
    ∧ job (commit s i k) i = { j with copiesDone := j.copiesDone + k }
    ∧ job (returnReservation s i) i = { j with perCopyApplied := none, chargedDept := none, forcedMono := false }

/-! ## Jobs, the release decision and the Dispatch List -/

/-- Hold Job with good fields and a USER owner: the lowest FREE slot takes the record with every figure held to its range,
HELD from now until hold_minutes from now, and the response carries the handle; the owner is touched and nothing else
changes. Hold Job is refused in the order of R30: pool or size BAD_FIELD, owner NO_SUCH, then with the owner touched a
DEPARTMENT owner or no sides or no copies BAD_FIELD, and no FREE slot TABLE_FULL; no slot is written. -/
def Obligations.HoldJob : Prop :=
  (∀ (s : State) (owner : BitVec 16) (pool : Opt 16) (sm sc copies : BitVec 16) (size duplex : Byte)
      (ck cc cm cy : BitVec 16) (i : Nat),
      running s = true → presenceOk pool = true → (∀ q, optional pool = some q → q ≤ 63) → size.toNat ≤ 3 →
      owner.toNat ≤ 4095 → (account s owner.toNat).state ≠ .free → (account s owner.toNat).kind = .user →
      (sm ≠ 0 ∨ sc ≠ 0) → copies ≠ 0 →
      i < 2048 → (job s i).state = .free → (∀ k < i, (job s k).state ≠ .free) →
      ∃ t, exec (.holdJob 21 owner pool sm sc copies size duplex ck cc cm cy) s = .next t
        ∧ Answers s t 0x30 .ok (num 2 ((slot s i).generation * 2048 + i))
        ∧ t = { linked s t with accounts := (touch s owner.toNat).accounts, jobs := t.jobs, finished := t.finished }
        ∧ t.finished = s.finished
        ∧ slot t i =
            { generation := (slot s i).generation
              job :=
                { state := .held, owner := owner.toNat, pool := optional pool, sidesMono := min 9999 sm.toNat
                  sidesColour := min 9999 sc.toNat, copies := min 999 copies.toNat
                  size := if size = 0 then .a4 else if size = 1 then .letter else if size = 2 then .legal else .a3
                  duplex := duplex != 0, covK := min 1000 ck.toNat, covC := min 1000 cc.toNat, covM := min 1000 cm.toNat
                  covY := min 1000 cy.toNat, heldAt := s.seconds
                  expiresAt := min 4294967295
                    (s.seconds + (tenantRec s (account s owner.toNat).tenant).holdMinutes * 60)
                  releasePool := none, printer := none, perCopyApplied := none, forcedMono := false, chargedDept := none
                  releaseSeq := 0, copiesDone := 0, resumeDeadline := none, outcome := none } }
        ∧ ∀ k, k ≠ i → slot t k = slot s k)
  ∧ (∀ (s : State) (owner : BitVec 16) (pool : Opt 16) (sm sc copies : BitVec 16) (size duplex : Byte)
      (ck cc cm cy : BitVec 16),
      running s = true → presenceOk pool = true →
      let o := owner.toNat
      let refusal : Option (Code × Table Account) :=
        if (∃ q, optional pool = some q ∧ 63 < q) ∨ 3 < size.toNat then some (.badField, s.accounts)
        else if 4095 < o ∨ (account s o).state = .free then some (.noSuch, s.accounts)
        else if (account s o).kind = .department ∨ (sm = 0 ∧ sc = 0) ∨ copies = 0 then some (.badField, (touch s o).accounts)
        else some (.tableFull, (touch s o).accounts)
      ∀ code accounts, refusal = some (code, accounts) → (code = .tableFull → ∀ i < 2048, (job s i).state ≠ .free) →
        ∃ t, exec (.holdJob 21 owner pool sm sc copies size duplex ck cc cm cy) s = .next t ∧ Answers s t 0x30 code []
          ∧ t = { linked s t with accounts := accounts })

/-- A handle resolves exactly when it is at most 32,767, its generation is its slot's and the slot is not FREE, and then to
that slot. Every job request refuses a handle that does not resolve NO_SUCH with no record changed. The job requests refuse
a job in a state they do not accept WRONG_STATE with no record changed: Cancel Job one that prints or has ended, Remove Job
one that has not ended, the reports one that neither prints nor is interrupted. -/
def Obligations.JobRequestsRefused : Prop :=
  (∀ (s : State) (h i : Nat),
      resolve s h = some i ↔
        h ≤ 32767 ∧ i = h % 2048 ∧ h / 2048 = (slot s i).generation ∧ (job s i).state ≠ .free)
  ∧ (∀ (s : State) (h : BitVec 16) (n : BitVec 16) (outcome : Byte), running s = true →
      (outcome = 1 ∨ outcome = 3 ∨ outcome = 5) →
      (32767 < h.toNat ∨ h.toNat / 2048 ≠ (slot s (h.toNat % 2048)).generation ∨ (job s (h.toNat % 2048)).state = .free) →
      (∃ t, exec (.readJob 2 h) s = .next t ∧ Answers s t 0x31 .noSuch [] ∧ t = linked s t)
      ∧ (∃ t, exec (.cancelJob 2 h) s = .next t ∧ Answers s t 0x33 .noSuch [] ∧ t = linked s t)
      ∧ (∃ t, exec (.removeJob 2 h) s = .next t ∧ Answers s t 0x34 .noSuch [] ∧ t = linked s t)
      ∧ (∃ t, exec (.reportProgress 4 h n) s = .next t ∧ Answers s t 0x37 .noSuch [] ∧ t = linked s t)
      ∧ (∃ t, exec (.reportJobEndComplete 3 h outcome) s = .next t ∧ Answers s t 0x38 .noSuch [] ∧ t = linked s t)
      ∧ (∃ t, exec (.reportJobEndCancelledAtPrinter 3 h) s = .next t ∧ Answers s t 0x38 .noSuch [] ∧ t = linked s t)
      ∧ ∃ t, exec (.reportJobEndDeliveryFailed 3 h) s = .next t ∧ Answers s t 0x38 .noSuch [] ∧ t = linked s t)
  ∧ (∀ (s : State) (h n : BitVec 16) (i : Nat), running s = true → resolve s h.toNat = some i →
      let st := (job s i).state
      ((st = .printing ∨ st.finished = true) →
        ∃ t, exec (.cancelJob 2 h) s = .next t ∧ Answers s t 0x33 .wrongState [] ∧ t = linked s t)
      ∧ (st.finished = false →
        ∃ t, exec (.removeJob 2 h) s = .next t ∧ Answers s t 0x34 .wrongState [] ∧ t = linked s t)
      ∧ (st ≠ .printing → st ≠ .interrupted →
        (∃ t, exec (.reportProgress 4 h n) s = .next t ∧ Answers s t 0x37 .wrongState [] ∧ t = linked s t)
        ∧ (∃ t, exec (.reportJobEndComplete 3 h 1) s = .next t ∧ Answers s t 0x38 .wrongState [] ∧ t = linked s t)
        ∧ (∃ t, exec (.reportJobEndCancelledAtPrinter 3 h) s = .next t ∧ Answers s t 0x38 .wrongState [] ∧ t = linked s t)
        ∧ ∃ t, exec (.reportJobEndDeliveryFailed 3 h) s = .next t ∧ Answers s t 0x38 .wrongState [] ∧ t = linked s t))

/-- A HELD job is cancelled by Cancel Job and expired by its hold expiry, touching no account and no queue; a job in DONE,
CANCELLED or EXPIRED is removed by Remove Job, which frees its slot and advances its generation. -/
def Obligations.HeldJobsEndAndAreRemoved : Prop :=
  ∀ (s : State) (h : BitVec 16) (i : Fin 2048), running s = true → resolve s h.toNat = some i.val →
    ((job s i.val).state = .held →
      (∃ t, exec (.cancelJob 2 h) s = .next t ∧ Answers s t 0x33 .ok []
        ∧ t = { linked s t with jobs := t.jobs, finished := t.finished } ∧ t.finished = s.finished + 1
        ∧ slot t i.val = { slot s i.val with
            job := { job s i.val with state := .cancelled, outcome := some .cancelledByUser } }
        ∧ ∀ k, k ≠ i.val → slot t k = slot s k)
      ∧ ((job s i.val).expiresAt ≤ s.seconds →
        ∃ t, exec (.holdExpiry i) s = .next t ∧ Settled t
          ∧ t = { signalled s t with jobs := t.jobs, finished := t.finished } ∧ t.finished = s.finished + 1
          ∧ slot t i.val = { slot s i.val with
              job := { job s i.val with state := .expired, outcome := some .expiredUnreleased } }
          ∧ ∀ k, k ≠ i.val → slot t k = slot s k)
      ∧ (s.seconds < (job s i.val).expiresAt → exec (.holdExpiry i) s = .next (settle s)))
    ∧ ((job s i.val).state ≠ .held → exec (.holdExpiry i) s = .next (settle s))
    ∧ ((job s i.val).state.finished = true →
      ∃ t, exec (.removeJob 2 h) s = .next t ∧ Answers s t 0x34 .ok []
        ∧ t = { linked s t with jobs := t.jobs, finished := t.finished } ∧ t.finished = s.finished - 1
        ∧ slot t i.val = { generation := ((slot s i.val).generation + 1) % 16, job := {} }
        ∧ ∀ k, k ≠ i.val → slot t k = slot s k)

/-- Giving up a release: Cancel Job of a RELEASED or INTERRUPTED job and Report Job End CANCELLED_AT_PRINTER of a PRINTING
or INTERRUPTED one run Return, lower the printer's queue count by one, and leave the job CANCELLED with its printer and
copies_done kept; Cancel Job takes a RELEASED job's handle off the Dispatch List. -/
def Obligations.CancellingARoutedJob : Prop :=
  ∀ (s : State) (h : BitVec 16) (i p : Nat), running s = true → resolve s h.toNat = some i →
    (job s i).printer = some p → (job s i).state.routed = true →
    let ended := fun (o : JobOutcome) =>
      { job s i with
        state := .cancelled, outcome := some o, resumeDeadline := none, perCopyApplied := none, chargedDept := none
        forcedMono := false }
    let outcome := fun (t : State) (o : JobOutcome) =>
      job t i = ended o ∧ (∀ k, k ≠ i → slot t k = slot s k)
      ∧ (printer t p).queueCount = (printer s p).queueCount - 1
      ∧ (printer t p).supplies = (printer s p).supplies ∧ (printer t p).contactDeadline = (printer s p).contactDeadline
      ∧ (∀ x, x ≠ p → printer t x = printer s x)
      ∧ t.accounts = (returnReservation s i).accounts ∧ t.finished = s.finished + 1
    ((job s i).state ≠ .printing →
      ∃ t, exec (.cancelJob 2 h) s = .next t ∧ Answers s t 0x33 .ok [] ∧ outcome t .cancelledByUser
        ∧ t.dispatch = (if (job s i).state = .released then s.dispatch.filter (· ≠ h.toNat) else s.dispatch)
        ∧ t = { linked s t with
            accounts := t.accounts, jobs := t.jobs, finished := t.finished, dispatch := t.dispatch
            printers := t.printers })
    ∧ ((job s i).state ≠ .released →
      ∃ t, exec (.reportJobEndCancelledAtPrinter 3 h) s = .next t ∧ Answers s t 0x38 .ok []
        ∧ outcome t .cancelledAtPrinter
        ∧ t = { linked s t with
            accounts := t.accounts, jobs := t.jobs, finished := t.finished, printers := t.printers })

/-- The listing of an account for a pool holds exactly its HELD jobs held for the pool or for ANY, each once, ordered by
held_at and then by handle. Page n holds the jobs at positions 6n to 6n + 5 of it, numbered 0 to 5; the page count is the
length divided by 6, rounded up, and at least 1; an empty listing has one page with no entries. A page asked for that is not
below the page count is given as page 0. -/
def Obligations.ListingIsOrderedAndComplete : Prop :=
  (∀ (s : State) (a q : Nat), Canonical s = true → SlotsBounded s → (∀ i, (slot s i).generation < 16) →
    (listing s a q).Nodup
    ∧ (∀ i, i ∈ listing s a q ↔
        (job s i).state = .held ∧ (job s i).owner = a ∧ ((job s i).pool = none ∨ (job s i).pool = some q))
    ∧ (listing s a q).Pairwise (fun i k =>
        (job s i).heldAt < (job s k).heldAt ∨ (job s i).heldAt = (job s k).heldAt ∧ handleOf s i < handleOf s k))
  ∧ ∀ (s : State) (l : List Nat),
    pageCount l.length = max 1 ((l.length + 5) / 6)
    ∧ (∀ n, (pageOf l n).length ≤ 6 ∧ ∀ k < 6, (pageOf l n)[k]? = l[6 * n + k]?)
    ∧ (∀ n k e, (entriesFrom s 0 (pageOf l n))[k]? = some e → e.index = k ∧ k < 6)
    ∧ (∀ n, (entriesFrom s 0 (pageOf l n)).length = (pageOf l n).length)
    ∧ pageCount ([] : List Nat).length = 1 ∧ pageOf [] 0 = []
    ∧ (List.range (pageCount l.length)).flatMap (pageOf l) = l
    ∧ ∀ asked, pageGiven l.length asked = if asked < pageCount l.length then asked else 0

/-- A printer's derived state is the first that applies of not enrolled, SERVICE, OFFLINE, FAULTED, UNKNOWN, BUSY and READY;
it is usable when READY or BUSY with black above 0; its condition set holds the reported kinds, NO_CONTACT, TONER_EMPTY
while a supply is at 0 and TONER_REORDER while one is DUE. The Router's choice is a candidate of the pool with no smaller
queue count in any candidate, and the earliest of those; it gives none only where the pool holds no candidate. A candidate
is usable, and for COLOUR a COLOUR printer with cyan, magenta and yellow above 0. -/
def Obligations.PrinterStatesAndTheRouter : Prop :=
  (∀ r : Printer,
      let faulty := ∃ i ∈ [0, 1, 2, 4, 6], r.reported.getLsbD i = true
      (r.enrolled = false → r.derived = none)
      ∧ (r.enrolled = true →
          (r.service = true → r.derived = some .service)
          ∧ (r.service = false → r.noContact = true → r.derived = some .offline)
          ∧ (r.service = false → r.noContact = false →
              (faulty → r.derived = some .faulted)
              ∧ (¬ faulty → r.everReported = false → r.derived = some .unknown)
              ∧ (¬ faulty → r.everReported = true → 0 < r.queueCount → r.derived = some .busy)
              ∧ (¬ faulty → r.everReported = true → r.queueCount = 0 → r.derived = some .ready)))
      ∧ (r.usable = true ↔
          (r.derived = some .ready ∨ r.derived = some .busy) ∧ ∃ x, r.supply .k = some x ∧ 0 < x.level)
      ∧ (∀ k : CondKind, r.conditionSet.getLsbD (k.position - 1) = r.condition k)
      ∧ (r.condition .fuserFault = r.reported.getLsbD 0 ∧ r.condition .paperJam = r.reported.getLsbD 1
          ∧ r.condition .doorOpen = r.reported.getLsbD 2 ∧ r.condition .paperOut = r.reported.getLsbD 4
          ∧ r.condition .wasteFull = r.reported.getLsbD 6 ∧ r.condition .noContact = r.noContact)
      ∧ (r.condition .tonerEmpty = true ↔ ∃ e ∈ r.supplies, e.2.level = 0)
      ∧ (r.condition .tonerReorder = true ↔ ∃ e ∈ r.supplies, e.2.reorder = .due))
  ∧ (∀ (s : State) (q : Nat) (need : Need),
      let candidate := fun p =>
        (printer s p).usable = true
        ∧ (need = .colour → (printer s p).capability = .colour
            ∧ ∀ ch, ch ≠ .k → ∃ x, (printer s p).supply ch = some x ∧ 0 < x.level)
      (∀ p, route s q need = some p →
        p ∈ pool s q ∧ candidate p
        ∧ (∀ x ∈ pool s q, candidate x → (printer s p).queueCount ≤ (printer s x).queueCount)
        ∧ ∃ before after, pool s q = before ++ p :: after
            ∧ ∀ x ∈ before, candidate x → (printer s p).queueCount < (printer s x).queueCount)
      ∧ (route s q need = none ↔ ∀ x ∈ pool s q, ¬ candidate x))

/-- A release decision: a handle that names no HELD job of the account for the pool ends GONE with nothing changed. For any
other the first attempt fails NO_PRINTER, TOO_LARGE or OVER_QUOTA by what the Router, the ceiling and the limits of owner
and department say, in that order, or succeeds; a failed one of a colour job is followed by the mono fallback where the
owner's tenant allows it, and the result is that of the last attempt made. One that succeeds leaves the job RELEASED to the
Router's printer with its reservation, its handle at the Dispatch List's tail, the release counter advanced and the
printer's queue count raised, and sets warned, and the warning flag, where a charged account newly reaches its level; one
that ends otherwise leaves the job, the Dispatch List and every printer as they were. -/
def Obligations.ReleaseDecision : Prop :=
  ∀ (s : State) (h a q : Nat), (∀ x d, (account s x).department = some d → d ≠ x) →
    let d := decideRelease s h a q
    ((∀ i, resolve s h = some i → ¬ ((job s i).state = .held ∧ (job s i).owner = a
        ∧ ((job s i).pool = none ∨ (job s i).pool = some q))) →
      d.result = .gone ∧ d.state = s ∧ d.warning = false)
    ∧ ∀ i, resolve s h = some i → (job s i).state = .held → (job s i).owner = a →
        (job s i).pool = none ∨ (job s i).pool = some q →
        let charged := fun x => x = a ∨ (account s a).department = some x
        let touched := touchOpt (touch s a) (account s a).department
        let price := fun (mono : Bool) => perCopy (tenantRec s (account s a).tenant) (job s i) mono
        let due := fun (mono : Bool) => price mono * ((job s i).copies - (job s i).copiesDone)
        let given := fun (mono : Bool) => route s q (if mono ∨ (job s i).sidesColour = 0 then .mono else .colour)
        let fits := fun (mono : Bool) => ∀ x l, charged x → (account touched x).limit = some l →
          (account touched x).used + (account touched x).reserved + due mono ≤ l
        let succeeds := fun (mono : Bool) =>
          given mono ≠ none ∧ price mono * (job s i).copies ≤ 1000000000 ∧ fits mono
        let fails := fun (mono : Bool) (f : PickResult) =>
          f = .noPrinter ∧ given mono = none
          ∨ f = .tooLarge ∧ given mono ≠ none ∧ 1000000000 < price mono * (job s i).copies
          ∨ f = .overQuota ∧ given mono ≠ none ∧ price mono * (job s i).copies ≤ 1000000000 ∧ ¬ fits mono
        let fallback := 0 < (job s i).sidesColour ∧ (tenantRec s (account s a).tenant).policy = .monoFallback
        let mono := d.result == .releasedMono
        let crosses := fun x => (account touched x).warned = false
          ∧ ∃ l, (account touched x).limit = some l ∧ 0 < (tenantRec s (account s x).tenant).warnPermille
            ∧ l * (tenantRec s (account s x).tenant).warnPermille
                ≤ ((account touched x).used + (account touched x).reserved + due mono) * 1000
        (d.result = .released ↔ succeeds false)
        ∧ (d.result = .releasedMono ↔ ¬ succeeds false ∧ fallback ∧ succeeds true)
        ∧ (∀ f, f = .noPrinter ∨ f = .tooLarge ∨ f = .overQuota →
            (d.result = f ↔ ¬ fallback ∧ fails false f ∨ fallback ∧ ¬ succeeds false ∧ fails true f))
        ∧ (d.result = .released ∨ d.result = .releasedMono →
          ∃ p, given mono = some p
            ∧ job d.state i =
                { job s i with
                  state := .released, releasePool := some q, printer := some p, perCopyApplied := some (price mono)
                  chargedDept := (account s a).department, forcedMono := mono, releaseSeq := s.releaseCounter }
            ∧ d.state.dispatch = s.dispatch ++ [handleOf s i]
            ∧ d.state.releaseCounter = (s.releaseCounter + 1) % 4294967296
            ∧ (printer d.state p).queueCount = (printer s p).queueCount + 1
            ∧ (∀ x, x ≠ p → printer d.state x = printer s x)
            ∧ (∀ x, charged x → (account d.state x).reserved = (account s x).reserved + due mono
                ∧ ((account d.state x).warned = true ↔ (account touched x).warned = true ∨ crosses x))
            ∧ (∀ x, ¬ charged x → account d.state x = account s x)
            ∧ (d.warning = true ↔ ∃ x, charged x ∧ crosses x))
        ∧ (d.result = .noPrinter ∨ d.result = .tooLarge ∨ d.result = .overQuota →
            d.state = { s with accounts := d.state.accounts } ∧ (∀ x, (account d.state x).reserved = (account s x).reserved)
            ∧ d.warning = false)
        ∧ d.result ≠ .gone

/-- Take Dispatch with a head job that fits its printer: the job becomes PRINTING there with everything else of it kept, its
handle leaves the head, and the response carries handle, printer, forced_mono, copies remaining and no reverted job; no
account and no printer changes. With an empty list the answer is EMPTY with a reverted count of 0. Take Dispatch with a head
job that does not fit its printer: where the Router gives a printer of the release pool for the job's need the job prints
there and the two queue counts move; where it gives none the job reverts to HELD, or to EXPIRED when its hold time is over,
its reservation returned and the old printer's queue count lowered, and the rest of the list is taken from as Take Dispatch
would, with one more job reverted in the answer. -/
def Obligations.TakeDispatch : Prop :=
  ((∀ (s : State) (h p : Nat) (rest : List Nat), running s = true → s.dispatch = h :: rest →
      (job s (h % 2048)).printer = some p → (job s (h % 2048)).state = .released →
      (printer s p).usable = true →
      ((job s (h % 2048)).sidesColour = 0 ∨ (job s (h % 2048)).forcedMono = true
        ∨ ((printer s p).capability = .colour ∧ (printer s p).hasToner .c = true ∧ (printer s p).hasToner .m = true
            ∧ (printer s p).hasToner .y = true)) →
      ∃ t, exec (.takeDispatch 0) s = .next t
        ∧ Answers s t 0x35 .ok
            (num 2 h ++ num 2 p ++ [if (job s (h % 2048)).forcedMono then 1 else 0]
              ++ num 2 ((job s (h % 2048)).copies - (job s (h % 2048)).copiesDone) ++ [0x00] ++ num 2 0)
        ∧ t = { linked s t with jobs := t.jobs, dispatch := rest }
        ∧ job t (h % 2048) = { job s (h % 2048) with state := .printing }
        ∧ ∀ k, k ≠ h % 2048 → slot t k = slot s k)
    ∧ ∀ s : State, running s = true → s.dispatch = [] →
        ∃ t, exec (.takeDispatch 0) s = .next t ∧ Answers s t 0x35 .empty (num 2 0) ∧ t = linked s t)
  ∧ (∀ (s : State) (h old q : Nat) (rest : List Nat), running s = true → s.dispatch = h :: rest →
      let i := h % 2048
      let j := job s i
      j.printer = some old → j.releasePool = some q → j.state = .released → fits s j = false →
      (∀ new, route s q (printNeed j) = some new →
        ∃ t, exec (.takeDispatch 0) s = .next t
          ∧ Answers s t 0x35 .ok
              (num 2 h ++ num 2 new ++ [if j.forcedMono then 1 else 0] ++ num 2 (j.copies - j.copiesDone) ++ [0x01] ++ num 2 0)
          ∧ new ≠ old ∧ job t i = { j with state := .printing, printer := some new }
          ∧ (printer t old).queueCount = (printer s old).queueCount - 1
          ∧ (printer t new).queueCount = (printer s new).queueCount + 1
          ∧ (∀ x, x ≠ old → x ≠ new → printer t x = printer s x) ∧ (∀ k, k ≠ i → slot t k = slot s k)
          ∧ t = { linked s t with jobs := t.jobs, dispatch := rest, printers := t.printers })
      ∧ (route s q (printNeed j) = none →
        ∃ reverted, job reverted i =
              { j with
                state := if j.expiresAt ≤ s.seconds then .expired else .held
                outcome := if j.expiresAt ≤ s.seconds then some .expiredUnreleased else j.outcome
                printer := none, releasePool := none, resumeDeadline := none, perCopyApplied := none, chargedDept := none
                forcedMono := false }
          ∧ reverted.accounts = (returnReservation s i).accounts
          ∧ (printer reverted old).queueCount = (printer s old).queueCount - 1
          ∧ (∀ x, x ≠ old → printer reverted x = printer s x) ∧ (∀ k, k ≠ i → slot reverted k = slot s k)
          ∧ reverted.finished = s.finished + (if j.expiresAt ≤ s.seconds then 1 else 0)
          ∧ reverted = { s with
              accounts := reverted.accounts, jobs := reverted.jobs, finished := reverted.finished
              printers := reverted.printers, dispatch := rest }
          ∧ (rest = [] →
              ∃ t, exec (.takeDispatch 0) s = .next t ∧ Answers s t 0x35 .empty (num 2 1) ∧ t = linked reverted t)
          ∧ ∃ t u front n, exec (.takeDispatch 0) s = .next t ∧ exec (.takeDispatch 0) reverted = .next u
              ∧ n ≤ rest.length ∧ u.response.body = front ++ num 2 n ∧ t.response.body = front ++ num 2 (n + 1)
              ∧ t = { u with response := { u.response with body := t.response.body } }))

/-! ## Reports, interruption and recovery -/

/-- Report Progress of a PRINTING or INTERRUPTED job: the count, held to copies, raises copies_done to it and never lowers
it; the copies added are committed and their toner leaves the printer's supplies in one event on the printer, which hands
its condition changes; a count that adds nothing changes no record. State, deadline and queue count are kept. -/
def Obligations.ReportProgressCommitsCopies : Prop :=
  ∀ (s : State) (h n : BitVec 16) (i p : Nat), running s = true → resolve s h.toNat = some i →
    (job s i).state = .printing ∨ (job s i).state = .interrupted → (job s i).printer = some p →
    let j := job s i
    let k := min n.toNat j.copies - j.copiesDone
    ∃ t, exec (.reportProgress 4 h n) s = .next t ∧ Answers s t 0x37 .ok []
      ∧ (k = 0 → t = linked s t)
      ∧ (0 < k →
          job t i = { j with copiesDone := j.copiesDone + k } ∧ j.copiesDone + k = min n.toNat j.copies
          ∧ (∀ x, x ≠ i → slot t x = slot s x)
          ∧ t.accounts = (commit s i k).accounts
          ∧ (printer t p).queueCount = (printer s p).queueCount ∧ (printer t p).derived = (printer s p).derived
          ∧ (∀ ch x, (printer s p).supply ch = some x → ∃ y, (printer t p).supply ch = some y
              ∧ y.level = x.level - copyToner j ch * k
              ∧ y.accumulator = min 4294967295 (x.accumulator + copyToner j ch * k)
              ∧ y.model = x.model ∧ y.usage = x.usage ∧ y.forecast = x.forecast ∧ y.low = x.low
              ∧ y.reorder = if 0 < x.level ∧ y.level = 0 ∧ x.reorder = .none then .due else x.reorder)
          ∧ (∀ x, x ≠ p → printer t x = printer s x)
          ∧ t.callouts = (printerEvent s p fun _ => printer t p).callouts
          ∧ t = { linked s t with
              accounts := t.accounts, jobs := t.jobs, printers := t.printers, callouts := t.callouts })

/-- Report Job End COMPLETE of a PRINTING or INTERRUPTED job: the copies still to report are committed and their toner
consumed in one event on the printer, which hands its condition changes, the queue count falls by one, the job is DONE with
its printer and reservation figures kept and its deadline absent, and the finished count rises. -/
def Obligations.CompleteFinishesTheJob : Prop :=
  ∀ (s : State) (h : BitVec 16) (i p : Nat), running s = true → resolve s h.toNat = some i →
    (job s i).state = .printing ∨ (job s i).state = .interrupted → (job s i).printer = some p →
    (job s i).copiesDone ≤ (job s i).copies →
    let j := job s i
    let k := j.copies - j.copiesDone
    ∃ t, exec (.reportJobEndComplete 3 h 1) s = .next t ∧ Answers s t 0x38 .ok []
      ∧ job t i = { j with
          state := .done, outcome := some .complete, resumeDeadline := none, copiesDone := j.copies }
      ∧ (∀ x, x ≠ i → slot t x = slot s x)
      ∧ t.accounts = (if k = 0 then s.accounts else (commit s i k).accounts)
      ∧ (printer t p).queueCount = (printer s p).queueCount - 1
      ∧ (∀ ch x, (printer s p).supply ch = some x → ∃ y, (printer t p).supply ch = some y
          ∧ y.level = x.level - copyToner j ch * k)
      ∧ (∀ x, x ≠ p → printer t x = printer s x)
      ∧ t.callouts =
          (printerEvent s p fun r => { printer t p with queueCount := r.queueCount }).callouts
      ∧ t.finished = s.finished + 1
      ∧ t = { linked s t with
          accounts := t.accounts, jobs := t.jobs, finished := t.finished, printers := t.printers
          callouts := t.callouts }

/-- Report Job End DELIVERY_FAILED: a PRINTING job becomes INTERRUPTED with its window running for its owner's tenant's
resume_minutes; an INTERRUPTED job keeps its deadline; nothing else changes (that no account does, the owner's tenant being
read without a touch, is the model's reading, log 15). An outcome code of none of the three rows is refused BAD_FIELD (the
row that carries it is the model's choice, log 7). The end of a resume window: an INTERRUPTED job whose deadline is at or
below now has its reservation returned, its printer's queue count lowered, and becomes HELD, or EXPIRED when its hold time
is over, with copies_done kept; any other job stays. -/
def Obligations.DeliveryFailedAndTheResumeWindow : Prop :=
  (∀ (s : State) (h : BitVec 16) (i : Nat), running s = true → resolve s h.toNat = some i →
      ((job s i).state = .printing →
        ∃ t, exec (.reportJobEndDeliveryFailed 3 h) s = .next t ∧ Answers s t 0x38 .ok []
          ∧ t = { linked s t with jobs := t.jobs }
          ∧ job t i = { job s i with
              state := .interrupted
              resumeDeadline := some (min 4294967295
                (s.seconds + (tenantRec s (account s (job s i).owner).tenant).resumeMinutes * 60)) }
          ∧ ∀ x, x ≠ i → slot t x = slot s x)
      ∧ ((job s i).state = .interrupted →
        ∃ t, exec (.reportJobEndDeliveryFailed 3 h) s = .next t ∧ Answers s t 0x38 .ok [] ∧ t = linked s t)
      ∧ ∀ outcome : Byte, outcome ≠ 1 → outcome ≠ 3 → outcome ≠ 5 →
        ∃ t, exec (.reportJobEndComplete 3 h outcome) s = .next t ∧ Answers s t 0x38 .badField [] ∧ t = linked s t)
  ∧ (∀ (s : State) (i : Fin 2048), running s = true →
      let j := job s i.val
      (∀ p d, j.state = .interrupted → j.printer = some p → j.resumeDeadline = some d → d ≤ s.seconds →
        ∃ t, exec (.resumeWindowExpiry i) s = .next t ∧ Settled t
          ∧ job t i.val =
              { j with
                state := if j.expiresAt ≤ s.seconds then .expired else .held
                outcome := if j.expiresAt ≤ s.seconds then some .expiredUnreleased else j.outcome
                printer := none, releasePool := none, resumeDeadline := none, perCopyApplied := none, chargedDept := none
                forcedMono := false }
          ∧ (∀ x, x ≠ i.val → slot t x = slot s x)
          ∧ t.accounts = (returnReservation s i.val).accounts
          ∧ (printer t p).queueCount = (printer s p).queueCount - 1 ∧ (∀ x, x ≠ p → printer t x = printer s x)
          ∧ t.finished = s.finished + (if j.expiresAt ≤ s.seconds then 1 else 0)
          ∧ t = { signalled s t with
              accounts := t.accounts, jobs := t.jobs, finished := t.finished, printers := t.printers })
      ∧ (j.state ≠ .interrupted ∨ j.resumeDeadline = none ∨ (∃ d, j.resumeDeadline = some d ∧ s.seconds < d) →
        exec (.resumeWindowExpiry i) s = .next (settle s)))

/-- A printer that goes down interrupts every job that prints on it and no other; a printer that comes up returns every
INTERRUPTED job that names it to RELEASED, their handles at the Dispatch List's head in the order of their release_seq. -/
def Obligations.GoingDownAndComingUp : Prop :=
  ∀ (s : State) (p : Nat) (f : Printer → Printer), Canonical s = true →
    let old := printer s p
    let new := f old
    let t := printerEvent s p f
    (old.up = true → new.down = true →
      t.dispatch = s.dispatch
      ∧ ∀ i, job t i =
          if (job s i).state = .printing ∧ (job s i).printer = some p then
            { job s i with
              state := .interrupted
              resumeDeadline := some (min 4294967295
                (s.seconds + (tenantRec s (account s (job s i).owner).tenant).resumeMinutes * 60)) }
          else job s i)
    ∧ (old.usable = false → new.usable = true →
      (∃ group : List Nat, t.dispatch = group.map (handleOf s) ++ s.dispatch
        ∧ group.Nodup ∧ (∀ i, i ∈ group ↔ (job s i).state = .interrupted ∧ (job s i).printer = some p)
        ∧ group.Pairwise fun i k => (job s i).releaseSeq ≤ (job s k).releaseSeq)
      ∧ ∀ i, job t i =
          if (job s i).state = .interrupted ∧ (job s i).printer = some p then
            { job s i with state := .released, resumeDeadline := none }
          else job s i)
    ∧ (¬ (old.up = true ∧ new.down = true) → ¬ (old.usable = false ∧ new.usable = true) →
      t.jobs = s.jobs ∧ t.dispatch = s.dispatch)

/-! ## Printers, pools, supplies and the survey -/

/-- Enroll Printer of a printer not enrolled, with known codes and models at most 31: the record takes the settings, no
condition, no contact deadline and a full supply for each channel of its capability; nothing else changes. An Enroll Printer
is refused BAD_FIELD for a printer above 255, an unknown capability or route mode and a model above 31 of a channel of the
capability. Enroll Printer of an enrolled printer, MONO or COLOUR: its four settings only, and IN_USE when the capability or
the model of a channel it uses differs. -/
def Obligations.EnrollPrinter : Prop :=
  (∀ (s : State) (p : BitVec 16) (cap : Byte) (mk mc mm my : BitVec 16) (group : Byte) (mode contact surveyed : Byte),
      running s = true → p.toNat ≤ 255 → (printer s p.toNat).enrolled = false → mode.toNat ≤ 1 →
      (cap = 0 ∧ mk.toNat ≤ 31 ∨ cap = 1 ∧ mk.toNat ≤ 31 ∧ mc.toNat ≤ 31 ∧ mm.toNat ≤ 31 ∧ my.toNat ≤ 31) →
      let full := fun (m : BitVec 16) =>
        ({ model := m.toNat, level := (model s m.toNat).capacity, accumulator := 0, usage := none, forecast := none
           low := false, reorder := .none, lastSurvey := s.seconds } : Supply)
      ∃ t, exec (.enrollPrinter 15 p cap mk mc mm my group mode contact surveyed) s = .next t
        ∧ Answers s t 0x50 .ok [] ∧ t = { linked s t with printers := t.printers }
        ∧ printer t p.toNat =
            { enrolled := true, capability := if cap = 0 then .mono else .colour, reported := 0, noContact := false
              everReported := false, service := false, deskGroup := group
              routeMode := if mode = 0 then .fixed else .leastBusy, contactMinutes := max 1 (min 60 contact.toNat)
              contactDeadline := none, queueCount := 0, surveyed := surveyed != 0
              supplies := if cap = 0 then [(.k, full mk)]
                else [(.k, full mk), (.c, full mc), (.m, full mm), (.y, full my)] }
        ∧ ∀ x, x ≠ p.toNat → printer t x = printer s x)
  ∧ (∀ (s : State) (p mk mc mm my : BitVec 16) (cap group mode contact surveyed : Byte), running s = true →
      let bad := 255 < p.toNat ∨ 1 < cap.toNat ∨ 1 < mode.toNat ∨ 31 < mk.toNat
        ∨ cap = 1 ∧ (31 < mc.toNat ∨ 31 < mm.toNat ∨ 31 < my.toNat)
      let asked : List (Channel × Nat) :=
        if cap = 0 then [(.k, mk.toNat)] else [(.k, mk.toNat), (.c, mc.toNat), (.m, mm.toNat), (.y, my.toNat)]
      (bad → ∃ t, exec (.enrollPrinter 15 p cap mk mc mm my group mode contact surveyed) s = .next t
        ∧ Answers s t 0x50 .badField [] ∧ t = linked s t)
      ∧ (¬ bad → (printer s p.toNat).enrolled = true →
        ∃ t, exec (.enrollPrinter 15 p cap mk mc mm my group mode contact surveyed) s = .next t
          ∧ if (printer s p.toNat).capability = (if cap = 0 then .mono else .colour)
              ∧ (printer s p.toNat).supplies.map (fun e => (e.1, e.2.model)) = asked then
              Answers s t 0x50 .ok [] ∧ t = { linked s t with printers := t.printers }
              ∧ printer t p.toNat =
                  { printer s p.toNat with
                    deskGroup := group, routeMode := if mode = 0 then .fixed else .leastBusy
                    contactMinutes := max 1 (min 60 contact.toNat), surveyed := surveyed != 0 }
              ∧ ∀ y, y ≠ p.toNat → printer t y = printer s y
            else Answers s t 0x50 .inUse [] ∧ t = linked s t))

/-- Retire Printer: IN_USE while a RELEASED, PRINTING or INTERRUPTED job names the printer, with nothing changed; otherwise
the record takes its reset values, the printer leaves every pool with the others in their order, and its callout records are
deleted at every desk. -/
def Obligations.RetirePrinterLeavesNothing : Prop :=
  ∀ (s : State) (p : BitVec 16), running s = true → p.toNat ≤ 255 → (printer s p.toNat).enrolled = true →
    (printerNamed s p.toNat = true →
      ∃ t, exec (.retirePrinter 2 p) s = .next t ∧ Answers s t 0x51 .inUse [] ∧ t = linked s t)
    ∧ (printerNamed s p.toNat = false →
      ∃ t, exec (.retirePrinter 2 p) s = .next t ∧ Answers s t 0x51 .ok []
        ∧ t = { linked s t with
            printers := t.printers, pools := t.pools, callouts := t.callouts, desks := t.desks }
        ∧ printer t p.toNat = {} ∧ (∀ x, x ≠ p.toNat → printer t x = printer s x)
        ∧ (∀ q < 64, pool t q = (pool s q).filter (· ≠ p.toNat))
        ∧ (∀ x k, callout t x k = if x = p.toNat then none else callout s x k)
        ∧ ∀ d < 8, (desk t d).mode = (desk s d).mode
            ∧ (desk t d).inService = (desk s d).inService.filter fun r => r.1 ≠ p.toNat)

/-- Printer Status, Set Service and a contact expiry write their fields of the printer record in one event on the printer,
which hands what changed to the jobs, the Dispatch List and the callouts; the queue count, the desk group and the levels of
channels not flagged empty are kept, a flagged channel goes to 0, and other printers stay. (That no account changes where
jobs are interrupted, the owner's tenant being read without a touch, is the model's reading, log 15.) -/
def Obligations.PrinterEventsWriteTheirFields : Prop :=
  ∀ (s : State) (p : Fin 256), Canonical s = true → running s = true → (printer s p.val).enrolled = true →
    let r := printer s p.val
    let number := BitVec.ofNat 16 p.val
    let event := fun (t : State) => printerEvent s p.val fun _ => printer t p.val
    (∀ reported empty : Byte, ∃ t, exec (.printerStatus 4 number reported empty) s = .next t ∧ Answers s t 0x53 .ok []
      ∧ t = { linked s t with
          printers := t.printers, jobs := (event t).jobs, dispatch := (event t).dispatch, callouts := (event t).callouts }
      ∧ printer t p.val =
          { r with
            reported := reported &&& 0x57#8, everReported := true, noContact := false
            contactDeadline := some (min 4294967295 (s.seconds + r.contactMinutes * 60))
            supplies := (printer t p.val).supplies }
      ∧ (∀ ch x, r.supply ch = some x → ∃ y, (printer t p.val).supply ch = some y
          ∧ y.level = (if emptyFlag empty ch then 0 else x.level) ∧ y.model = x.model ∧ y.accumulator = x.accumulator
          ∧ y.reorder = (if emptyFlag empty ch ∧ 0 < x.level ∧ x.reorder = .none then .due else x.reorder))
      ∧ ∀ x, x ≠ p.val → printer t x = printer s x)
    ∧ (∀ on : Byte, ∃ t, exec (.setService 3 number on) s = .next t ∧ Answers s t 0x52 .ok []
      ∧ t = { linked s t with
          printers := t.printers, jobs := (event t).jobs, dispatch := (event t).dispatch, callouts := (event t).callouts }
      ∧ printer t p.val = { r with service := on != 0 } ∧ ∀ x, x ≠ p.val → printer t x = printer s x)
    ∧ (∀ d, r.contactDeadline = some d → d ≤ s.seconds →
      ∃ t, exec (.contactExpiry p) s = .next t ∧ Settled t
        ∧ t = { signalled s t with
            printers := t.printers, jobs := (event t).jobs, dispatch := (event t).dispatch, callouts := (event t).callouts }
        ∧ printer t p.val = { r with noContact := true, contactDeadline := none }
        ∧ ∀ x, x ≠ p.val → printer t x = printer s x)
    ∧ (r.contactDeadline = none ∨ (∃ d, r.contactDeadline = some d ∧ s.seconds < d) →
      exec (.contactExpiry p) s = .next (settle s))

/-- Set Pool and the printer requests that name no enrolled printer: a list of at most 8 different enrolled printers is
written to a pool of 0 to 63 and nothing else; any other list or pool is refused BAD_FIELD; a printer above 255 or not
enrolled is NO_SUCH to Retire Printer, Set Service, Printer Status, Read Supplies, Supply Report and Supply Replaced. -/
def Obligations.SetPoolAndUnknownPrinters : Prop :=
  (∀ (s : State) (q len : BitVec 16) (l : List (BitVec 16)), running s = true → 2 ≤ len.toNat → len.toNat ≤ 512 →
    len.toNat % 2 = 0 →
    let numbers := l.map BitVec.toNat
    ∃ t, exec (.setPool len q l) s = .next t
      ∧ ((q.toNat ≤ 63 ∧ numbers.length ≤ 8 ∧ numbers.Nodup
            ∧ ∀ p ∈ numbers, p ≤ 255 ∧ (printer s p).enrolled = true) →
          Answers s t 0x55 .ok [] ∧ t = { linked s t with pools := t.pools } ∧ pool t q.toNat = numbers
          ∧ ∀ x, x ≠ q.toNat → pool t x = pool s x)
      ∧ (¬ (q.toNat ≤ 63 ∧ numbers.length ≤ 8 ∧ numbers.Nodup
            ∧ ∀ p ∈ numbers, p ≤ 255 ∧ (printer s p).enrolled = true) →
          Answers s t 0x55 .badField [] ∧ t = linked s t))
  ∧ ∀ (s : State) (p : BitVec 16) (a b : Byte), running s = true → 255 < p.toNat ∨ (printer s p.toNat).enrolled = false →
      (∃ t, exec (.retirePrinter 2 p) s = .next t ∧ Answers s t 0x51 .noSuch [] ∧ t = linked s t)
      ∧ (∃ t, exec (.setService 3 p a) s = .next t ∧ Answers s t 0x52 .noSuch [] ∧ t = linked s t)
      ∧ (∃ t, exec (.printerStatus 4 p a b) s = .next t ∧ Answers s t 0x53 .noSuch [] ∧ t = linked s t)
      ∧ (∃ t, exec (.readSupplies 2 p) s = .next t ∧ Answers s t 0x62 .noSuch [] ∧ t = linked s t)
      ∧ (∃ t, exec (.supplyReport 4 p a b) s = .next t ∧ Answers s t 0x63 .noSuch [] ∧ t = linked s t)
      ∧ ∃ t, exec (.supplyReplaced 3 p a) s = .next t ∧ Answers s t 0x64 .noSuch [] ∧ t = linked s t

/-- Set Supply Model: a model above 31 is BAD_FIELD; a change of the capacity under a supply that names the model is IN_USE;
otherwise the record takes both figures held to their ranges, and nothing else changes. Supply Report and Supply Replaced of
a channel the printer has: the report replaces the level by the gauge figure when the two differ by more than a tenth of the
capacity, and answers the level and whether it was replaced; the replacement fills the level, clears accumulator, forecast,
low and reorder, and keeps usage and last_survey. Each is one event on the printer, which hands what changed to the jobs,
the Dispatch List and the callouts. No other channel changes. A channel code above 3 is BAD_FIELD and a channel the printer
does not have NO_SUCH, with nothing changed. -/
def Obligations.SupplyModelsAndReports : Prop :=
  (∀ (s : State) (m : BitVec 16) (capacity : BitVec 32) (lead : Byte), running s = true →
      let cap := max 1 (min 16777215 capacity.toNat)
      ∃ t, exec (.setSupplyModel 7 m capacity lead) s = .next t
        ∧ if 31 < m.toNat then Answers s t 0x60 .badField [] ∧ t = linked s t
          else if cap ≠ (model s m.toNat).capacity
              ∧ (s.printers.any fun e => e.2.supplies.any fun x => x.2.model == m.toNat) = true then
            Answers s t 0x60 .inUse [] ∧ t = linked s t
          else
            Answers s t 0x60 .ok [] ∧ t = { linked s t with models := t.models }
            ∧ model t m.toNat = { capacity := cap, lead := max 1 (min 60 lead.toNat) }
            ∧ ∀ x, x ≠ m.toNat → model t x = model s x)
  ∧ (∀ (s : State) (p : Fin 256) (channel percent : Byte),
      Canonical s = true → running s = true → (printer s p.val).enrolled = true →
      let number := BitVec.ofNat 16 p.val
      let refused := fun (code : Code) =>
        (∃ t, exec (.supplyReport 4 number channel percent) s = .next t ∧ Answers s t 0x63 code [] ∧ t = linked s t)
        ∧ ∃ t, exec (.supplyReplaced 3 number channel) s = .next t ∧ Answers s t 0x64 code [] ∧ t = linked s t
      (3 < channel.toNat → refused .badField)
      ∧ (∀ ch, channelOf channel = some ch → (printer s p.val).supply ch = none → refused .noSuch)
      ∧ ∀ (ch : Channel) (x : Supply), channelOf channel = some ch → (printer s p.val).supply ch = some x →
        let capacity := (model s x.model).capacity
        let gauge := min 100 percent.toNat * capacity / 100
        let far := decide (capacity / 10 + x.level < gauge ∨ capacity / 10 + gauge < x.level)
        let event := fun (t : State) => printerEvent s p.val fun _ => printer t p.val
        let others := fun (t : State) =>
          (∀ other, other ≠ ch → (printer t p.val).supply other = (printer s p.val).supply other)
          ∧ (∀ y, y ≠ p.val → printer t y = printer s y)
          ∧ printer t p.val = { printer s p.val with supplies := (printer t p.val).supplies }
          ∧ t = { linked s t with
              printers := t.printers, jobs := (event t).jobs, dispatch := (event t).dispatch
              callouts := (event t).callouts }
        (∃ t, exec (.supplyReport 4 number channel percent) s = .next t
          ∧ Answers s t 0x63 .ok (num 4 (if far then gauge else x.level) ++ [if far then 1 else 0])
          ∧ (printer t p.val).supply ch = some { x with
              level := if far then gauge else x.level
              reorder := if far ∧ gauge = 0 ∧ 0 < x.level ∧ x.reorder = .none then .due else x.reorder }
          ∧ others t)
        ∧ (∃ t, exec (.supplyReplaced 3 number channel) s = .next t ∧ Answers s t 0x64 .ok []
          ∧ (printer t p.val).supply ch = some { x with
              level := capacity, accumulator := 0, reorder := .none, low := false, forecast := none }
          ∧ others t))

/-- A survey visit of a supply: under an hour since the last computation nothing changes; otherwise the daily figure, the
moving average, the forecast, the low flag and its edge are computed, the accumulator restarts and the level is kept. -/
def Obligations.SurveyComputesTheForecast : Prop :=
  ∀ (x : Supply) (now lead : Nat),
    let elapsed := (now - x.lastSurvey) / 60
    (elapsed < 60 → x.visited now lead = x)
    ∧ (60 ≤ elapsed →
      let daily := x.accumulator * 1440 / elapsed
      let usage := match x.usage with
        | none => daily
        | some u => (7 * u + daily) / 8
      let forecast := if usage = 0 then 999 else min 999 (x.level / usage)
      x.visited now lead =
        { model := x.model, level := x.level, accumulator := 0, usage := some usage, forecast := some forecast
          low := decide (forecast ≤ lead)
          reorder := if x.low = false ∧ forecast ≤ lead ∧ x.reorder = .none then .due else x.reorder
          lastSurvey := now })

/-- The survey: Survey Now refuses a printer above 255 or not enrolled NO_SUCH, is BUSY while a survey is in flight, and
otherwise starts one of the printer named or of all; a step visits the lowest eligible printer at or above the cursor, in
one event on that printer that hands its condition changes, and moves the cursor past it, or completes the survey, with
survey_done set, in the step that leaves none to visit; a tick with no survey in flight does nothing. -/
def Obligations.SurveyRunsOverThePrinters : Prop :=
  ∀ (s : State) (n : Opt 16), running s = true → presenceOk n = true →
    let eligible := fun (sc : Scope) (p : Nat) =>
      (printer s p).enrolled = true ∧ (sc = .all → (printer s p).surveyed = true) ∧ ∀ q, sc = .one q → p = q
    let known := ∀ p, optional n = some p → p ≤ 255 ∧ (printer s p).enrolled = true
    (¬ known → ∃ t, exec (.surveyNow 3 n) s = .next t ∧ Answers s t 0x65 .noSuch [] ∧ t = linked s t)
    ∧ (s.survey.scope = none →
      (known → ∃ t, exec (.surveyNow 3 n) s = .next t ∧ Answers s t 0x65 .ok [] ∧ t = { linked s t with survey := t.survey }
        ∧ t.survey.done = s.survey.done
        ∧ t.survey.scope = some (match optional n with
            | none => .all
            | some p => .one p)
        ∧ t.survey.cursor = (optional n).getD 0)
      ∧ exec .surveyStep s = .next (settle s))
    ∧ (∀ sc, s.survey.scope = some sc →
      (known → ∃ t, exec (.surveyNow 3 n) s = .next t ∧ Answers s t 0x65 .busy [] ∧ t = linked s t)
      ∧ (∀ p, s.survey.cursor ≤ p → p < 256 → eligible sc p → (∀ y < p, s.survey.cursor ≤ y → ¬ eligible sc y) →
          ∃ t, exec .surveyStep s = .next t ∧ Settled t
            ∧ printer t p =
                { printer s p with
                  supplies := (printer s p).supplies.map
                    (fun e => (e.1, e.2.visited s.seconds (model s e.2.model).lead)) }
            ∧ (∀ y, y ≠ p → printer t y = printer s y)
            ∧ ((∀ y < 256, p < y → ¬ eligible sc y) → t.survey = { scope := none, cursor := 0, done := true })
            ∧ (∀ y < 256, p < y → eligible sc y → t.survey = { s.survey with cursor := p + 1 })
            ∧ (let event := printerEvent s p fun _ => printer t p
               t = { signalled s t with
                printers := t.printers, jobs := event.jobs, dispatch := event.dispatch, callouts := event.callouts
                survey := t.survey }))
      ∧ ((∀ y < 256, s.survey.cursor ≤ y → ¬ eligible sc y) →
          ∃ t, exec .surveyStep s = .next t ∧ Settled t
            ∧ t = { signalled s t with survey := { scope := none, cursor := 0, done := true } }))

/-! ## Callouts, classes and desks -/

/-- The settings of the Callout Controller: Set Condition (with the lock clear), Set Class Mode, Set Class Base and Set Desk
Mode write their one entry, and refuse a number or a code outside its range BAD_FIELD with nothing written. -/
def Obligations.CalloutSettings : Prop :=
  ∀ (s : State) (n code sense auto : Byte) (base : BitVec 16), running s = true →
    (s.lock = false → ∃ t, exec (.setCondition 4 n code sense auto) s = .next t
      ∧ ((1 ≤ n.toNat ∧ n.toNat ≤ 8 ∧ code.toNat ≤ 3 ∧ sense.toNat ≤ 1) →
          Answers s t 0x70 .ok [] ∧ t = { linked s t with conditions := t.conditions }
          ∧ ∀ k : CondKind, condEntry t k =
              if k.position = n.toNat then
                { cls := code.toNat, sense := if sense = 0 then .level else .edge, autoClose := auto != 0 }
              else condEntry s k)
      ∧ (¬ (1 ≤ n.toNat ∧ n.toNat ≤ 8 ∧ code.toNat ≤ 3 ∧ sense.toNat ≤ 1) →
          Answers s t 0x70 .badField [] ∧ t = linked s t))
    ∧ (∃ t, exec (.setClassMode 2 n code) s = .next t
      ∧ if n.toNat ≤ 3 ∧ code.toNat ≤ 1 then
          Answers s t 0x72 .ok [] ∧ t = { linked s t with classes := t.classes }
          ∧ ∀ c, classRec t c = if c = n.toNat then
              { classRec s c with mode := if code = 0 then .fixed else .rotating } else classRec s c
        else Answers s t 0x72 .badField [] ∧ t = linked s t)
    ∧ (∃ t, exec (.setClassBase 3 n base) s = .next t
      ∧ if n.toNat ≤ 3 ∧ base.toNat ≤ 255 then
          Answers s t 0x73 .ok [] ∧ t = { linked s t with classes := t.classes }
          ∧ ∀ c, classRec t c = if c = n.toNat then { classRec s c with base := base.toNat } else classRec s c
        else Answers s t 0x73 .badField [] ∧ t = linked s t)
    ∧ ∃ t, exec (.setDeskMode 2 n code) s = .next t
      ∧ if n.toNat ≤ 7 ∧ code.toNat ≤ 1 then
          Answers s t 0x75 .ok [] ∧ t = { linked s t with desks := t.desks }
          ∧ ∀ d, desk t d = if d = n.toNat then
              { desk s d with mode := if code = 0 then .nested else .opened } else desk s d
        else Answers s t 0x75 .badField [] ∧ t = linked s t

/-- A change of a condition's presence: with no record an appearance raises one, PENDING, with the table's entry, the
present calendar time and the desk of the printer's routing; a PENDING LEVEL record is withdrawn by a disappearance; an
IN_SERVICE EDGE record is marked again by an appearance; everything else stays. An event on a printer writes its record and
hands each kind whose presence changed to the callout record of that printer and kind, with the record written; it touches
no other printer and no other record but jobs and the Dispatch List. -/
def Obligations.ConditionChangesActOnTheRecord : Prop :=
  (∀ (s : State) (p : Nat) (k : CondKind) (present : Bool),
      let t := handChange s p k present
      let e := condEntry s k
      t = { s with callouts := t.callouts }
      ∧ (∀ x y, ¬ (x = p ∧ y = k) → callout t x y = callout s x y)
      ∧ (callout s p k = none → present = false → callout t p k = none)
      ∧ (callout s p k = none → present = true →
          ∃ d, callout t p k = some
              { state := .pending, cls := e.cls, sense := e.sense, autoClose := e.autoClose, desk := d
                raisedAt := s.calendar.stamp, ackedAt := none, again := false }
            ∧ ((printer s p).deskGroup = 0 → d = 0)
            ∧ ((printer s p).deskGroup ≠ 0 → d < 8 ∧ (printer s p).deskGroup.getLsbD d = true
                ∧ ((printer s p).routeMode = .fixed → ∀ x < d, (printer s p).deskGroup.getLsbD x = false)
                ∧ ((printer s p).routeMode = .leastBusy → ∀ x < 8, (printer s p).deskGroup.getLsbD x = true →
                    (desk s d).inService.length < (desk s x).inService.length
                    ∨ (desk s d).inService.length = (desk s x).inService.length ∧ d ≤ x)))
      ∧ ∀ c, callout s p k = some c →
          callout t p k =
            if c.state = .pending ∧ present = false ∧ c.sense = .level then none
            else if c.state = .inService ∧ present = true ∧ c.sense = .edge then some { c with again := true }
            else some c)
  ∧ (∀ (s : State) (p : Nat) (f : Printer → Printer), Canonical s = true →
      let old := printer s p
      let new := f old
      let t := printerEvent s p f
      t = { s with printers := t.printers, jobs := t.jobs, dispatch := t.dispatch, callouts := t.callouts }
      ∧ printer t p = new ∧ (∀ x, x ≠ p → printer t x = printer s x)
      ∧ (∀ k, callout t p k =
          if old.condition k = new.condition k then callout s p k
          else callout (handChange (putPrinter s p new) p k (new.condition k)) p k)
      ∧ ∀ x k, x ≠ p → callout t x k = callout s x k)

/-- The rank of a printer in a class is (p - base - 1) mod 256: no two printers share one, the printer after the base has 0
and the base printer 255. -/
def Obligations.RankStartsAfterTheBase : Prop :=
  ∀ (s : State) (c : Nat), (classRec s c).base ≤ 255 →
    (∀ p < 256, (rank s c p + (classRec s c).base + 1) % 256 = p ∧ rank s c p < 256)
    ∧ (∀ p < 256, ∀ q < 256, rank s c p = rank s c q → p = q)
    ∧ rank s c (classRec s c).base = 255
    ∧ ((classRec s c).base = 255 → ∀ p < 256, rank s c p = p)

/-- Acknowledge Callout: with nothing presentable at the desk the answer is NONE and no record changes; otherwise the record
taken is presentable and none presentable goes before it in class, rank and kind order, and the answer is its notice of 22
bytes; without auto_close it becomes IN_SERVICE at the tail of the desk's list; with auto_close it is retired, and raised
anew where it is LEVEL with its condition present or EDGE marked again; a TONER_REORDER record makes every DUE supply of the
printer ORDERED; a ROTATING class's base becomes its printer. A desk above 7 is BAD_FIELD. -/
def Obligations.AcknowledgeTakesTheFirstPresentable : Prop :=
  ∀ (s : State) (d : Byte), Canonical s = true → running s = true →
    (7 < d.toNat → ∃ t, exec (.acknowledgeCallout 1 d) s = .next t ∧ Answers s t 0x76 .badField [] ∧ t = linked s t)
    ∧ (d.toNat ≤ 7 → (∀ p k c, callout s p k = some c → presentableAt s d.toNat p c = false) →
        ∃ t, exec (.acknowledgeCallout 1 d) s = .next t ∧ Answers s t 0x76 .none [] ∧ t = linked s t)
    ∧ ∀ p k c, d.toNat ≤ 7 → callout s p k = some c → presentableAt s d.toNat p c = true →
        (∀ x y e, callout s x y = some e → presentableAt s d.toNat x e = true →
          c.cls < e.cls ∨ c.cls = e.cls ∧ (rank s c.cls p < rank s c.cls x
            ∨ rank s c.cls p = rank s c.cls x ∧ (k.position < y.position ∨ x = p ∧ y = k))) →
        ∃ t, exec (.acknowledgeCallout 1 d) s = .next t
          ∧ Answers s t 0x76 .ok (noticeBody s d.toNat p k c) ∧ t.response.body.length = 22
          ∧ (c.autoClose = false →
              callout t p k = some { c with state := .inService, ackedAt := some s.seconds }
              ∧ ∀ x, desk t x = if x = d.toNat then
                  { desk s x with inService := (desk s x).inService ++ [(p, k)] } else desk s x)
          ∧ (c.autoClose = true →
              (∀ x, desk t x = desk s x)
              ∧ callout t p k =
                  if (c.sense = .level ∧ k ≠ .tonerReorder ∧ (printer s p).condition k = true)
                      ∨ (c.sense = .edge ∧ c.again = true) then
                    callout (handChange (putCallout s p k none) p k true) p k
                  else none)
          ∧ (∀ x y, ¬ (x = p ∧ y = k) → callout t x y = callout s x y)
          ∧ (∀ x, classRec t x = if x = c.cls ∧ (classRec s x).mode = .rotating then { classRec s x with base := p }
              else classRec s x)
          ∧ (k ≠ .tonerReorder → t.printers = s.printers)
          ∧ (k = .tonerReorder →
              printer t p =
                { printer s p with
                  supplies := (printer s p).supplies.map fun e =>
                    (e.1, { e.2 with reorder := if e.2.reorder = .due then .ordered else e.2.reorder }) }
              ∧ ∀ x, x ≠ p → printer t x = printer s x)
          ∧ t = { linked s t with
              callouts := t.callouts, desks := t.desks, classes := t.classes, printers := t.printers }

/-- Close Callout: a desk above 7, and in the specific form a printer above 255 or a kind code outside 1 to 8, is BAD_FIELD.
The specific form retires the record of a printer and kind IN_SERVICE at the desk and refuses any other NO_SUCH; the non-
specific form is NEEDS_SPECIFIC at an OPEN desk and NO_SUCH with nothing in service, and otherwise retires the latest record
of the lowest class. The record leaves its desk's list; the DUE supplies of a TONER_REORDER record's printer become ORDERED;
a LEVEL record whose condition is still present, or an EDGE record marked again, is raised anew PENDING, and otherwise no
record is left. -/
def Obligations.CloseRetiresTheRecord : Prop :=
  (∀ (s : State) (d : Byte) (p : BitVec 16) (kind : Byte), running s = true →
    (7 < d.toNat ∨ 255 < p.toNat ∨ kind.toNat = 0 ∨ 8 < kind.toNat →
      ∃ t, exec (.closeCalloutSpecific 4 d p kind) s = .next t ∧ Answers s t 0x77 .badField [] ∧ t = linked s t)
    ∧ (7 < d.toNat →
      ∃ t, exec (.closeCalloutNonSpecific 1 d) s = .next t ∧ Answers s t 0x77 .badField [] ∧ t = linked s t))
  ∧ ∀ (s : State) (d : Byte) (p : BitVec 16) (kind : Byte) (k : CondKind), running s = true → d.toNat ≤ 7 → p.toNat ≤ 255 →
    condKindOf kind.toNat = some k →
    let retired := fun (t : State) (q : Nat) (k : CondKind) (c : Callout) =>
      (∀ x, desk t x = if x = d.toNat then
          { desk s x with inService := (desk s x).inService.filter (· ≠ (q, k)) } else desk s x)
      ∧ (∀ x y, ¬ (x = q ∧ y = k) → callout t x y = callout s x y)
      ∧ (if (c.sense = .level ∧ k ≠ .tonerReorder ∧ (printer s q).condition k = true)
            ∨ (c.sense = .edge ∧ c.again = true) then
          ∃ n, callout t q k = some n ∧ n.state = .pending ∧ n.cls = (condEntry s k).cls
            ∧ n.sense = (condEntry s k).sense ∧ n.raisedAt = s.calendar.stamp ∧ n.ackedAt = none ∧ n.again = false
            ∧ callout (handChange (putCallout { s with desks := t.desks } q k none) q k true) q k = some n
         else callout t q k = none)
      ∧ (k ≠ .tonerReorder → t.printers = s.printers)
      ∧ (k = .tonerReorder →
          printer t q =
            { printer s q with
              supplies := (printer s q).supplies.map fun e =>
                (e.1, { e.2 with reorder := if e.2.reorder = .due then .ordered else e.2.reorder }) }
          ∧ ∀ x, x ≠ q → printer t x = printer s x)
      ∧ t = { linked s t with callouts := t.callouts, desks := t.desks, printers := t.printers }
    (∃ t, exec (.closeCalloutSpecific 4 d p kind) s = .next t
      ∧ ((∀ c, callout s p.toNat k = some c → ¬ (c.state = .inService ∧ c.desk = d.toNat)) →
          Answers s t 0x77 .noSuch [] ∧ t = linked s t)
      ∧ ∀ c, callout s p.toNat k = some c → c.state = .inService → c.desk = d.toNat →
          Answers s t 0x77 .ok [] ∧ retired t p.toNat k c)
    ∧ ∃ t, exec (.closeCalloutNonSpecific 1 d) s = .next t
      ∧ ((desk s d.toNat).mode = .opened → Answers s t 0x77 .needsSpecific [] ∧ t = linked s t)
      ∧ ((desk s d.toNat).mode = .nested → (desk s d.toNat).inService = [] →
          Answers s t 0x77 .noSuch [] ∧ t = linked s t)
      ∧ ∀ before after c, (desk s d.toNat).mode = .nested → (desk s d.toNat).inService = before ++ (p.toNat, k) :: after →
          callout s p.toNat k = some c → c.state = .inService → c.desk = d.toNat →
          (∀ r ∈ before, c.cls ≤ inServiceClass s r) → (∀ r ∈ after, c.cls < inServiceClass s r) →
          Answers s t 0x77 .ok (num 2 p.toNat ++ [BitVec.ofNat 8 k.position]) ∧ retired t p.toNat k c

/-- A TONER_REORDER record answered at a desk orders the cartridge: an acknowledge that takes it, and its retirement, leave
no supply of the printer DUE, those that were DUE are ORDERED, and every other figure of the supplies stays. -/
def Obligations.AnsweredReorderIsOrdered : Prop :=
  ∀ (s : State) (d p : Nat) (c : Callout),
    let ordered := fun (t : State) =>
      (printer t p).supplies = (printer s p).supplies.map (fun e =>
        (e.1, { e.2 with reorder := if e.2.reorder = .due then .ordered else e.2.reorder }))
      ∧ (printer t p).condition .tonerReorder = false
    ordered (takeCallout s d p .tonerReorder c) ∧ ordered (retireCallout s p .tonerReorder c)

/-! ## The calendar, reads and the Attention Summary -/

/-- A seconds event raises the fleet seconds count by one, up to 4,294,967,295, advances the calendar by one second with its
carries, and records a minute boundary when second becomes 0; nothing else changes. (The tests at the boundary and the
deadlines the count runs come as commands of their own: log 2, log 3.) A minute boundary tests the 33 patterns against the
calendar of the oldest boundary not yet tested: a tenant whose pattern matches has its period advanced by one, modulo 2^32,
and no other field of a tenant changes; a match of the survey pattern starts a survey of all printers where none is in
flight. With no boundary waiting it does nothing (that boundaries wait is the model's reading, log 3). -/
def Obligations.SecondsAndMinuteBoundaries : Prop :=
  (∀ s : State, running s = true → s.calendar.legal = true →
      let c := s.calendar
      ∃ t, exec .secondsEvent s = .next t ∧ Settled t
        ∧ t = { signalled s t with seconds := t.seconds, calendar := t.calendar, boundaries := t.boundaries }
        ∧ t.seconds = (if s.seconds < 4294967295 then s.seconds + 1 else s.seconds)
        ∧ (c.second < 59 → t.calendar = { c with second := c.second + 1 } ∧ t.boundaries = s.boundaries)
        ∧ (c.second = 59 → t.calendar.second = 0 ∧ t.boundaries = s.boundaries ++ [t.calendar])
        ∧ (c.second = 59 → c.minute < 59 → t.calendar = { c with second := 0, minute := c.minute + 1 })
        ∧ (c.second = 59 → c.minute = 59 → c.hour < 23 → t.calendar = { c with second := 0, minute := 0, hour := c.hour + 1 })
        ∧ (c.second = 59 → c.minute = 59 → c.hour = 23 →
            t.calendar.minute = 0 ∧ t.calendar.hour = 0
            ∧ t.calendar.weekday = weekdayOf t.calendar.year t.calendar.month t.calendar.day
            ∧ (c.day < monthLength c.year c.month →
                t.calendar.day = c.day + 1 ∧ t.calendar.month = c.month ∧ t.calendar.year = c.year)
            ∧ (c.day = monthLength c.year c.month → c.month < 12 →
                t.calendar.day = 1 ∧ t.calendar.month = c.month + 1 ∧ t.calendar.year = c.year)
            ∧ (c.day = monthLength c.year c.month → c.month = 12 →
                t.calendar.day = 1 ∧ t.calendar.month = 1 ∧ t.calendar.year = (c.year + 1) % 100)))
  ∧ (∀ s : State, running s = true →
      (s.boundaries = [] → exec .minuteBoundary s = .next (settle s))
      ∧ ∀ c rest, s.boundaries = c :: rest →
          let hit := fun (p : Pattern) =>
            (∀ v, p.minute = some v → v = c.minute) ∧ (∀ v, p.hour = some v → v = c.hour)
            ∧ (∀ v, p.weekday = some v → v = c.weekday) ∧ (∀ v, p.day = some v → v = c.day)
            ∧ ∀ v, p.month = some v → v = c.month
          ∃ t, exec .minuteBoundary s = .next t ∧ Settled t
            ∧ t = { signalled s t with tenants := t.tenants, survey := t.survey, boundaries := rest }
            ∧ (∀ n, n < 32 → hit (rollover s n) →
                tenantRec t n = { tenantRec s n with period := ((tenantRec s n).period + 1) % 4294967296 })
            ∧ (∀ n, 32 ≤ n ∨ ¬ hit (rollover s n) → tenantRec t n = tenantRec s n)
            ∧ (hit s.surveyPattern → s.survey.scope = none →
                t.survey = { scope := some .all, cursor := 0, done := s.survey.done })
            ∧ (¬ hit s.surveyPattern ∨ s.survey.scope ≠ none → t.survey = s.survey))

/-- Set Clock writes the six fields, each held to its range, the day to the length of the clamped month, with the weekday of
the date written, and answers the calendar; Set Survey Pattern writes pattern record 32, each value held to its range, and
answers it. Neither changes anything else. The length of each month and the weekday of a date: 29 days of February in a year
divisible by 4; 1 January 2000 is 6, and within the century each day's weekday is the day before's plus one, 7 passing to 1.
-/
def Obligations.SetClockPatternsAndDates : Prop :=
  ((∀ (s : State) (year month day hour minute second : Byte), running s = true →
      let y := min 99 year.toNat
      let m := max 1 (min 12 month.toNat)
      let d := max 1 (min (monthLength y m) day.toNat)
      ∃ t, exec (.setClock 6 year month day hour minute second) s = .next t
        ∧ t = { linked s t with calendar := t.calendar }
        ∧ t.calendar =
            { year := y, month := m, day := d, hour := min 23 hour.toNat, minute := min 59 minute.toNat
              second := min 59 second.toNat, weekday := weekdayOf y m d }
        ∧ Answers s t 0x80 .ok
            [BitVec.ofNat 8 y, BitVec.ofNat 8 m, BitVec.ofNat 8 d, BitVec.ofNat 8 (min 23 hour.toNat),
             BitVec.ofNat 8 (min 59 minute.toNat), BitVec.ofNat 8 (min 59 second.toNat), BitVec.ofNat 8 (weekdayOf y m d)])
    ∧ ∀ (s : State) (p : PatternFields), running s = true → patternPresenceOk p = true →
      ∃ t, exec (.setSurveyPattern 10 p) s = .next t
        ∧ Answers s t 0x82 .ok (patternBytes t.surveyPattern) ∧ t.response.body.length = 10
        ∧ t = { linked s t with surveyPattern := t.surveyPattern }
        ∧ t.surveyPattern =
            { minute := (optional p.minute).map (min 59), hour := (optional p.hour).map (min 23)
              weekday := (optional p.weekday).map fun v => max 1 (min 7 v)
              day := (optional p.day).map fun v => max 1 (min 31 v)
              month := (optional p.month).map fun v => max 1 (min 12 v) })
  ∧ ((∀ y m, 1 ≤ m → m ≤ 12 →
      monthLength y m =
        if m = 2 then (if y % 4 = 0 then 29 else 28) else if m = 4 ∨ m = 6 ∨ m = 9 ∨ m = 11 then 30 else 31)
    ∧ weekdayOf 0 1 1 = 6
    ∧ (∀ c : Calendar, c.legal = true → (c.year < 99 ∨ c.month < 12 ∨ c.day < 31) →
        (Calendar.nextDay c).weekday = if c.weekday = 7 then 1 else c.weekday + 1)
    ∧ ∀ c : Calendar, c.year = 99 → c.month = 12 → c.day = 31 → (Calendar.nextDay c).weekday = 6)

/-- The reads that change no record answer OK with the body the formats chapter gives, of its length: Read Tenant 30 bytes,
Read Job 60, Find Jobs 2 + 2n, Read Dispatch 3 + 5n, Read Loop 197, Read Printer 26, Read Pool 3 + 6n, Read Supply Model 9,
Read Supplies 3 + 32n, Read Condition Table 32, Read Classes 12, Read Desk 6 + 17n with n records in service, Read Callouts
3 + 19n, Read Clock 11, Read Pattern 10 (R4, R34, R38, R68, R91, R94, R103, R115, R117, R137, R146, R160, R161, R171, R173).
The reads refuse a number above the range of its index: BAD_FIELD, or NO_SUCH for a printer of Read Printer, with no record
changed, and so does Loop Reset (R67). Find Jobs refuses a start handle above 32,767, an owner above 4,095 and a state code
that names no job state or FREE BAD_FIELD. -/
def Obligations.ReadsAnswerAndChangeNothing : Prop :=
  (∀ s : State, running s = true →
      let read := fun (c : Instr) (kind : Byte) (body : List Byte) (length : Nat) =>
        ∃ t, exec c s = .next t ∧ Answers s t kind .ok body ∧ t = linked s t ∧ body.length = length
      (∀ n : BitVec 16, n.toNat ≤ 31 → read (.readTenant 2 n) 0x11 (tenantBody s n.toNat) 30)
      ∧ (∀ (h : BitVec 16) (i : Nat), resolve s h.toNat = some i → read (.readJob 2 h) 0x31 (jobBody h.toNat (job s i)) 60)
      ∧ (∀ (h : BitVec 16) (o : Opt 16) (st : Opt 8), h.toNat ≤ 32767 → presenceOk o = true → presenceOk st = true →
          (∀ a, optional o = some a → a ≤ 4095) → (∀ v, optional st = some v → 1 ≤ v ∧ v ≤ 7) →
          ∃ (found : List Nat) (more : Bool),
            read (.findJobs 7 h o st) 0x32 (findBody more (found.map (handleOf s))) (2 + 2 * found.length)
            ∧ found.length ≤ 16 ∧ (more = true → found.length = 16)
            ∧ (Canonical s = true →
                let wanted := fun i => h.toNat % 2048 ≤ i ∧ (job s i).state ≠ .free
                  ∧ (∀ a, optional o = some a → (job s i).owner = a)
                  ∧ ∀ v, optional st = some v → jobStateCode (job s i).state = v
                found.Pairwise (· < ·) ∧ (∀ i ∈ found, wanted i)
                ∧ (∀ i, wanted i → i ∈ found ∨ more = true ∧ ∀ k ∈ found, k < i)
                ∧ (more = true → ∃ i, wanted i ∧ i ∉ found)))
      ∧ read (.readDispatch 0) 0x36 (dispatchBody s) (3 + 5 * min 16 s.dispatch.length)
      ∧ (∀ l : Byte, l.toNat ≤ 3 → read (.readLoop 1 l) 0x43 (loopBody s l.toNat) 197)
      ∧ (∀ p : BitVec 16, p.toNat ≤ 255 → read (.readPrinter 2 p) 0x54 (printerBody s p.toNat) 26)
      ∧ (∀ q : BitVec 16, q.toNat ≤ 63 → read (.readPool 2 q) 0x56 (poolBody s q.toNat) (3 + 6 * (pool s q.toNat).length))
      ∧ (∀ m : BitVec 16, m.toNat ≤ 31 → read (.readSupplyModel 2 m) 0x61 (modelBody s m.toNat) 9)
      ∧ (∀ p : BitVec 16, p.toNat ≤ 255 → (printer s p.toNat).enrolled = true →
          read (.readSupplies 2 p) 0x62 (suppliesBody s p.toNat) (3 + 32 * (printer s p.toNat).supplies.length))
      ∧ read (.readConditionTable 0) 0x71 (conditionTableBody s) 32
      ∧ read (.readClasses 0) 0x74 (classesBody s) 12
      ∧ (∀ d : Byte, d.toNat ≤ 7 → ∃ n, read (.readDesk 1 d) 0x78 (deskBody s d.toNat) n
          ∧ ((∀ r ∈ (desk s d.toNat).inService, callout s r.1 r.2 ≠ none) → n = 6 + 17 * (desk s d.toNat).inService.length))
      ∧ (∀ p : BitVec 16, p.toNat ≤ 255 →
          read (.readCallouts 2 p) 0x79 (calloutsBody s p.toNat) (3 + 19 * (calloutsOf s p.toNat).length))
      ∧ read (.readClock 0) 0x81 (calendarBytes s.calendar ++ num 4 s.seconds) 11
      ∧ ∀ n : Byte, n.toNat ≤ 32 → read (.readPattern 1 n) 0x83 (patternBytes (patternRec s n.toNat)) 10)
  ∧ (∀ s : State, running s = true →
      let refused := fun (c : Instr) (kind : Byte) (code : Code) =>
        ∃ t, exec c s = .next t ∧ Answers s t kind code [] ∧ t = linked s t
      (∀ n : BitVec 16,
        (31 < n.toNat → refused (.readTenant 2 n) 0x11 .badField ∧ refused (.readSupplyModel 2 n) 0x61 .badField)
        ∧ (63 < n.toNat → refused (.readPool 2 n) 0x56 .badField)
        ∧ (255 < n.toNat → refused (.readPrinter 2 n) 0x54 .noSuch ∧ refused (.readCallouts 2 n) 0x79 .badField))
      ∧ (∀ n : Byte,
        (3 < n.toNat → refused (.readLoop 1 n) 0x43 .badField ∧ refused (.loopReset 1 n) 0x42 .badField)
        ∧ (7 < n.toNat → refused (.readDesk 1 n) 0x78 .badField)
        ∧ (32 < n.toNat → refused (.readPattern 1 n) 0x83 .badField))
      ∧ ∀ (h : BitVec 16) (o : Opt 16) (st : Opt 8), presenceOk o = true → presenceOk st = true →
        (32767 < h.toNat ∨ (∃ a, optional o = some a ∧ 4095 < a) ∨ ∃ v, optional st = some v ∧ (v = 0 ∨ 7 < v)) →
        refused (.findJobs 7 h o st) 0x32 .badField)

/-- Read Attention answers the desks with a presentable callout, the length of the Dispatch List, the finished count, the
loops in FAULT, survey_done, the seconds count and the lock, 12 bytes, as they stand, and then clears survey_done; nothing
else changes. Read Survey changes no record of the part and answers in_flight, scope, cursor and survey_done, the scope
printer where the scope is one printer. (The bytes where it is not are a free value, log 21, and the model counts its
drawing.) -/
def Obligations.ReadAttentionAndReadSurvey : Prop :=
  (∀ s : State, running s = true →
      ∃ t, exec (.readAttention 0) s = .next t
        ∧ Answers s t 0x90 .ok
            ([presentableSet s] ++ num 2 s.dispatch.length ++ num 2 s.finished
              ++ [faultSet s, if s.survey.done then 1 else 0] ++ num 4 s.seconds ++ [if s.lock then 1 else 0])
        ∧ t.response.body.length = 12
        ∧ t = { linked s t with survey := { s.survey with done := false } }
        ∧ (∀ d < 8, (presentableSet s).getLsbD d = true ↔ ∃ e ∈ calloutList s, presentableAt s d e.1 e.2.2 = true)
        ∧ ∀ l < 4, (faultSet s).getLsbD l = true ↔ (loopRec s l).state = .fault)
  ∧ (∀ s : State, running s = true →
      ∃ (t : State) (body : List Byte), exec (.readSurvey 0) s = .next t ∧ Answers s t 0x66 .ok body ∧ body.length = 7
        ∧ t = { linked s t with draws := t.draws }
        ∧ body.head? = some (if s.survey.scope.isSome then 1 else 0)
        ∧ (body.drop 1).head? = some (match s.survey.scope with
            | none => 0
            | some .all => 1
            | some (.one _) => 2)
        ∧ (∀ p, s.survey.scope = some (.one p) → (body.drop 2).take 2 = num 2 p)
        ∧ (body.drop 4).take 2 = num 2 s.survey.cursor
        ∧ (body.drop 6).head? = some (if s.survey.done then 1 else 0))

/-! ## The terminal loops -/

/-- Enroll Terminal of an address not enrolled: the record takes the pool and its reset values, and the loop becomes QUIET
from OFF and has a roll call in flight unless it is in FAULT; a number out of range is BAD_FIELD; a terminal already
enrolled takes the new pool alone where it has no visit, and else its visit ends with GOODBYE shown. Retire Terminal:
BAD_FIELD for a loop above 3 or an address above 15, NO_SUCH for an address not enrolled; otherwise the record takes its
reset values, its visit ends with no display, and the loop becomes OFF with last_start absent when no other terminal of it
is enrolled. -/
def Obligations.TerminalsJoinAndLeave : Prop :=
  (∀ (s : State) (l a : Byte) (q : BitVec 16), running s = true →
      (3 < l.toNat ∨ 15 < a.toNat ∨ 63 < q.toNat →
        ∃ t, exec (.enrollTerminal 4 l a q) s = .next t ∧ Answers s t 0x40 .badField [] ∧ t = linked s t)
      ∧ (l.toNat ≤ 3 → a.toNat ≤ 15 → q.toNat ≤ 63 →
        let n := terminalNo l.toNat a.toNat
        ∃ t, exec (.enrollTerminal 4 l a q) s = .next t ∧ Answers s t 0x40 .ok []
          ∧ ((terminal s n).enrolled = false →
              t = { linked s t with terminals := t.terminals, loops := t.loops, draws := t.draws }
              ∧ terminal t n =
                  { enrolled := true, pool := q.toNat, presence := .unknown, missed := 0, pending := none
                    current := .goodbye, answered := false, flagged := false }
              ∧ (∀ x, x ≠ n → terminal t x = terminal s x
                  ∨ terminal t x = { terminal s x with answered := false, flagged := false })
              ∧ (loopRec t l.toNat).state =
                  (if (loopRec s l.toNat).state = .off then .quiet else (loopRec s l.toNat).state)
              ∧ ((loopRec s l.toNat).state ≠ .fault → (loopRec t l.toNat).phase ≠ none)
              ∧ ((loopRec s l.toNat).state = .fault → loopRec t l.toNat = loopRec s l.toNat)
              ∧ ∀ x, x ≠ l.toNat → loopRec t x = loopRec s x)
          ∧ ((terminal s n).enrolled = true →
              (terminal t n).pool = q.toNat ∧ (terminal t n).enrolled = true ∧ (terminal t n).presence = (terminal s n).presence
              ∧ (terminal t n).missed = (terminal s n).missed ∧ visit t n = none
              ∧ (visit s n = none → t = { linked s t with terminals := t.terminals }
                  ∧ terminal t n = { terminal s n with pool := q.toNat })
              ∧ (visit s n ≠ none → (terminal t n).pending = some .goodbye ∨ (terminal t n).current = .goodbye)
              ∧ ∀ x, x ≠ n → visit t x = visit s x)))
  ∧ ((∀ (s : State) (l a : Byte), running s = true → 3 < l.toNat ∨ 15 < a.toNat →
      ∃ t, exec (.retireTerminal 2 l a) s = .next t ∧ Answers s t 0x41 .badField [] ∧ t = linked s t)
    ∧ ∀ (s : State) (l : Fin 4) (a : Fin 16), running s = true →
      let n := terminalNo l.val a.val
      ∃ t, exec (.retireTerminal 2 (BitVec.ofNat 8 l.val) (BitVec.ofNat 8 a.val)) s = .next t
        ∧ ((terminal s n).enrolled = false → Answers s t 0x41 .noSuch [] ∧ t = linked s t)
        ∧ ((terminal s n).enrolled = true →
            Answers s t 0x41 .ok [] ∧ t = { linked s t with terminals := t.terminals, visits := t.visits, loops := t.loops }
            ∧ terminal t n = {} ∧ visit t n = none ∧ (∀ x, x ≠ n → terminal t x = terminal s x ∧ visit t x = visit s x)
            ∧ ((∀ b < 16, b ≠ a.val → (terminal s (terminalNo l.val b)).enrolled = false) →
                (loopRec t l.val).state = .off ∧ (loopRec t l.val).phase = none ∧ (loopRec t l.val).lastStart = none)
            ∧ ((∃ b < 16, b ≠ a.val ∧ (terminal s (terminalNo l.val b)).enrolled = true) →
                (loopRec t l.val).state = (loopRec s l.val).state
                ∧ (loopRec t l.val).lastStart = (loopRec s l.val).lastStart
                ∧ ((loopRec s l.val).phase = none → loopRec t l.val = loopRec s l.val))
            ∧ ∀ x, x ≠ l.val → loopRec t x = loopRec s x))

/-- A line in break puts a loop that is not OFF in FAULT, its roll call abandoned, every visit on it ended, every pending
display dropped and every current one GOODBYE; the line's return makes a loop in FAULT QUIET with every presence UNKNOWN and
missed 0 and a roll call started; Loop Reset does both on any loop that is not OFF, and nothing on an OFF loop. -/
def Obligations.LoopFaultsAndResets : Prop :=
  ∀ (s : State) (l : Fin 4), running s = true →
    let r := loopRec s l.val
    let emptied := fun (t : State) =>
      (∀ a < 16, visit t (terminalNo l.val a) = none ∧ (terminal t (terminalNo l.val a)).pending = none
        ∧ (terminal t (terminalNo l.val a)).current = .goodbye)
      ∧ ∀ n, n / 16 ≠ l.val → visit t n = visit s n
    let fresh := fun (t : State) =>
      (∀ a < 16, (terminal t (terminalNo l.val a)).presence = .unknown ∧ (terminal t (terminalNo l.val a)).missed = 0
        ∧ (terminal t (terminalNo l.val a)).answered = false ∧ (terminal t (terminalNo l.val a)).flagged = false)
      ∧ (loopRec t l.val).state = .quiet ∧ (loopRec t l.val).phase = some .rollCall
      ∧ (loopRec t l.val).lastStart ≠ none
    let others := fun (t : State) =>
      (∀ x, x ≠ l.val → loopRec t x = loopRec s x) ∧ (∀ n, n / 16 ≠ l.val → terminal t n = terminal s n)
      ∧ ∀ n, (terminal t n).enrolled = (terminal s n).enrolled ∧ (terminal t n).pool = (terminal s n).pool
    (r.state = .off →
      exec (.loopFault l) s = .next (settle s)
      ∧ ∃ t, exec (.loopReset 1 (BitVec.ofNat 8 l.val)) s = .next t ∧ Answers s t 0x42 .ok [] ∧ t = linked s t)
    ∧ (r.state ≠ .off →
      (∃ t, exec (.loopFault l) s = .next t ∧ Settled t ∧ emptied t ∧ others t
        ∧ (loopRec t l.val).state = .fault ∧ (loopRec t l.val).phase = none
        ∧ (loopRec t l.val).lastStart = r.lastStart
        ∧ (∀ n, (terminal t n).presence = (terminal s n).presence ∧ (terminal t n).missed = (terminal s n).missed)
        ∧ t = { signalled s t with loops := t.loops, terminals := t.terminals, visits := t.visits })
      ∧ ∃ t, exec (.loopReset 1 (BitVec.ofNat 8 l.val)) s = .next t ∧ Answers s t 0x42 .ok []
        ∧ emptied t ∧ fresh t ∧ others t
        ∧ t = { linked s t with loops := t.loops, terminals := t.terminals, visits := t.visits, draws := t.draws })
    ∧ (r.state = .fault →
      ∃ t, exec (.faultEnd l) s = .next t ∧ Settled t ∧ fresh t ∧ others t
        ∧ (∀ n, (terminal t n).current = (terminal s n).current ∧ (terminal t n).pending = (terminal s n).pending)
        ∧ t = { signalled s t with loops := t.loops, terminals := t.terminals, draws := t.draws })
    ∧ (r.state ≠ .fault → exec (.faultEnd l) s = .next (settle s))

/-- A roll call starts on a QUIET loop at a WAKE, at the presence interval and when a display becomes pending, and on a
CONTINUOUS loop at the roll-call interval, when none is in flight: phase ROLL_CALL over the enrolled addresses, last_start
written, answered and flagged clear on every terminal of the loop. A CLOSE that finds the interval of the mode it chooses
already expired starts the next roll call at once. A WAKE at any other time, and an interval of a loop that is OFF or in
FAULT, do nothing. -/
def Obligations.RollCallsStart : Prop :=
  ∀ (s : State) (l : Fin 4), running s = true →
    let r := loopRec s l.val
    let called := fun (t : State) (mode : LoopState) =>
      (loopRec t l.val).state = mode ∧ (loopRec t l.val).phase = some .rollCall ∧ (loopRec t l.val).lastStart ≠ none
      ∧ (∀ a, a ∈ (loopRec t l.val).turns ↔ a < 16 ∧ (terminal s (terminalNo l.val a)).enrolled = true)
      ∧ (loopRec t l.val).turns.Pairwise (· < ·)
      ∧ (∀ n, n / 16 ≠ l.val → terminal t n = terminal s n) ∧ (∀ x, x ≠ l.val → loopRec t x = loopRec s x)
    let started := fun (t : State) (mode : LoopState) =>
      Settled t ∧ called t mode
      ∧ (∀ a < 16, terminal t (terminalNo l.val a) =
          { terminal s (terminalNo l.val a) with answered := false, flagged := false })
      ∧ t = { signalled s t with loops := t.loops, terminals := t.terminals, draws := t.draws }
    let busy := ∃ a < 16, visit s (terminalNo l.val a) ≠ none ∨ (terminal s (terminalNo l.val a)).pending ≠ none
      ∨ (terminal s (terminalNo l.val a)).flagged = true
    (r.state = .quiet → r.phase = none →
      (∃ t, exec (.wake l) s = .next t ∧ started t .quiet)
      ∧ (∃ t, exec (.presenceIntervalExpiry l) s = .next t ∧ started t .quiet)
      ∧ (∀ a < 16, ∀ d,
          called (pend s (terminalNo l.val a) d) .quiet
          ∧ terminal (pend s (terminalNo l.val a) d) (terminalNo l.val a) =
              { terminal s (terminalNo l.val a) with pending := some d, answered := false, flagged := false })
      ∧ ∀ (a : Fin 16) v, visit s (terminalNo l.val a.val) = some v → v.idleDeadline ≤ s.seconds →
          ∃ t, exec (.visitIdleExpiry l a) s = .next t ∧ Settled t ∧ called t .quiet
            ∧ (terminal t (terminalNo l.val a.val)).pending = some .goodbye)
    ∧ (r.state = .continuous → r.phase = none →
      ∃ t, exec (.rollCallIntervalExpiry l) s = .next t ∧ started t .continuous)
    ∧ (r.phase = some .close → busy → r.rollDue = true →
      ∃ t, exec (.rollCallClose l) s = .next t ∧ started t .continuous)
    ∧ (r.phase = some .close → ¬ busy → r.presenceDue = true →
      ∃ t, exec (.rollCallClose l) s = .next t ∧ started t .quiet)
    ∧ (r.state ≠ .quiet ∨ r.phase ≠ none → exec (.wake l) s = .next (settle s))
    ∧ (r.state = .off ∨ r.state = .fault →
      exec (.rollCallIntervalExpiry l) s = .next (settle s) ∧ exec (.presenceIntervalExpiry l) s = .next (settle s))

/-- The answer slots: a good answer in its slot sets answered and flagged, clears missed and makes the terminal PRESENT,
with its current display pending again when it regains presence with none pending; no answer raises missed, and at 3 the
terminal becomes ABSENT, its visit ends with no display and GOODBYE becomes current. The part's CALL goes out and the turn
passes on; after the last address the phase is DISPLAY while a terminal that answered has a display to be sent, in ascending
order from the first of them, else FETCH over the flagged terminals in ascending order, else CLOSE (passing an address with
nothing to do takes no event, log 10). Outside the slot neither an answer (R60) nor a NO_ANSWER (the model's reading, log
11) does anything. -/
def Obligations.AnswerSlotsDecidePresence : Prop :=
  ∀ (s : State) (l : Fin 4) (a : Fin 16) (rest : List Nat) (flagged : Bool), running s = true →
    let n := terminalNo l.val a.val
    let r := terminal s n
    let q := loopRec s l.val
    let at_ := fun (t : State) (b : Nat) => terminal t (terminalNo l.val b)
    let ready := fun (t : State) (b : Nat) =>
      b < 16 ∧ (at_ t b).enrolled = true ∧ (at_ t b).answered = true ∧ (at_ t b).pending ≠ none
    let asked := fun (t : State) (b : Nat) => b < 16 ∧ (at_ t b).enrolled = true ∧ (at_ t b).flagged = true
    let passed := fun (t : State) =>
      t.sent = [(l.val, lineBits [BitVec.ofNat 8 a.val, 0x01, 0x00, 0xFF - BitVec.ofNat 8 a.val])]
      ∧ (rest ≠ [] → loopRec t l.val = { q with turns := rest })
      ∧ (rest = [] →
          loopRec t l.val = { q with phase := (loopRec t l.val).phase, turns := (loopRec t l.val).turns }
          ∧ (loopRec t l.val).turns.Pairwise (· < ·)
          ∧ ((∃ b, ready t b) →
              (loopRec t l.val).phase = some .display ∧ (∃ b later, (loopRec t l.val).turns = b :: later ∧ ready t b)
              ∧ (∀ b, ready t b → b ∈ (loopRec t l.val).turns)
              ∧ ∀ b ∈ (loopRec t l.val).turns, b < 16 ∧ (at_ t b).enrolled = true ∧ (at_ t b).answered = true)
          ∧ ((¬ ∃ b, ready t b) → (∃ b, asked t b) →
              (loopRec t l.val).phase = some .fetch ∧ ∀ b, b ∈ (loopRec t l.val).turns ↔ asked t b)
          ∧ ((¬ ∃ b, ready t b) → (¬ ∃ b, asked t b) →
              (loopRec t l.val).phase = some .close ∧ (loopRec t l.val).turns = []))
      ∧ (∀ x, x ≠ l.val → loopRec t x = loopRec s x) ∧ ∀ x, x ≠ n → terminal t x = terminal s x
    (q.phase = some .rollCall → q.turns = a.val :: rest → q.state = .quiet ∨ q.state = .continuous →
      (∃ t, exec (.answer l a flagged) s = .next t ∧ Settled t ∧ passed t
        ∧ terminal t n =
            { r with
              answered := true, flagged := flagged, missed := 0, presence := .present
              pending := if r.presence ≠ .present ∧ r.pending = none then some r.current else r.pending }
        ∧ t = { signalled s t with loops := t.loops, terminals := t.terminals, sent := t.sent })
      ∧ ∃ t, exec (.noAnswer l a) s = .next t ∧ Settled t ∧ passed t
        ∧ terminal t n =
            (if r.missed = 2 then { r with missed := 3, presence := .absent, pending := none, current := .goodbye }
             else if r.missed < 2 then { r with missed := r.missed + 1 } else r)
        ∧ visit t n = (if r.missed = 2 then none else visit s n) ∧ (∀ x, x ≠ n → visit t x = visit s x)
        ∧ t = { signalled s t with loops := t.loops, terminals := t.terminals, sent := t.sent, visits := t.visits })
    ∧ (q.phase ≠ some .rollCall ∨ q.turns.head? ≠ some a.val →
      exec (.answer l a flagged) s = .next (settle s) ∧ exec (.noAnswer l a) s = .next (settle s))

/-- The DISPLAY phase sends the first pending display among the terminals still to come, once, and makes it current; the
addresses after it with nothing to send are passed, and when none is left the phase is FETCH over the flagged terminals in
ascending order, or CLOSE with none flagged (log 10). CLOSE chooses CONTINUOUS while a visit is open, a display pending or a
message uncollected on the loop, else QUIET, and ends the roll call where the interval of that mode has not expired (where
it has, RollCallsStart says what follows). A fetch whose message fails its check keeps flagged set and goes on; a message of
unknown kind is accepted, which clears flagged, and has no effect. After the last flagged terminal the phase is CLOSE. A
message outside its terminal's turn in the FETCH phase is ignored, whatever it carries (the model's reading of R62, log 11).
-/
def Obligations.DisplaysFetchesAndClose : Prop :=
  (∀ (s : State) (l : Fin 4), running s = true →
      let q := loopRec s l.val
      let at_ := fun (t : State) (b : Nat) => terminal t (terminalNo l.val b)
      let asked := fun (t : State) (b : Nat) => b < 16 ∧ (at_ t b).enrolled = true ∧ (at_ t b).flagged = true
      let busy := ∃ a < 16, visit s (terminalNo l.val a) ≠ none ∨ (at_ s a).pending ≠ none ∨ (at_ s a).flagged = true
      (∀ before a rest d, q.phase = some .display → q.turns = before ++ a :: rest →
        (∀ b ∈ before, (at_ s b).pending = none) → (at_ s a).pending = some d →
        ∃ t, exec (.displaySend l) s = .next t ∧ Settled t
          ∧ terminal t (terminalNo l.val a) = { at_ s a with current := d, pending := none }
          ∧ (∀ x, x ≠ terminalNo l.val a → terminal t x = terminal s x)
          ∧ t.sent = [(l.val, lineBits (loopFrame a 0x03 (displayBytes d)))]
          ∧ (∀ passed b later, rest = passed ++ b :: later → (∀ x ∈ passed, (at_ t x).pending = none) →
              (at_ t b).pending ≠ none → loopRec t l.val = { q with turns := b :: later })
          ∧ ((∀ b ∈ rest, (at_ t b).pending = none) →
              loopRec t l.val = { q with phase := (loopRec t l.val).phase, turns := (loopRec t l.val).turns }
              ∧ ((∃ b, asked t b) → (loopRec t l.val).phase = some .fetch
                  ∧ (loopRec t l.val).turns.Pairwise (· < ·) ∧ ∀ b, b ∈ (loopRec t l.val).turns ↔ asked t b)
              ∧ ((¬ ∃ b, asked t b) → (loopRec t l.val).phase = some .close ∧ (loopRec t l.val).turns = []))
          ∧ t = { signalled s t with loops := t.loops, terminals := t.terminals, sent := t.sent })
      ∧ (q.phase ≠ some .display ∨ (∀ b ∈ q.turns, (at_ s b).pending = none) → exec (.displaySend l) s = .next (settle s))
      ∧ (q.phase = some .close → (busy → q.rollDue = false) → (¬ busy → q.presenceDue = false) →
        ∃ t, exec (.rollCallClose l) s = .next t ∧ Settled t
          ∧ (busy → loopRec t l.val = { q with state := .continuous, phase := none, turns := [] })
          ∧ (¬ busy → loopRec t l.val = { q with state := .quiet, phase := none, turns := [] })
          ∧ (∀ x, x ≠ l.val → loopRec t x = loopRec s x)
          ∧ t = { signalled s t with loops := t.loops })
      ∧ (q.phase ≠ some .close → exec (.rollCallClose l) s = .next (settle s)))
  ∧ (∀ (s : State) (l : Fin 4) (a : Fin 16) (rest : List Nat), running s = true →
      let n := terminalNo l.val a.val
      let q := loopRec s l.val
      let passed := fun (t : State) =>
        (rest ≠ [] → loopRec t l.val = { q with turns := rest })
        ∧ (rest = [] → loopRec t l.val = { q with phase := some .close, turns := [] })
        ∧ (∀ x, x ≠ l.val → loopRec t x = loopRec s x)
      (q.phase = some .fetch → q.turns = a.val :: rest →
        (∃ t, exec (.fetchFailed l a) s = .next t ∧ Settled t ∧ passed t
          ∧ t.sent = [(l.val, lineBits (loopFrame a.val 0x04 []))]
          ∧ t = { signalled s t with loops := t.loops, sent := t.sent })
        ∧ ∃ t, exec (.unknownMessage l a) s = .next t ∧ Settled t ∧ passed t
          ∧ t.sent = [(l.val, lineBits (loopFrame a.val 0x04 [])), (l.val, lineBits (loopFrame a.val 0x06 []))]
          ∧ terminal t n = { terminal s n with flagged := false } ∧ (∀ x, x ≠ n → terminal t x = terminal s x)
          ∧ t = { signalled s t with loops := t.loops, terminals := t.terminals, sent := t.sent })
      ∧ (q.phase ≠ some .fetch ∨ q.turns.head? ≠ some a.val →
        ∀ (number : BitVec 24) (entry : Byte),
          ∀ c ∈ [Instr.fetchFailed l a, .unknownMessage l a, .badge l a number, .pick l a entry, .pickAll l a, .more l a,
              .done l a, .refresh l a], exec c s = .next (settle s)))

/-- A frame of the loops: its address, type, length and content, with the check byte that makes the sum of all its bytes 0,
each byte a character of one start bit, eight data bits least significant first and one stop bit; the part reads such a
character run back as the address, type and content it was made from, and takes one in which a character has no stop bit, or
whose bytes do not sum to 0, as failed. A line held at the start-bit level for longer than a full-length frame of 680 bit
times is a break, which is no character, wakes nothing and is a LOOP_FAULT; one held for less, from a start bit on, is one
character without a stop bit (that reception then waits for the idle level is the model's choice, log 28). A LIST of n
entries is 13 + 7n content bytes and a RESULT 22 + 7n, and UNKNOWN_BADGE, SUSPENDED and GOODBYE are one byte. -/
def Obligations.LoopFramesSumToZero : Prop :=
  (∀ (a : Nat) (type : Byte) (content : List Byte),
    byteSum (loopFrame a type content) = 0 ∧ (loopFrame a type content).length = content.length + 4
    ∧ (loopFrame a type content).take 3 = [BitVec.ofNat 8 a, type, BitVec.ofNat 8 content.length]
    ∧ ((loopFrame a type content).drop 3).take content.length = content
    ∧ (a < 256 → content.length ≤ 64 →
        loopParts (charsOf (lineBits (loopFrame a type content))) = some (a, type.toNat, content)))
  ∧ (∀ bytes : List Byte, (lineBits bytes).length = 10 * bytes.length
      ∧ charsOf (lineBits bytes) = bytes.map (fun b => { data := b, stop := true })
      ∧ ∀ k b, bytes[k]? = some b →
          (lineBits bytes)[10 * k]? = some false ∧ (lineBits bytes)[10 * k + 9]? = some true
          ∧ ∀ i < 8, (lineBits bytes)[10 * k + 1 + i]? = some (b.getLsbD i))
  ∧ (∀ frame : List Character, (∃ c ∈ frame, c.stop = false) ∨ byteSum (frame.map Character.data) ≠ 0 →
      loopParts frame = none)
  ∧ (∀ (l : Fin 4) (n idle : Nat) (bytes : List Byte),
      let line := List.replicate n false ++ List.replicate (idle + 1) true ++ lineBits bytes
      (680 < n → charsOf line = charsOf (lineBits bytes) ∧ decodeWakes l line = List.replicate bytes.length (.wake l)
        ∧ decodeBreak l line = some (.loopFault l))
      ∧ (10 ≤ n → n ≤ 680 → charsOf line = { data := 0, stop := false } :: charsOf (lineBits bytes)
        ∧ decodeWakes l line = List.replicate bytes.length (.wake l) ∧ decodeBreak l line = none))
  ∧ (∀ p : ListPart, (displayBytes (.list p)).length = 13 + 7 * p.entries.length)
  ∧ (∀ r (p : ListPart), (displayBytes (.result r p)).length = 22 + 7 * p.entries.length)
  ∧ displayBytes .unknownBadge = [0x03] ∧ displayBytes .suspended = [0x04] ∧ displayBytes .goodbye = [0x05]

/-- A BADGE in its terminal's turn: a number that is 0 or in no entry of the badge map, and the badge of a SUSPENDED
account, end the terminal's visit with UNKNOWN_BADGE or SUSPENDED pending; the badge of an ACTIVE account opens a visit of
it, idle for 45 seconds at most, on page 0 of its listing with the LIST pending, and ends its visit at any other terminal.
An account that the lookup finds, ACTIVE or SUSPENDED, is touched. -/
def Obligations.BadgeOpensAVisit : Prop :=
  ∀ (s : State) (l : Fin 4) (a : Fin 16) (rest : List Nat) (number : BitVec 24),
    Canonical s = true → VisitsUnique s → running s = true →
    let n := terminalNo l.val a.val
    let q := loopRec s l.val
    q.phase = some .fetch → q.turns = a.val :: rest → q.state = .quiet ∨ q.state = .continuous →
    ∃ t, exec (.badge l a number) s = .next t ∧ Settled t ∧ (terminal t n).flagged = false
      ∧ ((number = 0 ∨ badgeHolder s number.toNat = none) →
          visit t n = none ∧ (terminal t n).pending = some .unknownBadge ∧ t.accounts = s.accounts
          ∧ ∀ x, x ≠ n → visit t x = visit s x)
      ∧ (∀ x, number ≠ 0 → badgeHolder s number.toNat = some x → (account s x).state = .suspended →
          visit t n = none ∧ (terminal t n).pending = some .suspended ∧ t.accounts = (touch s x).accounts
          ∧ ∀ x, x ≠ n → visit t x = visit s x)
      ∧ (∀ x, number ≠ 0 → badgeHolder s number.toNat = some x → (account s x).state = .active →
          let listed := listing s x (terminal s n).pool
          visit t n = some
            { account := x, page := 0, pageHandles := (listed.take 6).map (handleOf s)
              idleDeadline := min 4294967295 (s.seconds + 45) }
          ∧ (∃ part, (terminal t n).pending = some (.list part) ∧ part.account = x ∧ part.page = 0
              ∧ part.entries.length = min 6 listed.length ∧ part.pageCount = pageCount listed.length
              ∧ part.warned = (account (touch s x) x).warned)
          ∧ t.accounts = (touch s x).accounts
          ∧ ∀ u v, u ≠ n → visit t u = some v → v.account ≠ x ∧ visit s u = some v)
      ∧ t = { signalled s t with
          loops := t.loops, terminals := t.terminals, visits := t.visits, sent := t.sent, accounts := t.accounts
          draws := t.draws }

/-- PICK and PICK ALL in their terminal's turn with a visit open: the visit stays with its deadline renewed, and a RESULT is
pending with the decision's result: GONE for an entry the page does not hold, with no job released, the release decision of
the entry's handle otherwise, and for ALL three counts that add up to the listing. With no visit only flagged changes. -/
def Obligations.PicksRunTheReleaseDecision : Prop :=
  ∀ (s : State) (l : Fin 4) (a : Fin 16) (rest : List Nat) (entry : Byte), running s = true →
    let n := terminalNo l.val a.val
    let q := loopRec s l.val
    q.phase = some .fetch → q.turns = a.val :: rest → q.state = .quiet ∨ q.state = .continuous → entry ≠ 0xFF →
    let cleared := { terminal s n with flagged := false }
    (visit s n = none → ∀ c ∈ [Instr.pick l a entry, .pickAll l a],
      ∃ t, exec c s = .next t ∧ Settled t ∧ terminal t n = cleared
        ∧ t = { signalled s t with loops := t.loops, terminals := t.terminals, sent := t.sent })
    ∧ ∀ v, visit s n = some v →
      let kept := fun (t : State) => ∃ w, visit t n = some w ∧ w.account = v.account
        ∧ w.idleDeadline = min 4294967295 (s.seconds + 45)
      (∃ t, exec (.pick l a entry) s = .next t ∧ Settled t ∧ kept t
        ∧ (v.pageHandles[entry.toNat]? = none →
            t.jobs = s.jobs ∧ t.dispatch = s.dispatch ∧ t.accounts = (touch s v.account).accounts
            ∧ ∃ part, (terminal t n).pending = some (.result (.single .gone false) part))
        ∧ (∀ h, v.pageHandles[entry.toNat]? = some h →
            let d := decideRelease s h v.account (terminal s n).pool
            t.jobs = d.state.jobs ∧ t.dispatch = d.state.dispatch ∧ t.printers = d.state.printers
            ∧ t.releaseCounter = d.state.releaseCounter
            ∧ ∃ part, (terminal t n).pending = some (.result (.single d.result d.warning) part)
                ∧ part.account = v.account))
      ∧ ∃ t, exec (.pickAll l a) s = .next t ∧ Settled t ∧ kept t
        ∧ let d := decideAll s v.account (terminal s n).pool
          t.jobs = d.state.jobs ∧ t.dispatch = d.state.dispatch ∧ t.printers = d.state.printers
          ∧ t.releaseCounter = d.state.releaseCounter
          ∧ d.released + d.mono + d.refused = (listing s v.account (terminal s n).pool).length
          ∧ ∃ part, (terminal t n).pending = some (.result (.all d.released d.mono d.refused d.warning) part)
              ∧ part.account = v.account

/-- MORE, DONE, REFRESH and the idle expiry: MORE shows the next page, page 0 after the last, and DONE ends the visit with
GOODBYE, both only with a visit open; REFRESH makes the current display pending unless one is pending and renews an open
visit; a visit whose deadline is at or below now ends with GOODBYE, and one above it stays. -/
def Obligations.OtherMessagesOfAVisit : Prop :=
  ∀ (s : State) (l : Fin 4) (a : Fin 16) (rest : List Nat), running s = true →
    let n := terminalNo l.val a.val
    let q := loopRec s l.val
    q.state = .quiet ∨ q.state = .continuous →
    let late := min 4294967295 (s.seconds + 45)
    (q.phase = some .fetch → q.turns = a.val :: rest →
      (∀ v, visit s n = some v →
        let listed := listing s v.account (terminal s n).pool
        let page := if v.page + 1 < pageCount listed.length then v.page + 1 else 0
        (∃ t, exec (.more l a) s = .next t ∧ Settled t
          ∧ visit t n = some
              { account := v.account, page := page, pageHandles := ((listed.drop (6 * page)).take 6).map (handleOf s)
                idleDeadline := late }
          ∧ (∃ part, (terminal t n).pending = some (.list part) ∧ part.page = page)
          ∧ t = { signalled s t with
              loops := t.loops, terminals := t.terminals, visits := t.visits, sent := t.sent, accounts := t.accounts })
        ∧ (∃ t, exec (.done l a) s = .next t ∧ Settled t ∧ visit t n = none
          ∧ (terminal t n).pending = some .goodbye ∧ (∀ x, x ≠ n → visit t x = visit s x)
          ∧ t = { signalled s t with
              loops := t.loops, terminals := t.terminals, visits := t.visits, sent := t.sent }))
      ∧ (visit s n = none → ∀ c ∈ [Instr.more l a, .done l a],
          ∃ t, exec c s = .next t ∧ Settled t ∧ terminal t n = { terminal s n with flagged := false }
            ∧ t = { signalled s t with loops := t.loops, terminals := t.terminals, sent := t.sent })
      ∧ (∃ t, exec (.refresh l a) s = .next t ∧ Settled t
          ∧ (terminal t n).pending =
              (if (terminal s n).pending = none then some (terminal s n).current else (terminal s n).pending)
          ∧ (terminal t n).current = (terminal s n).current
          ∧ visit t n = (visit s n).map (fun v => { v with idleDeadline := late })
          ∧ t = { signalled s t with
              loops := t.loops, terminals := t.terminals, visits := t.visits, sent := t.sent }))
    ∧ (∀ v, visit s n = some v →
        (v.idleDeadline ≤ s.seconds →
          ∃ t, exec (.visitIdleExpiry l a) s = .next t ∧ Settled t ∧ visit t n = none
            ∧ (terminal t n).pending = some .goodbye ∧ (∀ x, x ≠ n → visit t x = visit s x)
            ∧ t = { signalled s t with
                loops := t.loops, terminals := t.terminals, visits := t.visits, draws := t.draws })
        ∧ (s.seconds < v.idleDeadline → exec (.visitIdleExpiry l a) s = .next (settle s)))
    ∧ (visit s n = none → exec (.visitIdleExpiry l a) s = .next (settle s))
end

