-- ==== Sys2Proof/Laws/Table.lean ====
section
/-! SUPPORT. The laws of record tables: a read after a write gives the value written, a write leaves every other index alone,
and every operation keeps the canonical form (log 9). -/

namespace Sys2Proof.Machine

variable {α : Type}

theorem Table.get_erase_same (d : α) (k : Nat) (t : Table α) : Table.get d k (Table.erase k t) = d := by
  induction t with
  | nil => rfl
  | cons e t ih =>
    obtain ⟨i, v⟩ := e
    by_cases h : i = k <;> simp [Table.erase, Table.get, h, ih]

theorem Table.get_erase_ne (d : α) {k j : Nat} (t : Table α) (h : j ≠ k) :
    Table.get d j (Table.erase k t) = Table.get d j t := by
  induction t with
  | nil => rfl
  | cons e t ih =>
    obtain ⟨i, v⟩ := e
    by_cases hi : i = k
    · subst hi
      simp [Table.erase, Table.get, ih, Ne.symm h]
    · simp only [Table.erase, hi, if_false, Table.get, ih]

theorem Table.get_insert_ne (d : α) {k j : Nat} (v : α) (t : Table α) (h : j ≠ k) :
    Table.get d j (Table.insert k v t) = Table.get d j t := by
  induction t with
  | nil => simp [Table.insert, Table.get, Ne.symm h]
  | cons e t ih =>
    obtain ⟨i, w⟩ := e
    by_cases hk : k < i
    · simp [Table.insert, Table.get, hk, Ne.symm h]
    · simp only [Table.insert, hk, if_false, Table.get, ih]

/-- After an insertion at an index the table does not list, that index reads as the value. -/
theorem Table.get_insert_same (d : α) {k : Nat} (v : α) (t : Table α) (h : ∀ e ∈ t, e.1 ≠ k) :
    Table.get d k (Table.insert k v t) = v := by
  induction t with
  | nil => simp [Table.insert, Table.get]
  | cons e t ih =>
    obtain ⟨i, w⟩ := e
    have hi : i ≠ k := h (i, w) (by simp)
    by_cases hk : k < i
    · simp [Table.insert, Table.get, hk]
    · simp only [Table.insert, hk, if_false, Table.get, hi]
      exact ih fun e he => h e (by simp [he])

theorem Table.not_mem_erase (k : Nat) (t : Table α) : ∀ e ∈ Table.erase k t, e.1 ≠ k := by
  induction t with
  | nil => simp [Table.erase]
  | cons e t ih =>
    obtain ⟨i, v⟩ := e
    by_cases h : i = k
    · simpa [Table.erase, h] using ih
    · intro e he
      simp only [Table.erase, h, if_false, List.mem_cons] at he
      rcases he with rfl | he
      · exact h
      · exact ih e he

/-- A read after a write of the same index gives the value written. -/
@[simp] theorem Table.get_put_same [DecidableEq α] (d : α) (k : Nat) (v : α) (t : Table α) :
    Table.get d k (Table.put d k v t) = v := by
  by_cases h : v = d
  · simp [Table.put, h, Table.get_erase_same]
  · simp [Table.put, h, Table.get_insert_same d v _ (Table.not_mem_erase k t)]

/-- A write leaves every other index alone. -/
theorem Table.get_put_ne [DecidableEq α] (d : α) {k j : Nat} (v : α) (t : Table α) (h : j ≠ k) :
    Table.get d j (Table.put d k v t) = Table.get d j t := by
  by_cases hv : v = d
  · simp [Table.put, hv, Table.get_erase_ne d t h]
  · simp [Table.put, hv, Table.get_insert_ne d v _ h, Table.get_erase_ne d t h]

/-- What any index reads as after a write. -/
theorem Table.get_put [DecidableEq α] (d : α) (k j : Nat) (v : α) (t : Table α) :
    Table.get d j (Table.put d k v t) = if j = k then v else Table.get d j t := by
  by_cases h : j = k
  · subst h; simp
  · simp [h, Table.get_put_ne d v t h]

/-! ## The canonical form -/

theorem Table.above_iff (k : Nat) (t : Table α) : Table.above k t = true ↔ ∀ e ∈ t, k < e.1 := by
  induction t with
  | nil => simp [Table.above]
  | cons e t ih =>
    obtain ⟨i, v⟩ := e
    simp [Table.above, ih]

theorem Table.mem_erase {k : Nat} {t : Table α} {e : Nat × α} : e ∈ Table.erase k t ↔ e ∈ t ∧ e.1 ≠ k := by
  induction t with
  | nil => simp [Table.erase]
  | cons x t ih =>
    obtain ⟨i, v⟩ := x
    by_cases h : i = k
    · subst h
      simp only [Table.erase, if_true, ih, List.mem_cons]
      constructor
      · rintro ⟨h1, h2⟩; exact ⟨.inr h1, h2⟩
      · rintro ⟨rfl | h1, h2⟩
        · exact absurd rfl h2
        · exact ⟨h1, h2⟩
    · simp only [Table.erase, h, if_false, List.mem_cons, ih]
      constructor
      · rintro (rfl | ⟨h1, h2⟩)
        · exact ⟨.inl rfl, h⟩
        · exact ⟨.inr h1, h2⟩
      · rintro ⟨rfl | h1, h2⟩
        · exact .inl rfl
        · exact .inr ⟨h1, h2⟩

theorem Table.mem_insert {k : Nat} {v : α} {t : Table α} {e : Nat × α} :
    e ∈ Table.insert k v t ↔ e = (k, v) ∨ e ∈ t := by
  induction t with
  | nil => simp [Table.insert]
  | cons x t ih =>
    obtain ⟨i, w⟩ := x
    by_cases h : k < i
    · simp [Table.insert, h]
    · simp only [Table.insert, h, if_false, List.mem_cons, ih]
      tauto

theorem Table.wf_erase [DecidableEq α] (d : Nat → α) (k : Nat) {t : Table α} (h : Table.wf d t = true) :
    Table.wf d (Table.erase k t) = true := by
  induction t with
  | nil => rfl
  | cons e t ih =>
    obtain ⟨i, v⟩ := e
    simp only [Table.wf, Bool.and_eq_true] at h
    by_cases hi : i = k
    · simpa [Table.erase, hi] using ih h.2
    · simp only [Table.erase, hi, if_false, Table.wf, Bool.and_eq_true]
      refine ⟨⟨h.1.1, ?_⟩, ih h.2⟩
      rw [Table.above_iff]
      intro e he
      exact (Table.above_iff i t).1 h.1.2 e (Table.mem_erase.1 he).1

theorem Table.wf_insert [DecidableEq α] (d : Nat → α) {k : Nat} {v : α} {t : Table α} (h : Table.wf d t = true)
    (hv : v ≠ d k) (hk : ∀ e ∈ t, e.1 ≠ k) : Table.wf d (Table.insert k v t) = true := by
  induction t with
  | nil => simp [Table.insert, Table.wf, Table.above, hv]
  | cons e t ih =>
    obtain ⟨i, w⟩ := e
    simp only [Table.wf, Bool.and_eq_true] at h
    by_cases hi : k < i
    · simp only [Table.insert, hi, if_true, Table.wf, Bool.and_eq_true, Table.above_iff, List.mem_cons]
      refine ⟨⟨by simpa using hv, ?_⟩, ⟨h.1.1, (Table.above_iff i t).1 h.1.2⟩, h.2⟩
      rintro e (rfl | he)
      · exact hi
      · exact hi.trans ((Table.above_iff i t).1 h.1.2 e he)
    · simp only [Table.insert, hi, if_false, Table.wf, Bool.and_eq_true, Table.above_iff]
      refine ⟨⟨h.1.1, ?_⟩, ih h.2 fun e he => hk e (by simp [he])⟩
      intro e he
      rcases Table.mem_insert.1 he with rfl | he
      · have := hk (i, w) (by simp)
        simp only at this ⊢
        omega
      · exact (Table.above_iff i t).1 h.1.2 e he

/-- A write keeps the canonical form. -/
theorem Table.wf_put [DecidableEq α] (d : Nat → α) (k : Nat) (v : α) {t : Table α} (h : Table.wf d t = true) :
    Table.wf d (Table.put (d k) k v t) = true := by
  by_cases hv : v = d k
  · simpa [Table.put, hv] using Table.wf_erase d k h
  · simpa [Table.put, hv] using Table.wf_insert d (Table.wf_erase d k h) hv (Table.not_mem_erase k t)

/-- In a canonical table, the records listed are those that differ from the reset value. -/
theorem Table.mem_iff_get [DecidableEq α] (d : Nat → α) {t : Table α} (h : Table.wf d t = true) (k : Nat) (v : α) :
    (k, v) ∈ t ↔ Table.get (d k) k t = v ∧ v ≠ d k := by
  induction t with
  | nil =>
    simp only [List.not_mem_nil, Table.get, false_iff, not_and, not_not]
    exact fun h => h.symm
  | cons e t ih =>
    obtain ⟨i, w⟩ := e
    simp only [Table.wf, Bool.and_eq_true, decide_eq_true_eq] at h
    have ha := (Table.above_iff i t).1 h.1.2
    by_cases hi : i = k
    · subst hi
      simp only [List.mem_cons, Prod.mk.injEq, true_and, Table.get, if_true]
      constructor
      · rintro (rfl | hm)
        · exact ⟨rfl, h.1.1⟩
        · exact absurd (ha _ hm) (by simp)
      · rintro ⟨rfl, _⟩
        exact .inl rfl
    · simp only [List.mem_cons, Prod.mk.injEq, Table.get, hi, if_false, ih h.2]
      constructor
      · rintro (⟨rfl, _⟩ | h)
        · exact absurd rfl hi
        · exact h
      · exact .inr

theorem Table.get_of_above (d : α) {k : Nat} {t : Table α} (h : ∀ e ∈ t, k < e.1) : Table.get d k t = d := by
  induction t with
  | nil => rfl
  | cons e t ih =>
    have := h e List.mem_cons_self
    rw [Table.get, if_neg (by omega)]
    exact ih fun e he => h e (List.mem_cons_of_mem _ he)

/-- Two canonical tables that read the same everywhere are the same list. -/
theorem Table.ext_get [DecidableEq α] (d : Nat → α) {t u : Table α} (ht : Table.wf d t = true) (hu : Table.wf d u = true)
    (h : ∀ k, Table.get (d k) k t = Table.get (d k) k u) : t = u := by
  induction t generalizing u with
  | nil =>
    cases u with
    | nil => rfl
    | cons f u =>
      have hf := (Table.mem_iff_get d hu f.1 f.2).1 List.mem_cons_self
      exact absurd (hf.1 ▸ h f.1).symm hf.2
  | cons e t ih =>
    have he := (Table.mem_iff_get d ht e.1 e.2).1 List.mem_cons_self
    cases u with
    | nil => exact absurd (he.1 ▸ h e.1) he.2
    | cons f u =>
      have hf := (Table.mem_iff_get d hu f.1 f.2).1 List.mem_cons_self
      simp only [Table.wf, Bool.and_eq_true] at ht hu
      have at' := (Table.above_iff e.1 t).1 ht.1.2
      have au := (Table.above_iff f.1 u).1 hu.1.2
      have same : e.1 = f.1 := by
        rcases Nat.lt_trichotomy e.1 f.1 with hlt | heq | hgt
        · have below : ∀ x ∈ f :: u, e.1 < x.1 := by
            intro x hx
            rcases List.mem_cons.1 hx with rfl | hx
            · exact hlt
            · have := au x hx; omega
          exact absurd (by rw [← he.1, h e.1, Table.get_of_above _ below]) he.2
        · exact heq
        · have below : ∀ x ∈ e :: t, f.1 < x.1 := by
            intro x hx
            rcases List.mem_cons.1 hx with rfl | hx
            · exact hgt
            · have := at' x hx; omega
          exact absurd (by rw [← hf.1, ← h f.1, Table.get_of_above _ below]) hf.2
      have value : e.2 = f.2 := by rw [← he.1, h e.1, same, hf.1]
      have tails : t = u := by
        refine ih ht.2 hu.2 fun k => ?_
        by_cases hk : e.1 = k
        · rw [← hk, Table.get_of_above _ at', Table.get_of_above _ (same ▸ au)]
        · have := h k
          rw [Table.get, Table.get, if_neg hk, if_neg (same ▸ hk)] at this
          exact this
      rw [tails, Prod.ext same value]

end Sys2Proof.Machine
end

