-- ==== Sys2Proof/Laws/State.lean ====
section
/-! SUPPORT. Reads of the state after each write of a record table: one lemma for each field a write leaves alone, true by
`rfl`, and for each record the write's own read. -/

namespace Sys2Proof.Machine

variable (s : State)

/-! ### putTenant -/

@[simp] theorem putTenant_pending (k : Nat) (r : Tenant) : (putTenant s k r).pending = s.pending := rfl
@[simp] theorem putTenant_port (k : Nat) (r : Tenant) : (putTenant s k r).port = s.port := rfl
@[simp] theorem putTenant_resetPinLow (k : Nat) (r : Tenant) : (putTenant s k r).resetPinLow = s.resetPinLow := rfl
@[simp] theorem putTenant_supplyLow (k : Nat) (r : Tenant) : (putTenant s k r).supplyLow = s.supplyLow := rfl
@[simp] theorem putTenant_response (k : Nat) (r : Tenant) : (putTenant s k r).response = s.response := rfl
@[simp] theorem putTenant_hsdo (k : Nat) (r : Tenant) : (putTenant s k r).hsdo = s.hsdo := rfl
@[simp] theorem putTenant_driven (k : Nat) (r : Tenant) : (putTenant s k r).driven = s.driven := rfl
@[simp] theorem putTenant_attn (k : Nat) (r : Tenant) : (putTenant s k r).attn = s.attn := rfl
@[simp] theorem putTenant_lock (k : Nat) (r : Tenant) : (putTenant s k r).lock = s.lock := rfl
@[simp] theorem putTenant_accounts (k : Nat) (r : Tenant) : (putTenant s k r).accounts = s.accounts := rfl
@[simp] theorem putTenant_badgeMap (k : Nat) (r : Tenant) : (putTenant s k r).badgeMap = s.badgeMap := rfl
@[simp] theorem putTenant_jobs (k : Nat) (r : Tenant) : (putTenant s k r).jobs = s.jobs := rfl
@[simp] theorem putTenant_releaseCounter (k : Nat) (r : Tenant) : (putTenant s k r).releaseCounter = s.releaseCounter := rfl
@[simp] theorem putTenant_finished (k : Nat) (r : Tenant) : (putTenant s k r).finished = s.finished := rfl
@[simp] theorem putTenant_dispatch (k : Nat) (r : Tenant) : (putTenant s k r).dispatch = s.dispatch := rfl
@[simp] theorem putTenant_printers (k : Nat) (r : Tenant) : (putTenant s k r).printers = s.printers := rfl
@[simp] theorem putTenant_pools (k : Nat) (r : Tenant) : (putTenant s k r).pools = s.pools := rfl
@[simp] theorem putTenant_models (k : Nat) (r : Tenant) : (putTenant s k r).models = s.models := rfl
@[simp] theorem putTenant_survey (k : Nat) (r : Tenant) : (putTenant s k r).survey = s.survey := rfl
@[simp] theorem putTenant_conditions (k : Nat) (r : Tenant) : (putTenant s k r).conditions = s.conditions := rfl
@[simp] theorem putTenant_callouts (k : Nat) (r : Tenant) : (putTenant s k r).callouts = s.callouts := rfl
@[simp] theorem putTenant_classes (k : Nat) (r : Tenant) : (putTenant s k r).classes = s.classes := rfl
@[simp] theorem putTenant_desks (k : Nat) (r : Tenant) : (putTenant s k r).desks = s.desks := rfl
@[simp] theorem putTenant_deskSet (k : Nat) (r : Tenant) : (putTenant s k r).deskSet = s.deskSet := rfl
@[simp] theorem putTenant_loops (k : Nat) (r : Tenant) : (putTenant s k r).loops = s.loops := rfl
@[simp] theorem putTenant_terminals (k : Nat) (r : Tenant) : (putTenant s k r).terminals = s.terminals := rfl
@[simp] theorem putTenant_visits (k : Nat) (r : Tenant) : (putTenant s k r).visits = s.visits := rfl
@[simp] theorem putTenant_sent (k : Nat) (r : Tenant) : (putTenant s k r).sent = s.sent := rfl
@[simp] theorem putTenant_seconds (k : Nat) (r : Tenant) : (putTenant s k r).seconds = s.seconds := rfl
@[simp] theorem putTenant_calendar (k : Nat) (r : Tenant) : (putTenant s k r).calendar = s.calendar := rfl
@[simp] theorem putTenant_rollovers (k : Nat) (r : Tenant) : (putTenant s k r).rollovers = s.rollovers := rfl
@[simp] theorem putTenant_surveyPattern (k : Nat) (r : Tenant) : (putTenant s k r).surveyPattern = s.surveyPattern := rfl
@[simp] theorem putTenant_boundaries (k : Nat) (r : Tenant) : (putTenant s k r).boundaries = s.boundaries := rfl
@[simp] theorem putTenant_draws (k : Nat) (r : Tenant) : (putTenant s k r).draws = s.draws := rfl
@[simp] theorem account_putTenant (k : Nat) (r : Tenant) (x : Nat) : account (putTenant s k r) x = account s x := rfl
@[simp] theorem badgeHolder_putTenant (k : Nat) (r : Tenant) (x : Nat) : badgeHolder (putTenant s k r) x = badgeHolder s x := rfl
@[simp] theorem slot_putTenant (k : Nat) (r : Tenant) (x : Nat) : slot (putTenant s k r) x = slot s x := rfl
@[simp] theorem job_putTenant (k : Nat) (r : Tenant) (x : Nat) : job (putTenant s k r) x = job s x := rfl
@[simp] theorem handleOf_putTenant (k : Nat) (r : Tenant) (x : Nat) : handleOf (putTenant s k r) x = handleOf s x := rfl
@[simp] theorem printer_putTenant (k : Nat) (r : Tenant) (x : Nat) : printer (putTenant s k r) x = printer s x := rfl
@[simp] theorem pool_putTenant (k : Nat) (r : Tenant) (x : Nat) : pool (putTenant s k r) x = pool s x := rfl
@[simp] theorem model_putTenant (k : Nat) (r : Tenant) (x : Nat) : model (putTenant s k r) x = model s x := rfl
@[simp] theorem condEntry_putTenant (k : Nat) (r : Tenant) (x : CondKind) : condEntry (putTenant s k r) x = condEntry s x := rfl
@[simp] theorem callout_putTenant (k : Nat) (r : Tenant) (x : Nat) (y : CondKind) : callout (putTenant s k r) x y = callout s x y := rfl
@[simp] theorem classRec_putTenant (k : Nat) (r : Tenant) (x : Nat) : classRec (putTenant s k r) x = classRec s x := rfl
@[simp] theorem desk_putTenant (k : Nat) (r : Tenant) (x : Nat) : desk (putTenant s k r) x = desk s x := rfl
@[simp] theorem loopRec_putTenant (k : Nat) (r : Tenant) (x : Nat) : loopRec (putTenant s k r) x = loopRec s x := rfl
@[simp] theorem terminal_putTenant (k : Nat) (r : Tenant) (x : Nat) : terminal (putTenant s k r) x = terminal s x := rfl
@[simp] theorem visit_putTenant (k : Nat) (r : Tenant) (x : Nat) : visit (putTenant s k r) x = visit s x := rfl
@[simp] theorem rollover_putTenant (k : Nat) (r : Tenant) (x : Nat) : rollover (putTenant s k r) x = rollover s x := rfl

/-! ### putAccount -/

@[simp] theorem putAccount_pending (k : Nat) (r : Account) : (putAccount s k r).pending = s.pending := rfl
@[simp] theorem putAccount_port (k : Nat) (r : Account) : (putAccount s k r).port = s.port := rfl
@[simp] theorem putAccount_resetPinLow (k : Nat) (r : Account) : (putAccount s k r).resetPinLow = s.resetPinLow := rfl
@[simp] theorem putAccount_supplyLow (k : Nat) (r : Account) : (putAccount s k r).supplyLow = s.supplyLow := rfl
@[simp] theorem putAccount_response (k : Nat) (r : Account) : (putAccount s k r).response = s.response := rfl
@[simp] theorem putAccount_hsdo (k : Nat) (r : Account) : (putAccount s k r).hsdo = s.hsdo := rfl
@[simp] theorem putAccount_driven (k : Nat) (r : Account) : (putAccount s k r).driven = s.driven := rfl
@[simp] theorem putAccount_attn (k : Nat) (r : Account) : (putAccount s k r).attn = s.attn := rfl
@[simp] theorem putAccount_lock (k : Nat) (r : Account) : (putAccount s k r).lock = s.lock := rfl
@[simp] theorem putAccount_tenants (k : Nat) (r : Account) : (putAccount s k r).tenants = s.tenants := rfl
@[simp] theorem putAccount_badgeMap (k : Nat) (r : Account) : (putAccount s k r).badgeMap = s.badgeMap := rfl
@[simp] theorem putAccount_jobs (k : Nat) (r : Account) : (putAccount s k r).jobs = s.jobs := rfl
@[simp] theorem putAccount_releaseCounter (k : Nat) (r : Account) : (putAccount s k r).releaseCounter = s.releaseCounter := rfl
@[simp] theorem putAccount_finished (k : Nat) (r : Account) : (putAccount s k r).finished = s.finished := rfl
@[simp] theorem putAccount_dispatch (k : Nat) (r : Account) : (putAccount s k r).dispatch = s.dispatch := rfl
@[simp] theorem putAccount_printers (k : Nat) (r : Account) : (putAccount s k r).printers = s.printers := rfl
@[simp] theorem putAccount_pools (k : Nat) (r : Account) : (putAccount s k r).pools = s.pools := rfl
@[simp] theorem putAccount_models (k : Nat) (r : Account) : (putAccount s k r).models = s.models := rfl
@[simp] theorem putAccount_survey (k : Nat) (r : Account) : (putAccount s k r).survey = s.survey := rfl
@[simp] theorem putAccount_conditions (k : Nat) (r : Account) : (putAccount s k r).conditions = s.conditions := rfl
@[simp] theorem putAccount_callouts (k : Nat) (r : Account) : (putAccount s k r).callouts = s.callouts := rfl
@[simp] theorem putAccount_classes (k : Nat) (r : Account) : (putAccount s k r).classes = s.classes := rfl
@[simp] theorem putAccount_desks (k : Nat) (r : Account) : (putAccount s k r).desks = s.desks := rfl
@[simp] theorem putAccount_deskSet (k : Nat) (r : Account) : (putAccount s k r).deskSet = s.deskSet := rfl
@[simp] theorem putAccount_loops (k : Nat) (r : Account) : (putAccount s k r).loops = s.loops := rfl
@[simp] theorem putAccount_terminals (k : Nat) (r : Account) : (putAccount s k r).terminals = s.terminals := rfl
@[simp] theorem putAccount_visits (k : Nat) (r : Account) : (putAccount s k r).visits = s.visits := rfl
@[simp] theorem putAccount_sent (k : Nat) (r : Account) : (putAccount s k r).sent = s.sent := rfl
@[simp] theorem putAccount_seconds (k : Nat) (r : Account) : (putAccount s k r).seconds = s.seconds := rfl
@[simp] theorem putAccount_calendar (k : Nat) (r : Account) : (putAccount s k r).calendar = s.calendar := rfl
@[simp] theorem putAccount_rollovers (k : Nat) (r : Account) : (putAccount s k r).rollovers = s.rollovers := rfl
@[simp] theorem putAccount_surveyPattern (k : Nat) (r : Account) : (putAccount s k r).surveyPattern = s.surveyPattern := rfl
@[simp] theorem putAccount_boundaries (k : Nat) (r : Account) : (putAccount s k r).boundaries = s.boundaries := rfl
@[simp] theorem putAccount_draws (k : Nat) (r : Account) : (putAccount s k r).draws = s.draws := rfl
@[simp] theorem tenantRec_putAccount (k : Nat) (r : Account) (t : Nat) : tenantRec (putAccount s k r) t = tenantRec s t := rfl
@[simp] theorem badgeHolder_putAccount (k : Nat) (r : Account) (x : Nat) : badgeHolder (putAccount s k r) x = badgeHolder s x := rfl
@[simp] theorem slot_putAccount (k : Nat) (r : Account) (x : Nat) : slot (putAccount s k r) x = slot s x := rfl
@[simp] theorem job_putAccount (k : Nat) (r : Account) (x : Nat) : job (putAccount s k r) x = job s x := rfl
@[simp] theorem handleOf_putAccount (k : Nat) (r : Account) (x : Nat) : handleOf (putAccount s k r) x = handleOf s x := rfl
@[simp] theorem printer_putAccount (k : Nat) (r : Account) (x : Nat) : printer (putAccount s k r) x = printer s x := rfl
@[simp] theorem pool_putAccount (k : Nat) (r : Account) (x : Nat) : pool (putAccount s k r) x = pool s x := rfl
@[simp] theorem model_putAccount (k : Nat) (r : Account) (x : Nat) : model (putAccount s k r) x = model s x := rfl
@[simp] theorem condEntry_putAccount (k : Nat) (r : Account) (x : CondKind) : condEntry (putAccount s k r) x = condEntry s x := rfl
@[simp] theorem callout_putAccount (k : Nat) (r : Account) (x : Nat) (y : CondKind) : callout (putAccount s k r) x y = callout s x y := rfl
@[simp] theorem classRec_putAccount (k : Nat) (r : Account) (x : Nat) : classRec (putAccount s k r) x = classRec s x := rfl
@[simp] theorem desk_putAccount (k : Nat) (r : Account) (x : Nat) : desk (putAccount s k r) x = desk s x := rfl
@[simp] theorem loopRec_putAccount (k : Nat) (r : Account) (x : Nat) : loopRec (putAccount s k r) x = loopRec s x := rfl
@[simp] theorem terminal_putAccount (k : Nat) (r : Account) (x : Nat) : terminal (putAccount s k r) x = terminal s x := rfl
@[simp] theorem visit_putAccount (k : Nat) (r : Account) (x : Nat) : visit (putAccount s k r) x = visit s x := rfl
@[simp] theorem rollover_putAccount (k : Nat) (r : Account) (x : Nat) : rollover (putAccount s k r) x = rollover s x := rfl

/-! ### moveBadge -/

@[simp] theorem moveBadge_pending (a : Nat) (old new : Option Nat) : (moveBadge s a old new).pending = s.pending := rfl
@[simp] theorem moveBadge_port (a : Nat) (old new : Option Nat) : (moveBadge s a old new).port = s.port := rfl
@[simp] theorem moveBadge_resetPinLow (a : Nat) (old new : Option Nat) : (moveBadge s a old new).resetPinLow = s.resetPinLow := rfl
@[simp] theorem moveBadge_supplyLow (a : Nat) (old new : Option Nat) : (moveBadge s a old new).supplyLow = s.supplyLow := rfl
@[simp] theorem moveBadge_response (a : Nat) (old new : Option Nat) : (moveBadge s a old new).response = s.response := rfl
@[simp] theorem moveBadge_hsdo (a : Nat) (old new : Option Nat) : (moveBadge s a old new).hsdo = s.hsdo := rfl
@[simp] theorem moveBadge_driven (a : Nat) (old new : Option Nat) : (moveBadge s a old new).driven = s.driven := rfl
@[simp] theorem moveBadge_attn (a : Nat) (old new : Option Nat) : (moveBadge s a old new).attn = s.attn := rfl
@[simp] theorem moveBadge_lock (a : Nat) (old new : Option Nat) : (moveBadge s a old new).lock = s.lock := rfl
@[simp] theorem moveBadge_tenants (a : Nat) (old new : Option Nat) : (moveBadge s a old new).tenants = s.tenants := rfl
@[simp] theorem moveBadge_accounts (a : Nat) (old new : Option Nat) : (moveBadge s a old new).accounts = s.accounts := rfl
@[simp] theorem moveBadge_jobs (a : Nat) (old new : Option Nat) : (moveBadge s a old new).jobs = s.jobs := rfl
@[simp] theorem moveBadge_releaseCounter (a : Nat) (old new : Option Nat) : (moveBadge s a old new).releaseCounter = s.releaseCounter := rfl
@[simp] theorem moveBadge_finished (a : Nat) (old new : Option Nat) : (moveBadge s a old new).finished = s.finished := rfl
@[simp] theorem moveBadge_dispatch (a : Nat) (old new : Option Nat) : (moveBadge s a old new).dispatch = s.dispatch := rfl
@[simp] theorem moveBadge_printers (a : Nat) (old new : Option Nat) : (moveBadge s a old new).printers = s.printers := rfl
@[simp] theorem moveBadge_pools (a : Nat) (old new : Option Nat) : (moveBadge s a old new).pools = s.pools := rfl
@[simp] theorem moveBadge_models (a : Nat) (old new : Option Nat) : (moveBadge s a old new).models = s.models := rfl
@[simp] theorem moveBadge_survey (a : Nat) (old new : Option Nat) : (moveBadge s a old new).survey = s.survey := rfl
@[simp] theorem moveBadge_conditions (a : Nat) (old new : Option Nat) : (moveBadge s a old new).conditions = s.conditions := rfl
@[simp] theorem moveBadge_callouts (a : Nat) (old new : Option Nat) : (moveBadge s a old new).callouts = s.callouts := rfl
@[simp] theorem moveBadge_classes (a : Nat) (old new : Option Nat) : (moveBadge s a old new).classes = s.classes := rfl
@[simp] theorem moveBadge_desks (a : Nat) (old new : Option Nat) : (moveBadge s a old new).desks = s.desks := rfl
@[simp] theorem moveBadge_deskSet (a : Nat) (old new : Option Nat) : (moveBadge s a old new).deskSet = s.deskSet := rfl
@[simp] theorem moveBadge_loops (a : Nat) (old new : Option Nat) : (moveBadge s a old new).loops = s.loops := rfl
@[simp] theorem moveBadge_terminals (a : Nat) (old new : Option Nat) : (moveBadge s a old new).terminals = s.terminals := rfl
@[simp] theorem moveBadge_visits (a : Nat) (old new : Option Nat) : (moveBadge s a old new).visits = s.visits := rfl
@[simp] theorem moveBadge_sent (a : Nat) (old new : Option Nat) : (moveBadge s a old new).sent = s.sent := rfl
@[simp] theorem moveBadge_seconds (a : Nat) (old new : Option Nat) : (moveBadge s a old new).seconds = s.seconds := rfl
@[simp] theorem moveBadge_calendar (a : Nat) (old new : Option Nat) : (moveBadge s a old new).calendar = s.calendar := rfl
@[simp] theorem moveBadge_rollovers (a : Nat) (old new : Option Nat) : (moveBadge s a old new).rollovers = s.rollovers := rfl
@[simp] theorem moveBadge_surveyPattern (a : Nat) (old new : Option Nat) : (moveBadge s a old new).surveyPattern = s.surveyPattern := rfl
@[simp] theorem moveBadge_boundaries (a : Nat) (old new : Option Nat) : (moveBadge s a old new).boundaries = s.boundaries := rfl
@[simp] theorem moveBadge_draws (a : Nat) (old new : Option Nat) : (moveBadge s a old new).draws = s.draws := rfl
@[simp] theorem tenantRec_moveBadge (a : Nat) (old new : Option Nat) (t : Nat) : tenantRec (moveBadge s a old new) t = tenantRec s t := rfl
@[simp] theorem account_moveBadge (a : Nat) (old new : Option Nat) (x : Nat) : account (moveBadge s a old new) x = account s x := rfl
@[simp] theorem slot_moveBadge (a : Nat) (old new : Option Nat) (x : Nat) : slot (moveBadge s a old new) x = slot s x := rfl
@[simp] theorem job_moveBadge (a : Nat) (old new : Option Nat) (x : Nat) : job (moveBadge s a old new) x = job s x := rfl
@[simp] theorem handleOf_moveBadge (a : Nat) (old new : Option Nat) (x : Nat) : handleOf (moveBadge s a old new) x = handleOf s x := rfl
@[simp] theorem printer_moveBadge (a : Nat) (old new : Option Nat) (x : Nat) : printer (moveBadge s a old new) x = printer s x := rfl
@[simp] theorem pool_moveBadge (a : Nat) (old new : Option Nat) (x : Nat) : pool (moveBadge s a old new) x = pool s x := rfl
@[simp] theorem model_moveBadge (a : Nat) (old new : Option Nat) (x : Nat) : model (moveBadge s a old new) x = model s x := rfl
@[simp] theorem condEntry_moveBadge (a : Nat) (old new : Option Nat) (x : CondKind) : condEntry (moveBadge s a old new) x = condEntry s x := rfl
@[simp] theorem callout_moveBadge (a : Nat) (old new : Option Nat) (x : Nat) (y : CondKind) : callout (moveBadge s a old new) x y = callout s x y := rfl
@[simp] theorem classRec_moveBadge (a : Nat) (old new : Option Nat) (x : Nat) : classRec (moveBadge s a old new) x = classRec s x := rfl
@[simp] theorem desk_moveBadge (a : Nat) (old new : Option Nat) (x : Nat) : desk (moveBadge s a old new) x = desk s x := rfl
@[simp] theorem loopRec_moveBadge (a : Nat) (old new : Option Nat) (x : Nat) : loopRec (moveBadge s a old new) x = loopRec s x := rfl
@[simp] theorem terminal_moveBadge (a : Nat) (old new : Option Nat) (x : Nat) : terminal (moveBadge s a old new) x = terminal s x := rfl
@[simp] theorem visit_moveBadge (a : Nat) (old new : Option Nat) (x : Nat) : visit (moveBadge s a old new) x = visit s x := rfl
@[simp] theorem rollover_moveBadge (a : Nat) (old new : Option Nat) (x : Nat) : rollover (moveBadge s a old new) x = rollover s x := rfl

/-! ### putSlot -/

@[simp] theorem putSlot_pending (k : Nat) (r : Slot) : (putSlot s k r).pending = s.pending := rfl
@[simp] theorem putSlot_port (k : Nat) (r : Slot) : (putSlot s k r).port = s.port := rfl
@[simp] theorem putSlot_resetPinLow (k : Nat) (r : Slot) : (putSlot s k r).resetPinLow = s.resetPinLow := rfl
@[simp] theorem putSlot_supplyLow (k : Nat) (r : Slot) : (putSlot s k r).supplyLow = s.supplyLow := rfl
@[simp] theorem putSlot_response (k : Nat) (r : Slot) : (putSlot s k r).response = s.response := rfl
@[simp] theorem putSlot_hsdo (k : Nat) (r : Slot) : (putSlot s k r).hsdo = s.hsdo := rfl
@[simp] theorem putSlot_driven (k : Nat) (r : Slot) : (putSlot s k r).driven = s.driven := rfl
@[simp] theorem putSlot_attn (k : Nat) (r : Slot) : (putSlot s k r).attn = s.attn := rfl
@[simp] theorem putSlot_lock (k : Nat) (r : Slot) : (putSlot s k r).lock = s.lock := rfl
@[simp] theorem putSlot_tenants (k : Nat) (r : Slot) : (putSlot s k r).tenants = s.tenants := rfl
@[simp] theorem putSlot_accounts (k : Nat) (r : Slot) : (putSlot s k r).accounts = s.accounts := rfl
@[simp] theorem putSlot_badgeMap (k : Nat) (r : Slot) : (putSlot s k r).badgeMap = s.badgeMap := rfl
@[simp] theorem putSlot_releaseCounter (k : Nat) (r : Slot) : (putSlot s k r).releaseCounter = s.releaseCounter := rfl
@[simp] theorem putSlot_dispatch (k : Nat) (r : Slot) : (putSlot s k r).dispatch = s.dispatch := rfl
@[simp] theorem putSlot_printers (k : Nat) (r : Slot) : (putSlot s k r).printers = s.printers := rfl
@[simp] theorem putSlot_pools (k : Nat) (r : Slot) : (putSlot s k r).pools = s.pools := rfl
@[simp] theorem putSlot_models (k : Nat) (r : Slot) : (putSlot s k r).models = s.models := rfl
@[simp] theorem putSlot_survey (k : Nat) (r : Slot) : (putSlot s k r).survey = s.survey := rfl
@[simp] theorem putSlot_conditions (k : Nat) (r : Slot) : (putSlot s k r).conditions = s.conditions := rfl
@[simp] theorem putSlot_callouts (k : Nat) (r : Slot) : (putSlot s k r).callouts = s.callouts := rfl
@[simp] theorem putSlot_classes (k : Nat) (r : Slot) : (putSlot s k r).classes = s.classes := rfl
@[simp] theorem putSlot_desks (k : Nat) (r : Slot) : (putSlot s k r).desks = s.desks := rfl
@[simp] theorem putSlot_deskSet (k : Nat) (r : Slot) : (putSlot s k r).deskSet = s.deskSet := rfl
@[simp] theorem putSlot_loops (k : Nat) (r : Slot) : (putSlot s k r).loops = s.loops := rfl
@[simp] theorem putSlot_terminals (k : Nat) (r : Slot) : (putSlot s k r).terminals = s.terminals := rfl
@[simp] theorem putSlot_visits (k : Nat) (r : Slot) : (putSlot s k r).visits = s.visits := rfl
@[simp] theorem putSlot_sent (k : Nat) (r : Slot) : (putSlot s k r).sent = s.sent := rfl
@[simp] theorem putSlot_seconds (k : Nat) (r : Slot) : (putSlot s k r).seconds = s.seconds := rfl
@[simp] theorem putSlot_calendar (k : Nat) (r : Slot) : (putSlot s k r).calendar = s.calendar := rfl
@[simp] theorem putSlot_rollovers (k : Nat) (r : Slot) : (putSlot s k r).rollovers = s.rollovers := rfl
@[simp] theorem putSlot_surveyPattern (k : Nat) (r : Slot) : (putSlot s k r).surveyPattern = s.surveyPattern := rfl
@[simp] theorem putSlot_boundaries (k : Nat) (r : Slot) : (putSlot s k r).boundaries = s.boundaries := rfl
@[simp] theorem putSlot_draws (k : Nat) (r : Slot) : (putSlot s k r).draws = s.draws := rfl
@[simp] theorem tenantRec_putSlot (k : Nat) (r : Slot) (t : Nat) : tenantRec (putSlot s k r) t = tenantRec s t := rfl
@[simp] theorem account_putSlot (k : Nat) (r : Slot) (x : Nat) : account (putSlot s k r) x = account s x := rfl
@[simp] theorem badgeHolder_putSlot (k : Nat) (r : Slot) (x : Nat) : badgeHolder (putSlot s k r) x = badgeHolder s x := rfl
@[simp] theorem printer_putSlot (k : Nat) (r : Slot) (x : Nat) : printer (putSlot s k r) x = printer s x := rfl
@[simp] theorem pool_putSlot (k : Nat) (r : Slot) (x : Nat) : pool (putSlot s k r) x = pool s x := rfl
@[simp] theorem model_putSlot (k : Nat) (r : Slot) (x : Nat) : model (putSlot s k r) x = model s x := rfl
@[simp] theorem condEntry_putSlot (k : Nat) (r : Slot) (x : CondKind) : condEntry (putSlot s k r) x = condEntry s x := rfl
@[simp] theorem callout_putSlot (k : Nat) (r : Slot) (x : Nat) (y : CondKind) : callout (putSlot s k r) x y = callout s x y := rfl
@[simp] theorem classRec_putSlot (k : Nat) (r : Slot) (x : Nat) : classRec (putSlot s k r) x = classRec s x := rfl
@[simp] theorem desk_putSlot (k : Nat) (r : Slot) (x : Nat) : desk (putSlot s k r) x = desk s x := rfl
@[simp] theorem loopRec_putSlot (k : Nat) (r : Slot) (x : Nat) : loopRec (putSlot s k r) x = loopRec s x := rfl
@[simp] theorem terminal_putSlot (k : Nat) (r : Slot) (x : Nat) : terminal (putSlot s k r) x = terminal s x := rfl
@[simp] theorem visit_putSlot (k : Nat) (r : Slot) (x : Nat) : visit (putSlot s k r) x = visit s x := rfl
@[simp] theorem rollover_putSlot (k : Nat) (r : Slot) (x : Nat) : rollover (putSlot s k r) x = rollover s x := rfl

/-! ### putJob -/

@[simp] theorem putJob_pending (k : Nat) (r : Job) : (putJob s k r).pending = s.pending := rfl
@[simp] theorem putJob_port (k : Nat) (r : Job) : (putJob s k r).port = s.port := rfl
@[simp] theorem putJob_resetPinLow (k : Nat) (r : Job) : (putJob s k r).resetPinLow = s.resetPinLow := rfl
@[simp] theorem putJob_supplyLow (k : Nat) (r : Job) : (putJob s k r).supplyLow = s.supplyLow := rfl
@[simp] theorem putJob_response (k : Nat) (r : Job) : (putJob s k r).response = s.response := rfl
@[simp] theorem putJob_hsdo (k : Nat) (r : Job) : (putJob s k r).hsdo = s.hsdo := rfl
@[simp] theorem putJob_driven (k : Nat) (r : Job) : (putJob s k r).driven = s.driven := rfl
@[simp] theorem putJob_attn (k : Nat) (r : Job) : (putJob s k r).attn = s.attn := rfl
@[simp] theorem putJob_lock (k : Nat) (r : Job) : (putJob s k r).lock = s.lock := rfl
@[simp] theorem putJob_tenants (k : Nat) (r : Job) : (putJob s k r).tenants = s.tenants := rfl
@[simp] theorem putJob_accounts (k : Nat) (r : Job) : (putJob s k r).accounts = s.accounts := rfl
@[simp] theorem putJob_badgeMap (k : Nat) (r : Job) : (putJob s k r).badgeMap = s.badgeMap := rfl
@[simp] theorem putJob_releaseCounter (k : Nat) (r : Job) : (putJob s k r).releaseCounter = s.releaseCounter := rfl
@[simp] theorem putJob_dispatch (k : Nat) (r : Job) : (putJob s k r).dispatch = s.dispatch := rfl
@[simp] theorem putJob_printers (k : Nat) (r : Job) : (putJob s k r).printers = s.printers := rfl
@[simp] theorem putJob_pools (k : Nat) (r : Job) : (putJob s k r).pools = s.pools := rfl
@[simp] theorem putJob_models (k : Nat) (r : Job) : (putJob s k r).models = s.models := rfl
@[simp] theorem putJob_survey (k : Nat) (r : Job) : (putJob s k r).survey = s.survey := rfl
@[simp] theorem putJob_conditions (k : Nat) (r : Job) : (putJob s k r).conditions = s.conditions := rfl
@[simp] theorem putJob_callouts (k : Nat) (r : Job) : (putJob s k r).callouts = s.callouts := rfl
@[simp] theorem putJob_classes (k : Nat) (r : Job) : (putJob s k r).classes = s.classes := rfl
@[simp] theorem putJob_desks (k : Nat) (r : Job) : (putJob s k r).desks = s.desks := rfl
@[simp] theorem putJob_deskSet (k : Nat) (r : Job) : (putJob s k r).deskSet = s.deskSet := rfl
@[simp] theorem putJob_loops (k : Nat) (r : Job) : (putJob s k r).loops = s.loops := rfl
@[simp] theorem putJob_terminals (k : Nat) (r : Job) : (putJob s k r).terminals = s.terminals := rfl
@[simp] theorem putJob_visits (k : Nat) (r : Job) : (putJob s k r).visits = s.visits := rfl
@[simp] theorem putJob_sent (k : Nat) (r : Job) : (putJob s k r).sent = s.sent := rfl
@[simp] theorem putJob_seconds (k : Nat) (r : Job) : (putJob s k r).seconds = s.seconds := rfl
@[simp] theorem putJob_calendar (k : Nat) (r : Job) : (putJob s k r).calendar = s.calendar := rfl
@[simp] theorem putJob_rollovers (k : Nat) (r : Job) : (putJob s k r).rollovers = s.rollovers := rfl
@[simp] theorem putJob_surveyPattern (k : Nat) (r : Job) : (putJob s k r).surveyPattern = s.surveyPattern := rfl
@[simp] theorem putJob_boundaries (k : Nat) (r : Job) : (putJob s k r).boundaries = s.boundaries := rfl
@[simp] theorem putJob_draws (k : Nat) (r : Job) : (putJob s k r).draws = s.draws := rfl
@[simp] theorem tenantRec_putJob (k : Nat) (r : Job) (t : Nat) : tenantRec (putJob s k r) t = tenantRec s t := rfl
@[simp] theorem account_putJob (k : Nat) (r : Job) (x : Nat) : account (putJob s k r) x = account s x := rfl
@[simp] theorem badgeHolder_putJob (k : Nat) (r : Job) (x : Nat) : badgeHolder (putJob s k r) x = badgeHolder s x := rfl
@[simp] theorem printer_putJob (k : Nat) (r : Job) (x : Nat) : printer (putJob s k r) x = printer s x := rfl
@[simp] theorem pool_putJob (k : Nat) (r : Job) (x : Nat) : pool (putJob s k r) x = pool s x := rfl
@[simp] theorem model_putJob (k : Nat) (r : Job) (x : Nat) : model (putJob s k r) x = model s x := rfl
@[simp] theorem condEntry_putJob (k : Nat) (r : Job) (x : CondKind) : condEntry (putJob s k r) x = condEntry s x := rfl
@[simp] theorem callout_putJob (k : Nat) (r : Job) (x : Nat) (y : CondKind) : callout (putJob s k r) x y = callout s x y := rfl
@[simp] theorem classRec_putJob (k : Nat) (r : Job) (x : Nat) : classRec (putJob s k r) x = classRec s x := rfl
@[simp] theorem desk_putJob (k : Nat) (r : Job) (x : Nat) : desk (putJob s k r) x = desk s x := rfl
@[simp] theorem loopRec_putJob (k : Nat) (r : Job) (x : Nat) : loopRec (putJob s k r) x = loopRec s x := rfl
@[simp] theorem terminal_putJob (k : Nat) (r : Job) (x : Nat) : terminal (putJob s k r) x = terminal s x := rfl
@[simp] theorem visit_putJob (k : Nat) (r : Job) (x : Nat) : visit (putJob s k r) x = visit s x := rfl
@[simp] theorem rollover_putJob (k : Nat) (r : Job) (x : Nat) : rollover (putJob s k r) x = rollover s x := rfl

/-! ### putPrinter -/

@[simp] theorem putPrinter_pending (k : Nat) (r : Printer) : (putPrinter s k r).pending = s.pending := rfl
@[simp] theorem putPrinter_port (k : Nat) (r : Printer) : (putPrinter s k r).port = s.port := rfl
@[simp] theorem putPrinter_resetPinLow (k : Nat) (r : Printer) : (putPrinter s k r).resetPinLow = s.resetPinLow := rfl
@[simp] theorem putPrinter_supplyLow (k : Nat) (r : Printer) : (putPrinter s k r).supplyLow = s.supplyLow := rfl
@[simp] theorem putPrinter_response (k : Nat) (r : Printer) : (putPrinter s k r).response = s.response := rfl
@[simp] theorem putPrinter_hsdo (k : Nat) (r : Printer) : (putPrinter s k r).hsdo = s.hsdo := rfl
@[simp] theorem putPrinter_driven (k : Nat) (r : Printer) : (putPrinter s k r).driven = s.driven := rfl
@[simp] theorem putPrinter_attn (k : Nat) (r : Printer) : (putPrinter s k r).attn = s.attn := rfl
@[simp] theorem putPrinter_lock (k : Nat) (r : Printer) : (putPrinter s k r).lock = s.lock := rfl
@[simp] theorem putPrinter_tenants (k : Nat) (r : Printer) : (putPrinter s k r).tenants = s.tenants := rfl
@[simp] theorem putPrinter_accounts (k : Nat) (r : Printer) : (putPrinter s k r).accounts = s.accounts := rfl
@[simp] theorem putPrinter_badgeMap (k : Nat) (r : Printer) : (putPrinter s k r).badgeMap = s.badgeMap := rfl
@[simp] theorem putPrinter_jobs (k : Nat) (r : Printer) : (putPrinter s k r).jobs = s.jobs := rfl
@[simp] theorem putPrinter_releaseCounter (k : Nat) (r : Printer) : (putPrinter s k r).releaseCounter = s.releaseCounter := rfl
@[simp] theorem putPrinter_finished (k : Nat) (r : Printer) : (putPrinter s k r).finished = s.finished := rfl
@[simp] theorem putPrinter_dispatch (k : Nat) (r : Printer) : (putPrinter s k r).dispatch = s.dispatch := rfl
@[simp] theorem putPrinter_pools (k : Nat) (r : Printer) : (putPrinter s k r).pools = s.pools := rfl
@[simp] theorem putPrinter_models (k : Nat) (r : Printer) : (putPrinter s k r).models = s.models := rfl
@[simp] theorem putPrinter_survey (k : Nat) (r : Printer) : (putPrinter s k r).survey = s.survey := rfl
@[simp] theorem putPrinter_conditions (k : Nat) (r : Printer) : (putPrinter s k r).conditions = s.conditions := rfl
@[simp] theorem putPrinter_callouts (k : Nat) (r : Printer) : (putPrinter s k r).callouts = s.callouts := rfl
@[simp] theorem putPrinter_classes (k : Nat) (r : Printer) : (putPrinter s k r).classes = s.classes := rfl
@[simp] theorem putPrinter_desks (k : Nat) (r : Printer) : (putPrinter s k r).desks = s.desks := rfl
@[simp] theorem putPrinter_deskSet (k : Nat) (r : Printer) : (putPrinter s k r).deskSet = s.deskSet := rfl
@[simp] theorem putPrinter_loops (k : Nat) (r : Printer) : (putPrinter s k r).loops = s.loops := rfl
@[simp] theorem putPrinter_terminals (k : Nat) (r : Printer) : (putPrinter s k r).terminals = s.terminals := rfl
@[simp] theorem putPrinter_visits (k : Nat) (r : Printer) : (putPrinter s k r).visits = s.visits := rfl
@[simp] theorem putPrinter_sent (k : Nat) (r : Printer) : (putPrinter s k r).sent = s.sent := rfl
@[simp] theorem putPrinter_seconds (k : Nat) (r : Printer) : (putPrinter s k r).seconds = s.seconds := rfl
@[simp] theorem putPrinter_calendar (k : Nat) (r : Printer) : (putPrinter s k r).calendar = s.calendar := rfl
@[simp] theorem putPrinter_rollovers (k : Nat) (r : Printer) : (putPrinter s k r).rollovers = s.rollovers := rfl
@[simp] theorem putPrinter_surveyPattern (k : Nat) (r : Printer) : (putPrinter s k r).surveyPattern = s.surveyPattern := rfl
@[simp] theorem putPrinter_boundaries (k : Nat) (r : Printer) : (putPrinter s k r).boundaries = s.boundaries := rfl
@[simp] theorem putPrinter_draws (k : Nat) (r : Printer) : (putPrinter s k r).draws = s.draws := rfl
@[simp] theorem tenantRec_putPrinter (k : Nat) (r : Printer) (t : Nat) : tenantRec (putPrinter s k r) t = tenantRec s t := rfl
@[simp] theorem account_putPrinter (k : Nat) (r : Printer) (x : Nat) : account (putPrinter s k r) x = account s x := rfl
@[simp] theorem badgeHolder_putPrinter (k : Nat) (r : Printer) (x : Nat) : badgeHolder (putPrinter s k r) x = badgeHolder s x := rfl
@[simp] theorem slot_putPrinter (k : Nat) (r : Printer) (x : Nat) : slot (putPrinter s k r) x = slot s x := rfl
@[simp] theorem job_putPrinter (k : Nat) (r : Printer) (x : Nat) : job (putPrinter s k r) x = job s x := rfl
@[simp] theorem handleOf_putPrinter (k : Nat) (r : Printer) (x : Nat) : handleOf (putPrinter s k r) x = handleOf s x := rfl
@[simp] theorem pool_putPrinter (k : Nat) (r : Printer) (x : Nat) : pool (putPrinter s k r) x = pool s x := rfl
@[simp] theorem model_putPrinter (k : Nat) (r : Printer) (x : Nat) : model (putPrinter s k r) x = model s x := rfl
@[simp] theorem condEntry_putPrinter (k : Nat) (r : Printer) (x : CondKind) : condEntry (putPrinter s k r) x = condEntry s x := rfl
@[simp] theorem callout_putPrinter (k : Nat) (r : Printer) (x : Nat) (y : CondKind) : callout (putPrinter s k r) x y = callout s x y := rfl
@[simp] theorem classRec_putPrinter (k : Nat) (r : Printer) (x : Nat) : classRec (putPrinter s k r) x = classRec s x := rfl
@[simp] theorem desk_putPrinter (k : Nat) (r : Printer) (x : Nat) : desk (putPrinter s k r) x = desk s x := rfl
@[simp] theorem loopRec_putPrinter (k : Nat) (r : Printer) (x : Nat) : loopRec (putPrinter s k r) x = loopRec s x := rfl
@[simp] theorem terminal_putPrinter (k : Nat) (r : Printer) (x : Nat) : terminal (putPrinter s k r) x = terminal s x := rfl
@[simp] theorem visit_putPrinter (k : Nat) (r : Printer) (x : Nat) : visit (putPrinter s k r) x = visit s x := rfl
@[simp] theorem rollover_putPrinter (k : Nat) (r : Printer) (x : Nat) : rollover (putPrinter s k r) x = rollover s x := rfl

/-! ### putPool -/

@[simp] theorem putPool_pending (k : Nat) (r : List Nat) : (putPool s k r).pending = s.pending := rfl
@[simp] theorem putPool_port (k : Nat) (r : List Nat) : (putPool s k r).port = s.port := rfl
@[simp] theorem putPool_resetPinLow (k : Nat) (r : List Nat) : (putPool s k r).resetPinLow = s.resetPinLow := rfl
@[simp] theorem putPool_supplyLow (k : Nat) (r : List Nat) : (putPool s k r).supplyLow = s.supplyLow := rfl
@[simp] theorem putPool_response (k : Nat) (r : List Nat) : (putPool s k r).response = s.response := rfl
@[simp] theorem putPool_hsdo (k : Nat) (r : List Nat) : (putPool s k r).hsdo = s.hsdo := rfl
@[simp] theorem putPool_driven (k : Nat) (r : List Nat) : (putPool s k r).driven = s.driven := rfl
@[simp] theorem putPool_attn (k : Nat) (r : List Nat) : (putPool s k r).attn = s.attn := rfl
@[simp] theorem putPool_lock (k : Nat) (r : List Nat) : (putPool s k r).lock = s.lock := rfl
@[simp] theorem putPool_tenants (k : Nat) (r : List Nat) : (putPool s k r).tenants = s.tenants := rfl
@[simp] theorem putPool_accounts (k : Nat) (r : List Nat) : (putPool s k r).accounts = s.accounts := rfl
@[simp] theorem putPool_badgeMap (k : Nat) (r : List Nat) : (putPool s k r).badgeMap = s.badgeMap := rfl
@[simp] theorem putPool_jobs (k : Nat) (r : List Nat) : (putPool s k r).jobs = s.jobs := rfl
@[simp] theorem putPool_releaseCounter (k : Nat) (r : List Nat) : (putPool s k r).releaseCounter = s.releaseCounter := rfl
@[simp] theorem putPool_finished (k : Nat) (r : List Nat) : (putPool s k r).finished = s.finished := rfl
@[simp] theorem putPool_dispatch (k : Nat) (r : List Nat) : (putPool s k r).dispatch = s.dispatch := rfl
@[simp] theorem putPool_printers (k : Nat) (r : List Nat) : (putPool s k r).printers = s.printers := rfl
@[simp] theorem putPool_models (k : Nat) (r : List Nat) : (putPool s k r).models = s.models := rfl
@[simp] theorem putPool_survey (k : Nat) (r : List Nat) : (putPool s k r).survey = s.survey := rfl
@[simp] theorem putPool_conditions (k : Nat) (r : List Nat) : (putPool s k r).conditions = s.conditions := rfl
@[simp] theorem putPool_callouts (k : Nat) (r : List Nat) : (putPool s k r).callouts = s.callouts := rfl
@[simp] theorem putPool_classes (k : Nat) (r : List Nat) : (putPool s k r).classes = s.classes := rfl
@[simp] theorem putPool_desks (k : Nat) (r : List Nat) : (putPool s k r).desks = s.desks := rfl
@[simp] theorem putPool_deskSet (k : Nat) (r : List Nat) : (putPool s k r).deskSet = s.deskSet := rfl
@[simp] theorem putPool_loops (k : Nat) (r : List Nat) : (putPool s k r).loops = s.loops := rfl
@[simp] theorem putPool_terminals (k : Nat) (r : List Nat) : (putPool s k r).terminals = s.terminals := rfl
@[simp] theorem putPool_visits (k : Nat) (r : List Nat) : (putPool s k r).visits = s.visits := rfl
@[simp] theorem putPool_sent (k : Nat) (r : List Nat) : (putPool s k r).sent = s.sent := rfl
@[simp] theorem putPool_seconds (k : Nat) (r : List Nat) : (putPool s k r).seconds = s.seconds := rfl
@[simp] theorem putPool_calendar (k : Nat) (r : List Nat) : (putPool s k r).calendar = s.calendar := rfl
@[simp] theorem putPool_rollovers (k : Nat) (r : List Nat) : (putPool s k r).rollovers = s.rollovers := rfl
@[simp] theorem putPool_surveyPattern (k : Nat) (r : List Nat) : (putPool s k r).surveyPattern = s.surveyPattern := rfl
@[simp] theorem putPool_boundaries (k : Nat) (r : List Nat) : (putPool s k r).boundaries = s.boundaries := rfl
@[simp] theorem putPool_draws (k : Nat) (r : List Nat) : (putPool s k r).draws = s.draws := rfl
@[simp] theorem tenantRec_putPool (k : Nat) (r : List Nat) (t : Nat) : tenantRec (putPool s k r) t = tenantRec s t := rfl
@[simp] theorem account_putPool (k : Nat) (r : List Nat) (x : Nat) : account (putPool s k r) x = account s x := rfl
@[simp] theorem badgeHolder_putPool (k : Nat) (r : List Nat) (x : Nat) : badgeHolder (putPool s k r) x = badgeHolder s x := rfl
@[simp] theorem slot_putPool (k : Nat) (r : List Nat) (x : Nat) : slot (putPool s k r) x = slot s x := rfl
@[simp] theorem job_putPool (k : Nat) (r : List Nat) (x : Nat) : job (putPool s k r) x = job s x := rfl
@[simp] theorem handleOf_putPool (k : Nat) (r : List Nat) (x : Nat) : handleOf (putPool s k r) x = handleOf s x := rfl
@[simp] theorem printer_putPool (k : Nat) (r : List Nat) (x : Nat) : printer (putPool s k r) x = printer s x := rfl
@[simp] theorem model_putPool (k : Nat) (r : List Nat) (x : Nat) : model (putPool s k r) x = model s x := rfl
@[simp] theorem condEntry_putPool (k : Nat) (r : List Nat) (x : CondKind) : condEntry (putPool s k r) x = condEntry s x := rfl
@[simp] theorem callout_putPool (k : Nat) (r : List Nat) (x : Nat) (y : CondKind) : callout (putPool s k r) x y = callout s x y := rfl
@[simp] theorem classRec_putPool (k : Nat) (r : List Nat) (x : Nat) : classRec (putPool s k r) x = classRec s x := rfl
@[simp] theorem desk_putPool (k : Nat) (r : List Nat) (x : Nat) : desk (putPool s k r) x = desk s x := rfl
@[simp] theorem loopRec_putPool (k : Nat) (r : List Nat) (x : Nat) : loopRec (putPool s k r) x = loopRec s x := rfl
@[simp] theorem terminal_putPool (k : Nat) (r : List Nat) (x : Nat) : terminal (putPool s k r) x = terminal s x := rfl
@[simp] theorem visit_putPool (k : Nat) (r : List Nat) (x : Nat) : visit (putPool s k r) x = visit s x := rfl
@[simp] theorem rollover_putPool (k : Nat) (r : List Nat) (x : Nat) : rollover (putPool s k r) x = rollover s x := rfl

/-! ### putModel -/

@[simp] theorem putModel_pending (k : Nat) (r : SupplyModel) : (putModel s k r).pending = s.pending := rfl
@[simp] theorem putModel_port (k : Nat) (r : SupplyModel) : (putModel s k r).port = s.port := rfl
@[simp] theorem putModel_resetPinLow (k : Nat) (r : SupplyModel) : (putModel s k r).resetPinLow = s.resetPinLow := rfl
@[simp] theorem putModel_supplyLow (k : Nat) (r : SupplyModel) : (putModel s k r).supplyLow = s.supplyLow := rfl
@[simp] theorem putModel_response (k : Nat) (r : SupplyModel) : (putModel s k r).response = s.response := rfl
@[simp] theorem putModel_hsdo (k : Nat) (r : SupplyModel) : (putModel s k r).hsdo = s.hsdo := rfl
@[simp] theorem putModel_driven (k : Nat) (r : SupplyModel) : (putModel s k r).driven = s.driven := rfl
@[simp] theorem putModel_attn (k : Nat) (r : SupplyModel) : (putModel s k r).attn = s.attn := rfl
@[simp] theorem putModel_lock (k : Nat) (r : SupplyModel) : (putModel s k r).lock = s.lock := rfl
@[simp] theorem putModel_tenants (k : Nat) (r : SupplyModel) : (putModel s k r).tenants = s.tenants := rfl
@[simp] theorem putModel_accounts (k : Nat) (r : SupplyModel) : (putModel s k r).accounts = s.accounts := rfl
@[simp] theorem putModel_badgeMap (k : Nat) (r : SupplyModel) : (putModel s k r).badgeMap = s.badgeMap := rfl
@[simp] theorem putModel_jobs (k : Nat) (r : SupplyModel) : (putModel s k r).jobs = s.jobs := rfl
@[simp] theorem putModel_releaseCounter (k : Nat) (r : SupplyModel) : (putModel s k r).releaseCounter = s.releaseCounter := rfl
@[simp] theorem putModel_finished (k : Nat) (r : SupplyModel) : (putModel s k r).finished = s.finished := rfl
@[simp] theorem putModel_dispatch (k : Nat) (r : SupplyModel) : (putModel s k r).dispatch = s.dispatch := rfl
@[simp] theorem putModel_printers (k : Nat) (r : SupplyModel) : (putModel s k r).printers = s.printers := rfl
@[simp] theorem putModel_pools (k : Nat) (r : SupplyModel) : (putModel s k r).pools = s.pools := rfl
@[simp] theorem putModel_survey (k : Nat) (r : SupplyModel) : (putModel s k r).survey = s.survey := rfl
@[simp] theorem putModel_conditions (k : Nat) (r : SupplyModel) : (putModel s k r).conditions = s.conditions := rfl
@[simp] theorem putModel_callouts (k : Nat) (r : SupplyModel) : (putModel s k r).callouts = s.callouts := rfl
@[simp] theorem putModel_classes (k : Nat) (r : SupplyModel) : (putModel s k r).classes = s.classes := rfl
@[simp] theorem putModel_desks (k : Nat) (r : SupplyModel) : (putModel s k r).desks = s.desks := rfl
@[simp] theorem putModel_deskSet (k : Nat) (r : SupplyModel) : (putModel s k r).deskSet = s.deskSet := rfl
@[simp] theorem putModel_loops (k : Nat) (r : SupplyModel) : (putModel s k r).loops = s.loops := rfl
@[simp] theorem putModel_terminals (k : Nat) (r : SupplyModel) : (putModel s k r).terminals = s.terminals := rfl
@[simp] theorem putModel_visits (k : Nat) (r : SupplyModel) : (putModel s k r).visits = s.visits := rfl
@[simp] theorem putModel_sent (k : Nat) (r : SupplyModel) : (putModel s k r).sent = s.sent := rfl
@[simp] theorem putModel_seconds (k : Nat) (r : SupplyModel) : (putModel s k r).seconds = s.seconds := rfl
@[simp] theorem putModel_calendar (k : Nat) (r : SupplyModel) : (putModel s k r).calendar = s.calendar := rfl
@[simp] theorem putModel_rollovers (k : Nat) (r : SupplyModel) : (putModel s k r).rollovers = s.rollovers := rfl
@[simp] theorem putModel_surveyPattern (k : Nat) (r : SupplyModel) : (putModel s k r).surveyPattern = s.surveyPattern := rfl
@[simp] theorem putModel_boundaries (k : Nat) (r : SupplyModel) : (putModel s k r).boundaries = s.boundaries := rfl
@[simp] theorem putModel_draws (k : Nat) (r : SupplyModel) : (putModel s k r).draws = s.draws := rfl
@[simp] theorem tenantRec_putModel (k : Nat) (r : SupplyModel) (t : Nat) : tenantRec (putModel s k r) t = tenantRec s t := rfl
@[simp] theorem account_putModel (k : Nat) (r : SupplyModel) (x : Nat) : account (putModel s k r) x = account s x := rfl
@[simp] theorem badgeHolder_putModel (k : Nat) (r : SupplyModel) (x : Nat) : badgeHolder (putModel s k r) x = badgeHolder s x := rfl
@[simp] theorem slot_putModel (k : Nat) (r : SupplyModel) (x : Nat) : slot (putModel s k r) x = slot s x := rfl
@[simp] theorem job_putModel (k : Nat) (r : SupplyModel) (x : Nat) : job (putModel s k r) x = job s x := rfl
@[simp] theorem handleOf_putModel (k : Nat) (r : SupplyModel) (x : Nat) : handleOf (putModel s k r) x = handleOf s x := rfl
@[simp] theorem printer_putModel (k : Nat) (r : SupplyModel) (x : Nat) : printer (putModel s k r) x = printer s x := rfl
@[simp] theorem pool_putModel (k : Nat) (r : SupplyModel) (x : Nat) : pool (putModel s k r) x = pool s x := rfl
@[simp] theorem condEntry_putModel (k : Nat) (r : SupplyModel) (x : CondKind) : condEntry (putModel s k r) x = condEntry s x := rfl
@[simp] theorem callout_putModel (k : Nat) (r : SupplyModel) (x : Nat) (y : CondKind) : callout (putModel s k r) x y = callout s x y := rfl
@[simp] theorem classRec_putModel (k : Nat) (r : SupplyModel) (x : Nat) : classRec (putModel s k r) x = classRec s x := rfl
@[simp] theorem desk_putModel (k : Nat) (r : SupplyModel) (x : Nat) : desk (putModel s k r) x = desk s x := rfl
@[simp] theorem loopRec_putModel (k : Nat) (r : SupplyModel) (x : Nat) : loopRec (putModel s k r) x = loopRec s x := rfl
@[simp] theorem terminal_putModel (k : Nat) (r : SupplyModel) (x : Nat) : terminal (putModel s k r) x = terminal s x := rfl
@[simp] theorem visit_putModel (k : Nat) (r : SupplyModel) (x : Nat) : visit (putModel s k r) x = visit s x := rfl
@[simp] theorem rollover_putModel (k : Nat) (r : SupplyModel) (x : Nat) : rollover (putModel s k r) x = rollover s x := rfl

/-! ### putCondEntry -/

@[simp] theorem putCondEntry_pending (k : CondKind) (r : CondEntry) : (putCondEntry s k r).pending = s.pending := rfl
@[simp] theorem putCondEntry_port (k : CondKind) (r : CondEntry) : (putCondEntry s k r).port = s.port := rfl
@[simp] theorem putCondEntry_resetPinLow (k : CondKind) (r : CondEntry) : (putCondEntry s k r).resetPinLow = s.resetPinLow := rfl
@[simp] theorem putCondEntry_supplyLow (k : CondKind) (r : CondEntry) : (putCondEntry s k r).supplyLow = s.supplyLow := rfl
@[simp] theorem putCondEntry_response (k : CondKind) (r : CondEntry) : (putCondEntry s k r).response = s.response := rfl
@[simp] theorem putCondEntry_hsdo (k : CondKind) (r : CondEntry) : (putCondEntry s k r).hsdo = s.hsdo := rfl
@[simp] theorem putCondEntry_driven (k : CondKind) (r : CondEntry) : (putCondEntry s k r).driven = s.driven := rfl
@[simp] theorem putCondEntry_attn (k : CondKind) (r : CondEntry) : (putCondEntry s k r).attn = s.attn := rfl
@[simp] theorem putCondEntry_lock (k : CondKind) (r : CondEntry) : (putCondEntry s k r).lock = s.lock := rfl
@[simp] theorem putCondEntry_tenants (k : CondKind) (r : CondEntry) : (putCondEntry s k r).tenants = s.tenants := rfl
@[simp] theorem putCondEntry_accounts (k : CondKind) (r : CondEntry) : (putCondEntry s k r).accounts = s.accounts := rfl
@[simp] theorem putCondEntry_badgeMap (k : CondKind) (r : CondEntry) : (putCondEntry s k r).badgeMap = s.badgeMap := rfl
@[simp] theorem putCondEntry_jobs (k : CondKind) (r : CondEntry) : (putCondEntry s k r).jobs = s.jobs := rfl
@[simp] theorem putCondEntry_releaseCounter (k : CondKind) (r : CondEntry) : (putCondEntry s k r).releaseCounter = s.releaseCounter := rfl
@[simp] theorem putCondEntry_finished (k : CondKind) (r : CondEntry) : (putCondEntry s k r).finished = s.finished := rfl
@[simp] theorem putCondEntry_dispatch (k : CondKind) (r : CondEntry) : (putCondEntry s k r).dispatch = s.dispatch := rfl
@[simp] theorem putCondEntry_printers (k : CondKind) (r : CondEntry) : (putCondEntry s k r).printers = s.printers := rfl
@[simp] theorem putCondEntry_pools (k : CondKind) (r : CondEntry) : (putCondEntry s k r).pools = s.pools := rfl
@[simp] theorem putCondEntry_models (k : CondKind) (r : CondEntry) : (putCondEntry s k r).models = s.models := rfl
@[simp] theorem putCondEntry_survey (k : CondKind) (r : CondEntry) : (putCondEntry s k r).survey = s.survey := rfl
@[simp] theorem putCondEntry_callouts (k : CondKind) (r : CondEntry) : (putCondEntry s k r).callouts = s.callouts := rfl
@[simp] theorem putCondEntry_classes (k : CondKind) (r : CondEntry) : (putCondEntry s k r).classes = s.classes := rfl
@[simp] theorem putCondEntry_desks (k : CondKind) (r : CondEntry) : (putCondEntry s k r).desks = s.desks := rfl
@[simp] theorem putCondEntry_deskSet (k : CondKind) (r : CondEntry) : (putCondEntry s k r).deskSet = s.deskSet := rfl
@[simp] theorem putCondEntry_loops (k : CondKind) (r : CondEntry) : (putCondEntry s k r).loops = s.loops := rfl
@[simp] theorem putCondEntry_terminals (k : CondKind) (r : CondEntry) : (putCondEntry s k r).terminals = s.terminals := rfl
@[simp] theorem putCondEntry_visits (k : CondKind) (r : CondEntry) : (putCondEntry s k r).visits = s.visits := rfl
@[simp] theorem putCondEntry_sent (k : CondKind) (r : CondEntry) : (putCondEntry s k r).sent = s.sent := rfl
@[simp] theorem putCondEntry_seconds (k : CondKind) (r : CondEntry) : (putCondEntry s k r).seconds = s.seconds := rfl
@[simp] theorem putCondEntry_calendar (k : CondKind) (r : CondEntry) : (putCondEntry s k r).calendar = s.calendar := rfl
@[simp] theorem putCondEntry_rollovers (k : CondKind) (r : CondEntry) : (putCondEntry s k r).rollovers = s.rollovers := rfl
@[simp] theorem putCondEntry_surveyPattern (k : CondKind) (r : CondEntry) : (putCondEntry s k r).surveyPattern = s.surveyPattern := rfl
@[simp] theorem putCondEntry_boundaries (k : CondKind) (r : CondEntry) : (putCondEntry s k r).boundaries = s.boundaries := rfl
@[simp] theorem putCondEntry_draws (k : CondKind) (r : CondEntry) : (putCondEntry s k r).draws = s.draws := rfl
@[simp] theorem tenantRec_putCondEntry (k : CondKind) (r : CondEntry) (t : Nat) : tenantRec (putCondEntry s k r) t = tenantRec s t := rfl
@[simp] theorem account_putCondEntry (k : CondKind) (r : CondEntry) (x : Nat) : account (putCondEntry s k r) x = account s x := rfl
@[simp] theorem badgeHolder_putCondEntry (k : CondKind) (r : CondEntry) (x : Nat) : badgeHolder (putCondEntry s k r) x = badgeHolder s x := rfl
@[simp] theorem slot_putCondEntry (k : CondKind) (r : CondEntry) (x : Nat) : slot (putCondEntry s k r) x = slot s x := rfl
@[simp] theorem job_putCondEntry (k : CondKind) (r : CondEntry) (x : Nat) : job (putCondEntry s k r) x = job s x := rfl
@[simp] theorem handleOf_putCondEntry (k : CondKind) (r : CondEntry) (x : Nat) : handleOf (putCondEntry s k r) x = handleOf s x := rfl
@[simp] theorem printer_putCondEntry (k : CondKind) (r : CondEntry) (x : Nat) : printer (putCondEntry s k r) x = printer s x := rfl
@[simp] theorem pool_putCondEntry (k : CondKind) (r : CondEntry) (x : Nat) : pool (putCondEntry s k r) x = pool s x := rfl
@[simp] theorem model_putCondEntry (k : CondKind) (r : CondEntry) (x : Nat) : model (putCondEntry s k r) x = model s x := rfl
@[simp] theorem callout_putCondEntry (k : CondKind) (r : CondEntry) (x : Nat) (y : CondKind) : callout (putCondEntry s k r) x y = callout s x y := rfl
@[simp] theorem classRec_putCondEntry (k : CondKind) (r : CondEntry) (x : Nat) : classRec (putCondEntry s k r) x = classRec s x := rfl
@[simp] theorem desk_putCondEntry (k : CondKind) (r : CondEntry) (x : Nat) : desk (putCondEntry s k r) x = desk s x := rfl
@[simp] theorem loopRec_putCondEntry (k : CondKind) (r : CondEntry) (x : Nat) : loopRec (putCondEntry s k r) x = loopRec s x := rfl
@[simp] theorem terminal_putCondEntry (k : CondKind) (r : CondEntry) (x : Nat) : terminal (putCondEntry s k r) x = terminal s x := rfl
@[simp] theorem visit_putCondEntry (k : CondKind) (r : CondEntry) (x : Nat) : visit (putCondEntry s k r) x = visit s x := rfl
@[simp] theorem rollover_putCondEntry (k : CondKind) (r : CondEntry) (x : Nat) : rollover (putCondEntry s k r) x = rollover s x := rfl

/-! ### putCallout -/

@[simp] theorem putCallout_pending (p : Nat) (k : CondKind) (r : Option Callout) : (putCallout s p k r).pending = s.pending := rfl
@[simp] theorem putCallout_port (p : Nat) (k : CondKind) (r : Option Callout) : (putCallout s p k r).port = s.port := rfl
@[simp] theorem putCallout_resetPinLow (p : Nat) (k : CondKind) (r : Option Callout) : (putCallout s p k r).resetPinLow = s.resetPinLow := rfl
@[simp] theorem putCallout_supplyLow (p : Nat) (k : CondKind) (r : Option Callout) : (putCallout s p k r).supplyLow = s.supplyLow := rfl
@[simp] theorem putCallout_response (p : Nat) (k : CondKind) (r : Option Callout) : (putCallout s p k r).response = s.response := rfl
@[simp] theorem putCallout_hsdo (p : Nat) (k : CondKind) (r : Option Callout) : (putCallout s p k r).hsdo = s.hsdo := rfl
@[simp] theorem putCallout_driven (p : Nat) (k : CondKind) (r : Option Callout) : (putCallout s p k r).driven = s.driven := rfl
@[simp] theorem putCallout_attn (p : Nat) (k : CondKind) (r : Option Callout) : (putCallout s p k r).attn = s.attn := rfl
@[simp] theorem putCallout_lock (p : Nat) (k : CondKind) (r : Option Callout) : (putCallout s p k r).lock = s.lock := rfl
@[simp] theorem putCallout_tenants (p : Nat) (k : CondKind) (r : Option Callout) : (putCallout s p k r).tenants = s.tenants := rfl
@[simp] theorem putCallout_accounts (p : Nat) (k : CondKind) (r : Option Callout) : (putCallout s p k r).accounts = s.accounts := rfl
@[simp] theorem putCallout_badgeMap (p : Nat) (k : CondKind) (r : Option Callout) : (putCallout s p k r).badgeMap = s.badgeMap := rfl
@[simp] theorem putCallout_jobs (p : Nat) (k : CondKind) (r : Option Callout) : (putCallout s p k r).jobs = s.jobs := rfl
@[simp] theorem putCallout_releaseCounter (p : Nat) (k : CondKind) (r : Option Callout) : (putCallout s p k r).releaseCounter = s.releaseCounter := rfl
@[simp] theorem putCallout_finished (p : Nat) (k : CondKind) (r : Option Callout) : (putCallout s p k r).finished = s.finished := rfl
@[simp] theorem putCallout_dispatch (p : Nat) (k : CondKind) (r : Option Callout) : (putCallout s p k r).dispatch = s.dispatch := rfl
@[simp] theorem putCallout_printers (p : Nat) (k : CondKind) (r : Option Callout) : (putCallout s p k r).printers = s.printers := rfl
@[simp] theorem putCallout_pools (p : Nat) (k : CondKind) (r : Option Callout) : (putCallout s p k r).pools = s.pools := rfl
@[simp] theorem putCallout_models (p : Nat) (k : CondKind) (r : Option Callout) : (putCallout s p k r).models = s.models := rfl
@[simp] theorem putCallout_survey (p : Nat) (k : CondKind) (r : Option Callout) : (putCallout s p k r).survey = s.survey := rfl
@[simp] theorem putCallout_conditions (p : Nat) (k : CondKind) (r : Option Callout) : (putCallout s p k r).conditions = s.conditions := rfl
@[simp] theorem putCallout_classes (p : Nat) (k : CondKind) (r : Option Callout) : (putCallout s p k r).classes = s.classes := rfl
@[simp] theorem putCallout_desks (p : Nat) (k : CondKind) (r : Option Callout) : (putCallout s p k r).desks = s.desks := rfl
@[simp] theorem putCallout_deskSet (p : Nat) (k : CondKind) (r : Option Callout) : (putCallout s p k r).deskSet = s.deskSet := rfl
@[simp] theorem putCallout_loops (p : Nat) (k : CondKind) (r : Option Callout) : (putCallout s p k r).loops = s.loops := rfl
@[simp] theorem putCallout_terminals (p : Nat) (k : CondKind) (r : Option Callout) : (putCallout s p k r).terminals = s.terminals := rfl
@[simp] theorem putCallout_visits (p : Nat) (k : CondKind) (r : Option Callout) : (putCallout s p k r).visits = s.visits := rfl
@[simp] theorem putCallout_sent (p : Nat) (k : CondKind) (r : Option Callout) : (putCallout s p k r).sent = s.sent := rfl
@[simp] theorem putCallout_seconds (p : Nat) (k : CondKind) (r : Option Callout) : (putCallout s p k r).seconds = s.seconds := rfl
@[simp] theorem putCallout_calendar (p : Nat) (k : CondKind) (r : Option Callout) : (putCallout s p k r).calendar = s.calendar := rfl
@[simp] theorem putCallout_rollovers (p : Nat) (k : CondKind) (r : Option Callout) : (putCallout s p k r).rollovers = s.rollovers := rfl
@[simp] theorem putCallout_surveyPattern (p : Nat) (k : CondKind) (r : Option Callout) : (putCallout s p k r).surveyPattern = s.surveyPattern := rfl
@[simp] theorem putCallout_boundaries (p : Nat) (k : CondKind) (r : Option Callout) : (putCallout s p k r).boundaries = s.boundaries := rfl
@[simp] theorem putCallout_draws (p : Nat) (k : CondKind) (r : Option Callout) : (putCallout s p k r).draws = s.draws := rfl
@[simp] theorem tenantRec_putCallout (p : Nat) (k : CondKind) (r : Option Callout) (t : Nat) : tenantRec (putCallout s p k r) t = tenantRec s t := rfl
@[simp] theorem account_putCallout (p : Nat) (k : CondKind) (r : Option Callout) (x : Nat) : account (putCallout s p k r) x = account s x := rfl
@[simp] theorem badgeHolder_putCallout (p : Nat) (k : CondKind) (r : Option Callout) (x : Nat) : badgeHolder (putCallout s p k r) x = badgeHolder s x := rfl
@[simp] theorem slot_putCallout (p : Nat) (k : CondKind) (r : Option Callout) (x : Nat) : slot (putCallout s p k r) x = slot s x := rfl
@[simp] theorem job_putCallout (p : Nat) (k : CondKind) (r : Option Callout) (x : Nat) : job (putCallout s p k r) x = job s x := rfl
@[simp] theorem handleOf_putCallout (p : Nat) (k : CondKind) (r : Option Callout) (x : Nat) : handleOf (putCallout s p k r) x = handleOf s x := rfl
@[simp] theorem printer_putCallout (p : Nat) (k : CondKind) (r : Option Callout) (x : Nat) : printer (putCallout s p k r) x = printer s x := rfl
@[simp] theorem pool_putCallout (p : Nat) (k : CondKind) (r : Option Callout) (x : Nat) : pool (putCallout s p k r) x = pool s x := rfl
@[simp] theorem model_putCallout (p : Nat) (k : CondKind) (r : Option Callout) (x : Nat) : model (putCallout s p k r) x = model s x := rfl
@[simp] theorem condEntry_putCallout (p : Nat) (k : CondKind) (r : Option Callout) (x : CondKind) : condEntry (putCallout s p k r) x = condEntry s x := rfl
@[simp] theorem classRec_putCallout (p : Nat) (k : CondKind) (r : Option Callout) (x : Nat) : classRec (putCallout s p k r) x = classRec s x := rfl
@[simp] theorem desk_putCallout (p : Nat) (k : CondKind) (r : Option Callout) (x : Nat) : desk (putCallout s p k r) x = desk s x := rfl
@[simp] theorem loopRec_putCallout (p : Nat) (k : CondKind) (r : Option Callout) (x : Nat) : loopRec (putCallout s p k r) x = loopRec s x := rfl
@[simp] theorem terminal_putCallout (p : Nat) (k : CondKind) (r : Option Callout) (x : Nat) : terminal (putCallout s p k r) x = terminal s x := rfl
@[simp] theorem visit_putCallout (p : Nat) (k : CondKind) (r : Option Callout) (x : Nat) : visit (putCallout s p k r) x = visit s x := rfl
@[simp] theorem rollover_putCallout (p : Nat) (k : CondKind) (r : Option Callout) (x : Nat) : rollover (putCallout s p k r) x = rollover s x := rfl

/-! ### putClass -/

@[simp] theorem putClass_pending (k : Nat) (r : ClassRec) : (putClass s k r).pending = s.pending := rfl
@[simp] theorem putClass_port (k : Nat) (r : ClassRec) : (putClass s k r).port = s.port := rfl
@[simp] theorem putClass_resetPinLow (k : Nat) (r : ClassRec) : (putClass s k r).resetPinLow = s.resetPinLow := rfl
@[simp] theorem putClass_supplyLow (k : Nat) (r : ClassRec) : (putClass s k r).supplyLow = s.supplyLow := rfl
@[simp] theorem putClass_response (k : Nat) (r : ClassRec) : (putClass s k r).response = s.response := rfl
@[simp] theorem putClass_hsdo (k : Nat) (r : ClassRec) : (putClass s k r).hsdo = s.hsdo := rfl
@[simp] theorem putClass_driven (k : Nat) (r : ClassRec) : (putClass s k r).driven = s.driven := rfl
@[simp] theorem putClass_attn (k : Nat) (r : ClassRec) : (putClass s k r).attn = s.attn := rfl
@[simp] theorem putClass_lock (k : Nat) (r : ClassRec) : (putClass s k r).lock = s.lock := rfl
@[simp] theorem putClass_tenants (k : Nat) (r : ClassRec) : (putClass s k r).tenants = s.tenants := rfl
@[simp] theorem putClass_accounts (k : Nat) (r : ClassRec) : (putClass s k r).accounts = s.accounts := rfl
@[simp] theorem putClass_badgeMap (k : Nat) (r : ClassRec) : (putClass s k r).badgeMap = s.badgeMap := rfl
@[simp] theorem putClass_jobs (k : Nat) (r : ClassRec) : (putClass s k r).jobs = s.jobs := rfl
@[simp] theorem putClass_releaseCounter (k : Nat) (r : ClassRec) : (putClass s k r).releaseCounter = s.releaseCounter := rfl
@[simp] theorem putClass_finished (k : Nat) (r : ClassRec) : (putClass s k r).finished = s.finished := rfl
@[simp] theorem putClass_dispatch (k : Nat) (r : ClassRec) : (putClass s k r).dispatch = s.dispatch := rfl
@[simp] theorem putClass_printers (k : Nat) (r : ClassRec) : (putClass s k r).printers = s.printers := rfl
@[simp] theorem putClass_pools (k : Nat) (r : ClassRec) : (putClass s k r).pools = s.pools := rfl
@[simp] theorem putClass_models (k : Nat) (r : ClassRec) : (putClass s k r).models = s.models := rfl
@[simp] theorem putClass_survey (k : Nat) (r : ClassRec) : (putClass s k r).survey = s.survey := rfl
@[simp] theorem putClass_conditions (k : Nat) (r : ClassRec) : (putClass s k r).conditions = s.conditions := rfl
@[simp] theorem putClass_callouts (k : Nat) (r : ClassRec) : (putClass s k r).callouts = s.callouts := rfl
@[simp] theorem putClass_desks (k : Nat) (r : ClassRec) : (putClass s k r).desks = s.desks := rfl
@[simp] theorem putClass_deskSet (k : Nat) (r : ClassRec) : (putClass s k r).deskSet = s.deskSet := rfl
@[simp] theorem putClass_loops (k : Nat) (r : ClassRec) : (putClass s k r).loops = s.loops := rfl
@[simp] theorem putClass_terminals (k : Nat) (r : ClassRec) : (putClass s k r).terminals = s.terminals := rfl
@[simp] theorem putClass_visits (k : Nat) (r : ClassRec) : (putClass s k r).visits = s.visits := rfl
@[simp] theorem putClass_sent (k : Nat) (r : ClassRec) : (putClass s k r).sent = s.sent := rfl
@[simp] theorem putClass_seconds (k : Nat) (r : ClassRec) : (putClass s k r).seconds = s.seconds := rfl
@[simp] theorem putClass_calendar (k : Nat) (r : ClassRec) : (putClass s k r).calendar = s.calendar := rfl
@[simp] theorem putClass_rollovers (k : Nat) (r : ClassRec) : (putClass s k r).rollovers = s.rollovers := rfl
@[simp] theorem putClass_surveyPattern (k : Nat) (r : ClassRec) : (putClass s k r).surveyPattern = s.surveyPattern := rfl
@[simp] theorem putClass_boundaries (k : Nat) (r : ClassRec) : (putClass s k r).boundaries = s.boundaries := rfl
@[simp] theorem putClass_draws (k : Nat) (r : ClassRec) : (putClass s k r).draws = s.draws := rfl
@[simp] theorem tenantRec_putClass (k : Nat) (r : ClassRec) (t : Nat) : tenantRec (putClass s k r) t = tenantRec s t := rfl
@[simp] theorem account_putClass (k : Nat) (r : ClassRec) (x : Nat) : account (putClass s k r) x = account s x := rfl
@[simp] theorem badgeHolder_putClass (k : Nat) (r : ClassRec) (x : Nat) : badgeHolder (putClass s k r) x = badgeHolder s x := rfl
@[simp] theorem slot_putClass (k : Nat) (r : ClassRec) (x : Nat) : slot (putClass s k r) x = slot s x := rfl
@[simp] theorem job_putClass (k : Nat) (r : ClassRec) (x : Nat) : job (putClass s k r) x = job s x := rfl
@[simp] theorem handleOf_putClass (k : Nat) (r : ClassRec) (x : Nat) : handleOf (putClass s k r) x = handleOf s x := rfl
@[simp] theorem printer_putClass (k : Nat) (r : ClassRec) (x : Nat) : printer (putClass s k r) x = printer s x := rfl
@[simp] theorem pool_putClass (k : Nat) (r : ClassRec) (x : Nat) : pool (putClass s k r) x = pool s x := rfl
@[simp] theorem model_putClass (k : Nat) (r : ClassRec) (x : Nat) : model (putClass s k r) x = model s x := rfl
@[simp] theorem condEntry_putClass (k : Nat) (r : ClassRec) (x : CondKind) : condEntry (putClass s k r) x = condEntry s x := rfl
@[simp] theorem callout_putClass (k : Nat) (r : ClassRec) (x : Nat) (y : CondKind) : callout (putClass s k r) x y = callout s x y := rfl
@[simp] theorem desk_putClass (k : Nat) (r : ClassRec) (x : Nat) : desk (putClass s k r) x = desk s x := rfl
@[simp] theorem loopRec_putClass (k : Nat) (r : ClassRec) (x : Nat) : loopRec (putClass s k r) x = loopRec s x := rfl
@[simp] theorem terminal_putClass (k : Nat) (r : ClassRec) (x : Nat) : terminal (putClass s k r) x = terminal s x := rfl
@[simp] theorem visit_putClass (k : Nat) (r : ClassRec) (x : Nat) : visit (putClass s k r) x = visit s x := rfl
@[simp] theorem rollover_putClass (k : Nat) (r : ClassRec) (x : Nat) : rollover (putClass s k r) x = rollover s x := rfl

/-! ### putDesk -/

@[simp] theorem putDesk_pending (k : Nat) (r : Desk) : (putDesk s k r).pending = s.pending := rfl
@[simp] theorem putDesk_port (k : Nat) (r : Desk) : (putDesk s k r).port = s.port := rfl
@[simp] theorem putDesk_resetPinLow (k : Nat) (r : Desk) : (putDesk s k r).resetPinLow = s.resetPinLow := rfl
@[simp] theorem putDesk_supplyLow (k : Nat) (r : Desk) : (putDesk s k r).supplyLow = s.supplyLow := rfl
@[simp] theorem putDesk_response (k : Nat) (r : Desk) : (putDesk s k r).response = s.response := rfl
@[simp] theorem putDesk_hsdo (k : Nat) (r : Desk) : (putDesk s k r).hsdo = s.hsdo := rfl
@[simp] theorem putDesk_driven (k : Nat) (r : Desk) : (putDesk s k r).driven = s.driven := rfl
@[simp] theorem putDesk_attn (k : Nat) (r : Desk) : (putDesk s k r).attn = s.attn := rfl
@[simp] theorem putDesk_lock (k : Nat) (r : Desk) : (putDesk s k r).lock = s.lock := rfl
@[simp] theorem putDesk_tenants (k : Nat) (r : Desk) : (putDesk s k r).tenants = s.tenants := rfl
@[simp] theorem putDesk_accounts (k : Nat) (r : Desk) : (putDesk s k r).accounts = s.accounts := rfl
@[simp] theorem putDesk_badgeMap (k : Nat) (r : Desk) : (putDesk s k r).badgeMap = s.badgeMap := rfl
@[simp] theorem putDesk_jobs (k : Nat) (r : Desk) : (putDesk s k r).jobs = s.jobs := rfl
@[simp] theorem putDesk_releaseCounter (k : Nat) (r : Desk) : (putDesk s k r).releaseCounter = s.releaseCounter := rfl
@[simp] theorem putDesk_finished (k : Nat) (r : Desk) : (putDesk s k r).finished = s.finished := rfl
@[simp] theorem putDesk_dispatch (k : Nat) (r : Desk) : (putDesk s k r).dispatch = s.dispatch := rfl
@[simp] theorem putDesk_printers (k : Nat) (r : Desk) : (putDesk s k r).printers = s.printers := rfl
@[simp] theorem putDesk_pools (k : Nat) (r : Desk) : (putDesk s k r).pools = s.pools := rfl
@[simp] theorem putDesk_models (k : Nat) (r : Desk) : (putDesk s k r).models = s.models := rfl
@[simp] theorem putDesk_survey (k : Nat) (r : Desk) : (putDesk s k r).survey = s.survey := rfl
@[simp] theorem putDesk_conditions (k : Nat) (r : Desk) : (putDesk s k r).conditions = s.conditions := rfl
@[simp] theorem putDesk_callouts (k : Nat) (r : Desk) : (putDesk s k r).callouts = s.callouts := rfl
@[simp] theorem putDesk_classes (k : Nat) (r : Desk) : (putDesk s k r).classes = s.classes := rfl
@[simp] theorem putDesk_deskSet (k : Nat) (r : Desk) : (putDesk s k r).deskSet = s.deskSet := rfl
@[simp] theorem putDesk_loops (k : Nat) (r : Desk) : (putDesk s k r).loops = s.loops := rfl
@[simp] theorem putDesk_terminals (k : Nat) (r : Desk) : (putDesk s k r).terminals = s.terminals := rfl
@[simp] theorem putDesk_visits (k : Nat) (r : Desk) : (putDesk s k r).visits = s.visits := rfl
@[simp] theorem putDesk_sent (k : Nat) (r : Desk) : (putDesk s k r).sent = s.sent := rfl
@[simp] theorem putDesk_seconds (k : Nat) (r : Desk) : (putDesk s k r).seconds = s.seconds := rfl
@[simp] theorem putDesk_calendar (k : Nat) (r : Desk) : (putDesk s k r).calendar = s.calendar := rfl
@[simp] theorem putDesk_rollovers (k : Nat) (r : Desk) : (putDesk s k r).rollovers = s.rollovers := rfl
@[simp] theorem putDesk_surveyPattern (k : Nat) (r : Desk) : (putDesk s k r).surveyPattern = s.surveyPattern := rfl
@[simp] theorem putDesk_boundaries (k : Nat) (r : Desk) : (putDesk s k r).boundaries = s.boundaries := rfl
@[simp] theorem putDesk_draws (k : Nat) (r : Desk) : (putDesk s k r).draws = s.draws := rfl
@[simp] theorem tenantRec_putDesk (k : Nat) (r : Desk) (t : Nat) : tenantRec (putDesk s k r) t = tenantRec s t := rfl
@[simp] theorem account_putDesk (k : Nat) (r : Desk) (x : Nat) : account (putDesk s k r) x = account s x := rfl
@[simp] theorem badgeHolder_putDesk (k : Nat) (r : Desk) (x : Nat) : badgeHolder (putDesk s k r) x = badgeHolder s x := rfl
@[simp] theorem slot_putDesk (k : Nat) (r : Desk) (x : Nat) : slot (putDesk s k r) x = slot s x := rfl
@[simp] theorem job_putDesk (k : Nat) (r : Desk) (x : Nat) : job (putDesk s k r) x = job s x := rfl
@[simp] theorem handleOf_putDesk (k : Nat) (r : Desk) (x : Nat) : handleOf (putDesk s k r) x = handleOf s x := rfl
@[simp] theorem printer_putDesk (k : Nat) (r : Desk) (x : Nat) : printer (putDesk s k r) x = printer s x := rfl
@[simp] theorem pool_putDesk (k : Nat) (r : Desk) (x : Nat) : pool (putDesk s k r) x = pool s x := rfl
@[simp] theorem model_putDesk (k : Nat) (r : Desk) (x : Nat) : model (putDesk s k r) x = model s x := rfl
@[simp] theorem condEntry_putDesk (k : Nat) (r : Desk) (x : CondKind) : condEntry (putDesk s k r) x = condEntry s x := rfl
@[simp] theorem callout_putDesk (k : Nat) (r : Desk) (x : Nat) (y : CondKind) : callout (putDesk s k r) x y = callout s x y := rfl
@[simp] theorem classRec_putDesk (k : Nat) (r : Desk) (x : Nat) : classRec (putDesk s k r) x = classRec s x := rfl
@[simp] theorem loopRec_putDesk (k : Nat) (r : Desk) (x : Nat) : loopRec (putDesk s k r) x = loopRec s x := rfl
@[simp] theorem terminal_putDesk (k : Nat) (r : Desk) (x : Nat) : terminal (putDesk s k r) x = terminal s x := rfl
@[simp] theorem visit_putDesk (k : Nat) (r : Desk) (x : Nat) : visit (putDesk s k r) x = visit s x := rfl
@[simp] theorem rollover_putDesk (k : Nat) (r : Desk) (x : Nat) : rollover (putDesk s k r) x = rollover s x := rfl

/-! ### putLoop -/

@[simp] theorem putLoop_pending (k : Nat) (r : Loop) : (putLoop s k r).pending = s.pending := rfl
@[simp] theorem putLoop_port (k : Nat) (r : Loop) : (putLoop s k r).port = s.port := rfl
@[simp] theorem putLoop_resetPinLow (k : Nat) (r : Loop) : (putLoop s k r).resetPinLow = s.resetPinLow := rfl
@[simp] theorem putLoop_supplyLow (k : Nat) (r : Loop) : (putLoop s k r).supplyLow = s.supplyLow := rfl
@[simp] theorem putLoop_response (k : Nat) (r : Loop) : (putLoop s k r).response = s.response := rfl
@[simp] theorem putLoop_hsdo (k : Nat) (r : Loop) : (putLoop s k r).hsdo = s.hsdo := rfl
@[simp] theorem putLoop_driven (k : Nat) (r : Loop) : (putLoop s k r).driven = s.driven := rfl
@[simp] theorem putLoop_attn (k : Nat) (r : Loop) : (putLoop s k r).attn = s.attn := rfl
@[simp] theorem putLoop_lock (k : Nat) (r : Loop) : (putLoop s k r).lock = s.lock := rfl
@[simp] theorem putLoop_tenants (k : Nat) (r : Loop) : (putLoop s k r).tenants = s.tenants := rfl
@[simp] theorem putLoop_accounts (k : Nat) (r : Loop) : (putLoop s k r).accounts = s.accounts := rfl
@[simp] theorem putLoop_badgeMap (k : Nat) (r : Loop) : (putLoop s k r).badgeMap = s.badgeMap := rfl
@[simp] theorem putLoop_jobs (k : Nat) (r : Loop) : (putLoop s k r).jobs = s.jobs := rfl
@[simp] theorem putLoop_releaseCounter (k : Nat) (r : Loop) : (putLoop s k r).releaseCounter = s.releaseCounter := rfl
@[simp] theorem putLoop_finished (k : Nat) (r : Loop) : (putLoop s k r).finished = s.finished := rfl
@[simp] theorem putLoop_dispatch (k : Nat) (r : Loop) : (putLoop s k r).dispatch = s.dispatch := rfl
@[simp] theorem putLoop_printers (k : Nat) (r : Loop) : (putLoop s k r).printers = s.printers := rfl
@[simp] theorem putLoop_pools (k : Nat) (r : Loop) : (putLoop s k r).pools = s.pools := rfl
@[simp] theorem putLoop_models (k : Nat) (r : Loop) : (putLoop s k r).models = s.models := rfl
@[simp] theorem putLoop_survey (k : Nat) (r : Loop) : (putLoop s k r).survey = s.survey := rfl
@[simp] theorem putLoop_conditions (k : Nat) (r : Loop) : (putLoop s k r).conditions = s.conditions := rfl
@[simp] theorem putLoop_callouts (k : Nat) (r : Loop) : (putLoop s k r).callouts = s.callouts := rfl
@[simp] theorem putLoop_classes (k : Nat) (r : Loop) : (putLoop s k r).classes = s.classes := rfl
@[simp] theorem putLoop_desks (k : Nat) (r : Loop) : (putLoop s k r).desks = s.desks := rfl
@[simp] theorem putLoop_deskSet (k : Nat) (r : Loop) : (putLoop s k r).deskSet = s.deskSet := rfl
@[simp] theorem putLoop_terminals (k : Nat) (r : Loop) : (putLoop s k r).terminals = s.terminals := rfl
@[simp] theorem putLoop_visits (k : Nat) (r : Loop) : (putLoop s k r).visits = s.visits := rfl
@[simp] theorem putLoop_sent (k : Nat) (r : Loop) : (putLoop s k r).sent = s.sent := rfl
@[simp] theorem putLoop_seconds (k : Nat) (r : Loop) : (putLoop s k r).seconds = s.seconds := rfl
@[simp] theorem putLoop_calendar (k : Nat) (r : Loop) : (putLoop s k r).calendar = s.calendar := rfl
@[simp] theorem putLoop_rollovers (k : Nat) (r : Loop) : (putLoop s k r).rollovers = s.rollovers := rfl
@[simp] theorem putLoop_surveyPattern (k : Nat) (r : Loop) : (putLoop s k r).surveyPattern = s.surveyPattern := rfl
@[simp] theorem putLoop_boundaries (k : Nat) (r : Loop) : (putLoop s k r).boundaries = s.boundaries := rfl
@[simp] theorem putLoop_draws (k : Nat) (r : Loop) : (putLoop s k r).draws = s.draws := rfl
@[simp] theorem tenantRec_putLoop (k : Nat) (r : Loop) (t : Nat) : tenantRec (putLoop s k r) t = tenantRec s t := rfl
@[simp] theorem account_putLoop (k : Nat) (r : Loop) (x : Nat) : account (putLoop s k r) x = account s x := rfl
@[simp] theorem badgeHolder_putLoop (k : Nat) (r : Loop) (x : Nat) : badgeHolder (putLoop s k r) x = badgeHolder s x := rfl
@[simp] theorem slot_putLoop (k : Nat) (r : Loop) (x : Nat) : slot (putLoop s k r) x = slot s x := rfl
@[simp] theorem job_putLoop (k : Nat) (r : Loop) (x : Nat) : job (putLoop s k r) x = job s x := rfl
@[simp] theorem handleOf_putLoop (k : Nat) (r : Loop) (x : Nat) : handleOf (putLoop s k r) x = handleOf s x := rfl
@[simp] theorem printer_putLoop (k : Nat) (r : Loop) (x : Nat) : printer (putLoop s k r) x = printer s x := rfl
@[simp] theorem pool_putLoop (k : Nat) (r : Loop) (x : Nat) : pool (putLoop s k r) x = pool s x := rfl
@[simp] theorem model_putLoop (k : Nat) (r : Loop) (x : Nat) : model (putLoop s k r) x = model s x := rfl
@[simp] theorem condEntry_putLoop (k : Nat) (r : Loop) (x : CondKind) : condEntry (putLoop s k r) x = condEntry s x := rfl
@[simp] theorem callout_putLoop (k : Nat) (r : Loop) (x : Nat) (y : CondKind) : callout (putLoop s k r) x y = callout s x y := rfl
@[simp] theorem classRec_putLoop (k : Nat) (r : Loop) (x : Nat) : classRec (putLoop s k r) x = classRec s x := rfl
@[simp] theorem desk_putLoop (k : Nat) (r : Loop) (x : Nat) : desk (putLoop s k r) x = desk s x := rfl
@[simp] theorem terminal_putLoop (k : Nat) (r : Loop) (x : Nat) : terminal (putLoop s k r) x = terminal s x := rfl
@[simp] theorem visit_putLoop (k : Nat) (r : Loop) (x : Nat) : visit (putLoop s k r) x = visit s x := rfl
@[simp] theorem rollover_putLoop (k : Nat) (r : Loop) (x : Nat) : rollover (putLoop s k r) x = rollover s x := rfl

/-! ### putTerminal -/

@[simp] theorem putTerminal_pending (k : Nat) (r : Terminal) : (putTerminal s k r).pending = s.pending := rfl
@[simp] theorem putTerminal_port (k : Nat) (r : Terminal) : (putTerminal s k r).port = s.port := rfl
@[simp] theorem putTerminal_resetPinLow (k : Nat) (r : Terminal) : (putTerminal s k r).resetPinLow = s.resetPinLow := rfl
@[simp] theorem putTerminal_supplyLow (k : Nat) (r : Terminal) : (putTerminal s k r).supplyLow = s.supplyLow := rfl
@[simp] theorem putTerminal_response (k : Nat) (r : Terminal) : (putTerminal s k r).response = s.response := rfl
@[simp] theorem putTerminal_hsdo (k : Nat) (r : Terminal) : (putTerminal s k r).hsdo = s.hsdo := rfl
@[simp] theorem putTerminal_driven (k : Nat) (r : Terminal) : (putTerminal s k r).driven = s.driven := rfl
@[simp] theorem putTerminal_attn (k : Nat) (r : Terminal) : (putTerminal s k r).attn = s.attn := rfl
@[simp] theorem putTerminal_lock (k : Nat) (r : Terminal) : (putTerminal s k r).lock = s.lock := rfl
@[simp] theorem putTerminal_tenants (k : Nat) (r : Terminal) : (putTerminal s k r).tenants = s.tenants := rfl
@[simp] theorem putTerminal_accounts (k : Nat) (r : Terminal) : (putTerminal s k r).accounts = s.accounts := rfl
@[simp] theorem putTerminal_badgeMap (k : Nat) (r : Terminal) : (putTerminal s k r).badgeMap = s.badgeMap := rfl
@[simp] theorem putTerminal_jobs (k : Nat) (r : Terminal) : (putTerminal s k r).jobs = s.jobs := rfl
@[simp] theorem putTerminal_releaseCounter (k : Nat) (r : Terminal) : (putTerminal s k r).releaseCounter = s.releaseCounter := rfl
@[simp] theorem putTerminal_finished (k : Nat) (r : Terminal) : (putTerminal s k r).finished = s.finished := rfl
@[simp] theorem putTerminal_dispatch (k : Nat) (r : Terminal) : (putTerminal s k r).dispatch = s.dispatch := rfl
@[simp] theorem putTerminal_printers (k : Nat) (r : Terminal) : (putTerminal s k r).printers = s.printers := rfl
@[simp] theorem putTerminal_pools (k : Nat) (r : Terminal) : (putTerminal s k r).pools = s.pools := rfl
@[simp] theorem putTerminal_models (k : Nat) (r : Terminal) : (putTerminal s k r).models = s.models := rfl
@[simp] theorem putTerminal_survey (k : Nat) (r : Terminal) : (putTerminal s k r).survey = s.survey := rfl
@[simp] theorem putTerminal_conditions (k : Nat) (r : Terminal) : (putTerminal s k r).conditions = s.conditions := rfl
@[simp] theorem putTerminal_callouts (k : Nat) (r : Terminal) : (putTerminal s k r).callouts = s.callouts := rfl
@[simp] theorem putTerminal_classes (k : Nat) (r : Terminal) : (putTerminal s k r).classes = s.classes := rfl
@[simp] theorem putTerminal_desks (k : Nat) (r : Terminal) : (putTerminal s k r).desks = s.desks := rfl
@[simp] theorem putTerminal_deskSet (k : Nat) (r : Terminal) : (putTerminal s k r).deskSet = s.deskSet := rfl
@[simp] theorem putTerminal_loops (k : Nat) (r : Terminal) : (putTerminal s k r).loops = s.loops := rfl
@[simp] theorem putTerminal_visits (k : Nat) (r : Terminal) : (putTerminal s k r).visits = s.visits := rfl
@[simp] theorem putTerminal_sent (k : Nat) (r : Terminal) : (putTerminal s k r).sent = s.sent := rfl
@[simp] theorem putTerminal_seconds (k : Nat) (r : Terminal) : (putTerminal s k r).seconds = s.seconds := rfl
@[simp] theorem putTerminal_calendar (k : Nat) (r : Terminal) : (putTerminal s k r).calendar = s.calendar := rfl
@[simp] theorem putTerminal_rollovers (k : Nat) (r : Terminal) : (putTerminal s k r).rollovers = s.rollovers := rfl
@[simp] theorem putTerminal_surveyPattern (k : Nat) (r : Terminal) : (putTerminal s k r).surveyPattern = s.surveyPattern := rfl
@[simp] theorem putTerminal_boundaries (k : Nat) (r : Terminal) : (putTerminal s k r).boundaries = s.boundaries := rfl
@[simp] theorem putTerminal_draws (k : Nat) (r : Terminal) : (putTerminal s k r).draws = s.draws := rfl
@[simp] theorem tenantRec_putTerminal (k : Nat) (r : Terminal) (t : Nat) : tenantRec (putTerminal s k r) t = tenantRec s t := rfl
@[simp] theorem account_putTerminal (k : Nat) (r : Terminal) (x : Nat) : account (putTerminal s k r) x = account s x := rfl
@[simp] theorem badgeHolder_putTerminal (k : Nat) (r : Terminal) (x : Nat) : badgeHolder (putTerminal s k r) x = badgeHolder s x := rfl
@[simp] theorem slot_putTerminal (k : Nat) (r : Terminal) (x : Nat) : slot (putTerminal s k r) x = slot s x := rfl
@[simp] theorem job_putTerminal (k : Nat) (r : Terminal) (x : Nat) : job (putTerminal s k r) x = job s x := rfl
@[simp] theorem handleOf_putTerminal (k : Nat) (r : Terminal) (x : Nat) : handleOf (putTerminal s k r) x = handleOf s x := rfl
@[simp] theorem printer_putTerminal (k : Nat) (r : Terminal) (x : Nat) : printer (putTerminal s k r) x = printer s x := rfl
@[simp] theorem pool_putTerminal (k : Nat) (r : Terminal) (x : Nat) : pool (putTerminal s k r) x = pool s x := rfl
@[simp] theorem model_putTerminal (k : Nat) (r : Terminal) (x : Nat) : model (putTerminal s k r) x = model s x := rfl
@[simp] theorem condEntry_putTerminal (k : Nat) (r : Terminal) (x : CondKind) : condEntry (putTerminal s k r) x = condEntry s x := rfl
@[simp] theorem callout_putTerminal (k : Nat) (r : Terminal) (x : Nat) (y : CondKind) : callout (putTerminal s k r) x y = callout s x y := rfl
@[simp] theorem classRec_putTerminal (k : Nat) (r : Terminal) (x : Nat) : classRec (putTerminal s k r) x = classRec s x := rfl
@[simp] theorem desk_putTerminal (k : Nat) (r : Terminal) (x : Nat) : desk (putTerminal s k r) x = desk s x := rfl
@[simp] theorem loopRec_putTerminal (k : Nat) (r : Terminal) (x : Nat) : loopRec (putTerminal s k r) x = loopRec s x := rfl
@[simp] theorem visit_putTerminal (k : Nat) (r : Terminal) (x : Nat) : visit (putTerminal s k r) x = visit s x := rfl
@[simp] theorem rollover_putTerminal (k : Nat) (r : Terminal) (x : Nat) : rollover (putTerminal s k r) x = rollover s x := rfl

/-! ### putVisit -/

@[simp] theorem putVisit_pending (k : Nat) (r : Option Visit) : (putVisit s k r).pending = s.pending := rfl
@[simp] theorem putVisit_port (k : Nat) (r : Option Visit) : (putVisit s k r).port = s.port := rfl
@[simp] theorem putVisit_resetPinLow (k : Nat) (r : Option Visit) : (putVisit s k r).resetPinLow = s.resetPinLow := rfl
@[simp] theorem putVisit_supplyLow (k : Nat) (r : Option Visit) : (putVisit s k r).supplyLow = s.supplyLow := rfl
@[simp] theorem putVisit_response (k : Nat) (r : Option Visit) : (putVisit s k r).response = s.response := rfl
@[simp] theorem putVisit_hsdo (k : Nat) (r : Option Visit) : (putVisit s k r).hsdo = s.hsdo := rfl
@[simp] theorem putVisit_driven (k : Nat) (r : Option Visit) : (putVisit s k r).driven = s.driven := rfl
@[simp] theorem putVisit_attn (k : Nat) (r : Option Visit) : (putVisit s k r).attn = s.attn := rfl
@[simp] theorem putVisit_lock (k : Nat) (r : Option Visit) : (putVisit s k r).lock = s.lock := rfl
@[simp] theorem putVisit_tenants (k : Nat) (r : Option Visit) : (putVisit s k r).tenants = s.tenants := rfl
@[simp] theorem putVisit_accounts (k : Nat) (r : Option Visit) : (putVisit s k r).accounts = s.accounts := rfl
@[simp] theorem putVisit_badgeMap (k : Nat) (r : Option Visit) : (putVisit s k r).badgeMap = s.badgeMap := rfl
@[simp] theorem putVisit_jobs (k : Nat) (r : Option Visit) : (putVisit s k r).jobs = s.jobs := rfl
@[simp] theorem putVisit_releaseCounter (k : Nat) (r : Option Visit) : (putVisit s k r).releaseCounter = s.releaseCounter := rfl
@[simp] theorem putVisit_finished (k : Nat) (r : Option Visit) : (putVisit s k r).finished = s.finished := rfl
@[simp] theorem putVisit_dispatch (k : Nat) (r : Option Visit) : (putVisit s k r).dispatch = s.dispatch := rfl
@[simp] theorem putVisit_printers (k : Nat) (r : Option Visit) : (putVisit s k r).printers = s.printers := rfl
@[simp] theorem putVisit_pools (k : Nat) (r : Option Visit) : (putVisit s k r).pools = s.pools := rfl
@[simp] theorem putVisit_models (k : Nat) (r : Option Visit) : (putVisit s k r).models = s.models := rfl
@[simp] theorem putVisit_survey (k : Nat) (r : Option Visit) : (putVisit s k r).survey = s.survey := rfl
@[simp] theorem putVisit_conditions (k : Nat) (r : Option Visit) : (putVisit s k r).conditions = s.conditions := rfl
@[simp] theorem putVisit_callouts (k : Nat) (r : Option Visit) : (putVisit s k r).callouts = s.callouts := rfl
@[simp] theorem putVisit_classes (k : Nat) (r : Option Visit) : (putVisit s k r).classes = s.classes := rfl
@[simp] theorem putVisit_desks (k : Nat) (r : Option Visit) : (putVisit s k r).desks = s.desks := rfl
@[simp] theorem putVisit_deskSet (k : Nat) (r : Option Visit) : (putVisit s k r).deskSet = s.deskSet := rfl
@[simp] theorem putVisit_loops (k : Nat) (r : Option Visit) : (putVisit s k r).loops = s.loops := rfl
@[simp] theorem putVisit_terminals (k : Nat) (r : Option Visit) : (putVisit s k r).terminals = s.terminals := rfl
@[simp] theorem putVisit_sent (k : Nat) (r : Option Visit) : (putVisit s k r).sent = s.sent := rfl
@[simp] theorem putVisit_seconds (k : Nat) (r : Option Visit) : (putVisit s k r).seconds = s.seconds := rfl
@[simp] theorem putVisit_calendar (k : Nat) (r : Option Visit) : (putVisit s k r).calendar = s.calendar := rfl
@[simp] theorem putVisit_rollovers (k : Nat) (r : Option Visit) : (putVisit s k r).rollovers = s.rollovers := rfl
@[simp] theorem putVisit_surveyPattern (k : Nat) (r : Option Visit) : (putVisit s k r).surveyPattern = s.surveyPattern := rfl
@[simp] theorem putVisit_boundaries (k : Nat) (r : Option Visit) : (putVisit s k r).boundaries = s.boundaries := rfl
@[simp] theorem putVisit_draws (k : Nat) (r : Option Visit) : (putVisit s k r).draws = s.draws := rfl
@[simp] theorem tenantRec_putVisit (k : Nat) (r : Option Visit) (t : Nat) : tenantRec (putVisit s k r) t = tenantRec s t := rfl
@[simp] theorem account_putVisit (k : Nat) (r : Option Visit) (x : Nat) : account (putVisit s k r) x = account s x := rfl
@[simp] theorem badgeHolder_putVisit (k : Nat) (r : Option Visit) (x : Nat) : badgeHolder (putVisit s k r) x = badgeHolder s x := rfl
@[simp] theorem slot_putVisit (k : Nat) (r : Option Visit) (x : Nat) : slot (putVisit s k r) x = slot s x := rfl
@[simp] theorem job_putVisit (k : Nat) (r : Option Visit) (x : Nat) : job (putVisit s k r) x = job s x := rfl
@[simp] theorem handleOf_putVisit (k : Nat) (r : Option Visit) (x : Nat) : handleOf (putVisit s k r) x = handleOf s x := rfl
@[simp] theorem printer_putVisit (k : Nat) (r : Option Visit) (x : Nat) : printer (putVisit s k r) x = printer s x := rfl
@[simp] theorem pool_putVisit (k : Nat) (r : Option Visit) (x : Nat) : pool (putVisit s k r) x = pool s x := rfl
@[simp] theorem model_putVisit (k : Nat) (r : Option Visit) (x : Nat) : model (putVisit s k r) x = model s x := rfl
@[simp] theorem condEntry_putVisit (k : Nat) (r : Option Visit) (x : CondKind) : condEntry (putVisit s k r) x = condEntry s x := rfl
@[simp] theorem callout_putVisit (k : Nat) (r : Option Visit) (x : Nat) (y : CondKind) : callout (putVisit s k r) x y = callout s x y := rfl
@[simp] theorem classRec_putVisit (k : Nat) (r : Option Visit) (x : Nat) : classRec (putVisit s k r) x = classRec s x := rfl
@[simp] theorem desk_putVisit (k : Nat) (r : Option Visit) (x : Nat) : desk (putVisit s k r) x = desk s x := rfl
@[simp] theorem loopRec_putVisit (k : Nat) (r : Option Visit) (x : Nat) : loopRec (putVisit s k r) x = loopRec s x := rfl
@[simp] theorem terminal_putVisit (k : Nat) (r : Option Visit) (x : Nat) : terminal (putVisit s k r) x = terminal s x := rfl
@[simp] theorem rollover_putVisit (k : Nat) (r : Option Visit) (x : Nat) : rollover (putVisit s k r) x = rollover s x := rfl

/-! ### putRollover -/

@[simp] theorem putRollover_pending (k : Nat) (r : Pattern) : (putRollover s k r).pending = s.pending := rfl
@[simp] theorem putRollover_port (k : Nat) (r : Pattern) : (putRollover s k r).port = s.port := rfl
@[simp] theorem putRollover_resetPinLow (k : Nat) (r : Pattern) : (putRollover s k r).resetPinLow = s.resetPinLow := rfl
@[simp] theorem putRollover_supplyLow (k : Nat) (r : Pattern) : (putRollover s k r).supplyLow = s.supplyLow := rfl
@[simp] theorem putRollover_response (k : Nat) (r : Pattern) : (putRollover s k r).response = s.response := rfl
@[simp] theorem putRollover_hsdo (k : Nat) (r : Pattern) : (putRollover s k r).hsdo = s.hsdo := rfl
@[simp] theorem putRollover_driven (k : Nat) (r : Pattern) : (putRollover s k r).driven = s.driven := rfl
@[simp] theorem putRollover_attn (k : Nat) (r : Pattern) : (putRollover s k r).attn = s.attn := rfl
@[simp] theorem putRollover_lock (k : Nat) (r : Pattern) : (putRollover s k r).lock = s.lock := rfl
@[simp] theorem putRollover_tenants (k : Nat) (r : Pattern) : (putRollover s k r).tenants = s.tenants := rfl
@[simp] theorem putRollover_accounts (k : Nat) (r : Pattern) : (putRollover s k r).accounts = s.accounts := rfl
@[simp] theorem putRollover_badgeMap (k : Nat) (r : Pattern) : (putRollover s k r).badgeMap = s.badgeMap := rfl
@[simp] theorem putRollover_jobs (k : Nat) (r : Pattern) : (putRollover s k r).jobs = s.jobs := rfl
@[simp] theorem putRollover_releaseCounter (k : Nat) (r : Pattern) : (putRollover s k r).releaseCounter = s.releaseCounter := rfl
@[simp] theorem putRollover_finished (k : Nat) (r : Pattern) : (putRollover s k r).finished = s.finished := rfl
@[simp] theorem putRollover_dispatch (k : Nat) (r : Pattern) : (putRollover s k r).dispatch = s.dispatch := rfl
@[simp] theorem putRollover_printers (k : Nat) (r : Pattern) : (putRollover s k r).printers = s.printers := rfl
@[simp] theorem putRollover_pools (k : Nat) (r : Pattern) : (putRollover s k r).pools = s.pools := rfl
@[simp] theorem putRollover_models (k : Nat) (r : Pattern) : (putRollover s k r).models = s.models := rfl
@[simp] theorem putRollover_survey (k : Nat) (r : Pattern) : (putRollover s k r).survey = s.survey := rfl
@[simp] theorem putRollover_conditions (k : Nat) (r : Pattern) : (putRollover s k r).conditions = s.conditions := rfl
@[simp] theorem putRollover_callouts (k : Nat) (r : Pattern) : (putRollover s k r).callouts = s.callouts := rfl
@[simp] theorem putRollover_classes (k : Nat) (r : Pattern) : (putRollover s k r).classes = s.classes := rfl
@[simp] theorem putRollover_desks (k : Nat) (r : Pattern) : (putRollover s k r).desks = s.desks := rfl
@[simp] theorem putRollover_deskSet (k : Nat) (r : Pattern) : (putRollover s k r).deskSet = s.deskSet := rfl
@[simp] theorem putRollover_loops (k : Nat) (r : Pattern) : (putRollover s k r).loops = s.loops := rfl
@[simp] theorem putRollover_terminals (k : Nat) (r : Pattern) : (putRollover s k r).terminals = s.terminals := rfl
@[simp] theorem putRollover_visits (k : Nat) (r : Pattern) : (putRollover s k r).visits = s.visits := rfl
@[simp] theorem putRollover_sent (k : Nat) (r : Pattern) : (putRollover s k r).sent = s.sent := rfl
@[simp] theorem putRollover_seconds (k : Nat) (r : Pattern) : (putRollover s k r).seconds = s.seconds := rfl
@[simp] theorem putRollover_calendar (k : Nat) (r : Pattern) : (putRollover s k r).calendar = s.calendar := rfl
@[simp] theorem putRollover_surveyPattern (k : Nat) (r : Pattern) : (putRollover s k r).surveyPattern = s.surveyPattern := rfl
@[simp] theorem putRollover_boundaries (k : Nat) (r : Pattern) : (putRollover s k r).boundaries = s.boundaries := rfl
@[simp] theorem putRollover_draws (k : Nat) (r : Pattern) : (putRollover s k r).draws = s.draws := rfl
@[simp] theorem tenantRec_putRollover (k : Nat) (r : Pattern) (t : Nat) : tenantRec (putRollover s k r) t = tenantRec s t := rfl
@[simp] theorem account_putRollover (k : Nat) (r : Pattern) (x : Nat) : account (putRollover s k r) x = account s x := rfl
@[simp] theorem badgeHolder_putRollover (k : Nat) (r : Pattern) (x : Nat) : badgeHolder (putRollover s k r) x = badgeHolder s x := rfl
@[simp] theorem slot_putRollover (k : Nat) (r : Pattern) (x : Nat) : slot (putRollover s k r) x = slot s x := rfl
@[simp] theorem job_putRollover (k : Nat) (r : Pattern) (x : Nat) : job (putRollover s k r) x = job s x := rfl
@[simp] theorem handleOf_putRollover (k : Nat) (r : Pattern) (x : Nat) : handleOf (putRollover s k r) x = handleOf s x := rfl
@[simp] theorem printer_putRollover (k : Nat) (r : Pattern) (x : Nat) : printer (putRollover s k r) x = printer s x := rfl
@[simp] theorem pool_putRollover (k : Nat) (r : Pattern) (x : Nat) : pool (putRollover s k r) x = pool s x := rfl
@[simp] theorem model_putRollover (k : Nat) (r : Pattern) (x : Nat) : model (putRollover s k r) x = model s x := rfl
@[simp] theorem condEntry_putRollover (k : Nat) (r : Pattern) (x : CondKind) : condEntry (putRollover s k r) x = condEntry s x := rfl
@[simp] theorem callout_putRollover (k : Nat) (r : Pattern) (x : Nat) (y : CondKind) : callout (putRollover s k r) x y = callout s x y := rfl
@[simp] theorem classRec_putRollover (k : Nat) (r : Pattern) (x : Nat) : classRec (putRollover s k r) x = classRec s x := rfl
@[simp] theorem desk_putRollover (k : Nat) (r : Pattern) (x : Nat) : desk (putRollover s k r) x = desk s x := rfl
@[simp] theorem loopRec_putRollover (k : Nat) (r : Pattern) (x : Nat) : loopRec (putRollover s k r) x = loopRec s x := rfl
@[simp] theorem terminal_putRollover (k : Nat) (r : Pattern) (x : Nat) : terminal (putRollover s k r) x = terminal s x := rfl
@[simp] theorem visit_putRollover (k : Nat) (r : Pattern) (x : Nat) : visit (putRollover s k r) x = visit s x := rfl

/-! ### settle -/

@[simp] theorem settle_pending : (settle s).pending = s.pending := rfl
@[simp] theorem settle_port : (settle s).port = s.port := rfl
@[simp] theorem settle_resetPinLow : (settle s).resetPinLow = s.resetPinLow := rfl
@[simp] theorem settle_supplyLow : (settle s).supplyLow = s.supplyLow := rfl
@[simp] theorem settle_response : (settle s).response = s.response := rfl
@[simp] theorem settle_hsdo : (settle s).hsdo = s.hsdo := rfl
@[simp] theorem settle_driven : (settle s).driven = s.driven := rfl
@[simp] theorem settle_lock : (settle s).lock = s.lock := rfl
@[simp] theorem settle_tenants : (settle s).tenants = s.tenants := rfl
@[simp] theorem settle_accounts : (settle s).accounts = s.accounts := rfl
@[simp] theorem settle_badgeMap : (settle s).badgeMap = s.badgeMap := rfl
@[simp] theorem settle_jobs : (settle s).jobs = s.jobs := rfl
@[simp] theorem settle_releaseCounter : (settle s).releaseCounter = s.releaseCounter := rfl
@[simp] theorem settle_finished : (settle s).finished = s.finished := rfl
@[simp] theorem settle_dispatch : (settle s).dispatch = s.dispatch := rfl
@[simp] theorem settle_printers : (settle s).printers = s.printers := rfl
@[simp] theorem settle_pools : (settle s).pools = s.pools := rfl
@[simp] theorem settle_models : (settle s).models = s.models := rfl
@[simp] theorem settle_survey : (settle s).survey = s.survey := rfl
@[simp] theorem settle_conditions : (settle s).conditions = s.conditions := rfl
@[simp] theorem settle_callouts : (settle s).callouts = s.callouts := rfl
@[simp] theorem settle_classes : (settle s).classes = s.classes := rfl
@[simp] theorem settle_desks : (settle s).desks = s.desks := rfl
@[simp] theorem settle_loops : (settle s).loops = s.loops := rfl
@[simp] theorem settle_terminals : (settle s).terminals = s.terminals := rfl
@[simp] theorem settle_visits : (settle s).visits = s.visits := rfl
@[simp] theorem settle_sent : (settle s).sent = s.sent := rfl
@[simp] theorem settle_seconds : (settle s).seconds = s.seconds := rfl
@[simp] theorem settle_calendar : (settle s).calendar = s.calendar := rfl
@[simp] theorem settle_rollovers : (settle s).rollovers = s.rollovers := rfl
@[simp] theorem settle_surveyPattern : (settle s).surveyPattern = s.surveyPattern := rfl
@[simp] theorem settle_boundaries : (settle s).boundaries = s.boundaries := rfl
@[simp] theorem settle_draws : (settle s).draws = s.draws := rfl
@[simp] theorem tenantRec_settle (t : Nat) : tenantRec (settle s) t = tenantRec s t := rfl
@[simp] theorem account_settle (x : Nat) : account (settle s) x = account s x := rfl
@[simp] theorem badgeHolder_settle (x : Nat) : badgeHolder (settle s) x = badgeHolder s x := rfl
@[simp] theorem slot_settle (x : Nat) : slot (settle s) x = slot s x := rfl
@[simp] theorem job_settle (x : Nat) : job (settle s) x = job s x := rfl
@[simp] theorem handleOf_settle (x : Nat) : handleOf (settle s) x = handleOf s x := rfl
@[simp] theorem printer_settle (x : Nat) : printer (settle s) x = printer s x := rfl
@[simp] theorem pool_settle (x : Nat) : pool (settle s) x = pool s x := rfl
@[simp] theorem model_settle (x : Nat) : model (settle s) x = model s x := rfl
@[simp] theorem condEntry_settle (x : CondKind) : condEntry (settle s) x = condEntry s x := rfl
@[simp] theorem callout_settle (x : Nat) (y : CondKind) : callout (settle s) x y = callout s x y := rfl
@[simp] theorem classRec_settle (x : Nat) : classRec (settle s) x = classRec s x := rfl
@[simp] theorem desk_settle (x : Nat) : desk (settle s) x = desk s x := rfl
@[simp] theorem loopRec_settle (x : Nat) : loopRec (settle s) x = loopRec s x := rfl
@[simp] theorem terminal_settle (x : Nat) : terminal (settle s) x = terminal s x := rfl
@[simp] theorem visit_settle (x : Nat) : visit (settle s) x = visit s x := rfl
@[simp] theorem rollover_settle (x : Nat) : rollover (settle s) x = rollover s x := rfl

/-! ### respond -/

@[simp] theorem respond_pending (kind : Byte) (r : Code) (body : List Byte) : (respond s kind r body).pending = s.pending := rfl
@[simp] theorem respond_resetPinLow (kind : Byte) (r : Code) (body : List Byte) : (respond s kind r body).resetPinLow = s.resetPinLow := rfl
@[simp] theorem respond_supplyLow (kind : Byte) (r : Code) (body : List Byte) : (respond s kind r body).supplyLow = s.supplyLow := rfl
@[simp] theorem respond_hsdo (kind : Byte) (r : Code) (body : List Byte) : (respond s kind r body).hsdo = s.hsdo := rfl
@[simp] theorem respond_driven (kind : Byte) (r : Code) (body : List Byte) : (respond s kind r body).driven = s.driven := rfl
@[simp] theorem respond_attn (kind : Byte) (r : Code) (body : List Byte) : (respond s kind r body).attn = s.attn := rfl
@[simp] theorem respond_lock (kind : Byte) (r : Code) (body : List Byte) : (respond s kind r body).lock = s.lock := rfl
@[simp] theorem respond_tenants (kind : Byte) (r : Code) (body : List Byte) : (respond s kind r body).tenants = s.tenants := rfl
@[simp] theorem respond_accounts (kind : Byte) (r : Code) (body : List Byte) : (respond s kind r body).accounts = s.accounts := rfl
@[simp] theorem respond_badgeMap (kind : Byte) (r : Code) (body : List Byte) : (respond s kind r body).badgeMap = s.badgeMap := rfl
@[simp] theorem respond_jobs (kind : Byte) (r : Code) (body : List Byte) : (respond s kind r body).jobs = s.jobs := rfl
@[simp] theorem respond_releaseCounter (kind : Byte) (r : Code) (body : List Byte) : (respond s kind r body).releaseCounter = s.releaseCounter := rfl
@[simp] theorem respond_finished (kind : Byte) (r : Code) (body : List Byte) : (respond s kind r body).finished = s.finished := rfl
@[simp] theorem respond_dispatch (kind : Byte) (r : Code) (body : List Byte) : (respond s kind r body).dispatch = s.dispatch := rfl
@[simp] theorem respond_printers (kind : Byte) (r : Code) (body : List Byte) : (respond s kind r body).printers = s.printers := rfl
@[simp] theorem respond_pools (kind : Byte) (r : Code) (body : List Byte) : (respond s kind r body).pools = s.pools := rfl
@[simp] theorem respond_models (kind : Byte) (r : Code) (body : List Byte) : (respond s kind r body).models = s.models := rfl
@[simp] theorem respond_survey (kind : Byte) (r : Code) (body : List Byte) : (respond s kind r body).survey = s.survey := rfl
@[simp] theorem respond_conditions (kind : Byte) (r : Code) (body : List Byte) : (respond s kind r body).conditions = s.conditions := rfl
@[simp] theorem respond_callouts (kind : Byte) (r : Code) (body : List Byte) : (respond s kind r body).callouts = s.callouts := rfl
@[simp] theorem respond_classes (kind : Byte) (r : Code) (body : List Byte) : (respond s kind r body).classes = s.classes := rfl
@[simp] theorem respond_desks (kind : Byte) (r : Code) (body : List Byte) : (respond s kind r body).desks = s.desks := rfl
@[simp] theorem respond_deskSet (kind : Byte) (r : Code) (body : List Byte) : (respond s kind r body).deskSet = s.deskSet := rfl
@[simp] theorem respond_loops (kind : Byte) (r : Code) (body : List Byte) : (respond s kind r body).loops = s.loops := rfl
@[simp] theorem respond_terminals (kind : Byte) (r : Code) (body : List Byte) : (respond s kind r body).terminals = s.terminals := rfl
@[simp] theorem respond_visits (kind : Byte) (r : Code) (body : List Byte) : (respond s kind r body).visits = s.visits := rfl
@[simp] theorem respond_sent (kind : Byte) (r : Code) (body : List Byte) : (respond s kind r body).sent = s.sent := rfl
@[simp] theorem respond_seconds (kind : Byte) (r : Code) (body : List Byte) : (respond s kind r body).seconds = s.seconds := rfl
@[simp] theorem respond_calendar (kind : Byte) (r : Code) (body : List Byte) : (respond s kind r body).calendar = s.calendar := rfl
@[simp] theorem respond_rollovers (kind : Byte) (r : Code) (body : List Byte) : (respond s kind r body).rollovers = s.rollovers := rfl
@[simp] theorem respond_surveyPattern (kind : Byte) (r : Code) (body : List Byte) : (respond s kind r body).surveyPattern = s.surveyPattern := rfl
@[simp] theorem respond_boundaries (kind : Byte) (r : Code) (body : List Byte) : (respond s kind r body).boundaries = s.boundaries := rfl
@[simp] theorem respond_draws (kind : Byte) (r : Code) (body : List Byte) : (respond s kind r body).draws = s.draws := rfl
@[simp] theorem tenantRec_respond (kind : Byte) (r : Code) (body : List Byte) (t : Nat) : tenantRec (respond s kind r body) t = tenantRec s t := rfl
@[simp] theorem account_respond (kind : Byte) (r : Code) (body : List Byte) (x : Nat) : account (respond s kind r body) x = account s x := rfl
@[simp] theorem badgeHolder_respond (kind : Byte) (r : Code) (body : List Byte) (x : Nat) : badgeHolder (respond s kind r body) x = badgeHolder s x := rfl
@[simp] theorem slot_respond (kind : Byte) (r : Code) (body : List Byte) (x : Nat) : slot (respond s kind r body) x = slot s x := rfl
@[simp] theorem job_respond (kind : Byte) (r : Code) (body : List Byte) (x : Nat) : job (respond s kind r body) x = job s x := rfl
@[simp] theorem handleOf_respond (kind : Byte) (r : Code) (body : List Byte) (x : Nat) : handleOf (respond s kind r body) x = handleOf s x := rfl
@[simp] theorem printer_respond (kind : Byte) (r : Code) (body : List Byte) (x : Nat) : printer (respond s kind r body) x = printer s x := rfl
@[simp] theorem pool_respond (kind : Byte) (r : Code) (body : List Byte) (x : Nat) : pool (respond s kind r body) x = pool s x := rfl
@[simp] theorem model_respond (kind : Byte) (r : Code) (body : List Byte) (x : Nat) : model (respond s kind r body) x = model s x := rfl
@[simp] theorem condEntry_respond (kind : Byte) (r : Code) (body : List Byte) (x : CondKind) : condEntry (respond s kind r body) x = condEntry s x := rfl
@[simp] theorem callout_respond (kind : Byte) (r : Code) (body : List Byte) (x : Nat) (y : CondKind) : callout (respond s kind r body) x y = callout s x y := rfl
@[simp] theorem classRec_respond (kind : Byte) (r : Code) (body : List Byte) (x : Nat) : classRec (respond s kind r body) x = classRec s x := rfl
@[simp] theorem desk_respond (kind : Byte) (r : Code) (body : List Byte) (x : Nat) : desk (respond s kind r body) x = desk s x := rfl
@[simp] theorem loopRec_respond (kind : Byte) (r : Code) (body : List Byte) (x : Nat) : loopRec (respond s kind r body) x = loopRec s x := rfl
@[simp] theorem terminal_respond (kind : Byte) (r : Code) (body : List Byte) (x : Nat) : terminal (respond s kind r body) x = terminal s x := rfl
@[simp] theorem visit_respond (kind : Byte) (r : Code) (body : List Byte) (x : Nat) : visit (respond s kind r body) x = visit s x := rfl
@[simp] theorem rollover_respond (kind : Byte) (r : Code) (body : List Byte) (x : Nat) : rollover (respond s kind r body) x = rollover s x := rfl

/-! ### Each write's own read -/

theorem tenantRec_putTenant (k t : Nat) (r : Tenant) : tenantRec (putTenant s k r) t = if t = k then r else tenantRec s t :=
  Table.get_put ..
theorem account_putAccount (k x : Nat) (r : Account) : account (putAccount s k r) x = if x = k then r else account s x :=
  Table.get_put ..
theorem slot_putSlot (k x : Nat) (r : Slot) : slot (putSlot s k r) x = if x = k then r else slot s x := Table.get_put ..
theorem slot_putJob (k x : Nat) (r : Job) :
    slot (putJob s k r) x = if x = k then { generation := (slot s k).generation, job := r } else slot s x := Table.get_put ..
theorem job_putJob (k x : Nat) (r : Job) : job (putJob s k r) x = if x = k then r else job s x := by
  unfold job; rw [slot_putJob]; split <;> rfl
theorem job_putSlot (k x : Nat) (r : Slot) : job (putSlot s k r) x = if x = k then r.job else job s x := by
  unfold job; rw [slot_putSlot]; split <;> rfl
@[simp] theorem generation_putJob (k x : Nat) (r : Job) : (slot (putJob s k r) x).generation = (slot s x).generation := by
  rw [slot_putJob]; split <;> simp_all
@[simp] theorem handleOf_putJob (k x : Nat) (r : Job) : handleOf (putJob s k r) x = handleOf s x := by
  unfold handleOf; rw [generation_putJob]
theorem printer_putPrinter (k x : Nat) (r : Printer) : printer (putPrinter s k r) x = if x = k then r else printer s x :=
  Table.get_put ..
theorem pool_putPool (k x : Nat) (r : List Nat) : pool (putPool s k r) x = if x = k then r else pool s x := Table.get_put ..
theorem model_putModel (k x : Nat) (r : SupplyModel) : model (putModel s k r) x = if x = k then r else model s x :=
  Table.get_put ..
theorem classRec_putClass (k x : Nat) (r : ClassRec) : classRec (putClass s k r) x = if x = k then r else classRec s x :=
  Table.get_put ..
theorem desk_putDesk (k x : Nat) (r : Desk) : desk (putDesk s k r) x = if x = k then r else desk s x := Table.get_put ..
theorem loopRec_putLoop (k x : Nat) (r : Loop) : loopRec (putLoop s k r) x = if x = k then r else loopRec s x :=
  Table.get_put ..
theorem terminal_putTerminal (k x : Nat) (r : Terminal) :
    terminal (putTerminal s k r) x = if x = k then r else terminal s x := Table.get_put ..
theorem visit_putVisit (k x : Nat) (r : Option Visit) : visit (putVisit s k r) x = if x = k then r else visit s x :=
  Table.get_put ..
theorem rollover_putRollover (k x : Nat) (r : Pattern) :
    rollover (putRollover s k r) x = if x = k then r else rollover s x := Table.get_put ..

theorem CondKind.position_inj {k k' : CondKind} (h : k.position = k'.position) : k = k' := by
  cases k <;> cases k' <;> first | rfl | simp [CondKind.position] at h

theorem CondKind.position_bounds (k : CondKind) : 1 ≤ k.position ∧ k.position ≤ 8 := by cases k <;> decide

theorem calloutKey_inj {p p' : Nat} {k k' : CondKind} (h : calloutKey p k = calloutKey p' k') : p = p' ∧ k = k' := by
  have h1 := k.position_bounds
  have h2 := k'.position_bounds
  unfold calloutKey at h
  have hp : p = p' := by omega
  exact ⟨hp, CondKind.position_inj (by omega)⟩

theorem kindOfKey_calloutKey (p : Nat) (k : CondKind) : kindOfKey (calloutKey p k) = k := by
  have : (p * 8 + (k.position - 1)) % 8 + 1 = k.position := by
    have := k.position_bounds
    omega
  unfold kindOfKey calloutKey
  rw [this]
  cases k <;> rfl

theorem condEntry_putCondEntry (k x : CondKind) (r : CondEntry) :
    condEntry (putCondEntry s k r) x = if x = k then r else condEntry s x := by
  by_cases h : x = k
  · subst h
    simp [condEntry, putCondEntry]
  · have : x.position ≠ k.position := fun e => h (CondKind.position_inj e)
    rw [if_neg h]
    unfold condEntry putCondEntry Table.put
    simp only
    split
    · exact Table.get_erase_ne _ _ this
    · rw [Table.get_insert_ne _ _ _ this, Table.get_erase_ne _ _ this]

theorem callout_putCallout (p x : Nat) (k y : CondKind) (r : Option Callout) :
    callout (putCallout s p k r) x y = if x = p ∧ y = k then r else callout s x y := by
  unfold callout putCallout
  rw [Table.get_put]
  by_cases h : calloutKey x y = calloutKey p k
  · rw [if_pos h, if_pos (calloutKey_inj h)]
  · rw [if_neg h, if_neg]
    rintro ⟨rfl, rfl⟩
    exact h rfl

/-! ### The request's answer -/

@[simp] theorem settle_deskSet_eq : (settle s).deskSet = presentableSet s := rfl
@[simp] theorem settle_attn_eq : (settle s).attn = attnLevel s := rfl
@[simp] theorem presentableSet_settle : presentableSet (settle s) = presentableSet s := rfl
@[simp] theorem attnLevel_settle : attnLevel (settle s) = attnLevel s := rfl
@[simp] theorem running_settle : running (settle s) = running s := rfl

end Sys2Proof.Machine
end

