-- ==== Sys2Proof/Laws/Accounts.lean ====
section
/-! SUPPORT. What the operations of the Account Table can do, said once for each: touch, Reserve, Commit, Return and the
warning test (R8, R22 to R26). -/

namespace Sys2Proof.Machine

/-! ## Touch -/

@[simp] theorem rolledOver_state (n : Nat) (r : Account) : (rolledOver n r).state = r.state := by
  unfold rolledOver; split <;> rfl
@[simp] theorem rolledOver_kind (n : Nat) (r : Account) : (rolledOver n r).kind = r.kind := by
  unfold rolledOver; split <;> rfl
@[simp] theorem rolledOver_tenant (n : Nat) (r : Account) : (rolledOver n r).tenant = r.tenant := by
  unfold rolledOver; split <;> rfl
@[simp] theorem rolledOver_badge (n : Nat) (r : Account) : (rolledOver n r).badge = r.badge := by
  unfold rolledOver; split <;> rfl
@[simp] theorem rolledOver_department (n : Nat) (r : Account) : (rolledOver n r).department = r.department := by
  unfold rolledOver; split <;> rfl
@[simp] theorem rolledOver_limit (n : Nat) (r : Account) : (rolledOver n r).limit = r.limit := by
  unfold rolledOver; split <;> rfl
@[simp] theorem rolledOver_reserved (n : Nat) (r : Account) : (rolledOver n r).reserved = r.reserved := by
  unfold rolledOver; split <;> rfl
@[simp] theorem rolledOver_stamp (n : Nat) (r : Account) : (rolledOver n r).stamp = n := by
  unfold rolledOver; split
  · assumption
  · rfl

/-- A touch writes the accounts alone. -/
theorem touch_frame (s : State) (a : Nat) : touch s a = { s with accounts := (touch s a).accounts } := by
  unfold touch; split <;> rfl

/-- The record of an account after a touch of account `a`: only that of `a` can differ, rolled over. -/
theorem account_touch (s : State) (a b : Nat) :
    account (touch s a) b =
      if b = a ∧ (account s a).state ≠ .free then rolledOver (tenantRec s (account s a).tenant).period (account s a)
      else account s b := by
  unfold touch
  split
  · simp_all
  · rw [account_putAccount]
    simp_all

/-- A touch of the touched account changes nothing more (R8). -/
theorem account_touch_self_stamp (s : State) (a : Nat) (h : (account s a).state ≠ .free) :
    (account (touch s a) a).stamp = (tenantRec s (account s a).tenant).period := by
  rw [account_touch]; simp [h]

theorem touchOpt_frame (s : State) (o : Option Nat) : touchOpt s o = { s with accounts := (touchOpt s o).accounts } := by
  cases o
  · rfl
  · exact touch_frame s _

/-- Every field of an account but used, warned and stamp survives a touch. -/
theorem account_touch_keeps (s : State) (a b : Nat) :
    (account (touch s a) b).state = (account s b).state ∧ (account (touch s a) b).kind = (account s b).kind
    ∧ (account (touch s a) b).tenant = (account s b).tenant ∧ (account (touch s a) b).badge = (account s b).badge
    ∧ (account (touch s a) b).department = (account s b).department ∧ (account (touch s a) b).limit = (account s b).limit
    ∧ (account (touch s a) b).reserved = (account s b).reserved := by
  rw [account_touch]
  split
  · rename_i h; simp [h.1]
  · simp

/-! ## Reserve, Commit, Return -/

/-- `t` differs from `s` in the accounts alone. -/
def OnlyAccounts (s t : State) : Prop := t = { s with accounts := t.accounts }

/-- `t` differs from `s` in the accounts and the jobs alone. -/
def OnlyBooks (s t : State) : Prop := t = { s with accounts := t.accounts, jobs := t.jobs, finished := t.finished }

theorem OnlyAccounts.refl (s : State) : OnlyAccounts s s := rfl

theorem OnlyAccounts.trans {s t u : State} (h : OnlyAccounts s t) (k : OnlyAccounts t u) : OnlyAccounts s u := by
  unfold OnlyAccounts at *; rw [k, h]

theorem OnlyBooks.trans {s t u : State} (h : OnlyBooks s t) (k : OnlyBooks t u) : OnlyBooks s u := by
  unfold OnlyBooks at *; rw [k, h]

theorem OnlyAccounts.books {s t : State} (h : OnlyAccounts s t) : OnlyBooks s t := by
  unfold OnlyAccounts at h; unfold OnlyBooks; rw [h]

theorem onlyBooks_putJob (s : State) (i : Nat) (j : Job) : OnlyBooks s (putJob s i j) := rfl

theorem onlyAccounts_touch (s : State) (a : Nat) : OnlyAccounts s (touch s a) := touch_frame s a

theorem onlyAccounts_touchOpt (s : State) (o : Option Nat) : OnlyAccounts s (touchOpt s o) := touchOpt_frame s o

theorem onlyAccounts_addReserved (s : State) (a n : Nat) : OnlyAccounts s (addReserved s a n) := rfl

theorem onlyAccounts_subReserved (s : State) (a n : Nat) : OnlyAccounts s (subReserved s a n) := rfl

theorem onlyAccounts_moveToUsed (s : State) (a n : Nat) : OnlyAccounts s (moveToUsed s a n) := rfl

theorem onlyAccounts_warnAccount (s : State) (a : Nat) : OnlyAccounts s (warnAccount s a) := by
  unfold warnAccount; split <;> rfl

/-- An operation that writes accounts alone does so on an optional account. -/
theorem onlyAccounts_onAccount {op : State → Nat → Nat → State} (h : ∀ s a n, OnlyAccounts s (op s a n)) (s : State)
    (n : Nat) (o : Option Nat) : OnlyAccounts s (onAccount s op n o) := by
  cases o
  · rfl
  · exact h s _ n

theorem onlyAccounts_reserveTouched (s : State) (o : Nat) : OnlyAccounts s (reserveTouched s o) :=
  (onlyAccounts_touch s o).trans (onlyAccounts_touchOpt _ _)

/-- What an operation on accounts leaves of a job. -/
theorem OnlyAccounts.job {s t : State} (h : OnlyAccounts s t) (i : Nat) : job t i = job s i := by
  unfold OnlyAccounts at h; rw [h]; rfl

theorem OnlyAccounts.tenantRec {s t : State} (h : OnlyAccounts s t) (n : Nat) : tenantRec t n = tenantRec s n := by
  unfold OnlyAccounts at h; rw [h]; rfl

/-- The warning test sets warned where the level is newly crossed, and nothing else (R24). -/
theorem account_warnAccount (s : State) (a b : Nat) :
    account (warnAccount s a) b =
      if b = a ∧ crossesWarning s a = true then { account s a with warned := true } else account s b := by
  unfold warnAccount
  split
  · rw [account_putAccount]; simp_all
  · simp_all

theorem account_addReserved (s : State) (a n b : Nat) :
    account (addReserved s a n) b =
      if b = a then { account s a with reserved := (account s a).reserved + n } else account s b := by
  simp [addReserved, account_putAccount]

theorem account_subReserved (s : State) (a n b : Nat) :
    account (subReserved s a n) b =
      if b = a then { account s a with reserved := (account s a).reserved - n } else account s b := by
  simp [subReserved, account_putAccount]

theorem account_moveToUsed (s : State) (a n b : Nat) :
    account (moveToUsed s a n) b =
      if b = a then
        { account s a with
          reserved := (account s a).reserved - n
          used := min maxMoney ((account s a).used + n) }
      else account s b := by
  simp only [moveToUsed, account_putAccount]
  split
  · congr 1
    split <;> omega
  · rfl

/-- Reserve writes accounts and, when it reserves, the job's record; nothing else (R23). -/
theorem onlyBooks_reserve (s : State) (i pc due : Nat) (mono : Bool) : OnlyBooks s (reserve s i pc due mono).state := by
  have touched := (onlyAccounts_reserveTouched s (job s i).owner).books
  unfold reserve
  dsimp only
  generalize reserveTouched s (job s i).owner = t at touched ⊢
  generalize (account t (job s i).owner).department = dept
  cases dept <;> dsimp only [onAccount] <;> split
  · exact touched
  · exact (touched.trans ((onlyAccounts_addReserved _ _ _).books.trans (onlyBooks_putJob _ _ _))).trans
      (onlyAccounts_warnAccount _ _).books
  · exact touched
  · exact (((touched.trans (onlyAccounts_addReserved _ _ _).books).trans (onlyAccounts_addReserved _ _ _).books).trans
      (onlyBooks_putJob _ _ _)).trans ((onlyAccounts_warnAccount _ _).trans (onlyAccounts_warnAccount _ _)).books

/-- A Reserve that answers OVER_QUOTA leaves the two touches alone behind (R23). -/
theorem reserve_over (s : State) (i pc due : Nat) (mono : Bool) (h : (reserve s i pc due mono).ok = false) :
    (reserve s i pc due mono).state = reserveTouched s (job s i).owner ∧ (reserve s i pc due mono).warning = false := by
  unfold reserve at h ⊢
  dsimp only at h ⊢
  generalize (account (reserveTouched s (job s i).owner) (job s i).owner).department = dept at h ⊢
  cases dept <;> dsimp only [onAccount] at h ⊢ <;> split at h <;> simp_all

/-- Commit writes accounts and its job's record alone (R25). -/
theorem onlyBooks_commit (s : State) (i k : Nat) : OnlyBooks s (commit s i k) :=
  ((((onlyAccounts_touch _ _).trans (onlyAccounts_touchOpt _ _)).trans (onlyAccounts_moveToUsed _ _ _)).trans
    (onlyAccounts_onAccount onlyAccounts_moveToUsed _ _ _)).books.trans (onlyBooks_putJob _ _ _)

/-- Return writes accounts and its job's record alone (R26). -/
theorem onlyBooks_returnReservation (s : State) (i : Nat) : OnlyBooks s (returnReservation s i) :=
  ((((onlyAccounts_touch _ _).trans (onlyAccounts_touchOpt _ _)).trans (onlyAccounts_subReserved _ _ _)).trans
    (onlyAccounts_onAccount onlyAccounts_subReserved _ _ _)).books.trans (onlyBooks_putJob _ _ _)

/-- Commit raises copies_done of its job and leaves every other job (R25). -/
theorem job_commit (s : State) (i k x : Nat) :
    job (commit s i k) x = if x = i then { job s i with copiesDone := (job s i).copiesDone + k } else job s x := by
  have moved := fun amount => (((onlyAccounts_touch s (job s i).owner).trans
    (onlyAccounts_touchOpt _ (job s i).chargedDept)).trans (onlyAccounts_moveToUsed _ (job s i).owner amount)).trans
    (onlyAccounts_onAccount onlyAccounts_moveToUsed _ amount (job s i).chargedDept)
  unfold commit
  dsimp only
  rw [job_putJob, (moved _).job, (moved _).job]

/-- Return clears the three reservation fields of its job and leaves every other job (R26). -/
theorem job_returnReservation (s : State) (i x : Nat) :
    job (returnReservation s i) x =
      if x = i then { job s i with perCopyApplied := none, chargedDept := none, forcedMono := false } else job s x := by
  have moved := fun amount => (((onlyAccounts_touch s (job s i).owner).trans
    (onlyAccounts_touchOpt _ (job s i).chargedDept)).trans (onlyAccounts_subReserved _ (job s i).owner amount)).trans
    (onlyAccounts_onAccount onlyAccounts_subReserved _ amount (job s i).chargedDept)
  unfold returnReservation
  dsimp only
  rw [job_putJob, (moved _).job, (moved _).job]

end Sys2Proof.Machine
end

