-- ==== Sys2Proof/Laws/Canonical.lean ====
section
/-! SUPPORT. Every write of a record keeps the canonical form of the record tables (log 9), and the reset state has it. -/

namespace Sys2Proof.Machine

theorem canonical_reset : Canonical State.reset = true := by decide

theorem kindOfKey_position (k : CondKind) : kindOfKey (k.position + 7) = k := by cases k <;> rfl

variable {s : State} (h : Canonical s = true)
include h

theorem canonical_putTenant (k : Nat) (r : Tenant) : Canonical (putTenant s k r) = true := by
  have key := Table.wf_put (fun _ => ({} : Tenant)) k r (t := s.tenants)
  simp_all [Canonical, putTenant]

theorem canonical_putAccount (k : Nat) (r : Account) : Canonical (putAccount s k r) = true := by
  have key := Table.wf_put (fun _ => ({} : Account)) k r (t := s.accounts)
  simp_all [Canonical, putAccount]

theorem canonical_putSlot (k : Nat) (r : Slot) : Canonical (putSlot s k r) = true := by
  have key := Table.wf_put (fun _ => ({} : Slot)) k r (t := s.jobs)
  simp_all [Canonical, putSlot]

theorem canonical_putPrinter (k : Nat) (r : Printer) : Canonical (putPrinter s k r) = true := by
  have key := Table.wf_put (fun _ => ({} : Printer)) k r (t := s.printers)
  simp_all [Canonical, putPrinter]

theorem canonical_putPool (k : Nat) (r : List Nat) : Canonical (putPool s k r) = true := by
  have key := Table.wf_put (fun _ => ([] : List Nat)) k r (t := s.pools)
  simp_all [Canonical, putPool]

theorem canonical_putModel (k : Nat) (r : SupplyModel) : Canonical (putModel s k r) = true := by
  have key := Table.wf_put (fun _ => ({} : SupplyModel)) k r (t := s.models)
  simp_all [Canonical, putModel]

theorem canonical_putCallout (p : Nat) (k : CondKind) (r : Option Callout) : Canonical (putCallout s p k r) = true := by
  have key := Table.wf_put (fun _ => (none : Option Callout)) (calloutKey p k) r (t := s.callouts)
  simp_all [Canonical, putCallout]

theorem canonical_putClass (k : Nat) (r : ClassRec) : Canonical (putClass s k r) = true := by
  have key := Table.wf_put (fun _ => ({} : ClassRec)) k r (t := s.classes)
  simp_all [Canonical, putClass]

theorem canonical_putDesk (k : Nat) (r : Desk) : Canonical (putDesk s k r) = true := by
  have key := Table.wf_put (fun _ => ({} : Desk)) k r (t := s.desks)
  simp_all [Canonical, putDesk]

theorem canonical_putLoop (k : Nat) (r : Loop) : Canonical (putLoop s k r) = true := by
  have key := Table.wf_put (fun _ => ({} : Loop)) k r (t := s.loops)
  simp_all [Canonical, putLoop]

theorem canonical_putTerminal (k : Nat) (r : Terminal) : Canonical (putTerminal s k r) = true := by
  have key := Table.wf_put (fun _ => ({} : Terminal)) k r (t := s.terminals)
  simp_all [Canonical, putTerminal]

theorem canonical_putVisit (k : Nat) (r : Option Visit) : Canonical (putVisit s k r) = true := by
  have key := Table.wf_put (fun _ => (none : Option Visit)) k r (t := s.visits)
  simp_all [Canonical, putVisit]

theorem canonical_putRollover (k : Nat) (r : Pattern) : Canonical (putRollover s k r) = true := by
  have key := Table.wf_put (fun _ => ({} : Pattern)) k r (t := s.rollovers)
  simp_all [Canonical, putRollover]

theorem canonical_putJob (k : Nat) (r : Job) : Canonical (putJob s k r) = true := canonical_putSlot h k _

theorem canonical_putCondEntry (k : CondKind) (e : CondEntry) : Canonical (putCondEntry s k e) = true := by
  have key := Table.wf_put (fun n => (kindOfKey (n + 7)).resetEntry) k.position e (t := s.conditions)
  rw [kindOfKey_position] at key
  simp_all [Canonical, putCondEntry]

theorem canonical_moveBadge (a : Nat) (old new : Option Nat) : Canonical (moveBadge s a old new) = true := by
  have drop := fun (b : Nat) (t : Table (Option Nat)) => Table.wf_put (fun _ => (none : Option Nat)) b none (t := t)
  have add := fun (b : Nat) (t : Table (Option Nat)) => Table.wf_put (fun _ => (none : Option Nat)) b (some a) (t := t)
  cases old <;> cases new <;> simp_all [Canonical, moveBadge]

/-- The answer of a request and the end of an event write no record. -/
theorem canonical_respond (kind : Byte) (c : Code) (body : List Byte) : Canonical (respond s kind c body) = true := h

theorem canonical_settle : Canonical (settle s) = true := h

end Sys2Proof.Machine
end

