-- ==== Sys2Proof/Laws/Printers.lean ====
section
/-! SUPPORT. What a change of a printer's conditions and an event on a printer can do, said once for each (R87, R89, R110,
R111, R139 to R143). -/

namespace Sys2Proof.Machine

/-! ## Condition changes -/

/-- `t` differs from `s` in the callout records alone. -/
def OnlyCallouts (s t : State) : Prop := t = { s with callouts := t.callouts }

theorem OnlyCallouts.refl (s : State) : OnlyCallouts s s := rfl

theorem OnlyCallouts.trans {s t u : State} (h : OnlyCallouts s t) (k : OnlyCallouts t u) : OnlyCallouts s u := by
  unfold OnlyCallouts at *; rw [k, h]

/-- One condition change writes the callout records alone (R139 to R143). -/
theorem onlyCallouts_handChange (s : State) (p : Nat) (k : CondKind) (present : Bool) :
    OnlyCallouts s (handChange s p k present) := by
  unfold handChange raiseCallout
  split
  · split <;> rfl
  · split <;> rfl

/-- One condition change writes the record of its printer and kind alone. -/
theorem callout_handChange_ne (s : State) (p : Nat) (k : CondKind) (present : Bool) (x : Nat) (y : CondKind)
    (h : ¬ (x = p ∧ y = k)) : callout (handChange s p k present) x y = callout s x y := by
  unfold handChange raiseCallout
  split
  · split <;> simp [callout_putCallout, h]
  · split <;> simp [callout_putCallout, h]

/-- A fold of steps, each of which relates its two states, relates the first to the last. -/
theorem foldl_rel {α β : Type} {r : α → α → Prop} (refl : ∀ a, r a a) (trans : ∀ a b c, r a b → r b c → r a c)
    {f : α → β → α} (step : ∀ a b, r a (f a b)) (l : List β) (a : α) : r a (l.foldl f a) := by
  induction l generalizing a with
  | nil => exact refl a
  | cons b l ih => exact trans _ _ _ (step a b) (ih (f a b))

/-- The condition changes of one event write the callout records alone (R87). -/
theorem onlyCallouts_handChanges (s : State) (p : Nat) (before after : CondKind → Bool) :
    OnlyCallouts s (handChanges s p before after) := by
  refine foldl_rel OnlyCallouts.refl (fun _ _ _ => OnlyCallouts.trans) (fun t k => ?_) _ _
  split
  · exact OnlyCallouts.refl t
  · exact onlyCallouts_handChange t p k _

/-! ## Jobs of a printer -/

/-- `t` differs from `s` in the jobs and the Dispatch List alone. -/
def OnlyDispatch (s t : State) : Prop := t = { s with jobs := t.jobs, finished := t.finished, dispatch := t.dispatch }

theorem OnlyDispatch.refl (s : State) : OnlyDispatch s s := rfl

theorem OnlyDispatch.trans {s t u : State} (h : OnlyDispatch s t) (k : OnlyDispatch t u) : OnlyDispatch s u := by
  unfold OnlyDispatch at *; rw [k, h]

theorem onlyDispatch_interruptJob (s : State) (i : Nat) : OnlyDispatch s (interruptJob s i) := rfl

theorem onlyDispatch_resumeJob (s : State) (i : Nat) : OnlyDispatch s (resumeJob s i) := rfl

/-- Going down writes jobs alone (R110). -/
theorem onlyDispatch_interruptJobs (s : State) (p : Nat) : OnlyDispatch s (interruptJobs s p) :=
  foldl_rel OnlyDispatch.refl (fun _ _ _ => OnlyDispatch.trans) onlyDispatch_interruptJob _ _

/-- Coming up writes jobs and the Dispatch List alone (R111). -/
theorem onlyDispatch_resumeJobs (s : State) (p : Nat) : OnlyDispatch s (resumeJobs s p) := by
  refine OnlyDispatch.trans
    (foldl_rel OnlyDispatch.refl (fun _ _ _ => OnlyDispatch.trans) onlyDispatch_resumeJob
      (sortByKey (fun i => (job s i).releaseSeq) (slotsOn s .interrupted p)) s) ?_
  rfl

theorem onlyDispatch_handToJobs (s : State) (p : Nat) (old new : Printer) : OnlyDispatch s (handToJobs s p old new) := by
  unfold handToJobs
  dsimp only
  have first : OnlyDispatch s (if (old.up && new.down) = true then interruptJobs s p else s) := by
    split
    · exact onlyDispatch_interruptJobs s p
    · exact OnlyDispatch.refl s
  split
  · exact first.trans (onlyDispatch_resumeJobs _ p)
  · exact first

/-! ## An event on a printer -/

/-- An event on a printer writes printers, jobs, the Dispatch List and callout records alone (R87, R89). -/
theorem printerEvent_frame (s : State) (p : Nat) (f : Printer → Printer) :
    printerEvent s p f =
      { s with
        printers := (printerEvent s p f).printers
        jobs := (printerEvent s p f).jobs
        finished := (printerEvent s p f).finished
        dispatch := (printerEvent s p f).dispatch
        callouts := (printerEvent s p f).callouts } := by
  have jobs := onlyDispatch_handToJobs (putPrinter s p (f (printer s p))) p (printer s p) (f (printer s p))
  have callouts := onlyCallouts_handChanges
    (handToJobs (putPrinter s p (f (printer s p))) p (printer s p) (f (printer s p))) p (printer s p).condition
    (f (printer s p)).condition
  unfold printerEvent
  dsimp only
  unfold OnlyCallouts at callouts
  unfold OnlyDispatch at jobs
  rw [callouts, jobs]
  rfl

/-- An event on a printer changes the record of that printer, by the change given, and of no other. -/
theorem printer_printerEvent (s : State) (p : Nat) (f : Printer → Printer) (x : Nat) :
    printer (printerEvent s p f) x = if x = p then f (printer s p) else printer s x := by
  have jobs := onlyDispatch_handToJobs (putPrinter s p (f (printer s p))) p (printer s p) (f (printer s p))
  have callouts := onlyCallouts_handChanges
    (handToJobs (putPrinter s p (f (printer s p))) p (printer s p) (f (printer s p))) p (printer s p).condition
    (f (printer s p)).condition
  unfold printerEvent
  dsimp only
  unfold OnlyCallouts at callouts
  unfold OnlyDispatch at jobs
  rw [callouts, jobs, ← printer_putPrinter]
  rfl

/-- The event of ordering writes no record but the printer's own. -/
theorem printer_orderDue (s : State) (p x : Nat) :
    printer (orderDue s p) x = if x = p then (printer s p).order else printer s x :=
  printer_printerEvent s p _ x

/-! ## Queue counts -/

theorem raiseQueue_frame (s : State) (p : Nat) : raiseQueue s p = { s with printers := (raiseQueue s p).printers } := rfl

theorem lowerQueue_frame (s : State) (o : Option Nat) : lowerQueue s o = { s with printers := (lowerQueue s o).printers } := by
  cases o <;> rfl

theorem printer_raiseQueue (s : State) (p x : Nat) :
    printer (raiseQueue s p) x =
      if x = p then { printer s p with queueCount := (printer s p).queueCount + 1 } else printer s x :=
  printer_putPrinter _ _ _ _

theorem printer_lowerQueue (s : State) (p x : Nat) :
    printer (lowerQueue s (some p)) x =
      if x = p then { printer s p with queueCount := (printer s p).queueCount - 1 } else printer s x :=
  printer_putPrinter _ _ _ _

end Sys2Proof.Machine
end

