-- ==== Sys2Proof/Laws/Jobs.lean ====
section
/-! SUPPORT. What resolving a handle, giving up a release, an attempt and a release decision can do, said once for each (R28,
R33, R44 to R51). -/

namespace Sys2Proof.Machine

/-! ## Handles -/

/-- When a handle names a slot (R28). -/
theorem resolve_iff (s : State) (h i : Nat) :
    resolve s h = some i ↔
      h ≤ 32767 ∧ i = h % 2048 ∧ h / 2048 = (slot s i).generation ∧ (job s i).state ≠ .free := by
  unfold resolve
  constructor
  · intro e
    split at e
    · cases e
    · split at e
      · cases e
      · split at e
        · cases e
        · cases e
          rename_i h1 h2 h3
          exact ⟨by omega, rfl, Decidable.not_not.1 h2, h3⟩
  · rintro ⟨h1, rfl, h2, h3⟩
    rw [if_neg (by omega), if_neg (fun hne => hne h2), if_neg h3]

/-- A handle that names a slot is that slot's handle. -/
theorem handleOf_resolve {s : State} {h i : Nat} (hr : resolve s h = some i) : handleOf s i = h := by
  obtain ⟨_, hi, hg, _⟩ := (resolve_iff s h i).1 hr
  unfold handleOf
  rw [← hg]
  omega

theorem slot_lt_of_resolve {s : State} {h i : Nat} (hr : resolve s h = some i) : i < 2048 := by
  obtain ⟨_, hi, _, _⟩ := (resolve_iff s h i).1 hr
  omega

/-! ## Ordering -/

theorem insertByKey_perm {α : Type} (key : α → Nat) (x : α) (l : List α) : (insertByKey key x l).Perm (x :: l) := by
  induction l with
  | nil => exact List.Perm.refl _
  | cons y ys ih =>
    unfold insertByKey
    split
    · exact List.Perm.refl _
    · exact (ih.cons y).trans (List.Perm.swap x y ys)

theorem foldl_insertByKey_perm {α : Type} (key : α → Nat) (l acc : List α) :
    (l.foldl (fun acc x => insertByKey key x acc) acc).Perm (l ++ acc) := by
  induction l generalizing acc with
  | nil => exact List.Perm.refl _
  | cons x l ih =>
    refine (ih _).trans ?_
    exact ((insertByKey_perm key x acc).append_left l).trans List.perm_middle

/-- Ordering by a key keeps the elements. -/
theorem sortByKey_perm {α : Type} (key : α → Nat) (l : List α) : (sortByKey key l).Perm l := by
  have h := foldl_insertByKey_perm key l []
  rwa [List.append_nil] at h

theorem insertByKey_sorted {α : Type} (key : α → Nat) (x : α) (l : List α)
    (h : l.Pairwise fun a b => key a ≤ key b) : (insertByKey key x l).Pairwise fun a b => key a ≤ key b := by
  induction l with
  | nil => simp [insertByKey]
  | cons y ys ih =>
    rw [List.pairwise_cons] at h
    unfold insertByKey
    split
    · rename_i hlt
      refine List.pairwise_cons.2 ⟨fun b hb => ?_, List.pairwise_cons.2 h⟩
      rcases List.mem_cons.1 hb with rfl | hb
      · omega
      · have := h.1 b hb
        omega
    · rename_i hge
      refine List.pairwise_cons.2 ⟨fun b hb => ?_, ih h.2⟩
      rcases List.mem_cons.1 ((insertByKey_perm key x ys).mem_iff.1 hb) with rfl | hb
      · omega
      · exact h.1 b hb

/-- Ordering by a key orders by the key. -/
theorem sortByKey_sorted {α : Type} (key : α → Nat) (l : List α) : (sortByKey key l).Pairwise fun a b => key a ≤ key b := by
  have : ∀ (l acc : List α), acc.Pairwise (fun a b => key a ≤ key b) →
      (l.foldl (fun acc x => insertByKey key x acc) acc).Pairwise fun a b => key a ≤ key b := by
    intro l
    induction l with
    | nil => exact fun _ h => h
    | cons x l ih => exact fun acc h => ih _ (insertByKey_sorted key x acc h)
  exact this l [] List.Pairwise.nil

/-- The first element of lowest key is one of the list, no element has a lower key, and those before it have a higher. -/
theorem leastByKey_some {α : Type} (key : α → Nat) (l : List α) (x : α) (h : leastByKey key l = some x) :
    ∃ before after, l = before ++ x :: after ∧ (∀ y ∈ before, key x < key y) ∧ ∀ y ∈ after, key x ≤ key y := by
  induction l generalizing x with
  | nil => cases h
  | cons y ys ih =>
    unfold leastByKey at h
    cases hl : leastByKey key ys with
    | none =>
      rw [hl] at h
      cases h
      cases ys with
      | nil => exact ⟨[], [], rfl, by simp, by simp⟩
      | cons z zs =>
        unfold leastByKey at hl
        split at hl
        · cases hl
        · split at hl <;> cases hl
    | some z =>
      rw [hl] at h
      obtain ⟨before, after, hsplit, hb, ha⟩ := ih z hl
      dsimp only at h
      split at h
      · cases h
        refine ⟨y :: before, after, by rw [hsplit]; rfl, ?_, ha⟩
        intro w hw
        rcases List.mem_cons.1 hw with rfl | hw
        · assumption
        · exact hb w hw
      · cases h
        refine ⟨[], ys, rfl, by simp, ?_⟩
        intro w hw
        rw [hsplit, List.mem_append, List.mem_cons] at hw
        rcases hw with hw | rfl | hw
        · have := hb w hw
          omega
        · omega
        · have := ha w hw
          omega

theorem leastByKey_none {α : Type} (key : α → Nat) (l : List α) : leastByKey key l = none ↔ l = [] := by
  cases l with
  | nil => simp [leastByKey]
  | cons x xs =>
    unfold leastByKey
    split
    · simp
    · split <;> simp

/-! ## Giving up a release -/

/-- A revert writes the jobs alone (R33). -/
theorem revertJob_frame (s : State) (i : Nat) :
    revertJob s i = { s with jobs := (revertJob s i).jobs, finished := (revertJob s i).finished } := by
  unfold revertJob
  dsimp only
  split <;> rfl

/-- The job after a revert (R33). -/
theorem job_revertJob (s : State) (i x : Nat) :
    job (revertJob s i) x =
      if x = i then
        { job s i with
          state := if (job s i).expiresAt ≤ s.seconds then .expired else .held
          outcome := if (job s i).expiresAt ≤ s.seconds then some .expiredUnreleased else (job s i).outcome
          printer := none, releasePool := none, resumeDeadline := none }
      else job s x := by
  unfold revertJob
  dsimp only
  split <;> rw [job_putJob]

/-- Giving up a release writes accounts, jobs and printers alone (R101, R112). -/
theorem giveUpRelease_frame (s : State) (i : Nat) :
    giveUpRelease s i =
      { s with
        accounts := (giveUpRelease s i).accounts
        jobs := (giveUpRelease s i).jobs
        finished := (giveUpRelease s i).finished
        printers := (giveUpRelease s i).printers } := by
  have books := onlyBooks_returnReservation s i
  unfold OnlyBooks at books
  unfold giveUpRelease
  rw [revertJob_frame, lowerQueue_frame, books]

/-! ## The release decision -/

/-- `t` differs from `s` in the accounts, the jobs, the Dispatch List, the release counter and the printers alone. -/
def OnlyRelease (s t : State) : Prop :=
  t = { s with
    accounts := t.accounts, jobs := t.jobs, finished := t.finished, dispatch := t.dispatch
    releaseCounter := t.releaseCounter, printers := t.printers }

theorem OnlyRelease.refl (s : State) : OnlyRelease s s := rfl

theorem OnlyRelease.trans {s t u : State} (h : OnlyRelease s t) (k : OnlyRelease t u) : OnlyRelease s u := by
  unfold OnlyRelease at *; rw [k, h]

theorem OnlyBooks.release {s t : State} (h : OnlyBooks s t) : OnlyRelease s t := by
  unfold OnlyBooks at h; unfold OnlyRelease; rw [h]

theorem onlyRelease_releaseJob (s : State) (i q p : Nat) : OnlyRelease s (releaseJob s i q p) := rfl

/-- Everything an attempt can do: no candidate and no change; above the ceiling and no change; refused by Reserve with its
touches; or the job released with its reservation (R45). -/
theorem attempt_cases (s : State) (i q : Nat) (need : Need) (mono : Bool) :
    let j := job s i
    let t := touch s j.owner
    let pc := perCopy (tenantRec t (account t j.owner).tenant) j mono
    let r := reserve t i pc (amountDue pc j) mono
    let o := attempt s i q need mono
    (route s q need = none ∧ o.failure = some .noPrinter ∧ o.state = s)
    ∨ (∃ p, route s q need = some p ∧ underCeiling pc j = false ∧ o.failure = some .tooLarge ∧ o.state = s)
    ∨ (∃ p, route s q need = some p ∧ underCeiling pc j = true ∧ r.ok = false ∧ o.failure = some .overQuota
        ∧ o.state = r.state)
    ∨ ∃ p, route s q need = some p ∧ underCeiling pc j = true ∧ r.ok = true ∧ o.failure = none
        ∧ o.state = releaseJob r.state i q p ∧ o.warning = r.warning := by
  dsimp only
  unfold attempt
  dsimp only
  cases hr : route s q need with
  | none => exact .inl ⟨rfl, rfl, rfl⟩
  | some p =>
    refine .inr ?_
    dsimp only
    generalize perCopy _ (job s i) mono = pc
    cases hc : underCeiling pc (job s i)
    · exact .inl ⟨p, rfl, rfl, rfl, rfl⟩
    · refine .inr ?_
      cases hk : (reserve (touch s (job s i).owner) i pc (amountDue pc (job s i)) mono).ok
      · exact .inl ⟨p, rfl, rfl, rfl, rfl, rfl⟩
      · exact .inr ⟨p, rfl, rfl, rfl, rfl, rfl, rfl⟩

theorem onlyRelease_attempt (s : State) (i q : Nat) (need : Need) (mono : Bool) :
    OnlyRelease s (attempt s i q need mono).state := by
  have books := fun pc due => ((onlyAccounts_touch s (job s i).owner).books.trans
    (onlyBooks_reserve (touch s (job s i).owner) i pc due mono)).release
  rcases attempt_cases s i q need mono with ⟨_, _, h⟩ | ⟨_, _, _, _, h⟩ | ⟨_, _, _, _, _, h⟩ | ⟨_, _, _, _, _, h, _⟩
  · rw [h]; exact OnlyRelease.refl s
  · rw [h]; exact OnlyRelease.refl s
  · rw [h]; exact books _ _
  · rw [h]; exact (books _ _).trans (onlyRelease_releaseJob _ _ _ _)

/-- A release decision for one job writes accounts, jobs, the Dispatch List, the release counter and printers alone. -/
theorem onlyRelease_decideSlot (s : State) (i q : Nat) : OnlyRelease s (decideSlot s i q).state := by
  unfold decideSlot
  dsimp only
  generalize (if 0 < (job s i).sidesColour then Need.colour else Need.mono) = need
  have first := onlyRelease_attempt s i q need false
  split
  · exact first
  · split
    · exact first
    · split
      · exact first.trans (onlyRelease_attempt _ _ _ _ _)
      · exact first.trans (onlyRelease_attempt _ _ _ _ _)

theorem onlyRelease_decideRelease (s : State) (h a q : Nat) : OnlyRelease s (decideRelease s h a q).state := by
  unfold decideRelease
  split
  · exact OnlyRelease.refl s
  · split
    · exact onlyRelease_decideSlot s _ q
    · exact OnlyRelease.refl s

/-- PICK ALL writes what its decisions write, and nothing else (R50). -/
theorem onlyRelease_decideAll (s : State) (a q : Nat) : OnlyRelease s (decideAll s a q).state := by
  have step : ∀ (l : List Nat) (r : AllResult), OnlyRelease s r.state →
      OnlyRelease s (l.foldl (fun r h => r.add (decideRelease r.state h a q)) r).state := by
    intro l
    induction l with
    | nil => exact fun _ h => h
    | cons h l ih => exact fun r hr => ih _ (hr.trans (onlyRelease_decideRelease r.state h a q))
  exact step _ _ (OnlyRelease.refl s)

/-- Every decision of a PICK ALL is counted in one of its three counts (R51). -/
theorem decideAll_counts (s : State) (a q : Nat) :
    let r := decideAll s a q
    r.released + r.mono + r.refused = (listing s a q).length := by
  have add : ∀ (r : AllResult) (d : Decision),
      (r.add d).released + (r.add d).mono + (r.add d).refused = r.released + r.mono + r.refused + 1 := by
    intro r d
    unfold AllResult.add oneIf
    cases d.result <;> simp <;> omega
  have step : ∀ (l : List Nat) (r : AllResult),
      let t := l.foldl (fun r h => r.add (decideRelease r.state h a q)) r
      t.released + t.mono + t.refused = r.released + r.mono + r.refused + l.length := by
    intro l
    induction l with
    | nil => exact fun _ => rfl
    | cons h l ih =>
      intro r
      have := ih (r.add (decideRelease r.state h a q))
      have := add r (decideRelease r.state h a q)
      simp only [List.foldl_cons, List.length_cons] at *
      omega
  have := step ((listing s a q).map (handleOf s)) { state := s }
  simp only [List.length_map] at this
  unfold decideAll
  dsimp only at this ⊢
  omega

end Sys2Proof.Machine
end

