-- ==== Sys2Proof/Laws/Loops.lean ====
section
/-! SUPPORT. What the shared operations of the Loop Controller and the Visit Table can do, said once for each (R57 to R64, R69,
R71, R79). -/

namespace Sys2Proof.Machine

/-- `t` differs from `s` in the loops, the terminals, the visits and the counter of free values alone. -/
def OnlyLoops (s t : State) : Prop :=
  t = { s with loops := t.loops, terminals := t.terminals, visits := t.visits, draws := t.draws }

theorem OnlyLoops.refl (s : State) : OnlyLoops s s := rfl

theorem OnlyLoops.trans {s t u : State} (h : OnlyLoops s t) (k : OnlyLoops t u) : OnlyLoops s u := by
  unfold OnlyLoops at *; rw [k, h]

theorem onlyLoops_putLoop (s : State) (l : Nat) (r : Loop) : OnlyLoops s (putLoop s l r) := rfl

theorem onlyLoops_putTerminal (s : State) (t : Nat) (r : Terminal) : OnlyLoops s (putTerminal s t r) := rfl

theorem onlyLoops_putVisit (s : State) (t : Nat) (v : Option Visit) : OnlyLoops s (putVisit s t v) := rfl

/-! ## Every terminal of a loop -/

theorem onlyLoops_mapTerminals (s : State) (l : Nat) (f : Terminal → Terminal) : OnlyLoops s (mapTerminals s l f) :=
  foldl_rel OnlyLoops.refl (fun _ _ _ => OnlyLoops.trans) (fun _ _ => onlyLoops_putTerminal _ _ _) _ _

/-- A change of the terminals at some addresses of a loop, each once: those terminals are changed, every other stands. -/
theorem terminal_foldl_put (l : Nat) (f : Terminal → Terminal) (addrs : List Nat) (h : addrs.Nodup) (s : State) (n : Nat) :
    terminal (addrs.foldl (fun s a => putTerminal s (terminalNo l a) (f (terminal s (terminalNo l a)))) s) n =
      if ∃ a ∈ addrs, n = terminalNo l a then f (terminal s n) else terminal s n := by
  induction addrs generalizing s with
  | nil => simp
  | cons b rest ih =>
    have hb := (List.nodup_cons.1 h).1
    rw [List.foldl_cons, ih (List.nodup_cons.1 h).2, terminal_putTerminal]
    by_cases hn : n = terminalNo l b
    · have notRest : ¬ ∃ a ∈ rest, n = terminalNo l a := by
        rintro ⟨a, ha, he⟩
        have : a = b := by unfold terminalNo at he hn; omega
        exact hb (this ▸ ha)
      have inAll : ∃ a ∈ b :: rest, n = terminalNo l a := ⟨b, List.mem_cons_self, hn⟩
      rw [if_neg notRest, if_pos inAll, if_pos hn, hn]
    · rw [if_neg hn]
      by_cases hr : ∃ a ∈ rest, n = terminalNo l a
      · have : ∃ a ∈ b :: rest, n = terminalNo l a := by
          obtain ⟨a, ha, he⟩ := hr
          exact ⟨a, List.mem_cons_of_mem _ ha, he⟩
        rw [if_pos hr, if_pos this]
      · have : ¬ ∃ a ∈ b :: rest, n = terminalNo l a := by
          rintro ⟨a, ha, he⟩
          rcases List.mem_cons.1 ha with rfl | ha
          · exact hn he
          · exact hr ⟨a, ha, he⟩
        rw [if_neg hr, if_neg this]

/-- The terminals of a loop after a change made to every one of them: those of the loop are changed, the others stand. -/
theorem terminal_mapTerminals (s : State) (l : Nat) (f : Terminal → Terminal) (n : Nat) :
    terminal (mapTerminals s l f) n = if n / 16 = l then f (terminal s n) else terminal s n := by
  unfold mapTerminals
  rw [terminal_foldl_put l f _ List.nodup_range s n]
  by_cases h : n / 16 = l
  · rw [if_pos h, if_pos ⟨n % 16, List.mem_range.2 (Nat.mod_lt _ (by decide)), by unfold terminalNo; omega⟩]
  · rw [if_neg h, if_neg]
    rintro ⟨a, ha, he⟩
    have := List.mem_range.1 ha
    unfold terminalNo at he
    omega

/-- A fold that writes terminals alone leaves the loops and the visits. -/
theorem mapTerminals_frame (s : State) (l : Nat) (f : Terminal → Terminal) :
    mapTerminals s l f = { s with terminals := (mapTerminals s l f).terminals } := by
  have step : ∀ (addrs : List Nat) (s : State),
      let t := addrs.foldl (fun s a => putTerminal s (terminalNo l a) (f (terminal s (terminalNo l a)))) s
      t = { s with terminals := t.terminals } := by
    intro addrs
    induction addrs with
    | nil => exact fun _ => rfl
    | cons a rest ih =>
      intro s
      have := ih (putTerminal s (terminalNo l a) (f (terminal s (terminalNo l a))))
      simp only [List.foldl_cons] at *
      rw [this]
      rfl
  exact step _ s

/-! ## Roll calls -/

/-- A roll call starts: it writes the loop, its terminals and the counter of free values alone (R59). -/
theorem startRollCall_frame (s : State) (l : Nat) :
    startRollCall s l =
      { s with
        loops := (startRollCall s l).loops, terminals := (startRollCall s l).terminals, draws := s.draws + 1 } := by
  unfold startRollCall
  dsimp only
  rw [mapTerminals_frame]
  rfl

/-- The loop of a roll call that starts, and every other loop (R59). -/
theorem loopRec_startRollCall (s : State) (l x : Nat) :
    loopRec (startRollCall s l) x =
      if x = l then
        { loopRec s l with
          phase := some .rollCall, lastStart := some (Config.sysTime s.draws)
          turns := addressesOf s l (·.enrolled), rollDue := false, presenceDue := false }
      else loopRec s x := by
  have h := mapTerminals_frame s l fun t => { t with answered := false, flagged := false }
  unfold startRollCall
  dsimp only
  generalize mapTerminals s l (fun t => { t with answered := false, flagged := false }) = cleared at h ⊢
  rw [h]
  exact loopRec_putLoop _ _ _ _

/-- The terminals when a roll call starts: answered and flagged are clear on the loop's own (R59). -/
theorem terminal_startRollCall (s : State) (l n : Nat) :
    terminal (startRollCall s l) n =
      if n / 16 = l then { terminal s n with answered := false, flagged := false } else terminal s n := by
  rw [← terminal_mapTerminals s l (fun t => { t with answered := false, flagged := false })]
  unfold startRollCall
  dsimp only
  generalize mapTerminals s l (fun t => { t with answered := false, flagged := false }) = cleared
  rfl

theorem onlyLoops_startRollCall (s : State) (l : Nat) : OnlyLoops s (startRollCall s l) := by
  unfold OnlyLoops
  rw [startRollCall_frame]

theorem onlyLoops_startIfIdle (s : State) (l : Nat) : OnlyLoops s (startIfIdle s l) := by
  unfold startIfIdle
  split
  · exact OnlyLoops.refl s
  · exact onlyLoops_startRollCall s l

/-- Passing phases writes the loop alone. -/
theorem passPhases_frame (s : State) (l : Nat) : passPhases s l = { s with loops := (passPhases s l).loops } := by
  unfold passPhases
  dsimp only
  split
  · rfl
  · split <;> rfl

theorem setTurns_frame (s : State) (l : Nat) (turns : List Nat) :
    setTurns s l turns = { s with loops := (setTurns s l turns).loops } := by
  unfold setTurns
  rw [passPhases_frame]
  rfl

/-- Turns that remain are left as they are written: in the DISPLAY phase the addresses in front with nothing to send are
passed, in any other phase none (R61). -/
theorem setTurns_cons (s : State) (l a : Nat) (turns rest : List Nat)
    (h : (if (loopRec s l).phase = some .display then displayTurns s l turns else turns) = a :: rest) :
    setTurns s l turns = putLoop s l { loopRec s l with turns := a :: rest } := by
  unfold setTurns passPhases
  simp [loopRec_putLoop, h]

/-- The turns of a DISPLAY phase end in what was given, and the addresses passed have no display pending (R61). -/
theorem displayTurns_split (s : State) (l : Nat) (turns : List Nat) :
    ∃ passed, turns = passed ++ displayTurns s l turns
      ∧ ∀ a ∈ passed, (terminal s (terminalNo l a)).pending = none := by
  refine ⟨turns.takeWhile fun a => (terminal s (terminalNo l a)).pending.isNone, ?_, fun a ha => ?_⟩
  · exact List.takeWhile_append_dropWhile.symm
  · simpa using List.mem_takeWhile_imp ha

/-- The address in front of a DISPLAY phase has a display pending (R61). -/
theorem displayTurns_head (s : State) (l a : Nat) (turns rest : List Nat) (h : displayTurns s l turns = a :: rest) :
    (terminal s (terminalNo l a)).pending ≠ none := by
  have key := List.head?_dropWhile_not (fun a => (terminal s (terminalNo l a)).pending.isNone) turns
  unfold displayTurns at h
  rw [h] at key
  simpa [← Option.isSome_iff_ne_none] using key

/-! ## Displays -/

/-- Making a display pending writes terminals and, where it starts a roll call, the loop (R64). -/
theorem onlyLoops_pend (s : State) (t : Nat) (d : Display) : OnlyLoops s (pend s t d) := by
  unfold pend
  split
  · rfl
  · rfl
  · exact (onlyLoops_putTerminal _ _ _).trans (onlyLoops_startIfIdle _ _)
  · rfl

theorem visits_startRollCall (s : State) (l : Nat) : (startRollCall s l).visits = s.visits := by
  rw [startRollCall_frame]

/-- Making a display pending leaves every visit. -/
theorem visits_pend (s : State) (t : Nat) (d : Display) : (pend s t d).visits = s.visits := by
  unfold pend startIfIdle
  split
  · rfl
  · rfl
  · split
    · rfl
    · exact visits_startRollCall _ _
  · rfl

@[simp] theorem visit_pend (s : State) (t : Nat) (d : Display) (x : Nat) : visit (pend s t d) x = visit s x := by
  unfold visit
  rw [visits_pend]

/-- The display made pending is the terminal's pending display, or its current one on a loop in FAULT or OFF (R64). -/
theorem terminal_pend (s : State) (t : Nat) (d : Display) :
    (terminal (pend s t d) t).pending = some d
    ∨ ((loopRec s (t / 16)).state = .off ∨ (loopRec s (t / 16)).state = .fault)
      ∧ (terminal (pend s t d) t).current = d ∧ (terminal (pend s t d) t).pending = none := by
  unfold pend
  split
  · rename_i h; exact .inr ⟨.inl h, by simp [terminal_putTerminal]⟩
  · rename_i h; exact .inr ⟨.inr h, by simp [terminal_putTerminal]⟩
  · left
    unfold startIfIdle
    split
    · simp [terminal_putTerminal]
    · rw [terminal_startRollCall]
      simp [terminal_putTerminal]
  · left; simp [terminal_putTerminal]

/-! ## Visits -/

theorem onlyLoops_endVisit (s : State) (t : Nat) (d : Display) : OnlyLoops s (endVisit s t d) := by
  unfold endVisit
  split
  · exact OnlyLoops.refl s
  · exact (onlyLoops_putVisit _ _ _).trans (onlyLoops_pend _ _ _)

theorem onlyLoops_endVisitOf (s : State) (a : Nat) (d : Display) : OnlyLoops s (endVisitOf s a d) := by
  unfold endVisitOf
  split
  · exact OnlyLoops.refl s
  · exact onlyLoops_endVisit _ _ _

/-- The end of a terminal's visit closes that visit and no other (R79). -/
theorem visit_endVisit (s : State) (t : Nat) (d : Display) (x : Nat) :
    visit (endVisit s t d) x = if x = t then none else visit s x := by
  unfold endVisit
  split
  · rename_i h
    split
    · rename_i hx; rw [hx, h]
    · rfl
  · rw [visit_pend]
    exact visit_putVisit _ _ _ _

/-! ## The LIST of a visit -/

/-- Computing a LIST touches the account and writes the visit, and nothing else (R71). -/
theorem computeList_frame (s : State) (t : Nat) (v : Visit) (asked : Nat) :
    (computeList s t v asked).1 =
      { s with accounts := (touch s v.account).accounts, visits := (computeList s t v asked).1.visits } := by
  unfold computeList
  dsimp only
  rw [touch_frame]
  rfl

/-- The visit a LIST leaves: its account and its deadline, with the page given and the handles of its entries (R71). -/
theorem visit_computeList (s : State) (t : Nat) (v : Visit) (asked x : Nat) :
    visit (computeList s t v asked).1 x =
      if x = t then
        some
          { v with
            page := pageGiven (listing s v.account (terminal s t).pool).length asked
            pageHandles :=
              (pageOf (listing s v.account (terminal s t).pool)
                (pageGiven (listing s v.account (terminal s t).pool).length asked)).map (handleOf s) }
      else visit s x := by
  unfold computeList
  dsimp only
  rw [touch_frame]
  exact visit_putVisit _ _ _ _

/-- `t` differs from `s` in the loops, the terminals, the visits, the accounts and the counter of free values alone. -/
def OnlyVisits (s t : State) : Prop :=
  t = { s with
    loops := t.loops, terminals := t.terminals, visits := t.visits, accounts := t.accounts, draws := t.draws }

theorem OnlyLoops.visits {s t : State} (h : OnlyLoops s t) : OnlyVisits s t := by
  unfold OnlyLoops at h; unfold OnlyVisits; rw [h]

theorem OnlyVisits.trans {s t u : State} (h : OnlyVisits s t) (k : OnlyVisits t u) : OnlyVisits s u := by
  unfold OnlyVisits at *; rw [k, h]

theorem onlyVisits_showList (s : State) (t : Nat) (v : Visit) (asked : Nat) : OnlyVisits s (showList s t v asked) := by
  refine OnlyVisits.trans ?_ (onlyLoops_pend _ _ _).visits
  unfold OnlyVisits
  rw [computeList_frame]

theorem onlyVisits_showResult (s : State) (t : Nat) (v : Visit) (r : ResultPart) : OnlyVisits s (showResult s t v r) := by
  refine OnlyVisits.trans ?_ (onlyLoops_pend _ _ _).visits
  unfold OnlyVisits
  rw [computeList_frame]

/-! ## A fetch -/

/-- Everything a fetch can do: outside the terminal's turn nothing; in it, the frames go out, an accepted message clears
flagged and has its effect, and the turn passes (R62). -/
theorem fetch_cases (s : State) (l a : Nat) (accept : Bool) (effect : State → State) :
    let asked := transmit s ((l, fetchFrame a) :: (if accept then [(l, acceptFrame a)] else []))
    (fetchTurn s l a = false ∧ fetch s l a accept effect = s)
    ∨ (fetchTurn s l a = true ∧ accept = false ∧ fetch s l a accept effect = setTurns asked l (loopRec asked l).turns.tail)
    ∨ (fetchTurn s l a = true ∧ accept = true
        ∧ ∃ t, t = effect (putTerminal asked (terminalNo l a) { terminal asked (terminalNo l a) with flagged := false })
          ∧ fetch s l a accept effect = setTurns t l (loopRec t l).turns.tail) := by
  dsimp only
  unfold fetch
  dsimp only
  cases fetchTurn s l a
  · exact .inl ⟨rfl, if_pos rfl⟩
  · cases accept
    · exact .inr (.inl ⟨rfl, rfl, rfl⟩)
    · exact .inr (.inr ⟨rfl, rfl, _, rfl, rfl⟩)

/-! ## Frames on a line -/

theorem byteSum_append (x y : List Byte) : byteSum (x ++ y) = byteSum x + byteSum y := by
  have shift : ∀ (l : List Byte) (b : Byte), l.foldl (· + ·) b = b + l.foldl (· + ·) 0 := by
    intro l
    induction l with
    | nil => intro b; simp
    | cons c l ih =>
      intro b
      have zero : (0 : Byte) + c = c := BitVec.zero_add c
      rw [List.foldl_cons, ih, List.foldl_cons, ih (0 + c), zero, BitVec.add_assoc]
  unfold byteSum
  rw [List.foldl_append, shift]

/-- The check byte makes the sum of a frame 0 (R198). -/
theorem byteSum_loopFrame (a : Nat) (type : Byte) (content : List Byte) : byteSum (loopFrame a type content) = 0 := by
  unfold loopFrame
  dsimp only
  rw [byteSum_append]
  generalize byteSum _ = b
  show b + (0 + (0 - b)) = 0
  bv_omega

end Sys2Proof.Machine
end

