-- ==== Sys2Proof/Laws/Requests.lean ====
section
/-! SUPPORT. What taking a request frame and taking an event can do, said once (R181, R182, R189, R190). -/

namespace Sys2Proof.Machine

/-- A request that meets the running part with a good length and good presence bytes is answered by its rule. -/
theorem request_taken {kind : Byte} {lengthOk presence : Bool} {rule : State → Reply} {s : State} (hr : running s = true)
    (hl : lengthOk = true) (hp : presence = true) :
    request kind lengthOk presence rule s = .next (answered kind (rule s)) := by
  simp [request, hr, hl, hp]

/-- A request with a bad length or a bad presence byte is refused BAD_FIELD by the port. -/
theorem request_refused {kind : Byte} {lengthOk presence : Bool} {rule : State → Reply} {s : State}
    (hr : running s = true) (h : lengthOk = false ∨ presence = false) :
    request kind lengthOk presence rule s = .next (answered kind (refuse s .badField)) := by
  rcases h with h | h <;> simp [request, hr, h]

/-- A frame that meets the port in RESET or STARTING is not taken. -/
theorem request_idle {kind : Byte} {lengthOk presence : Bool} {rule : State → Reply} {s : State} (hr : running s = false) :
    request kind lengthOk presence rule s = .next s := by
  simp [request, hr]

/-- Everything a request frame can do. -/
theorem request_cases {kind : Byte} {lengthOk presence : Bool} {rule : State → Reply} {s t : State}
    (h : request kind lengthOk presence rule s = .next t) :
    (running s = false ∧ t = s)
    ∨ (running s = true ∧ (lengthOk = false ∨ presence = false) ∧ t = answered kind (refuse s .badField))
    ∨ (running s = true ∧ lengthOk = true ∧ presence = true ∧ t = answered kind (rule s)) := by
  cases hr : running s
  · rw [request_idle hr] at h
    injection h with h
    exact .inl ⟨rfl, h.symm⟩
  · cases hl : lengthOk
    · rw [request_refused hr (.inl hl)] at h
      injection h with h
      exact .inr (.inl ⟨rfl, .inl rfl, h.symm⟩)
    · cases hp : presence
      · rw [request_refused hr (.inr hp)] at h
        injection h with h
        exact .inr (.inl ⟨rfl, .inr rfl, h.symm⟩)
      · rw [request_taken hr hl hp] at h
        injection h with h
        exact .inr (.inr ⟨rfl, rfl, rfl, h.symm⟩)

theorem event_taken {effect : State → State} {s : State} (hr : running s = true) :
    event effect s = .next (settle (effect s)) := by
  simp [event, hr]

/-- Everything an event can do. -/
theorem event_cases {effect : State → State} {s t : State} (h : event effect s = .next t) :
    (running s = false ∧ t = s) ∨ (running s = true ∧ t = settle (effect s)) := by
  cases hr : running s <;> simp [event, hr] at h
  · exact .inl ⟨rfl, h.symm⟩
  · exact .inr ⟨rfl, h.symm⟩

/-- A frame whole leaves the port DESELECTED and HSDO at high impedance, with what it showed recorded; it changes nothing
else. -/
theorem passFrame_frame (s : State) (out : HsdoOutput) :
    passFrame s out = { s with port := .deselected, hsdo := .highImpedance, driven := out } := rfl

@[simp] theorem hsdoBit_highImpedance (i : Nat) : hsdoBit .highImpedance i = none := rfl
@[simp] theorem hsdoBit_filler (i : Nat) : hsdoBit .filler i = some true := rfl
@[simp] theorem hsdoBit_shifted (bits : List Bool) (i : Nat) : hsdoBit (.shifted bits) i = bits[i]? := rfl
@[simp] theorem hsdoBit_unstated (n i : Nat) : hsdoBit (.unstated n) i = some (Config.startingBit n i) := rfl

/-- The answer a rule gives, when the rule leaves the latest response to the port. -/
theorem answers_answered {s : State} {kind : Byte} {r : Reply} (h : r.state.response = s.response) :
    Answers s (answered kind r) kind r.code r.body := by
  refine ⟨?_, rfl, rfl, rfl⟩
  simp [answered, respond, passFrame_frame, settle, h, nextNumber]

/-- An answer changes the port, HSDO, the latest response, the desk set and ATTN, beside what its rule changed. -/
theorem answered_frame (kind : Byte) (r : Reply) : answered kind r = linked r.state (answered kind r) := rfl

/-- An event's end brings the desk set and ATTN up to date, beside what the event changed. -/
theorem settle_frame (s : State) : settle s = signalled s (settle s) := rfl

/-- A refusal changes no record. -/
theorem refused_frame (s : State) (kind : Byte) (c : Code) :
    answered kind (refuse s c) = linked s (answered kind (refuse s c)) := rfl

@[simp] theorem answered_deskSet (kind : Byte) (r : Reply) :
    (answered kind r).deskSet = presentableSet (answered kind r) := rfl
@[simp] theorem answered_attn (kind : Byte) (r : Reply) : (answered kind r).attn = attnLevel (answered kind r) := rfl
@[simp] theorem answered_port (kind : Byte) (r : Reply) : (answered kind r).port = .deselected := rfl
@[simp] theorem answered_hsdo (kind : Byte) (r : Reply) : (answered kind r).hsdo = .highImpedance := rfl
@[simp] theorem answered_driven (kind : Byte) (r : Reply) : (answered kind r).driven = .filler := rfl
@[simp] theorem answered_pending (kind : Byte) (r : Reply) : (answered kind r).pending = r.state.pending := rfl

/-- The step takes the front command. -/
theorem step_front (c : Instr) (rest : List Instr) (s : State) (h : s.pending = c :: rest) :
    step s = exec c { s with pending := rest } := by
  simp [step, h]

end Sys2Proof.Machine
end

