-- ==== Sys2Proof/Tests/Slice0.lean ====
section
/-! SUPPORT. Tests. Expected results are the spec's own: its worked figures, worked examples and tables, named at each test.
The witnesses at the end show that the hypotheses of each statement can be met. -/

namespace Sys2Proof.Tests

open Sys2Proof Sys2Proof.Machine

-- One test after another: a kernel evaluation that waits for the ones before it holds a thread.
set_option Elab.async false

/-! ## Helpers -/

/-- An absent optional field (presence 00h). -/
def absent {w : Nat} : Opt w := { presence := 0, value := 0 }

/-- A present optional field (presence 01h). -/
def present {w : Nat} (v : BitVec w) : Opt w := { presence := 1, value := v }

/-- An optional field whose presence byte the port does not accept. -/
def badPresence {w : Nat} : Opt w := { presence := 2, value := 0 }

def pattern (minute hour weekday day month : Opt 8) : PatternFields := { minute, hour, weekday, day, month }

/-- The state a command leads to. -/
def after (c : Instr) (s : State) : State :=
  match exec c s with
  | .next t => t
  | _ => s

/-- The code and body of the latest response after a command. -/
def answer (c : Instr) (s : State) : Code × List Byte := ((after c s).response.code, (after c s).response.body)

/-! ## Ill-formed commands are refused: one for each check of `WellFormed` -/

theorem test_wellFormed_badKind_known_code : WellFormed (.badKind 0x10) = false := by decide
theorem test_wellFormed_badKind_response_read : WellFormed (.badKind 0xA5) = false := by decide
theorem test_wellFormed_badKind_unknown_code : WellFormed (.badKind 0x13) = true := by decide
theorem test_wellFormed_pick_all_entry : WellFormed (.pick 0 0 0xFF) = false := by decide
theorem test_wellFormed_complete_with_other_outcome : WellFormed (.reportJobEndComplete 3 0 5) = false := by decide
theorem test_wellFormed_cancelled_with_bad_length : WellFormed (.reportJobEndCancelledAtPrinter 4 0) = false := by decide
theorem test_wellFormed_failed_with_bad_length : WellFormed (.reportJobEndDeliveryFailed 2 0) = false := by decide
theorem test_wellFormed_specific_close_of_length_1 : WellFormed (.closeCalloutSpecific 1 0 0 1) = false := by decide
theorem test_wellFormed_nonspecific_close_of_length_4 : WellFormed (.closeCalloutNonSpecific 4 0) = false := by decide
theorem test_wellFormed_setPool_list_too_short : WellFormed (.setPool 6 0 [1]) = false := by decide
theorem test_wellFormed_responseRead_of_less_than_a_byte : WellFormed (.responseRead 7) = false := by decide
theorem test_wellFormed_setPool : WellFormed (.setPool 6 0 [1, 2]) = true := by decide

/-! ## Frames decode to their commands -/

/-- The characters of bytes, each with its stop bit. -/
def chars (bytes : List Byte) : List Character := bytes.map fun b => { data := b, stop := true }

/-- The worked figures of the formats chapter: the frame of BADGE 77,301 from address 7. -/
theorem test_decode_badge_frame :
    decodeFetch 2 7 (chars [0x07, 0x05, 0x04, 0x01, 0x01, 0x2D, 0xF5, 0xCC]) = .badge 2 7 77301 := by decide +kernel

/-- The same frame with one bit wrong, and with a character that has no stop bit, fails its check (R198). -/
theorem test_decode_damaged_frame :
    decodeFetch 2 7 (chars [0x07, 0x05, 0x04, 0x01, 0x01, 0x2D, 0xF4, 0xCC]) = .fetchFailed 2 7
    ∧ decodeFetch 2 7 ({ data := 0x07, stop := false } :: chars [0x05, 0x04, 0x01, 0x01, 0x2D, 0xF5, 0xCC]) = .fetchFailed 2 7 := by
  decide +kernel

/-- None of the failing cases of R198 holds of a frame with bytes after byte 3 + L whose bytes still sum to 0 (log 26). -/
theorem test_decode_frame_with_bytes_left :
    decodeFetch 2 7 (chars [0x07, 0x05, 0x04, 0x01, 0x01, 0x2D, 0xF5, 0xCC, 0x01, 0xFF]) = .badge 2 7 77301
    ∧ decodeFetch 2 7 (chars [0x07, 0x05, 0x04, 0x01, 0x01, 0x2D, 0xF5, 0xCC, 0x01]) = .fetchFailed 2 7 := by decide +kernel

/-- A character is a start bit, eight data bits least significant first and a stop bit: 05h on the line (R198). -/
theorem test_characters :
    lineBits [0x05] = [false, true, false, true, false, false, false, false, false, true]
    ∧ charsOf [true, false, true, false, true, false, false, false, false, false, true, true] = chars [0x05]
    ∧ charsOf [false, true, false, true, false, false, false, false, false, false] = [{ data := 0x05, stop := false }] := by
  decide +kernel

/-- A break of 681 bit times is no character, wakes nothing and is a LOOP_FAULT; the idle level and a character after it wake
the loop (R65, R198). One of 680 is no break: a character without a stop bit, and reception waits for the idle level (log
28). -/
theorem test_break :
    let held := fun n => List.replicate n false ++ List.replicate 20 true
    charsOf (held 681) = [] ∧ decodeWakes 2 (held 681) = [] ∧ decodeBreak 2 (held 681) = some (.loopFault 2)
    ∧ decodeWakes 2 (held 681 ++ lineBits [0xFF]) = [.wake 2]
    ∧ charsOf (held 680) = [{ data := 0, stop := false }] ∧ decodeWakes 2 (held 680) = []
    ∧ decodeBreak 2 (held 680) = none := by decide +kernel

/-- Set Limit of account 258 to 30,000, and the same frame with its last byte missing (R178, R192, R193). -/
theorem test_decode_request_frame :
    decodeFrame 80 [0x21, 0x00, 0x07, 0x01, 0x02, 0x01, 0x00, 0x00, 0x75, 0x30] = .setLimit 7 258 (present 30000)
    ∧ decodeFrame 74 [0x21, 0x00, 0x07, 0x01, 0x02, 0x01, 0x00, 0x00, 0x75] = .shortFrame := by decide +kernel

/-- Kind codes of the table of R193 over the families: a pool list, a close in its two forms, an end report, a clock. -/
theorem test_decode_families :
    decodeFrame 72 [0x55, 0x00, 0x06, 0x00, 0x0C, 0x00, 0x28, 0x00, 0x29] = .setPool 6 12 [40, 41]
    ∧ decodeFrame 32 [0x77, 0x00, 0x01, 0x02] = .closeCalloutNonSpecific 1 2
    ∧ decodeFrame 56 [0x77, 0x00, 0x04, 0x02, 0x00, 0x07, 0x02] = .closeCalloutSpecific 4 2 7 2
    ∧ decodeFrame 48 [0x38, 0x00, 0x03, 0x08, 0x07, 0x05] = .reportJobEndDeliveryFailed 3 2055
    ∧ decodeFrame 72 [0x80, 0x00, 0x06, 0x17, 0x02, 0x1E, 0x19, 0x3D, 0x46] = .setClock 6 23 2 30 25 61 70
    ∧ decodeFrame 9 [0xFF] = .badKind 0xFF ∧ decodeFrame 16 [0xA5, 0xFF] = .responseRead 16 := by decide +kernel

/-- An empty slot is no answer, FLAGGED is 01h, a frame of another address spells no command (log 27), and a select without a
clock edge is no command (R60, R178, R198). -/
theorem test_decode_slot_and_select :
    decodeSlot 0 3 [] = some (.noAnswer 0 3)
    ∧ decodeSlot 0 3 (chars [0x03, 0x02, 0x01, 0x01, 0xF9]) = some (.answer 0 3 true)
    ∧ decodeSlot 0 4 (chars [0x03, 0x02, 0x01, 0x01, 0xF9]) = none
    ∧ decodeSelect [] = none ∧ decodeSelect [false, true] = some .shortFrame := by decide +kernel

/-! ## The charge and the money (the worked figures of R20 and section 1.6) -/

/-- The rate card of the worked figures, which is a tenant's reset record. -/
def card : Tenant := {}

/-- The job of the worked figures of the charge: 7 mono and 3 colour sides, duplex, 12 copies. -/
def figuresJob (size : Size) : Job :=
  { state := .held, owner := 101, sidesMono := 7, sidesColour := 3, copies := 12, size := size, duplex := true
    covK := 60, covC := 30, covM := 25, covY := 20, expiresAt := 86400 }

theorem test_charge_worked_figures :
    perCopy card (figuresJob .a3) false = 1410 ∧ perCopy card (figuresJob .legal) false = 863
    ∧ perCopy card (figuresJob .a4) false = 680 ∧ perCopy card (figuresJob .a3) true = 750
    ∧ amountDue 1410 (figuresJob .a3) = 16920 := by decide

/-- Notes 2 and 3 of the worked figures: a saving as large as the charge, and a charge above the ceiling. -/
theorem test_charge_notes :
    perCopy { monoRate := 5, duplexCredit := 20 } { sidesMono := 2, copies := 1, duplex := true } false = 0
    ∧ perCopy { colourRate := 65535 } { sidesColour := 9999, copies := 1, size := .a3 } false = 1310568930
    ∧ underCeiling 1310568930 { sidesColour := 9999, copies := 1, size := .a3 } = false := by decide

/-- Section 1.6: tenant 3 in period 7, DEPARTMENT 100 with used 20,000, USER 101 of it with used 12,000, and job J in
slot 0, in a state of the test's choosing with `done` copies. -/
def office (j : Job) : State :=
  { State.reset with
    tenants := [(3, { period := 7 })]
    accounts :=
      [(100, { state := .active, kind := .department, tenant := 3, limit := some 50000, used := 20000, stamp := 7 }),
       (101, { state := .active, tenant := 3, badge := some 40417, department := some 100, limit := some 30000
               used := 12000, stamp := 7 })]
    badgeMap := [(40417, some 101)]
    jobs := [(0, { job := j })] }

theorem test_reserve_worked_example :
    let r := reserve (office (figuresJob .a3)) 0 1410 16920 false
    r.ok = true ∧ r.warning = true ∧ (account r.state 101).reserved = 16920 ∧ (account r.state 101).warned = true
    ∧ (account r.state 100).reserved = 16920 ∧ (account r.state 100).warned = false
    ∧ (job r.state 0).perCopyApplied = some 1410 ∧ (job r.state 0).chargedDept = some 100 := by decide +kernel

/-- The suppose clause of section 1.6: an amount of 25,000 does not fit the owner, and nothing changes. -/
theorem test_reserve_over_quota :
    reserve (office (figuresJob .a3)) 0 1410 25000 false =
      { state := office (figuresJob .a3), ok := false, warning := false } := by decide +kernel

/-- Section 1.6 after the release: the accounts with 16,920 reserved, the printer's job PRINTING. -/
def officePrinting : State :=
  let j : Job :=
    { figuresJob .a3 with
      state := .printing, printer := some 40, releasePool := some 12, perCopyApplied := some 1410, chargedDept := some 100 }
  { office j with
    accounts := (office j).accounts.map fun e => (e.1, { e.2 with reserved := 16920 })
    printers :=
      [(40, { enrolled := true, capability := .colour, everReported := true, queueCount := 1
              supplies :=
                [(.k, { model := 0, level := 5000, lastSurvey := 0 }), (.c, { model := 0, level := 1000, lastSurvey := 0 }),
                 (.m, { model := 0, level := 600, lastSurvey := 0 }), (.y, { model := 0, level := 480, lastSurvey := 0 })] })] }

/-- Progress of 5 copies moves 7,050 on both accounts (section 1.6). -/
theorem test_progress_moves_money :
    let t := after (.reportProgress 4 0 5) officePrinting
    t.response.code = .ok ∧ (account t 101).used = 19050 ∧ (account t 101).reserved = 9870 ∧ (account t 100).used = 27050
    ∧ (account t 100).reserved = 9870 ∧ (job t 0).copiesDone = 5 := by decide +kernel

/-- Four copies take 4,800, 720, 600 and 480 off the levels; Y reaches 0 and becomes DUE (worked figures of R118, R120). -/
theorem test_progress_takes_toner :
    let t := after (.reportProgress 4 0 4) officePrinting
    (printer t 40).supplies.map (fun e => (e.2.level, e.2.accumulator, e.2.reorder)) =
        [(200, 4800, .none), (280, 720, .none), (0, 600, .due), (0, 480, .due)]
    ∧ (callout t 40 .tonerReorder).isSome = true ∧ (callout t 40 .tonerEmpty).isSome = true := by decide +kernel

theorem test_toner_worked_figures :
    [Channel.k, .c, .m, .y].map (copyToner (figuresJob .a3)) = [1200, 180, 150, 120]
    ∧ [Channel.k, .c, .m, .y].map (copyToner { figuresJob .a3 with forcedMono := true }) = [1700, 0, 0, 0] := by decide

/-- Job End COMPLETE in a later period: the owner and the department roll over and take the rest (section 1.6). -/
theorem test_complete_in_a_new_period :
    let t := after (.reportJobEndComplete 3 0 1) { officePrinting with tenants := [(3, { period := 8 })] }
    (account t 101).used = 16920 ∧ (account t 101).reserved = 0 ∧ (account t 101).stamp = 8 ∧ (account t 100).used = 16920
    ∧ (job t 0).state = .done ∧ t.finished = 1 ∧ (printer t 40).queueCount = 0 ∧ t.attn = true := by decide +kernel

/-- Read Account of 101 after the period advance: used 0, stamp 8 (section 1.6). -/
theorem test_readAccount_rolls_over :
    answer (.readAccount 2 101) { office {} with tenants := [(3, { period := 8 })] } =
      (.ok, [0x00, 0x65, 0x01, 0x00, 0x00, 0x03, 0x01, 0x00, 0x9D, 0xE1, 0x01, 0x00, 0x64, 0x01, 0x00, 0x00, 0x75, 0x30]
        ++ List.replicate 12 0 ++ [0x00, 0x00, 0x00, 0x08, 0x00]) := by decide +kernel

/-! ## PICK ALL with fallback and a warning (sections 2.8 and 3.7) -/

def pickJob (pool : Option Nat) (heldAt mono colour copies : Nat) (size : Size) (duplex : Bool) : Slot :=
  { job :=
      { state := .held, owner := 210, pool := pool, sidesMono := mono, sidesColour := colour, copies := copies, size := size
        duplex := duplex, heldAt := heldAt, expiresAt := heldAt + 86400 } }

def fullSupplies : List (Channel × Supply) :=
  [Channel.k, .c, .m, .y].map fun ch => (ch, { model := 0, level := 600000, lastSurvey := 0 })

/-- The records of section 2.8, with the terminals of section 3.7: address 7 of loop 2 asked in the FETCH phase. -/
def tower : State :=
  { State.reset with
    seconds := 5010
    tenants := [(5, { policy := .monoFallback })]
    accounts := [(210, { state := .active, tenant := 5, badge := some 77301, limit := some 20000, used := 9000 })]
    badgeMap := [(77301, some 210)]
    printers :=
      [(40, { enrolled := true, capability := .colour, everReported := true, supplies := fullSupplies }),
       (41, { enrolled := true, everReported := true, queueCount := 1, supplies := fullSupplies.take 1 })]
    pools := [(12, [40, 41])]
    dispatch := [0]
    releaseCounter := 500
    jobs :=
      [(0, { job := { state := .released, owner := 211, copies := 1, printer := some 41, releasePool := some 12 } }),
       (3, pickJob (some 12) 1000 4 0 2 .a4 false),
       (7, { pickJob (some 12) 1000 2 6 5 .a4 true with generation := 1 }),
       (9, pickJob none 1050 20 0 3 .a4 true),
       (12, pickJob (some 12) 1020 0 10 3 .a3 false),
       (30, pickJob (some 12) 1200 50 0 1 .a4 false),
       (31, pickJob (some 9) 1210 8 0 1 .a4 false)]
    loops := [(2, { state := .continuous, phase := some .fetch, turns := [7], lastStart := some 0 })]
    terminals :=
      [(35, { enrolled := true, pool := 12, presence := .present }),
       (39, { enrolled := true, pool := 12, presence := .present, flagged := true })] }

/-- The tower with the visit of account 210 open at address 7. -/
def towerVisit : State :=
  { tower with visits := [(39, some { account := 210, page := 0, pageHandles := [3, 2055, 12, 9, 30], idleDeadline := 5045 })] }

/-- The listing in the order of held_at and then of handle, with J4 held for ANY and J6 left out. -/
theorem test_listing_order : (listing tower 210 12).map (handleOf tower) = [3, 2055, 12, 9, 30] := by decide +kernel

/-- The figures of the BADGE of section 3.7 at fleet seconds 5,000: volumes and minutes left. -/
theorem test_badge_shows_the_list :
    let t := after (.badge 2 7 77301) { tower with seconds := 5000 }
    (terminal t 39).pending =
      some (.list
        { account := 210, credits := some 11, warned := false, page := 0, pageCount := 1
          entries :=
            [{ index := 0, volume := 8, colour := false, minutesLeft := 1374 },
             { index := 1, volume := 40, colour := true, minutesLeft := 1374 },
             { index := 2, volume := 30, colour := true, minutesLeft := 1374 },
             { index := 3, volume := 60, colour := false, minutesLeft := 1375 },
             { index := 4, volume := 50, colour := false, minutesLeft := 1377 }] })
    ∧ visit t 39 = some { account := 210, page := 0, pageHandles := [3, 2055, 12, 9, 30], idleDeadline := 5045 }
    ∧ (terminal t 39).flagged = false := by decide +kernel

theorem test_badge_unknown :
    let t := after (.badge 2 7 5) towerVisit
    (terminal t 39).pending = some .unknownBadge ∧ visit t 39 = none := by decide +kernel

/-- The lookup that finds a SUSPENDED account touches it: it rolls over to its tenant's period (R7, R8, R70). -/
theorem test_badge_of_a_suspended_account :
    let s : State := { tower with
      tenants := [(5, { period := 4 })]
      accounts := [(210, { state := .suspended, tenant := 5, badge := some 77301, used := 9000, stamp := 3 })] }
    let t := after (.badge 2 7 77301) s
    (terminal t 39).pending = some .suspended ∧ (account t 210).used = 0 ∧ (account t 210).stamp = 4 := by decide +kernel

/-- The state after the PICK ALL of section 2.8. -/
theorem test_pickAll_worked_example :
    let t := after (.pickAll 2 7) towerVisit
    (account t 210).reserved = 9520 ∧ (account t 210).used = 9000 ∧ (account t 210).warned = true
    ∧ (job t 3).printer = some 40 ∧ (job t 7).releaseSeq = 501 ∧ (job t 12).forcedMono = true
    ∧ (job t 12).perCopyApplied = some 800 ∧ (job t 12).printer = some 41 ∧ (job t 9).releaseSeq = 503
    ∧ (job t 30).state = .held ∧ (printer t 40).queueCount = 3 ∧ (printer t 41).queueCount = 2
    ∧ t.dispatch = [0, 3, 2055, 12, 9] ∧ t.releaseCounter = 504 := by decide +kernel

/-- The RESULT of that PICK ALL (section 3.7 step 4). -/
theorem test_pickAll_result :
    (terminal (after (.pickAll 2 7) towerVisit) 39).pending =
      some (.result (.all 3 1 1 true)
        { account := 210, credits := some 1, warned := true, page := 0, pageCount := 1
          entries := [{ index := 0, volume := 50, colour := false, minutesLeft := 1377 }] }) := by decide +kernel

/-- Under REFUSE the counts are 4, 0 and 1, and J5 goes to printer 40 (the suppose clause of section 2.8). -/
theorem test_pickAll_under_refuse :
    let r := decideAll { tower with tenants := [] } 210 12
    (r.released, r.mono, r.refused, r.warning) = (4, 0, 1, true) ∧ (job r.state 30).printer = some 40 := by decide +kernel

/-- A PICK of an entry that expired before it is GONE (section 2.9). -/
theorem test_pick_of_an_expired_job :
    let s := { towerVisit with jobs := [(3, { job := { (job tower 3) with state := .expired } })] }
    let t := after (.pick 2 7 0) s
    (∃ part, (terminal t 39).pending = some (.result (.single .gone false) part)) ∧ t.jobs = s.jobs := by
  exact ⟨⟨_, rfl⟩, by decide +kernel⟩

/-! ## Jobs, dispatch and recovery (sections 2.3, 5.5 and 5.6) -/

/-- Slot 3 FREE again with generation 1, slots 0 to 2 held: Hold Job answers handle 2,051 (section 2.3). -/
def heldSlots : State :=
  { tower with
    jobs :=
      [(0, pickJob none 0 1 0 1 .a4 false), (1, pickJob none 0 1 0 1 .a4 false), (2, pickJob none 0 1 0 1 .a4 false),
       (3, { generation := 1 })] }

theorem test_holdJob_handle :
    answer (.holdJob 21 210 (present 12) 4 0 2 0 0 0 0 0 0) heldSlots = (.ok, [0x08, 0x03]) := by decide +kernel

/-- expires_at is hold_minutes after now, and figures above a range are clamped (R31). -/
theorem test_holdJob_record :
    let t := after (.holdJob 21 210 absent 10000 0 1000 3 1 1001 0 0 0) heldSlots
    job t 3 =
      { state := .held, owner := 210, pool := none, sidesMono := 9999, copies := 999, size := .a3, duplex := true
        covK := 1000, heldAt := 5010, expiresAt := 91410 } := by decide +kernel

/-- Cancel Job 3 names generation 0 of a slot that holds generation 1 (section 2.3). -/
theorem test_cancelJob_stale_handle : answer (.cancelJob 2 3) heldSlots = (.noSuch, []) := by decide +kernel

theorem test_cancelJob_released_returns_the_money :
    let s := { tower with
      accounts := [(210, { state := .active, tenant := 5, used := 9000, reserved := 4700 })]
      jobs := [(7, { generation := 1
                     job := { (job tower 7) with state := .released, printer := some 41, perCopyApplied := some 940 } })]
      dispatch := [2055] }
    let t := after (.cancelJob 2 2055) s
    (account t 210).reserved = 0 ∧ (account t 210).used = 9000 ∧ t.dispatch = [] ∧ (printer t 41).queueCount = 0
    ∧ (job t 7).state = .cancelled ∧ t.finished = 1 := by decide +kernel

theorem test_removeJob_advances_the_generation :
    slot (after (.removeJob 2 (BitVec.ofNat 16 (15 * 2048)))
      { heldSlots with jobs := [(0, { generation := 15, job := { state := .done } })], finished := 1 }) 0 =
      { generation := 0 } := by decide +kernel

theorem test_findJobs_filters :
    answer (.findJobs 7 1 (present 210) (present 1)) tower
      = (.ok, [0x00, 0x06, 0x00, 0x03, 0x08, 0x07, 0x00, 0x09, 0x00, 0x0C, 0x00, 0x1E, 0x00, 0x1F])
    ∧ (answer (.findJobs 7 0 absent (present 0)) tower).1 = .badField := by decide +kernel

/-- A released job of section 5.6. -/
def takeJob (owner mono colour copies p perCopy : Nat) : Slot :=
  { job :=
      { state := .released, owner := owner, sidesMono := mono, sidesColour := colour, copies := copies
        printer := some p, releasePool := some 12, perCopyApplied := some perCopy, expiresAt := 86400 } }

/-- Section 5.6: printer 44 has no yellow, 40 is FAULTED with a DOOR_OPEN, and three jobs wait. -/
def takeState : State :=
  { State.reset with
    accounts := [(311, { state := .active, reserved := 1280 }), (312, { state := .active, reserved := 720 })]
    printers :=
      [(40, { enrolled := true, capability := .colour, everReported := true, reported := 0x04, queueCount := 1
              supplies := fullSupplies }),
       (41, { enrolled := true, everReported := true, queueCount := 1, supplies := fullSupplies.take 1 }),
       (44, { enrolled := true, capability := .colour, everReported := true, queueCount := 1
              supplies := fullSupplies.take 3 ++ [(.y, { model := 0, level := 0, lastSurvey := 0 })] })]
    pools := [(12, [40, 41, 44])]
    jobs := [(70, takeJob 311 0 4 2 44 600), (71, takeJob 312 6 0 3 40 240), (72, takeJob 311 2 0 1 41 80)]
    dispatch := [70, 71, 72] }

theorem test_takeDispatch_worked_example :
    answer (.takeDispatch 0) takeState = (.ok, [0x00, 0x47, 0x00, 0x2C, 0x00, 0x00, 0x03, 0x01, 0x00, 0x01]) := by
  decide +kernel

theorem test_takeDispatch_state :
    let t := after (.takeDispatch 0) takeState
    t.dispatch = [72] ∧ (account t 311).reserved = 80 ∧ (account t 312).reserved = 720 ∧ (job t 70).state = .held
    ∧ (job t 71).state = .printing ∧ (job t 71).printer = some 44
    ∧ [40, 41, 44].map (fun p => (printer t p).queueCount) = [0, 1, 1] := by decide +kernel

/-- Read Dispatch marks the entries that fit their printers (R103). -/
theorem test_readDispatch :
    answer (.readDispatch 0) takeState =
      (.ok, [0x00, 0x03, 0x03, 0x00, 0x46, 0x00, 0x2C, 0x00, 0x00, 0x47, 0x00, 0x28, 0x00, 0x00, 0x48, 0x00, 0x29, 0x01]) := by
  decide +kernel

/-- J2 of section 5.5, handle 2,055, PRINTING on printer 40 with 2 of 5 copies done at 6,200. -/
def jamState : State :=
  { tower with
    seconds := 6200
    accounts := [(210, { state := .active, tenant := 5, used := 10880, reserved := 2820 })]
    printers := [(40, { enrolled := true, capability := .colour, everReported := true, queueCount := 1, deskGroup := 0x0C
                        supplies := fullSupplies })]
    jobs := [(7, { generation := 1
                   job := { (job tower 7) with
                     state := .printing, printer := some 40, releasePool := some 12, perCopyApplied := some 940
                     releaseSeq := 501, copiesDone := 2, expiresAt := 87400 } })]
    dispatch := [] }

/-- The jam at 6,200: J2 INTERRUPTED with deadline 6,800, and PAPER_JAM raised at desk 2 (sections 4.6, 5.5). -/
theorem test_printerStatus_jam :
    let t := after (.printerStatus 4 40 0x02 0x00) jamState
    (job t 7).state = .interrupted ∧ (job t 7).resumeDeadline = some 6800 ∧ (printer t 40).derived = some .faulted
    ∧ (printer t 40).contactDeadline = some 6500 ∧ (callout t 40 .paperJam).map (fun c => (c.state, c.cls, c.desk)) =
        some (.pending, 1, 2) ∧ t.deskSet = 0x04 := by decide +kernel

/-- The report that clears the jam returns J2 to the head of the Dispatch List (section 5.5). -/
theorem test_printerStatus_recovers :
    let t := after (.printerStatus 4 40 0x00 0x00)
      (after (.printerStatus 4 40 0x02 0x00) { jamState with dispatch := [9] })
    (job t 7).state = .released ∧ t.dispatch = [2055, 9] ∧ (printer t 40).derived = some .busy := by decide +kernel

/-- DELIVERY_FAILED runs the window of R108: 10 minutes from now. -/
theorem test_deliveryFailed_starts_the_window :
    let t := after (.reportJobEndDeliveryFailed 3 2055) jamState
    t.response.code = .ok ∧ (job t 7).state = .interrupted ∧ (job t 7).resumeDeadline = some 6800 := by decide +kernel

theorem test_cancelledAtPrinter :
    let t := after (.reportJobEndCancelledAtPrinter 3 2055) jamState
    (job t 7).outcome = some .cancelledAtPrinter ∧ (job t 7).printer = some 40 ∧ (job t 7).copiesDone = 2
    ∧ (account t 210).reserved = 0 ∧ (account t 210).used = 10880 := by decide +kernel

/-- The other outcome of the race of section 5.5: the window runs out at 6,800 with 3 copies done. -/
theorem test_resumeWindow_runs_out :
    let s := { jamState with
      seconds := 6800
      accounts := [(210, { state := .active, tenant := 5, used := 11820, reserved := 1880 })]
      jobs := [(7, { generation := 1, job := { (job jamState 7) with
        state := .interrupted, copiesDone := 3, resumeDeadline := some 6800 } })] }
    let t := after (.resumeWindowExpiry 7) s
    (job t 7).state = .held ∧ (job t 7).printer = none ∧ (job t 7).copiesDone = 3 ∧ (account t 210).reserved = 0
    ∧ (printer t 40).queueCount = 0 ∧ volume (job t 7) = 16 := by decide +kernel

/-- The hold expiry of section 2.9 at 172,400, and none a second before. -/
theorem test_holdExpiry :
    let s := { tower with
      seconds := 172400, jobs := [(40, { job := { state := .held, owner := 210, copies := 1, expiresAt := 172400 } })] }
    (job (after (.holdExpiry 40) s) 40).outcome = some .expiredUnreleased ∧ (after (.holdExpiry 40) s).finished = 1
    ∧ (job (after (.holdExpiry 40) { s with seconds := 172399 }) 40).state = .held := by decide +kernel

/-! ## Printers and routing (sections 4.6 and 4.7) -/

def routePrinter (cap : Capability) (queue k c m y : Nat) : Printer :=
  { enrolled := true, capability := cap, everReported := true, queueCount := queue
    supplies := [(.k, { model := 0, level := k, lastSurvey := 0 }), (.c, { model := 0, level := c, lastSurvey := 0 }),
      (.m, { model := 0, level := m, lastSurvey := 0 }), (.y, { model := 0, level := y, lastSurvey := 0 })] }

theorem test_route_worked_example :
    let s : State := { State.reset with
      pools := [(12, [40, 41, 44])]
      printers := [(40, routePrinter .colour 2 410000 88000 91500 70200), (41, routePrinter .mono 0 12400 0 0 0),
        (44, routePrinter .colour 0 300000 150000 162000 0)] }
    route s 12 .colour = some 40 ∧ route s 12 .mono = some 41 ∧ route (raiseQueue s 41) 12 .mono = some 44
    ∧ route (after (.printerStatus 4 40 0x04 0x00) s) 12 .colour = none := by decide +kernel

/-- Printer Status at 650 of section 4.6: C reaches 0 and becomes DUE within the event, and the printer comes up. -/
theorem test_printerStatus_empty_channel :
    let s : State := { State.reset with
      seconds := 650
      printers := [(40, { routePrinter .colour 1 9 9 9 9 with reported := 0x02, contactDeadline := some 700, deskGroup := 0x0C })] }
    let t := after (.printerStatus 4 40 0x00 0x02) s
    (printer t 40).contactDeadline = some 950 ∧ (printer t 40).derived = some .busy
    ∧ ((printer t 40).supply .c).map (fun x => (x.level, x.reorder)) = some (0, .due)
    ∧ (calloutList t).map (fun e => (e.1, e.2.1)) = [(40, .tonerEmpty), (40, .tonerReorder)] := by decide +kernel

/-- The contact expiry of section 4.6 at 950, and Set Service over it. -/
theorem test_contact_and_service :
    let s : State := { State.reset with
      seconds := 950, printers := [(40, { routePrinter .colour 1 9 9 9 9 with contactDeadline := some 950 })] }
    let t := after (.contactExpiry 40) s
    (printer t 40).derived = some .offline ∧ (printer t 40).contactDeadline = none
    ∧ (callout t 40 .noContact).isSome = true ∧ (printer (after (.setService 3 40 1) t) 40).derived = some .service := by
  decide +kernel

/-- Enroll Printer: the record and its four supplies, read back as 26 bytes (R81, R196); an unknown model is refused. -/
theorem test_enrollPrinter :
    let s := after (.enrollPrinter 15 40 1 0 0 0 0 0x0C 1 90 1) State.reset
    answer (.readPrinter 2 40) s =
      (.ok, [0x00, 0x28, 0x01, 0x01, 0x00, 0x00, 0x00, 0x00, 0x0C, 0x01, 0x3C, 0x00, 0x00, 0x00, 0x00, 0x00, 0x00, 0x00, 0x01,
        0x04, 0x00, 0x00, 0x00, 0x00, 0x00, 0x00])
    ∧ (answer (.enrollPrinter 15 41 1 0 0 32 0 0 0 5 1) s).1 = .badField := by decide +kernel

/-- Set Pool refuses a number given twice, and Read Pool gives the list in order (R93, R94). -/
theorem test_setPool :
    (answer (.setPool 6 12 [40, 40]) tower).1 = .badField
    ∧ answer (.readPool 2 12) (after (.setPool 6 12 [41, 40]) tower) =
        (.ok, [0x00, 0x0C, 0x02, 0x00, 0x29, 0x05, 0x01, 0x00, 0x01, 0x00, 0x28, 0x06, 0x01, 0x00, 0x00]) := by decide +kernel

/-- Retire Printer is refused while a released job names the printer (R83). -/
theorem test_retirePrinter :
    (answer (.retirePrinter 2 41) tower).1 = .inUse ∧ pool (after (.retirePrinter 2 40) tower) 12 = [41] := by decide +kernel

/-! ## Supplies and the survey (the worked figures of sections 6.4 and 6.5) -/

/-- A K supply of capacity 600,000 at level 200,000. -/
def gaugeState : State :=
  { State.reset with printers := [(41, { enrolled := true, supplies := [(.k, { model := 0, level := 200000, lastSurvey := 0 })] })] }

theorem test_supplyReport_within_tolerance :
    answer (.supplyReport 4 41 0 40) gaugeState = (.ok, [0x00, 0x03, 0x0D, 0x40, 0x00])
    ∧ answer (.supplyReport 4 41 0 30) gaugeState = (.ok, [0x00, 0x03, 0x0D, 0x40, 0x00]) := by decide +kernel

theorem test_supplyReport_beyond_tolerance :
    answer (.supplyReport 4 41 0 20) gaugeState = (.ok, [0x00, 0x01, 0xD4, 0xC0, 0x01])
    ∧ ((printer (after (.supplyReport 4 41 0 0) gaugeState) 41).supply .k).map (fun x => (x.level, x.reorder)) =
        some (0, .due) := by decide +kernel

theorem test_supplyReplaced :
    let s : State := { gaugeState with printers :=
      [(41, { enrolled := true, supplies :=
        [(.k, { model := 0, level := 3, accumulator := 9, usage := some 7, forecast := some 0, low := true, reorder := .ordered
                lastSurvey := 60 })] })] }
    (printer (after (.supplyReplaced 3 41 0) s) 41).supply .k =
      some { model := 0, level := 600000, usage := some 7, lastSurvey := 60 }
    ∧ (answer (.supplyReplaced 3 41 1) s).1 = .noSuch := by decide +kernel

/-- Set Supply Model is refused IN_USE only when it would change the capacity under a supply (R115). -/
theorem test_setSupplyModel :
    (answer (.setSupplyModel 7 0 500000 10) gaugeState).1 = .inUse
    ∧ answer (.readSupplyModel 2 0) (after (.setSupplyModel 7 0 600000 61) gaugeState) =
        (.ok, [0x00, 0x00, 0x00, 0x09, 0x27, 0xC0, 0x3C, 0x00, 0x01]) := by decide +kernel

/-- The K supply of the worked figures of a survey computation, on printer 41. -/
def surveySupply : Supply :=
  { model := 0, level := 96000, accumulator := 14500, usage := some 12000, lastSurvey := 93600 }

theorem test_survey_worked_figures :
    surveySupply.visited 180000 10 =
      { surveySupply with
        accumulator := 0, usage := some 12312, forecast := some 7, low := true, reorder := .due, lastSurvey := 180000 }
    ∧ ((surveySupply.visited 180000 10).visited 182000 10).usage = some 12312
    ∧ ({ surveySupply with usage := none }.visited 180000 10).forecast = some 6
    ∧ ({ surveySupply with usage := none, accumulator := 0 }.visited 180000 10).forecast = some 999 := by decide

/-- A survey of one printer: Survey Now, one step, done; a second Survey Now before the step is BUSY (R126, R127, R131). -/
theorem test_survey_of_one_printer :
    let s : State := { State.reset with
      seconds := 180000, printers := [(41, { enrolled := true, supplies := [(.k, surveySupply)] })] }
    let t := after (.surveyNow 3 (present 41)) s
    t.survey = { scope := some (.one 41), cursor := 41 } ∧ (answer (.surveyNow 3 absent) t).1 = .busy
    ∧ (after .surveyStep t).survey = { done := true } ∧ (callout (after .surveyStep t) 41 .tonerReorder).isSome = true
    ∧ (after .surveyStep t).attn = true := by decide +kernel

/-- Read Survey over one printer gives the scope and the cursor (R131). -/
theorem test_readSurvey :
    answer (.readSurvey 0) { gaugeState with survey := { scope := some (.one 41), cursor := 41 } } =
      (.ok, [0x01, 0x02, 0x00, 0x29, 0x00, 0x29, 0x00]) := by decide +kernel

theorem test_readSupplies :
    answer (.readSupplies 2 41) gaugeState =
      (.ok, [0x00, 0x29, 0x01, 0x00, 0x00, 0x00, 0x00, 0x09, 0x27, 0xC0, 0x0A, 0x00, 0x03, 0x0D, 0x40] ++ List.replicate 20 0) := by
  decide +kernel

/-! ## Callouts (sections 7.4, 7.10 and 7.11) -/

def openCallout (cls : Nat) (sense : Sense) (d : Nat) : Callout :=
  { state := .pending, cls := cls, sense := sense, autoClose := false, desk := d, raisedAt := Calendar.stamp {}
    ackedAt := none, again := false }

def servedCallout (cls : Nat) (sense : Sense) (d : Nat) : Callout :=
  { openCallout cls sense d with state := .inService, ackedAt := some 0 }

def place (l : List (Nat × CondKind × Callout)) : Table (Option Callout) := l.map fun e => (calloutKey e.1 e.2.1, some e.2.2)

/-- LEAST_BUSY over desks 2, 3 and 5 with 4, 1 and 1 records in service goes to desk 3; FIXED goes to desk 2 (section 7.4). -/
theorem test_routeDesk :
    let busy := fun n => List.replicate n (0, CondKind.doorOpen)
    let s : State := { State.reset with
      desks := [(2, { inService := busy 4 }), (3, { inService := busy 1 }), (5, { inService := busy 1 })] }
    routeDesk s { routeMode := .leastBusy, deskGroup := 0x2C } = 3 ∧ routeDesk s { deskGroup := 0x2C } = 2
    ∧ routeDesk s {} = 0 := by decide

/-- Section 7.10 after the second jam of printer 7: class 1 ROTATING with base 7, desk 2 OPEN, 7 and 40 PENDING. -/
def noisy : State :=
  { State.reset with
    printers := [(7, { enrolled := true, deskGroup := 0x04, reported := 0x02 }), (40, { enrolled := true, deskGroup := 0x04, reported := 0x02 })]
    classes := [(1, { mode := .rotating, base := 7 })]
    desks := [(2, { mode := .opened })]
    callouts := place [(7, .paperJam, openCallout 1 .edge 2), (40, .paperJam, openCallout 1 .edge 2)] }

/-- The second acknowledge of section 7.10 takes printer 40 and makes it the base. -/
theorem test_acknowledge_rotates :
    rank noisy 1 7 = 255 ∧ rank noisy 1 40 = 32
    ∧ (let t := after (.acknowledgeCallout 1 2) noisy
       t.response.body.take 4 = [0x02, 0x00, 0x28, 0x02] ∧ (classRec t 1).base = 40
       ∧ (desk t 2).inService = [(40, .paperJam)] ∧ (callout t 40 .paperJam).map (·.state) = some .inService) := by
  decide +kernel

/-- The close of printer 40's record, marked again, raises a new PENDING record (section 7.10). -/
theorem test_close_raises_again :
    let s := { noisy with
      desks := [(2, { mode := .opened, inService := [(40, .paperJam), (7, .paperJam)] })]
      callouts := place [(7, .paperJam, servedCallout 1 .edge 2), (40, .paperJam, { servedCallout 1 .edge 2 with again := true })] }
    let t := after (.closeCalloutSpecific 4 2 40 2) s
    t.response.code = .ok ∧ callout t 40 .paperJam = some (openCallout 1 .edge 2)
    ∧ (desk t 2).inService = [(7, .paperJam)] ∧ answer (.closeCalloutNonSpecific 1 2) s = (.needsSpecific, []) := by
  decide +kernel

/-- Section 7.11 before the first non-specific close: PAPER_OUT [2], PAPER_JAM [1] and FUSER_FAULT [0] in service at desk 3. -/
def nested : State :=
  { State.reset with
    printers :=
      [(44, { enrolled := true, deskGroup := 0x08, reported := 0x12 }), (45, { enrolled := true, deskGroup := 0x08 }),
       (46, { enrolled := true, deskGroup := 0x08, reported := 0x04 })]
    desks := [(3, { inService := [(44, .paperOut), (44, .paperJam), (45, .fuserFault)] })]
    callouts := place
      [(44, .paperJam, { servedCallout 1 .edge 3 with again := true }), (44, .paperOut, servedCallout 2 .level 3),
       (45, .fuserFault, servedCallout 0 .level 3), (46, .doorOpen, openCallout 1 .level 3)] }

theorem test_close_nonspecific_takes_the_lowest_class :
    let t := after (.closeCalloutNonSpecific 1 3) nested
    t.response.body = [0x00, 0x2D, 0x01] ∧ callout t 45 .fuserFault = none
    ∧ (desk t 3).inService = [(44, .paperOut), (44, .paperJam)] ∧ t.deskSet = 0
    ∧ (after (.closeCalloutNonSpecific 1 3) t).deskSet = 0x08 := by decide +kernel

/-- Nothing is presentable at the desk while its list holds a class 0 record, and Read Desk counts the door (R149, R160). -/
theorem test_acknowledge_none_and_readDesk :
    answer (.acknowledgeCallout 1 3) nested = (.none, [])
    ∧ (answer (.readDesk 1 3) nested).2.take 6 = [0x03, 0x00, 0x00, 0x00, 0x01, 0x03]
    ∧ (answer (.readCallouts 2 46) nested).2.take 8 = [0x00, 0x2E, 0x01, 0x03, 0x00, 0x01, 0x00, 0x00] := by decide +kernel

/-- The settings of conditions, classes and desks, with the lock for Set Condition (R137, R146, R148). -/
theorem test_callout_settings :
    condEntry (after (.setCondition 4 2 3 0 1) State.reset) .paperJam = { cls := 3, sense := .level, autoClose := true }
    ∧ (answer (.setCondition 4 2 3 0 1) { State.reset with lock := true }).1 = .locked
    ∧ classRec (after (.setClassMode 2 1 1) State.reset) 1 = { mode := .rotating, base := 255 }
    ∧ (answer (.setClassBase 3 1 256) State.reset).1 = .badField
    ∧ desk (after (.setDeskMode 2 7 1) State.reset) 7 = { mode := .opened } := by decide +kernel

theorem test_readClasses_and_conditions :
    answer (.readClasses 0) State.reset = (.ok, [0, 0, 0xFF, 0, 0, 0xFF, 0, 0, 0xFF, 0, 0, 0xFF])
    ∧ (answer (.readConditionTable 0) State.reset).2.drop 24 = [0x07, 0x02, 0x00, 0x00, 0x08, 0x03, 0x01, 0x01] := by
  decide +kernel

/-! ## The calendar (sections 8.5 and 8.6) -/

/-- 24-02-28 23:59:59, weekday 3 (section 8.5). -/
def leapEve : Calendar := { year := 24, month := 2, day := 28, hour := 23, minute := 59, second := 59, weekday := 3 }

theorem test_seconds_leap_day :
    let t := after .secondsEvent { State.reset with seconds := 3000000, calendar := leapEve }
    t.seconds = 3000001 ∧ t.calendar = { year := 24, month := 2, day := 29, weekday := 4 } ∧ t.boundaries = [t.calendar] := by
  decide +kernel

theorem test_seconds_saturate :
    (after .secondsEvent { State.reset with seconds := 4294967295 }).seconds = 4294967295
    ∧ weekdayOf 0 1 1 = 6 ∧ weekdayOf 24 3 1 = 5 ∧ weekdayOf 23 2 28 = 2 := by decide +kernel

/-- The clamped Set Clock of section 8.6, its answer and Read Clock after it. -/
theorem test_setClock_clamps :
    answer (.setClock 6 23 2 30 25 61 70) State.reset = (.ok, [23, 2, 28, 23, 59, 59, 2])
    ∧ answer (.readClock 0) (after (.setClock 6 23 2 30 25 61 70) State.reset) =
        (.ok, [23, 2, 28, 23, 59, 59, 2, 0, 0, 0, 0]) := by decide +kernel

/-- The boundary at 24-03-01 00:00:00 advances tenant 3 (default pattern) and not tenant 9 (Fridays at 18:00); at 02:00 the
survey pattern starts a survey (section 8.5). -/
theorem test_minuteBoundary :
    let s : State := { State.reset with
      tenants := [(3, { period := 7 }), (9, { period := 40 })]
      rollovers := [(9, { minute := some 0, hour := some 18, weekday := some 5, day := none, month := none })]
      boundaries := [{ year := 24, month := 3, day := 1, weekday := 5 }, { year := 24, month := 3, day := 1, hour := 2, weekday := 5 }] }
    let t := after .minuteBoundary s
    (tenantRec t 3).period = 8 ∧ (tenantRec t 9).period = 40 ∧ t.survey.scope = none
    ∧ (after .minuteBoundary t).survey.scope = some .all ∧ (after .minuteBoundary t).boundaries = [] := by decide +kernel

theorem test_patterns :
    let p := pattern (present 60) absent (present 0) (present 31) (present 13)
    answer (.setSurveyPattern 10 p) State.reset = (.ok, [1, 59, 0, 0, 1, 1, 1, 31, 1, 12])
    ∧ answer (.readPattern 1 31) State.reset = (.ok, [1, 0, 1, 0, 0, 0, 1, 1, 0, 0])
    ∧ (answer (.readPattern 1 33) State.reset).1 = .badField := by decide +kernel

/-! ## The host link, attention and the lock (section 9.7) -/

/-- The frames of section 9.7 on a part whose latest response has number 41. -/
def linkState : State :=
  { jamState with
    seconds := 6010
    response := { number := 41 }
    jobs := [(7, { generation := 1, job := { (job jamState 7) with state := .released, copiesDone := 0 } })]
    dispatch := [2055] }

theorem test_readAttention :
    let t := after (.readAttention 0) linkState
    t.response = { code := .ok, kind := 0x90, number := 42, body := [0, 0, 1, 0, 0, 0, 0, 0, 0, 0x17, 0x7A, 0] } ∧ t.attn = true := by
  decide +kernel

theorem test_takeDispatch_releases_attn :
    let t := after (.takeDispatch 0) linkState
    t.response.body = [0x08, 0x07, 0x00, 0x28, 0x00, 0x00, 0x05, 0x00, 0x00, 0x00] ∧ t.attn = false := by decide +kernel

theorem test_shortFrame_and_badKind :
    (after .shortFrame linkState).response = { code := .shortFrame, kind := 0, number := 42, body := [] }
    ∧ (after (.badKind 0x13) linkState).response = { code := .badKind, kind := 0x13, number := 42, body := [] }
    ∧ (after .shortFrame { linkState with response := { number := 255 } }).response.number = 1 := by decide +kernel

/-- A response read of 7 bytes and 4 bits of a response whose number is 41: FFh, five header bytes most significant bit first,
FFh past the end (R177, R180, R194). -/
theorem test_responseRead :
    (after (.responseRead 60) { State.reset with response := { number := 41 } }).driven =
      .shifted (List.replicate 8 true ++ List.replicate 16 false ++ [false, false, true, false, true, false, false, true]
        ++ List.replicate 16 false ++ List.replicate 12 true) := by decide +kernel

/-- During every byte of a request frame, and of a short one, the part drives filler (R180). -/
theorem test_filler_of_other_frames :
    (after (.readTenant 2 0) (after (.responseRead 60) State.reset)).driven = .filler
    ∧ (after .shortFrame State.reset).driven = .filler ∧ (after .shortFrame State.reset).hsdo = .highImpedance
    ∧ (after (.readTenant 2 0) State.reset).port = .deselected := by decide +kernel

theorem test_policy_lock :
    let policy : Instr := .setTenantPolicy 25 31 5 6 7 0 61 1 1001 (pattern absent absent absent absent absent)
    answer policy (after (.lockPolicy 0) State.reset) = (.locked, [])
    ∧ tenantRec (after policy State.reset) 31 =
        { monoRate := 5, colourRate := 6, duplexCredit := 7, holdMinutes := 1, resumeMinutes := 60, policy := .monoFallback
          warnPermille := 1000 }
    ∧ (answer (.readTenant 3 0) State.reset).1 = .badField := by decide +kernel

theorem test_readTenant :
    answer (.readTenant 2 3) (office {}) =
      (.ok, [0, 3, 0, 40, 0, 150, 0, 10, 0x05, 0xA0, 0, 10, 0, 0x03, 0x84, 1, 0, 1, 0, 0, 0, 1, 1, 0, 0, 0, 0, 0, 7, 0]) := by
  decide +kernel

/-- Full reset from a full state: RESET with every record clear, then STARTING, then DESELECTED (R189, R190). -/
theorem test_full_reset :
    let t := after (.fullReset .pin) towerVisit
    t.port = .reset ∧ t.jobs = [] ∧ t.attn = false ∧ after (.readClock 0) t = t
    ∧ (after .resetRelease t).port = .starting ∧ (after .startingEnd (after .resetRelease t)) = State.reset
    ∧ (after .powerOn towerVisit).supplyLow = true := by decide +kernel

theorem test_starting_ignores_frames :
    let s : State := { State.reset with port := .starting }
    after .discardedStartingFrame s = { s with driven := .unstated 0, draws := 1 } ∧ after (.lockPolicy 0) s = s
    ∧ after .secondsEvent s = s := by decide +kernel

/-! ## Accounts -/

/-- Load Account: a second account with the badge is DUPLICATE, a department that is a USER is BAD_FIELD (R9). -/
theorem test_loadAccount_checks :
    (answer (.loadAccount 24 5 1 0 3 (present 40417) absent absent 0) (office {})).1 = .duplicate
    ∧ (answer (.loadAccount 24 5 1 0 3 (present 7) (present 101) absent 0) (office {})).1 = .badField
    ∧ (answer (.loadAccount 24 5 1 0 2 absent (present 100) absent 0) (office {})).1 = .badField
    ∧ (answer (.loadAccount 24 100 1 0 3 absent absent absent 0) (office {})).1 = .inUse
    ∧ (answer (.loadAccount 24 5 1 0 3 badPresence absent absent 0) (office {})).1 = .badField := by decide +kernel

theorem test_loadAccount_moves_the_badge :
    let t := after (.loadAccount 24 101 1 0 3 (present 8) (present 100) (present 2000000000) 5) (office {})
    account t 101 =
      { state := .active, tenant := 3, badge := some 8, department := some 100, limit := some 1000000000, used := 5, stamp := 7 }
    ∧ badgeHolder t 40417 = none ∧ badgeHolder t 8 = some 101 := by decide +kernel

theorem test_limit_suspend_resume :
    (account (after (.setLimit 7 101 absent) (office {})) 101).limit = none
    ∧ (account (after (.resumeAccount 2 210) (after (.suspendAccount 2 210) towerVisit)) 210).state = .active
    ∧ (terminal (after (.suspendAccount 2 210) towerVisit) 39).pending = some .suspended
    ∧ visit (after (.suspendAccount 2 210) towerVisit) 39 = none := by decide +kernel

theorem test_retireAccount :
    (answer (.retireAccount 2 210) tower).1 = .inUse ∧ (answer (.retireAccount 2 100) (office {})).1 = .inUse
    ∧ account (after (.retireAccount 2 101) (office {})) 101 = {}
    ∧ badgeHolder (after (.retireAccount 2 101) (office {})) 40417 = none := by decide +kernel

/-! ## The loops (section 3.7) -/

/-- Loop 2 of section 3.7, QUIET with no roll call in flight. -/
def quietLoop : State := { tower with
  loops := [(2, { state := .quiet, lastStart := some 0 })]
  terminals := [(35, { enrolled := true, pool := 12, presence := .present }), (39, { enrolled := true, pool := 12, presence := .present })] }

/-- Roll call A of section 3.7: WAKE, an IDLE and a FLAGGED answer. With no display pending the DISPLAY phase passes at once
(R61). -/
theorem test_wake_and_answers :
    let a := after (.wake 2) quietLoop
    let b := after (.answer 2 7 true) (after (.answer 2 3 false) a)
    (loopRec a 2).phase = some .rollCall ∧ (loopRec a 2).turns = [3, 7] ∧ a.draws = quietLoop.draws + 1
    ∧ (loopRec b 2).phase = some .fetch ∧ (loopRec b 2).turns = [7] ∧ (terminal b 39).flagged = true
    ∧ (after (.answer 2 3 false) a).sent = [(2, lineBits [0x03, 0x01, 0x00, 0xFC])] := by decide +kernel

/-- With a display pending for address 3 alone the turn stands at 3, and its display leads on to FETCH (R61, R62). -/
theorem test_display_phase_passes :
    let s := { quietLoop with
      loops := [(2, { state := .quiet, phase := some .rollCall, turns := [7], lastStart := some 0 })]
      terminals := [(35, { enrolled := true, presence := .present, answered := true, pending := some .goodbye }),
        (39, { enrolled := true, presence := .present })] }
    let b := after (.answer 2 7 true) s
    (loopRec b 2).phase = some .display ∧ (loopRec b 2).turns = [3, 7]
    ∧ (loopRec (after (.displaySend 2) b) 2).phase = some .fetch
    ∧ (loopRec (after (.displaySend 2) b) 2).turns = [7] := by decide +kernel

theorem test_fetchFailed_keeps_flagged :
    let t := after (.fetchFailed 2 7) tower
    (terminal t 39).flagged = true ∧ (loopRec t 2).phase = some .close
    ∧ (loopRec (after (.rollCallClose 2) t) 2).state = .continuous
    ∧ (terminal (after (.unknownMessage 2 7) tower) 39).flagged = false := by decide +kernel

/-- The third slot without an answer makes the terminal ABSENT and ends its visit without a display (R60). -/
theorem test_noAnswer_three_times :
    let s := { towerVisit with
      loops := [(2, { state := .continuous, phase := some .rollCall, turns := [7], lastStart := some 0 })]
      terminals := [(39, { enrolled := true, pool := 12, presence := .present, missed := 2, pending := some .suspended })] }
    let t := after (.noAnswer 2 7) s
    terminal t 39 = { enrolled := true, pool := 12, presence := .absent, missed := 3 } ∧ visit t 39 = none
    ∧ (loopRec t 2).phase = some .close := by decide +kernel

theorem test_displaySend :
    let s := { towerVisit with
      loops := [(2, { state := .continuous, phase := some .display, turns := [3, 7], lastStart := some 0 })]
      terminals := [(35, { enrolled := true }), (39, { enrolled := true, pending := some .goodbye, current := .suspended })] }
    let t := after (.displaySend 2) s
    (terminal t 39).current = .goodbye ∧ (terminal t 39).pending = none ∧ t.sent = [(2, lineBits [0x07, 0x03, 0x01, 0x05, 0xF0])]
    ∧ (loopRec t 2).phase = some .close := by decide +kernel

/-- MORE on the last page shows page 0, DONE ends the visit, REFRESH shows the current display (R75 to R77). -/
theorem test_more_done_refresh :
    (visit (after (.more 2 7) towerVisit) 39).map (fun v => (v.page, v.idleDeadline)) = some (0, 5055)
    ∧ (terminal (after (.done 2 7) towerVisit) 39).pending = some .goodbye ∧ visit (after (.done 2 7) towerVisit) 39 = none
    ∧ (terminal (after (.refresh 2 7) tower) 39).pending = some .goodbye
    ∧ (after (.more 2 7) tower).visits = [] := by decide +kernel

/-- Step 5 of section 3.7: the visit ends for idleness at 5,055, not before. -/
theorem test_visitIdleExpiry :
    let s := { towerVisit with visits := [(39, some { account := 210, page := 0, pageHandles := [30], idleDeadline := 5055 })] }
    visit (after (.visitIdleExpiry 2 7) { s with seconds := 5055 }) 39 = none
    ∧ (terminal (after (.visitIdleExpiry 2 7) { s with seconds := 5055 }) 39).pending = some .goodbye
    ∧ (visit (after (.visitIdleExpiry 2 7) { s with seconds := 5054 }) 39).isSome = true := by decide +kernel

/-- The first enrolment takes the loop from OFF to QUIET and starts a roll call; the last retirement turns it OFF (R57,
R58). -/
theorem test_enroll_and_retire_terminal :
    let s := after (.enrollTerminal 4 1 5 63) State.reset
    (loopRec s 1).state = .quiet ∧ (loopRec s 1).turns = [5] ∧ (terminal s 21).pool = 63
    ∧ loopRec (after (.retireTerminal 2 1 5) s) 1 = {} ∧ (answer (.enrollTerminal 4 4 0 0) State.reset).1 = .badField := by
  decide +kernel

/-- A line in break, its end, and Loop Reset (R65 to R67). -/
theorem test_loop_fault_and_reset :
    let f := after (.loopFault 2) towerVisit
    (loopRec f 2).state = .fault ∧ f.visits = [] ∧ faultSet f = 0x04 ∧ f.attn = true
    ∧ (loopRec (after (.faultEnd 2) f) 2).phase = some .rollCall ∧ (terminal (after (.faultEnd 2) f) 39).presence = .unknown
    ∧ (loopRec (after (.loopReset 1 2) towerVisit) 2).state = .quiet := by decide +kernel

theorem test_intervals :
    (loopRec (after (.presenceIntervalExpiry 2) quietLoop) 2).phase = some .rollCall
    ∧ (loopRec (after (.rollCallIntervalExpiry 2) quietLoop) 2).phase = none
    ∧ (loopRec (after (.rollCallIntervalExpiry 2) { quietLoop with loops := [(2, { state := .continuous })] }) 2).phase
        = some .rollCall := by decide +kernel

theorem test_readLoop :
    (answer (.readLoop 1 2) towerVisit).2.take 5 = [0x02, 0x02, 0x01, 0x01, 0x02]
    ∧ ((answer (.readLoop 1 2) towerVisit).2.drop (5 + 12 * 7)).take 12
        = [0x01, 0x00, 0x0C, 0x01, 0x00, 0x00, 0x05, 0x01, 0x00, 0xD2, 0x00, 0x00] := by decide +kernel

theorem test_readJob :
    answer (.readJob 2 2055) jamState =
      (.ok, [0x08, 0x07, 0x03, 0x00, 0xD2, 0x01, 0x00, 0x0C, 0x00, 0x02, 0x00, 0x06, 0x00, 0x05, 0x00, 0x01]
        ++ List.replicate 8 0 ++ [0x00, 0x00, 0x03, 0xE8, 0x00, 0x01, 0x55, 0x68, 0x01, 0x00, 0x0C, 0x01, 0x00, 0x28, 0x01,
        0x00, 0x00, 0x03, 0xAC, 0x00, 0x00, 0x00, 0x00, 0x00, 0x00, 0x01, 0xF5, 0x00, 0x02] ++ List.replicate 7 0) := by
  decide +kernel

/-! ## Witnesses: for each statement with hypotheses, a state and operands that meet them -/

/-- A job released to printer 3 with 80 reserved, in a state that satisfies every invariant. -/
def steady : State :=
  { State.reset with
    pending := [.takeDispatch 0]
    attn := true
    accounts := [(1, { state := .active, badge := some 7, limit := some 500, reserved := 80 })]
    badgeMap := [(7, some 1)]
    printers := [(3, { enrolled := true, everReported := true, queueCount := 1, supplies := fullSupplies.take 1 })]
    jobs :=
      [(0, { job :=
        { state := .released, owner := 1, sidesMono := 2, copies := 1, printer := some 3, releasePool := some 0
          perCopyApplied := some 80, expiresAt := 86400 } })]
    dispatch := [0] }

theorem steady_account (a : Nat) :
    account steady a = if a = 1 then { state := .active, badge := some 7, limit := some 500, reserved := 80 } else {} := by
  unfold account steady
  simp only [Table.get]
  split <;> split <;> first | rfl | omega

theorem steady_slot (i : Nat) : slot steady i = if i = 0 then (steady.jobs.head (by decide)).2 else {} := by
  unfold slot
  show Table.get {} i (steady.jobs.head (by decide) :: []) = _
  simp only [Table.get]
  split <;> split <;> first | rfl | (exfalso; simp_all [steady])

theorem steady_books : BooksBalance steady := by
  refine ⟨fun a => ?_, fun e he _ => ?_, fun a d h => ?_⟩
  · rw [steady_account]
    by_cases ha : a = 1
    · subst ha; rfl
    · rw [if_neg ha]
      have : ¬ 1 = a := fun h => ha h.symm
      simp [steady, heldTerm, this]
  · simp only [steady, List.mem_singleton] at he
    subst he
    exact ⟨by decide, by decide, by simp⟩
  · rw [steady_account] at h
    split at h <;> cases h

theorem steady_badges : BadgesExact steady := by
  refine ⟨fun b a => ?_, fun a h => ?_⟩
  · rw [steady_account]
    have hb : badgeHolder steady b = if b = 7 then some 1 else none := by
      unfold badgeHolder steady
      simp only [Table.get]
      split <;> split <;> first | rfl | omega
    rw [hb]
    by_cases h7 : b = 7 <;> by_cases h1 : a = 1 <;> simp [h7, h1] <;> omega
  · rw [steady_account] at h ⊢
    split at h
    · cases h
    · rw [if_neg ‹_›]

theorem steady_dispatch : DispatchExact steady := by
  refine ⟨by decide, fun h => ⟨fun hm => ?_, ?_⟩⟩
  · have : h = 0 := by simpa [steady] using hm
    exact ⟨0, by decide, by decide, by rw [this]; decide⟩
  · rintro ⟨i, _, hs, rfl⟩
    have : i = 0 := by
      unfold job at hs
      rw [steady_slot] at hs
      split at hs
      · assumption
      · cases hs
    subst this
    decide

theorem steady_queues : QueuesCounted steady := by
  refine ⟨fun e he _ => ?_, fun p => ?_⟩
  · simp only [steady, List.mem_singleton] at he
    subst he
    exact ⟨3, rfl, by decide⟩
  · by_cases hp : p = 3
    · subst hp; decide
    · have h1 : printer steady p = {} := by
        unfold printer steady
        simp only [Table.get]
        rw [if_neg (by omega)]
      have h2 : ¬ 3 = p := fun h => hp h.symm
      rw [h1]
      simp [routedTo, steady, h2]

theorem steady_consistent : Consistent steady where
  canonical := by decide +kernel
  settled := by constructor <;> decide +kernel
  clocks := by decide +kernel
  finished := by unfold FinishedCounted; decide +kernel
  loops := by unfold LoopsLegal; decide +kernel
  slots := by unfold SlotsBounded; decide +kernel
  dispatch := steady_dispatch
  queues := steady_queues
  books := steady_books
  badges := steady_badges
  desks := ⟨fun d => ⟨List.nodup_nil, Nat.zero_le _⟩, fun d p k => by simp [desk, callout, steady, State.reset, Table.get],
    fun p k c h => by cases h⟩
  visits := fun t u v w h => by cases h

/-- Tenant 3 and its two accounts, no job. -/
def site : State := { office {} with jobs := [] }

/-- The same with account 101 SUSPENDED. -/
def suspendedSite : State :=
  { site with accounts := site.accounts.map fun e => (e.1, { e.2 with state := if e.1 = 101 then .suspended else e.2.state }) }

/-- The visit of account 210 with no job left. -/
def quietVisit : State := { towerVisit with jobs := [] }

/-- The part in RESET. -/
def inReset : State := { State.reset with port := .reset, resetPinLow := true }

theorem witness_StepRunsFrontCommand : State.reset.pending = [] := rfl

theorem witness_TablesStayCanonical : Canonical steady = true ∧ ∃ t, step steady = .next t :=
  ⟨steady_consistent.canonical, _, rfl⟩

theorem witness_AttentionFollowsTheItems : Settled steady ∧ ∃ t, step steady = .next t := ⟨steady_consistent.settled, _, rfl⟩

theorem witness_ClocksStayLegal : ClocksLegal steady = true ∧ ∃ t, step steady = .next t :=
  ⟨steady_consistent.clocks, _, rfl⟩

theorem witness_FinishedCountCounts : Canonical steady = true ∧ FinishedCounted steady ∧ ∃ t, step steady = .next t :=
  ⟨steady_consistent.canonical, steady_consistent.finished, _, rfl⟩

theorem witness_LoopModesStayLegal : LoopsLegal steady ∧ ∃ t, step steady = .next t := ⟨steady_consistent.loops, _, rfl⟩

theorem witness_DispatchAndQueuesStayExact : Consistent steady ∧ SlotsBounded steady ∧ ∃ t, step steady = .next t :=
  ⟨steady_consistent, steady_consistent.slots, _, rfl⟩

theorem witness_BooksStayBalanced : Consistent steady ∧ ∃ t, step steady = .next t := ⟨steady_consistent, _, rfl⟩

theorem witness_BadgesAndVisitsStayExact : Consistent steady ∧ ∃ t, step steady = .next t := ⟨steady_consistent, _, rfl⟩

theorem witness_InServiceListsStayExact : Consistent steady ∧ ∃ t, step steady = .next t := ⟨steady_consistent, _, rfl⟩

/-- A frame that is accepted, a bad length, and a bad presence byte; a part that runs, and STARTING and RESET. -/
theorem witness_FramesThePortAnswersItself :
    running tower = true ∧ requestShape (.readTenant 2 0) = some (0x11, true, true)
    ∧ requestShape (.readTenant 3 0) = some (0x11, false, true)
    ∧ requestShape (.setLimit 7 1 badPresence) = some (0x21, true, false)
    ∧ ({ State.reset with port := .starting } : State).port ≠ .reset ∧ inReset.port = .reset := by decide

theorem witness_WhatLeavesTheResponse :
    (requestShape (.wake 0) = none ∧ resetCommand (.wake 0) = false ∧ Instr.wake 0 ≠ .shortFrame
      ∧ (∀ k, Instr.wake 0 ≠ .badKind k) ∧ ∃ t, exec (.wake 0) tower = .next t)
    ∧ running inReset = false ∧ resetCommand (.readClock 0) = false
    ∧ Instr.readClock 0 ≠ .discardedStartingFrame
    ∧ steady.hsdo = .highImpedance ∧ steady.port ≠ .selected ∧ ∃ t, step steady = .next t :=
  ⟨⟨rfl, rfl, by decide, fun _ h => (by cases h), _, rfl⟩, rfl, rfl, by decide, rfl, by decide, _, rfl⟩

theorem witness_FullResetClearsEverything :
    inReset.port = .reset ∧ (after .resetRelease inReset).port = .starting ∧ tower.port ≠ .reset ∧ tower.port ≠ .starting := by
  decide +kernel

/-- The lock set, and clear with the tenant at both sides of its bound. -/
theorem witness_PolicyLockAndTenantPolicy :
    let locked : State := { tower with lock := true }
    let p := pattern absent absent absent absent (present 13)
    running locked = true ∧ locked.lock = true ∧ patternPresenceOk p = true
    ∧ (resetCommand (.wake 0) = false ∧ ∃ t, exec (.wake 0) locked = .next t)
    ∧ running tower = true ∧ tower.lock = false ∧ ¬ 31 < (31 : BitVec 16).toNat ∧ 31 < (32 : BitVec 16).toNat :=
  ⟨rfl, rfl, rfl, ⟨rfl, _, rfl⟩, rfl, rfl, by decide, by decide⟩

/-- A stamp that is not the period, a stamp that is, and a FREE account at the top of the table. -/
theorem witness_TouchAndReadAccount :
    running site = true ∧ (4095 : BitVec 16).toNat ≤ 4095 ∧ (account site 4095).state = .free
    ∧ (account site 101).stamp = (tenantRec site 3).period
    ∧ (account site 101).stamp ≠ (tenantRec { site with tenants := [] } 3).period := by decide +kernel

theorem witness_LimitAndResume :
    running site = true ∧ presenceOk (absent : Opt 32) = true ∧ (101 : BitVec 16).toNat ≤ 4095
    ∧ (account site 101).state ≠ .free
    ∧ 4095 < (4096 : BitVec 16).toNat ∧ (account site (4095 : BitVec 16).toNat).state = .free := by decide +kernel

theorem witness_SuspendAndRetireAccount :
    Canonical towerVisit = true ∧ running towerVisit = true ∧ (account towerVisit 210).state = .active
    ∧ visitOf towerVisit 210 = some 39 ∧ jobNames towerVisit 210 = true
    ∧ Canonical suspendedSite = true ∧ (account suspendedSite 101).state = .suspended ∧ visitOf suspendedSite 101 = none
    ∧ Canonical site = true ∧ jobNames site 101 = false ∧ userNames site 101 = false ∧ userNames site 100 = true
    ∧ Canonical quietVisit = true ∧ jobNames quietVisit 210 = false ∧ userNames quietVisit 210 = false
    ∧ visitOf quietVisit 210 = some 39 := by decide +kernel

/-- A new account at the top of the table with and without a department; account 101, whose department a job in `office` pins,
written again with tenant, kind and department unchanged; account 210 SUSPENDED with a badge, its visit open and not; and one
operand for each of the seven checks. -/
theorem witness_LoadAccount :
    let j := figuresJob .a3
    (Canonical (office j) = true ∧ running (office j) = true ∧ presenceOk (present 8 : Opt 24) = true
      ∧ presenceOk (absent : Opt 32) = true ∧ presenceOk (present 100 : Opt 16) = true
      ∧ optional (present 100 : Opt 16) = some 100 ∧ (account (office j) 100).kind = .department
      ∧ (account (office j) 100).tenant = 3 ∧ optional (present 8 : Opt 24) = some 8 ∧ badgeHolder (office j) 8 = none
      ∧ (account (office j) 4095).state = .free)
    ∧ (jobNames (office j) 101 = true ∧ (account (office j) 101).tenant = 3 ∧ (account (office j) 101).kind = .user
      ∧ (account (office j) 101).department = some 100 ∧ userNames (office j) 100 = true)
    ∧ (Canonical towerVisit = true ∧ running towerVisit = true ∧ jobNames towerVisit 210 = true
      ∧ (account towerVisit 210).tenant = 5 ∧ badgeHolder towerVisit 77301 = some 210 ∧ visitOf towerVisit 210 = some 39
      ∧ visitOf tower 210 = none ∧ Canonical tower = true)
    ∧ 4095 < (4096 : BitVec 16).toNat ∧ 31 < (32 : BitVec 16).toNat ∧ optional (present 0 : Opt 24) = some 0
    ∧ badgeHolder (office j) 40417 = some 101 ∧ (account (office j) 101).kind ≠ .department := by decide +kernel

/-- A saving below the sized figure and one above it, with and without duplex; a plain and a forced-mono copy. -/
theorem witness_FiguresOfOneCopy :
    (figuresJob .a3).duplex = true ∧ chargeSaved card (figuresJob .a3) ≤ chargeSized card (figuresJob .a3) false
    ∧ chargeSized { monoRate := 1, duplexCredit := 9 } (figuresJob .a4) true
        < chargeSaved { monoRate := 1, duplexCredit := 9 } (figuresJob .a4)
    ∧ (pickJob none 0 1 0 1 .a4 false).job.duplex = false ∧ (figuresJob .a3).forcedMono = false
    ∧ { figuresJob .a3 with forcedMono := true }.forcedMono = true := by decide

/-- Section 1.6: 16,920 fits owner and department and crosses the owner's level, 25,000 does not fit the owner. -/
theorem witness_ReserveTakesBothOrNone :
    let s := office (figuresJob .a3)
    let touched := touchOpt (touch s 101) (some 100)
    (job s 0).owner = 101 ∧ (account s 101).department = some 100 ∧ 100 ≠ 101
    ∧ (account touched 101).limit = some 30000 ∧ (account touched 101).used + (account touched 101).reserved + 16920 ≤ 30000
    ∧ ¬ (account touched 101).used + (account touched 101).reserved + 25000 ≤ 30000
    ∧ (account touched 100).limit = some 50000 ∧ (account touched 100).used + (account touched 100).reserved + 16920 ≤ 50000
    ∧ (account touched 101).warned = false ∧ 0 < (tenantRec s (account s 101).tenant).warnPermille
    ∧ 30000 * (tenantRec s (account s 101).tenant).warnPermille
        ≤ ((account touched 101).used + (account touched 101).reserved + 16920) * 1000
    ∧ crossesWarning (addReserved s 101 16920) 101 = true ∧ crossesWarning s 101 = false := by decide +kernel

theorem witness_CommitAndReturnMoveTheMoney :
    (job officePrinting 0).owner = 101 ∧ (job officePrinting 0).chargedDept = some 100 := by decide +kernel

/-- The lowest FREE slot is slot 3; and an operand for each refusal. (A table of 2,048 held jobs is not written out here.) -/
theorem witness_HoldJob :
    (running heldSlots = true ∧ presenceOk (present 63 : Opt 16) = true ∧ optional (present 63 : Opt 16) = some 63
      ∧ (account heldSlots 210).state ≠ .free ∧ (account heldSlots 210).kind = .user
      ∧ (job heldSlots 3).state = .free ∧ (∀ k < 3, (job heldSlots k).state ≠ .free))
    ∧ optional (present 64 : Opt 16) = some 64 ∧ 3 < (4 : Byte).toNat
    ∧ (account heldSlots 4095).state = .free ∧ (account site 100).kind = .department := by decide +kernel

/-- A handle that resolves, at the top of the table too, handles above 32,767, stale and of a FREE slot; and jobs in each state
a request refuses. -/
theorem witness_JobRequestsRefused :
    let top : State := { tower with jobs := [(2047, { generation := 15, job := { state := .held } })] }
    resolve top 32767 = some 2047 ∧ 32767 % 2048 = 2047 ∧ (slot top 2047).generation = 15
    ∧ running tower = true ∧ 32767 < (32768 : BitVec 16).toNat ∧ 7 / 2048 ≠ (slot tower 7).generation
    ∧ (job tower 2047).state = .free ∧ ((3 : Byte) = 1 ∨ (3 : Byte) = 3 ∨ (3 : Byte) = 5)
    ∧ resolve jamState 2055 = some 7 ∧ (job jamState 7).state = .printing
    ∧ resolve tower 3 = some 3 ∧ (job tower 3).state.finished = false ∧ (job tower 3).state ≠ .printing := by decide +kernel

theorem witness_HeldJobsEndAndAreRemoved :
    let late : State := { tower with seconds := 87400 }
    let doneOne : State := { tower with jobs := [(2047, { job := { state := .done } })], finished := 1 }
    running tower = true ∧ resolve tower (2055 : BitVec 16).toNat = some (7 : Fin 2048).val ∧ (job tower 7).state = .held
    ∧ tower.seconds < (job tower 7).expiresAt ∧ (job late 7).expiresAt ≤ late.seconds
    ∧ running doneOne = true ∧ resolve doneOne 2047 = some 2047 ∧ (job doneOne 2047).state.finished = true
    ∧ (job doneOne 2047).state ≠ .held := by decide +kernel

theorem witness_CancellingARoutedJob :
    running linkState = true ∧ resolve linkState 2055 = some 7 ∧ (job linkState 7).printer = some 40
    ∧ (job linkState 7).state.routed = true ∧ (job linkState 7).state = .released
    ∧ resolve jamState 2055 = some 7 ∧ (job jamState 7).printer = some 40 ∧ (job jamState 7).state = .printing := by
  decide +kernel

/-- A listing of five; the page counts of none, six and seven, and the second page of seven (R41). -/
theorem witness_ListingIsOrderedAndComplete :
    Canonical tower = true ∧ SlotsBounded tower ∧ (∀ e ∈ tower.jobs, e.2.generation < 16) ∧ listing tower 210 12 ≠ []
    ∧ pageCount 0 = 1 ∧ pageCount 6 = 1 ∧ pageCount 7 = 2 ∧ pageOf [1, 2, 3, 4, 5, 6, 7] 1 = [7] := by
  unfold SlotsBounded
  decide +kernel

/-- A printer for each derived state, and a pool with and without a candidate. -/
theorem witness_PrinterStatesAndTheRouter :
    ({ enrolled := true, service := true } : Printer).derived = some .service
    ∧ ({ enrolled := true, noContact := true } : Printer).derived = some .offline
    ∧ ({ enrolled := true, reported := 0x40 } : Printer).derived = some .faulted
    ∧ ({ enrolled := true } : Printer).derived = some .unknown
    ∧ (printer tower 41).derived = some .busy ∧ (printer tower 40).derived = some .ready
    ∧ route tower 12 .colour = some 40 ∧ route tower 13 .colour = none := by decide +kernel

/-- J1 is RELEASED, J3 RELEASED_MONO, J5 OVER_QUOTA on a used-up account, J6's pool lists no printer, and a job whose charge
is above the ceiling is TOO_LARGE (note 3 of the worked figures of R20); a release that sets warned, and one that does not. -/
theorem witness_ReleaseDecision :
    let used : State := { tower with
      accounts := [(210, { state := .active, tenant := 5, limit := some 20000, used := 15000 })] }
    let spent : State := { tower with
      accounts := [(210, { state := .active, tenant := 5, limit := some 20000, used := 19000 })] }
    let near : State := { tower with
      accounts := [(210, { state := .active, tenant := 5, limit := some 20000, used := 17900 })] }
    let dear : State := { tower with
      tenants := [(5, { colourRate := 65535 })]
      jobs := [(3, { job := { state := .held, owner := 210, pool := none, sidesColour := 9999, copies := 1, size := .a3 } })] }
    (account tower 210).department = none ∧ resolve tower 3 = some 3 ∧ (job tower 3).state = .held
    ∧ (job tower 3).owner = 210 ∧ (job tower 3).pool = some 12
    ∧ (decideRelease tower 3 210 12).result = .released ∧ (decideRelease used 12 210 12).result = .releasedMono
    ∧ (decideRelease spent 30 210 12).result = .overQuota ∧ (decideRelease tower 31 210 9).result = .noPrinter
    ∧ (decideRelease dear 3 210 12).result = .tooLarge ∧ (decideRelease near 3 210 12).warning = true
    ∧ (decideRelease tower 3 210 12).warning = false ∧ (decideRelease tower 3 211 12).result = .gone := by decide +kernel

/-- A head that fits, an empty list, a head the Router moves, and one it does not, alone and with a rest that is dispatched. -/
theorem witness_TakeDispatch :
    let moved : State := { takeState with dispatch := [71] }
    let stuck : State := { takeState with dispatch := [70] }
    (running linkState = true ∧ linkState.dispatch = [2055] ∧ (job linkState 7).printer = some 40
      ∧ (job linkState 7).state = .released ∧ (printer linkState 40).usable = true
      ∧ (printer linkState 40).capability = .colour ∧ (printer linkState 40).hasToner .y = true)
    ∧ (running State.reset = true ∧ State.reset.dispatch = [])
    ∧ (running moved = true ∧ (job moved 71).printer = some 40 ∧ (job moved 71).releasePool = some 12
      ∧ (job moved 71).state = .released ∧ fits moved (job moved 71) = false
      ∧ route moved 12 (printNeed (job moved 71)) = some 41)
    ∧ (running stuck = true ∧ fits stuck (job stuck 70) = false ∧ route stuck 12 (printNeed (job stuck 70)) = none
      ∧ (job stuck 70).state = .released ∧ (job stuck 70).printer = some 44 ∧ (job stuck 70).releasePool = some 12)
    ∧ (takeState.dispatch = 70 :: [71, 72] ∧ fits takeState (job takeState 70) = false
      ∧ route takeState 12 (printNeed (job takeState 70)) = none) := by
  decide +kernel

/-- A count that adds copies (above copies), and one that adds none. -/
theorem witness_ReportProgressCommitsCopies :
    running jamState = true ∧ resolve jamState 2055 = some 7 ∧ (job jamState 7).state = .printing
    ∧ (job jamState 7).printer = some 40 ∧ 0 < min (65535 : BitVec 16).toNat 5 - (job jamState 7).copiesDone
    ∧ min (2 : BitVec 16).toNat 5 - (job jamState 7).copiesDone = 0 := by decide +kernel

theorem witness_CompleteFinishesTheJob :
    running jamState = true ∧ resolve jamState 2055 = some 7 ∧ (job jamState 7).state = .printing
    ∧ (job jamState 7).printer = some 40 ∧ (job jamState 7).copiesDone ≤ (job jamState 7).copies := by decide +kernel

theorem witness_DeliveryFailedAndTheResumeWindow :
    let waiting : State := after (.reportJobEndDeliveryFailed 3 2055) jamState
    running jamState = true ∧ resolve jamState 2055 = some 7 ∧ (job jamState 7).state = .printing
    ∧ running waiting = true ∧ resolve waiting 2055 = some 7 ∧ (job waiting 7).state = .interrupted
    ∧ (job waiting 7).printer = some 40 ∧ (job waiting 7).resumeDeadline = some 6800 ∧ waiting.seconds < 6800
    ∧ 6800 ≤ ({ waiting with seconds := 6800 } : State).seconds
    ∧ (4 : Byte) ≠ 1 ∧ (4 : Byte) ≠ 3 ∧ (4 : Byte) ≠ 5 := by decide +kernel

/-- A jam takes printer 40 down; its end brings it up; a desk group change does neither. -/
theorem witness_GoingDownAndComingUp :
    let old := printer jamState 40
    let jammed : Printer := { old with reported := 0x02 }
    Canonical jamState = true ∧ old.up = true ∧ jammed.down = true ∧ jammed.usable = false ∧ old.usable = true
    ∧ ({ old with deskGroup := 0 } : Printer).down = false := by decide +kernel

/-- A printer not enrolled, MONO and COLOUR printers enrolled, and operands that are refused. -/
theorem witness_EnrollPrinter :
    running gaugeState = true ∧ (printer gaugeState 255).enrolled = false ∧ (31 : BitVec 16).toNat ≤ 31
    ∧ (printer gaugeState 41).enrolled = true ∧ (printer gaugeState 41).capability = .mono
    ∧ (printer gaugeState 41).supplies = [(.k, { model := 0, level := 200000, lastSurvey := 0 })]
    ∧ running tower = true ∧ (printer tower 40).enrolled = true ∧ (printer tower 40).capability = .colour
    ∧ (printer tower 40).supplies.map (fun e => (e.1, e.2.model)) = [(.k, 0), (.c, 0), (.m, 0), (.y, 0)]
    ∧ 255 < (256 : BitVec 16).toNat ∧ 1 < (2 : Byte).toNat ∧ 31 < (32 : BitVec 16).toNat := by decide +kernel

theorem witness_RetirePrinterLeavesNothing :
    running tower = true ∧ (41 : BitVec 16).toNat ≤ 255 ∧ (printer tower 41).enrolled = true ∧ printerNamed tower 41 = true
    ∧ (printer tower 40).enrolled = true ∧ printerNamed tower 40 = false := by decide +kernel

theorem witness_PrinterEventsWriteTheirFields :
    let s : State := { jamState with printers := jamState.printers.map fun e => (e.1, { e.2 with contactDeadline := some 6200 }) }
    Canonical s = true ∧ running s = true ∧ (printer s 40).enrolled = true ∧ (printer s 40).contactDeadline = some 6200
    ∧ 6200 ≤ s.seconds ∧ 6199 < 6200 ∧ (printer jamState 40).contactDeadline = none
    ∧ Canonical jamState = true ∧ (printer jamState 40).enrolled = true := by decide +kernel

/-- A list of two enrolled printers for the last pool, a pool above it, a list with a number twice; printers 255 and 256. -/
theorem witness_SetPoolAndUnknownPrinters :
    running tower = true ∧ (2 ≤ (6 : BitVec 16).toNat ∧ (6 : BitVec 16).toNat ≤ 512 ∧ (6 : BitVec 16).toNat % 2 = 0)
    ∧ [40, 41].Nodup ∧ (printer tower 40).enrolled = true ∧ (printer tower 41).enrolled = true
    ∧ ¬ (64 : BitVec 16).toNat ≤ 63 ∧ ¬ [40, 40].Nodup
    ∧ (printer tower 255).enrolled = false ∧ 255 < (256 : BitVec 16).toNat := by decide +kernel

/-- Channel K, which printer 41 has, channel Y, which it does not have, and code 4, which names none. -/
theorem witness_SupplyModelsAndReports :
    running gaugeState = true ∧ 31 < (32 : BitVec 16).toNat
    ∧ (gaugeState.printers.any fun e => e.2.supplies.any fun x => x.2.model == 0) = true
    ∧ Canonical gaugeState = true ∧ (printer gaugeState 41).enrolled = true ∧ channelOf 0 = some .k
    ∧ (printer gaugeState 41).supply .k = some { model := 0, level := 200000, lastSurvey := 0 }
    ∧ channelOf 3 = some .y ∧ (printer gaugeState 41).supply .y = none ∧ 3 < (4 : Byte).toNat := by decide +kernel

theorem witness_SurveyComputesTheForecast :
    (182000 - 180000) / 60 < 60 ∧ 60 ≤ (180000 - surveySupply.lastSurvey) / 60 ∧ 60 ≤ (3600 - 0) / 60 := by decide

/-- No survey in flight; one of printer 41 at its cursor; one of all printers with none left to visit. -/
theorem witness_SurveyRunsOverThePrinters :
    let flight : State := { gaugeState with survey := { scope := some (.one 41), cursor := 41 } }
    let last : State := { gaugeState with survey := { scope := some .all, cursor := 42 } }
    running gaugeState = true ∧ presenceOk (present 41 : Opt 16) = true ∧ (printer gaugeState 41).enrolled = true
    ∧ gaugeState.survey.scope = none ∧ flight.survey.scope = some (.one 41) ∧ flight.survey.cursor ≤ 41
    ∧ last.survey.scope = some .all ∧ (∀ y < 256, 42 ≤ y → (printer last y).enrolled = false)
    ∧ presenceOk (present 40 : Opt 16) = true ∧ (printer gaugeState 40).enrolled = false
    ∧ optional (present 256 : Opt 16) = some 256 := by decide +kernel

/-- Numbers and codes at both sides of each bound. -/
theorem witness_CalloutSettings :
    running State.reset = true ∧ State.reset.lock = false ∧ CondKind.tonerReorder.position = (8 : Byte).toNat
    ∧ ¬ (9 : Byte).toNat ≤ 8 ∧ (3 : Byte).toNat ≤ 3 ∧ ¬ (4 : Byte).toNat ≤ 3 ∧ (255 : BitVec 16).toNat ≤ 255
    ∧ ¬ (256 : BitVec 16).toNat ≤ 255 ∧ (7 : Byte).toNat ≤ 7 ∧ ¬ (8 : Byte).toNat ≤ 7 := by decide

/-- No record and an empty desk group, no record and a group, a PENDING LEVEL record, an IN_SERVICE EDGE record; and an event
on a printer that changes one kind and keeps another. -/
theorem witness_ConditionChangesActOnTheRecord :
    callout State.reset 0 .doorOpen = none ∧ (printer State.reset 0).deskGroup = 0
    ∧ callout noisy 7 .doorOpen = none ∧ (printer noisy 7).deskGroup ≠ 0
    ∧ callout nested 46 .doorOpen = some (openCallout 1 .level 3)
    ∧ callout nested 44 .paperJam = some { servedCallout 1 .edge 3 with again := true }
    ∧ Canonical noisy = true ∧ (printer noisy 7).condition .paperJam = true
    ∧ ({ printer noisy 7 with reported := 0 } : Printer).condition .paperJam = false
    ∧ ({ printer noisy 7 with reported := 0 } : Printer).condition .doorOpen = (printer noisy 7).condition .doorOpen := by
  decide +kernel

theorem witness_RankStartsAfterTheBase : (classRec noisy 1).base ≤ 255 ∧ (classRec noisy 0).base = 255 := by decide

/-- A desk above 7, a desk with nothing presentable, and printer 40's jam at desk 2, which goes before printer 7's; an
auto_close record of a condition still present, and a TONER_REORDER record. -/
theorem witness_AcknowledgeTakesTheFirstPresentable :
    let reorder : Callout := { openCallout 3 .edge 2 with autoClose := true }
    let standing : Callout := { openCallout 1 .level 2 with autoClose := true }
    let auto : State := { noisy with callouts := place [(7, .paperJam, standing)] }
    let due : State := { noisy with callouts := place [(40, .tonerReorder, reorder)] }
    Canonical noisy = true ∧ running noisy = true ∧ 7 < (8 : Byte).toNat ∧ presentableList noisy 7 = []
    ∧ callout noisy 40 .paperJam = some (openCallout 1 .edge 2) ∧ presentableAt noisy 2 40 (openCallout 1 .edge 2) = true
    ∧ callout noisy 7 .paperJam = some (openCallout 1 .edge 2) ∧ rank noisy 1 40 < rank noisy 1 7
    ∧ Canonical auto = true ∧ callout auto 7 .paperJam = some standing ∧ presentableAt auto 2 7 standing = true
    ∧ (printer auto 7).condition .paperJam = true ∧ presentableList auto 2 = [(7, .paperJam, standing)]
    ∧ Canonical due = true ∧ callout due 40 .tonerReorder = some reorder ∧ presentableAt due 2 40 reorder = true
    ∧ presentableList due 2 = [(40, .tonerReorder, reorder)] := by decide +kernel

/-- Records in service at a NESTED desk, one marked again and a TONER_REORDER record among them, an OPEN desk, a desk with
nothing in service; a desk, a printer and kinds that are refused. -/
theorem witness_CloseRetiresTheRecord :
    let due : State := { nested with
      desks := [(3, { inService := [(45, .tonerReorder)] })]
      callouts := place [(45, .tonerReorder, servedCallout 3 .edge 3)] }
    running nested = true ∧ condKindOf (1 : Byte).toNat = some .fuserFault
    ∧ callout nested 45 .fuserFault = some (servedCallout 0 .level 3) ∧ callout nested 45 .paperJam = none
    ∧ (desk nested 3).mode = .nested
    ∧ (desk nested 3).inService = [(44, .paperOut), (44, .paperJam)] ++ (45, .fuserFault) :: []
    ∧ inServiceClass nested (44, .paperOut) = 2 ∧ inServiceClass nested (44, .paperJam) = 1
    ∧ callout nested 44 .paperJam = some { servedCallout 1 .edge 3 with again := true }
    ∧ running due = true ∧ condKindOf (8 : Byte).toNat = some .tonerReorder
    ∧ callout due 45 .tonerReorder = some (servedCallout 3 .edge 3)
    ∧ (desk noisy 2).mode = .opened ∧ (desk State.reset 0).mode = .nested ∧ (desk State.reset 0).inService = []
    ∧ 7 < (8 : Byte).toNat ∧ 255 < (256 : BitVec 16).toNat ∧ (0 : Byte).toNat = 0 ∧ 8 < (9 : Byte).toNat := by
  decide +kernel

/-- Each carry of a seconds event, a boundary waiting and none, a pattern that matches and one that does not. -/
theorem witness_SecondsAndMinuteBoundaries :
    let eve : Calendar := { year := 99, month := 12, day := 31, hour := 23, minute := 59, second := 59, weekday := weekdayOf 99 12 31 }
    running State.reset = true ∧ State.reset.calendar.legal = true ∧ State.reset.calendar.second < 59
    ∧ leapEve.legal = true ∧ leapEve.day < monthLength 24 2 ∧ eve.legal = true ∧ eve.day = monthLength 99 12
    ∧ State.reset.boundaries = []
    ∧ (rollover State.reset 31).day = some (State.reset.calendar.day)
    ∧ State.reset.surveyPattern.hour ≠ some State.reset.calendar.hour := by decide +kernel

theorem witness_SetClockPatternsAndDates :
    running State.reset = true ∧ patternPresenceOk (pattern absent absent absent absent (present 13)) = true
    ∧ leapEve.legal = true ∧ leapEve.year < 99 := by decide

/-- Each read with its index at the top of its range and just above it. -/
theorem witness_ReadsAnswerAndChangeNothing :
    running tower = true ∧ (31 : BitVec 16).toNat ≤ 31 ∧ resolve tower 2055 = some 7 ∧ Canonical tower = true
    ∧ presenceOk (present 4095 : Opt 16) = true ∧ optional (present 7 : Opt 8) = some 7 ∧ (32767 : BitVec 16).toNat ≤ 32767
    ∧ (printer tower 40).enrolled = true ∧ callout nested 45 .fuserFault ≠ none
    ∧ 31 < (32 : BitVec 16).toNat ∧ 63 < (64 : BitVec 16).toNat ∧ 255 < (256 : BitVec 16).toNat ∧ 3 < (4 : Byte).toNat
    ∧ 7 < (8 : Byte).toNat ∧ 32 < (33 : Byte).toNat ∧ (32 : Byte).toNat ≤ 32
    ∧ 32767 < (32768 : BitVec 16).toNat ∧ optional (present 4096 : Opt 16) = some 4096
    ∧ optional (present 0 : Opt 8) = some 0 ∧ optional (present 8 : Opt 8) = some 8 := by decide +kernel

theorem witness_ReadAttentionAndReadSurvey :
    running linkState = true ∧ ({ linkState with survey := { scope := some (.one 41) } } : State).survey.scope = some (.one 41) := by
  decide

theorem witness_TerminalsJoinAndLeave :
    running towerVisit = true ∧ 3 < (4 : Byte).toNat ∧ 15 < (16 : Byte).toNat ∧ 63 < (64 : BitVec 16).toNat
    ∧ (terminal towerVisit 63).enrolled = false ∧ (loopRec towerVisit 3).state = .off
    ∧ (terminal towerVisit 39).enrolled = true ∧ visit towerVisit 39 ≠ none ∧ (terminal towerVisit 35).enrolled = true
    ∧ visit towerVisit 35 = none
    ∧ (∀ b < 16, b ≠ 7 → (terminal { tower with terminals := [(39, { enrolled := true })] } (terminalNo 2 b)).enrolled = false) := by
  decide +kernel

/-- A loop that is OFF, one that is not, and one in FAULT. -/
theorem witness_LoopFaultsAndResets :
    running towerVisit = true ∧ (loopRec towerVisit 0).state = .off ∧ (loopRec towerVisit 2).state = .continuous
    ∧ running (after (.loopFault 2) towerVisit) = true ∧ (loopRec (after (.loopFault 2) towerVisit) 2).state = .fault := by
  decide +kernel

/-- A QUIET loop at rest, with an idle visit and with a display pending; a CONTINUOUS one; a CLOSE that finds its interval
expired, in either mode; a loop in another state. -/
theorem witness_RollCallsStart :
    let still : State := { tower with loops := [(2, { state := .continuous })] }
    let late : State := { quietLoop with visits := [(39, some { account := 210, page := 0, pageHandles := [30], idleDeadline := 5010 })] }
    let busy : State := { towerVisit with loops := [(2, { state := .continuous, phase := some .close, rollDue := true })] }
    let done : State := { quietLoop with loops := [(2, { state := .continuous, phase := some .close, presenceDue := true })] }
    running quietLoop = true ∧ (loopRec quietLoop 2).state = .quiet ∧ (loopRec quietLoop 2).phase = none
    ∧ (terminal quietLoop 39).pending = none
    ∧ running still = true ∧ (loopRec still 2).state = .continuous ∧ (loopRec still 2).phase = none
    ∧ (visit late 39).map (fun v => decide (v.idleDeadline ≤ late.seconds)) = some true ∧ (loopRec late 2).phase = none
    ∧ (loopRec busy 2).phase = some .close ∧ (loopRec busy 2).rollDue = true ∧ visit busy (terminalNo 2 7) ≠ none
    ∧ (loopRec done 2).phase = some .close ∧ (loopRec done 2).presenceDue = true
    ∧ (∀ a < 16, visit done (terminalNo 2 a) = none ∧ (terminal done (terminalNo 2 a)).pending = none
        ∧ (terminal done (terminalNo 2 a)).flagged = false)
    ∧ (loopRec tower 2).phase ≠ none ∧ (loopRec tower 0).state = .off := by decide +kernel

/-- The slot of an address with another to come, the slot of the last address with a display to be sent at another, with a
flagged terminal alone, and with neither; and slots out of turn. -/
theorem witness_AnswerSlotsDecidePresence :
    let called : State := { tower with loops := [(2, { state := .quiet, phase := some .rollCall, turns := [3, 7] })] }
    let last : State := { tower with
      loops := [(2, { state := .quiet, phase := some .rollCall, turns := [7] })]
      terminals := [(39, { enrolled := true, missed := 2 })] }
    let asked : State := { last with terminals := [(35, { enrolled := true, flagged := true }), (39, { enrolled := true })] }
    let ready : State := { last with
      terminals := [(35, { enrolled := true, answered := true, pending := some .goodbye }), (39, { enrolled := true })] }
    let spent := after (.noAnswer 2 7) last
    let fetched := after (.noAnswer 2 7) asked
    let shown := after (.noAnswer 2 7) ready
    running called = true ∧ (loopRec called 2).phase = some .rollCall ∧ (loopRec called 2).turns = 3 :: [7]
    ∧ (loopRec called 2).state = .quiet ∧ (loopRec called 2).turns.head? ≠ some 7
    ∧ (loopRec last 2).turns = 7 :: [] ∧ (terminal last 39).missed = 2 ∧ (terminal last 39).presence ≠ .present
    ∧ (loopRec spent 2).phase = some .close ∧ (loopRec fetched 2).phase = some .fetch ∧ (terminal fetched 35).flagged = true
    ∧ (loopRec shown 2).phase = some .display ∧ (terminal shown 35).pending ≠ none
    ∧ (loopRec tower 2).phase ≠ some .rollCall := by decide +kernel

/-- A display to send after one terminal without, with a display later and with none; a CLOSE that stays busy and one that
does not; a fetch in turn, with a turn after it and with none, and not in turn. -/
theorem witness_DisplaysFetchesAndClose :
    let shown : State := { towerVisit with
      loops := [(2, { state := .quiet, phase := some .display, turns := [3, 7] })]
      terminals := [(35, { enrolled := true }), (39, { enrolled := true, pending := some .goodbye })] }
    let both : State := { shown with
      terminals := [(35, { enrolled := true, pending := some .suspended }), (39, { enrolled := true, pending := some .goodbye })] }
    let closing : State := { towerVisit with loops := [(2, { state := .quiet, phase := some .close })] }
    let idle : State := { closing with visits := [], terminals := [] }
    let more : State := { tower with loops := [(2, { state := .quiet, phase := some .fetch, turns := [3, 7] })] }
    (running shown = true ∧ (loopRec shown 2).phase = some .display ∧ (loopRec shown 2).turns = [3] ++ 7 :: []
      ∧ (terminal shown (terminalNo 2 3)).pending = none ∧ (terminal shown (terminalNo 2 7)).pending = some .goodbye)
    ∧ ((loopRec both 2).turns = [] ++ 3 :: [7] ∧ (terminal both (terminalNo 2 3)).pending = some .suspended
      ∧ (terminal both (terminalNo 2 7)).pending ≠ none)
    ∧ (running closing = true ∧ (loopRec closing 2).phase = some .close ∧ (loopRec closing 2).rollDue = false
      ∧ (loopRec closing 2).presenceDue = false ∧ visit closing (terminalNo 2 7) ≠ none)
    ∧ (∀ a < 16, visit idle (terminalNo 2 a) = none ∧ (terminal idle (terminalNo 2 a)).pending = none
        ∧ (terminal idle (terminalNo 2 a)).flagged = false)
    ∧ (running tower = true ∧ (loopRec tower 2).phase = some .fetch ∧ (loopRec tower 2).turns = 7 :: []
      ∧ (loopRec more 2).turns = 3 :: [7] ∧ (loopRec tower 2).turns.head? ≠ some 3 ∧ (loopRec tower 0).phase = none) := by
  decide +kernel

/-- The highest address and the longest content; a frame with a character that has no stop bit, and one with another sum; a hold
just long enough for a break, and the shortest and the longest that is a character. -/
theorem witness_LoopFramesSumToZero :
    255 < 256 ∧ (List.replicate 64 (0 : Byte)).length ≤ 64 ∧ ([0x05, 0x06] : List Byte)[1]? = some 0x06
    ∧ (∃ c ∈ [({ data := 0x07, stop := false } : Character)], c.stop = false)
    ∧ byteSum ((chars [0x07, 0x05]).map Character.data) ≠ 0 ∧ 680 < 681 ∧ 10 ≤ 10 ∧ 680 ≤ 680 := by decide

theorem tower_visits : VisitsUnique tower := fun t u v w h => by cases h

/-- A badge in no entry, the badge of an ACTIVE account and one of a SUSPENDED account. -/
theorem witness_BadgeOpensAVisit :
    let out : State := { tower with accounts := [(210, { state := .suspended, badge := some 77301 })] }
    Canonical tower = true ∧ VisitsUnique tower ∧ running tower = true ∧ (loopRec tower 2).phase = some .fetch
    ∧ (loopRec tower 2).turns = 7 :: [] ∧ (loopRec tower 2).state = .continuous
    ∧ badgeHolder tower 5 = none ∧ badgeHolder tower 77301 = some 210 ∧ (account tower 210).state = .active
    ∧ VisitsUnique out ∧ Canonical out = true ∧ badgeHolder out 77301 = some 210 ∧ (account out 210).state = .suspended := by
  refine ⟨?_, tower_visits, ?_, ?_, ?_, ?_, ?_, ?_, ?_, tower_visits, ?_, ?_, ?_⟩ <;> decide +kernel

/-- A visit open with a page of five entries, of which entry 5 is none; and no visit. -/
theorem witness_PicksRunTheReleaseDecision :
    let v : Visit := { account := 210, page := 0, pageHandles := [3, 2055, 12, 9, 30], idleDeadline := 5045 }
    running towerVisit = true ∧ (loopRec towerVisit 2).phase = some .fetch ∧ (loopRec towerVisit 2).turns = 7 :: []
    ∧ (loopRec towerVisit 2).state = .continuous ∧ (5 : Byte) ≠ 0xFF ∧ visit towerVisit 39 = some v
    ∧ v.pageHandles[(5 : Byte).toNat]? = none ∧ v.pageHandles[(4 : Byte).toNat]? = some 30 ∧ visit tower 39 = none := by
  decide +kernel

/-- A visit open, with its deadline still to come and then reached; and none. -/
theorem witness_OtherMessagesOfAVisit :
    let v : Visit := { account := 210, page := 0, pageHandles := [3, 2055, 12, 9, 30], idleDeadline := 5045 }
    running towerVisit = true ∧ (loopRec towerVisit 2).phase = some .fetch ∧ (loopRec towerVisit 2).turns = 7 :: []
    ∧ (loopRec towerVisit 2).state = .continuous ∧ visit towerVisit 39 = some v ∧ towerVisit.seconds < v.idleDeadline
    ∧ v.idleDeadline ≤ ({ towerVisit with seconds := 5045 } : State).seconds ∧ visit tower 39 = none
    ∧ (terminal tower 39).pending = none := by decide +kernel

end Sys2Proof.Tests
end

