-- ==== Sys2Proof/Proofs/Charge.lean ====
section
/-! PROOFS. The charge and the toner of one copy (R20, R21, R118). -/

namespace Sys2Proof.Machine

/-! ## The stages of R20 -/

/-- Stage 2 is the least whole figure not below base × sizeQ / 4: a remainder rounds up. -/
theorem chargeSized_rounds_up (t : Tenant) (j : Job) (mono : Bool) :
    4 * chargeSized t j mono < chargeBase t j mono * sizeQ j.size + 4
    ∧ chargeBase t j mono * sizeQ j.size ≤ 4 * chargeSized t j mono := by
  unfold chargeSized
  constructor <;> omega

theorem chargeSaved_of_simplex (t : Tenant) {j : Job} (h : j.duplex = false) : chargeSaved t j = 0 := by
  simp [chargeSaved, h]

theorem chargeSaved_of_duplex (t : Tenant) {j : Job} (h : j.duplex = true) :
    chargeSaved t j = (j.sidesMono + j.sidesColour) / 2 * t.duplexCredit := by
  simp [chargeSaved, h]

theorem perCopy_add_saved {t : Tenant} {j : Job} {mono : Bool} (h : chargeSaved t j ≤ chargeSized t j mono) :
    perCopy t j mono + chargeSaved t j = chargeSized t j mono :=
  Nat.sub_add_cancel h

/-- A credit above the sized figure makes the copy free of charge, and never less. -/
theorem perCopy_eq_zero {t : Tenant} {j : Job} {mono : Bool} (h : chargeSized t j mono < chargeSaved t j) :
    perCopy t j mono = 0 :=
  Nat.sub_eq_zero_of_le h.le

theorem underCeiling_iff (pc : Nat) (j : Job) : underCeiling pc j = true ↔ pc * j.copies ≤ 1000000000 :=
  decide_eq_true_iff

/-! ## The toner of R118 -/

theorem copyToner_of_full_colour {j : Job} (h : j.forcedMono = false) :
    copyToner j .k = (j.sidesMono + j.sidesColour) * j.covK * sizeQ j.size / 4
    ∧ copyToner j .c = j.sidesColour * j.covC * sizeQ j.size / 4
    ∧ copyToner j .m = j.sidesColour * j.covM * sizeQ j.size / 4
    ∧ copyToner j .y = j.sidesColour * j.covY * sizeQ j.size / 4 := by
  unfold copyToner
  simp [h]

theorem copyToner_of_forced_mono {j : Job} (h : j.forcedMono = true) :
    copyToner j .k =
      (j.sidesMono + j.sidesColour) * min 1000 (j.covK + (j.covC + j.covM + j.covY) / 3) * sizeQ j.size / 4
    ∧ copyToner j .c = 0 ∧ copyToner j .m = 0 ∧ copyToner j .y = 0 := by
  unfold copyToner
  simp [h]

/-- Settles O20: the sized figure and the duplex credit of the model are the two figures the statement asks for. -/
theorem figuresOfOneCopy : Obligations.FiguresOfOneCopy := by
  unfold Obligations.FiguresOfOneCopy
  constructor
  · intro t j mono
    have ⟨below, above⟩ := chargeSized_rounds_up t j mono
    exact ⟨chargeSized t j mono, below, above,
      ⟨chargeSaved t j, chargeSaved_of_simplex t, chargeSaved_of_duplex t, perCopy_add_saved, perCopy_eq_zero⟩,
      underCeiling_iff _ j, rfl⟩
  · intro j
    exact ⟨copyToner_of_full_colour, copyToner_of_forced_mono⟩

end Sys2Proof.Machine
end

