-- ==== Sys2Proof/Proofs/AccountRequests.lean ====
section
/-! PROOFS. The account requests that write one field of a touched account, and their refusals (R11 to R15). -/

namespace Sys2Proof.Machine

/-! ## What each account request runs -/

theorem exec_setLimit (len a : BitVec 16) (limit : Opt 32) (s : State) :
    exec (.setLimit len a limit) s =
      request 0x21 (len == 7) (presenceOk limit) (setLimitRule a.toNat (optional limit)) s := rfl

theorem exec_suspendAccount (len a : BitVec 16) (s : State) :
    exec (.suspendAccount len a) s = request 0x22 (len == 2) true (suspendAccountRule a.toNat) s := rfl

theorem exec_resumeAccount (len a : BitVec 16) (s : State) :
    exec (.resumeAccount len a) s = request 0x23 (len == 2) true (resumeAccountRule a.toNat) s := rfl

theorem exec_retireAccount (len a : BitVec 16) (s : State) :
    exec (.retireAccount len a) s = request 0x24 (len == 2) true (retireAccountRule a.toNat) s := rfl

theorem exec_readAccount (len a : BitVec 16) (s : State) :
    exec (.readAccount len a) s = request 0x25 (len == 2) true (readAccountRule a.toNat) s := rfl

/-! ## A write of a touched account -/

/-- A write of the touched account leaves every record but the accounts. -/
theorem putAccount_touch_frame (s : State) (a : Nat) (r : Account) :
    putAccount (touch s a) a r = { s with accounts := (putAccount (touch s a) a r).accounts } := by
  rw [touch_frame]; rfl

/-- After a write of the touched account `a` that account holds the record written, and no other account differs. -/
theorem account_putAccount_touch (s : State) (a b : Nat) (r : Account) :
    account (putAccount (touch s a) a r) b = if b = a then r else account s b := by
  rw [account_putAccount, account_touch]
  by_cases h : b = a <;> simp [h]

/-! ## The answers a request gives -/

section
variable {kind : Byte} {lengthOk presence : Bool} {rule : State → Reply} {s : State}

/-- A taken request whose rule refuses answers the code and changes no record. -/
theorem request_answers_refusal {c : Code} (hr : running s = true) (hl : lengthOk = true) (hp : presence = true)
    (hrule : rule s = refuse s c) :
    ∃ t, request kind lengthOk presence rule s = .next t ∧ Answers s t kind c [] ∧ t = linked s t := by
  refine ⟨answered kind (refuse s c), ?_, answers_answered rfl, refused_frame s kind c⟩
  rw [request_taken hr hl hp, hrule]

/-- A taken request whose rule writes the accounts alone answers the rule's code and body and leaves its accounts. -/
theorem request_answers_accounts {r : Reply} (hr : running s = true) (hl : lengthOk = true) (hp : presence = true)
    (hrule : rule s = r) (hframe : r.state = { s with accounts := r.state.accounts }) :
    ∃ t, request kind lengthOk presence rule s = .next t ∧ Answers s t kind r.code r.body
      ∧ t = { linked s t with accounts := t.accounts } ∧ ∀ b, account t b = account r.state b := by
  have hresponse : r.state.response = s.response := by rw [hframe]
  refine ⟨answered kind r, ?_, answers_answered hresponse, ?_, fun _ => rfl⟩
  · rw [request_taken hr hl hp, hrule]
  · calc answered kind r
        = linked r.state (answered kind r) := answered_frame kind r
      _ = linked { s with accounts := r.state.accounts } (answered kind r) := congrArg (linked · _) hframe
      _ = { linked s (answered kind r) with accounts := (answered kind r).accounts } := rfl

/-- A taken request whose rule touches an account and writes it answers OK, and no other record changes. -/
theorem request_answers_touched_write {a : Nat} {r : Account} (hr : running s = true) (hl : lengthOk = true)
    (hp : presence = true) (hrule : rule s = { state := putAccount (touch s a) a r, code := .ok }) :
    ∃ t, request kind lengthOk presence rule s = .next t ∧ Answers s t kind .ok []
      ∧ t = { linked s t with accounts := t.accounts } ∧ account t a = r ∧ ∀ b, b ≠ a → account t b = account s b := by
  obtain ⟨t, hnext, hanswers, hframe, hacc⟩ :=
    request_answers_accounts (kind := kind) hr hl hp hrule (putAccount_touch_frame s a r)
  refine ⟨t, hnext, hanswers, hframe, ?_, fun b hb => ?_⟩
  · rw [hacc, account_putAccount_touch, if_pos rfl]
  · rw [hacc, account_putAccount_touch, if_neg hb]

end

/-! ## The rules of the account requests -/

theorem noAccount_iff (s : State) (a : Nat) : noAccount s a = true ↔ 4095 < a ∨ (account s a).state = .free := by
  simp [noAccount]

theorem noAccount_eq_false {s : State} {a : Nat} (hle : a ≤ 4095) (hfree : (account s a).state ≠ .free) :
    noAccount s a = false := by
  simp [noAccount, hle, hfree]

/-- R11's hold of a limit to 1,000,000,000 has no lower bound to apply. -/
theorem clampLimit_eq (limit : Option Nat) : clampLimit limit = limit.map (min 1000000000) := by
  have hclamp : clamp 0 1000000000 = min 1000000000 := by
    funext v
    rw [clamp, if_neg (Nat.not_lt_zero v)]
    split <;> omega
  rw [clampLimit, hclamp]

theorem setLimitRule_of_account {s : State} {a : Nat} (limit : Option Nat) (h : noAccount s a = false) :
    setLimitRule a limit s =
      { state := putAccount (touch s a) a { account (touch s a) a with limit := limit.map (min 1000000000) }
        code := .ok } := by
  simp [setLimitRule, h, clampLimit_eq]

theorem resumeAccountRule_of_account {s : State} {a : Nat} (h : noAccount s a = false) :
    resumeAccountRule a s =
      { state := putAccount (touch s a) a { account (touch s a) a with state := .active }, code := .ok } := by
  simp [resumeAccountRule, h]

theorem setLimitRule_of_noAccount {s : State} {a : Nat} (limit : Option Nat) (h : noAccount s a = true) :
    setLimitRule a limit s = refuse s .noSuch := if_pos h

theorem suspendAccountRule_of_noAccount {s : State} {a : Nat} (h : noAccount s a = true) :
    suspendAccountRule a s = refuse s .noSuch := if_pos h

theorem resumeAccountRule_of_noAccount {s : State} {a : Nat} (h : noAccount s a = true) :
    resumeAccountRule a s = refuse s .noSuch := if_pos h

theorem retireAccountRule_of_noAccount {s : State} {a : Nat} (h : noAccount s a = true) :
    retireAccountRule a s = refuse s .noSuch := if_pos h

/-- Read Account looks at the number alone. -/
theorem readAccountRule_of_number_above {s : State} {a : Nat} (h : 4095 < a) :
    readAccountRule a s = refuse s .noSuch := if_pos h

/-- Settles O17: both writes are a write of the touched account, and all five refusals are decided before any touch. -/
theorem limitAndResume : Obligations.LimitAndResume := by
  unfold Obligations.LimitAndResume
  constructor
  · intro s a limit hr hp hle hfree touched
    have hacc := noAccount_eq_false hle hfree
    rw [exec_setLimit, exec_resumeAccount]
    exact ⟨request_answers_touched_write hr rfl hp (setLimitRule_of_account _ hacc),
      request_answers_touched_write hr rfl rfl (resumeAccountRule_of_account hacc)⟩
  · intro s a limit hr hp
    rw [exec_setLimit, exec_suspendAccount, exec_resumeAccount, exec_retireAccount, exec_readAccount]
    constructor
    · intro hnone
      have hno := (noAccount_iff s a.toNat).mpr hnone
      exact ⟨request_answers_refusal hr rfl hp (setLimitRule_of_noAccount _ hno),
        request_answers_refusal hr rfl rfl (suspendAccountRule_of_noAccount hno),
        request_answers_refusal hr rfl rfl (resumeAccountRule_of_noAccount hno),
        request_answers_refusal hr rfl rfl (retireAccountRule_of_noAccount hno)⟩
    · intro habove
      exact request_answers_refusal hr rfl rfl (readAccountRule_of_number_above habove)

end Sys2Proof.Machine
end

