-- ==== Sys2Proof/Proofs/Listing.lean ====
section
/-! PROOFS. The listing of an account for a pool, its order, and its pages (R40 to R42). -/

namespace Sys2Proof.Machine

/-! ## The slots in use -/

theorem Table.nodup_keys {α : Type} [DecidableEq α] (d : Nat → α) {t : Table α} (h : Table.wf d t = true) :
    (t.map (·.1)).Nodup := by
  induction t with
  | nil => exact List.nodup_nil
  | cons e t ih =>
    obtain ⟨k, v⟩ := e
    simp only [Table.wf, Bool.and_eq_true] at h
    obtain ⟨⟨_, habove⟩, hwf⟩ := h
    refine List.nodup_cons.2 ⟨fun hk => ?_, ih hwf⟩
    obtain ⟨e, he, rfl⟩ := List.mem_map.1 hk
    exact Nat.lt_irrefl _ ((Table.above_iff _ t).1 habove e he)

theorem canonical_jobs {s : State} (h : Canonical s = true) : Table.wf (fun _ => ({} : Slot)) s.jobs = true := by
  simp only [Canonical, Bool.and_eq_true] at h
  simp only [h]

theorem mem_jobs_iff {s : State} (h : Canonical s = true) (i : Nat) (v : Slot) :
    (i, v) ∈ s.jobs ↔ slot s i = v ∧ v ≠ {} :=
  Table.mem_iff_get _ (canonical_jobs h) i v

/-! ## What is listed -/

theorem listed_iff (j : Job) (a q : Nat) :
    listed j a q = true ↔ j.state = .held ∧ j.owner = a ∧ (j.pool = none ∨ j.pool = some q) := by
  simp [listed, and_assoc]

/-- A FREE slot's record is in no listing. -/
theorem ne_free_of_listed {v : Slot} {a q : Nat} (h : listed v.job a q = true) : v ≠ {} := by
  rintro rfl
  cases ((listed_iff _ a q).1 h).1

/-- The listing is an ordering of the slots listed. -/
theorem listing_perm (s : State) (a q : Nat) :
    (listing s a q).Perm ((s.jobs.filter fun e => listed e.2.job a q).map (·.1)) :=
  sortByKey_perm _ _

theorem mem_listing_iff {s : State} (h : Canonical s = true) (a q i : Nat) :
    i ∈ listing s a q ↔ listed (job s i) a q = true := by
  rw [(listing_perm s a q).mem_iff, List.mem_map]
  constructor
  · rintro ⟨⟨i, v⟩, he, rfl⟩
    obtain ⟨hmem, hlisted⟩ := List.mem_filter.1 he
    obtain ⟨hslot, _⟩ := (mem_jobs_iff h i v).1 hmem
    rwa [job, hslot]
  · intro hlisted
    exact ⟨(i, slot s i),
      List.mem_filter.2 ⟨(mem_jobs_iff h i _).2 ⟨rfl, ne_free_of_listed hlisted⟩, hlisted⟩, rfl⟩

theorem listing_nodup {s : State} (h : Canonical s = true) (a q : Nat) : (listing s a q).Nodup :=
  (listing_perm s a q).nodup_iff.2 <|
    (Table.nodup_keys _ (canonical_jobs h)).sublist (List.filter_sublist.map _)

theorem slot_lt_of_mem_listing {s : State} (hs : SlotsBounded s) {a q i : Nat} (hi : i ∈ listing s a q) : i < 2048 := by
  obtain ⟨e, he, rfl⟩ := List.mem_map.1 ((listing_perm s a q).mem_iff.1 hi)
  exact hs e (List.mem_of_mem_filter he)

/-! ## The order of the listing -/

/-- The key `listing` orders by. -/
def listingKey (s : State) (i : Nat) : Nat := (job s i).heldAt * 32768 + handleOf s i

/-- The order of R40: held_at first, oldest before newest, then the full handle. -/
def HeldBefore (s : State) (i k : Nat) : Prop :=
  (job s i).heldAt < (job s k).heldAt ∨ (job s i).heldAt = (job s k).heldAt ∧ handleOf s i < handleOf s k

theorem listing_sorted_by_key (s : State) (a q : Nat) :
    (listing s a q).Pairwise fun i k => listingKey s i ≤ listingKey s k :=
  sortByKey_sorted _ _

/-- Handles below 32,768 leave held_at the upper part of the key, and handles of two slots differ modulo 2,048. -/
theorem heldBefore_of_listingKey_le {s : State} (hg : ∀ i, (slot s i).generation < 16) {i k : Nat} (hi : i < 2048)
    (hk : k < 2048) (hne : i ≠ k) (hle : listingKey s i ≤ listingKey s k) : HeldBefore s i k := by
  have hgi := hg i
  have hgk := hg k
  unfold listingKey handleOf at hle
  unfold HeldBefore handleOf
  omega

theorem listing_pairwise_heldBefore {s : State} (h : Canonical s = true) (hs : SlotsBounded s)
    (hg : ∀ i, (slot s i).generation < 16) (a q : Nat) : (listing s a q).Pairwise (HeldBefore s) := by
  refine ((listing_sorted_by_key s a q).and (listing_nodup h a q)).imp_of_mem ?_
  rintro i k hi hk ⟨hle, hne⟩
  exact heldBefore_of_listingKey_le hg (slot_lt_of_mem_listing hs hi) (slot_lt_of_mem_listing hs hk) hne hle

/-! ## Pages -/

theorem pageCount_eq_max (n : Nat) : pageCount n = max 1 ((n + 5) / 6) := by
  unfold pageCount
  split <;> omega

theorem pageOf_length_le (l : List Nat) (n : Nat) : (pageOf l n).length ≤ 6 :=
  List.length_take_le _ _

theorem pageOf_getElem? (l : List Nat) (n : Nat) {k : Nat} (hk : k < 6) : (pageOf l n)[k]? = l[6 * n + k]? := by
  rw [pageOf, List.getElem?_take_of_lt hk, List.getElem?_drop]

/-- The first `n` pages, one after the other, are the first 6n positions. -/
theorem flatMap_pageOf_range (l : List Nat) (n : Nat) : (List.range n).flatMap (pageOf l) = l.take (6 * n) := by
  induction n with
  | zero => rfl
  | succ n ih =>
    rw [List.range_succ, List.flatMap_append, ih, List.flatMap_singleton, pageOf, ← List.take_add, Nat.mul_succ]

/-- The pages up to the page count hold the whole listing. -/
theorem flatMap_pageOf_pageCount (l : List Nat) : (List.range (pageCount l.length)).flatMap (pageOf l) = l := by
  rw [flatMap_pageOf_range]
  apply List.take_of_length_le
  rw [pageCount_eq_max]
  omega

/-! ## The entries of a page -/

theorem entriesFrom_length (s : State) (n : Nat) (l : List Nat) : (entriesFrom s n l).length = l.length := by
  induction l generalizing n with
  | nil => rfl
  | cons i rest ih => exact congrArg (· + 1) (ih (n + 1))

/-- Entries are numbered one after the other from the first number on. -/
theorem entriesFrom_index {s : State} {n : Nat} {l : List Nat} {k : Nat} {e : ListEntry}
    (h : (entriesFrom s n l)[k]? = some e) : e.index = n + k := by
  induction l generalizing n k with
  | nil => cases h
  | cons i rest ih =>
    cases k with
    | zero => cases h; rfl
    | succ k => rw [ih h]; omega

theorem pageEntry_index {s : State} {l : List Nat} {n k : Nat} {e : ListEntry}
    (h : (entriesFrom s 0 (pageOf l n))[k]? = some e) : e.index = k ∧ k < 6 := by
  have hindex := entriesFrom_index h
  obtain ⟨hk, _⟩ := List.getElem?_eq_some_iff.1 h
  rw [entriesFrom_length] at hk
  have hpage := pageOf_length_le l n
  omega

/-- Settles O27: ordering by the one key of the listing is ordering by held_at and then by handle, since a handle is below
32,768 and no two slots share one; the pages cut the listing every six positions. -/
theorem listingIsOrderedAndComplete : Obligations.ListingIsOrderedAndComplete := by
  unfold Obligations.ListingIsOrderedAndComplete
  constructor
  · intro s a q hc hs hg
    exact ⟨listing_nodup hc a q, fun i => (mem_listing_iff hc a q i).trans (listed_iff _ a q),
      listing_pairwise_heldBefore hc hs hg a q⟩
  · intro s l
    exact ⟨pageCount_eq_max _, fun n => ⟨pageOf_length_le l n, fun _ hk => pageOf_getElem? l n hk⟩,
      fun _ _ _ => pageEntry_index, fun n => entriesFrom_length s 0 _, rfl, rfl, flatMap_pageOf_pageCount l,
      fun _ => rfl⟩

end Sys2Proof.Machine
end

