-- ==== Sys2Proof/Proofs/VisitMessages.lean ====
section
/-! PROOFS. The messages MORE, DONE and REFRESH of a terminal's turn, and the idle expiry of a visit (R75 to R78). -/

namespace Sys2Proof.Machine

/-! ## What each command runs -/

theorem exec_more (l : Fin 4) (a : Fin 16) (s : State) :
    exec (.more l a) s = event (fun s => fetch s l.val a.val true fun s => takeMore s (terminalNo l.val a.val)) s := rfl

theorem exec_done (l : Fin 4) (a : Fin 16) (s : State) :
    exec (.done l a) s =
      event (fun s => fetch s l.val a.val true fun s => endVisit s (terminalNo l.val a.val) .goodbye) s := rfl

theorem exec_refresh (l : Fin 4) (a : Fin 16) (s : State) :
    exec (.refresh l a) s =
      event (fun s => fetch s l.val a.val true fun s => takeRefresh s (terminalNo l.val a.val)) s := rfl

theorem exec_visitIdleExpiry (l : Fin 4) (a : Fin 16) (s : State) :
    exec (.visitIdleExpiry l a) s = event (fun s => idleOut s (terminalNo l.val a.val)) s := rfl

/-! ## The terminal's number and the deadline -/

theorem terminalNo_div (l : Nat) (a : Fin 16) : terminalNo l a.val / 16 = l := by
  unfold terminalNo
  omega

theorem idleDeadline_eq_min (s : State) : idleDeadline s = min 4294967295 (s.seconds + 45) := by
  unfold idleDeadline deadline maxCount
  split <;> omega

theorem settled_settle (s : State) : Settled (settle s) := ⟨rfl, rfl⟩

/-! ## An accepted message -/

/-- The state an accepted message meets: its FETCH and ACCEPT are out and the terminal's flagged is clear (R62). -/
def accepted (s : State) (l a : Nat) : State :=
  let asked := transmit s [(l, fetchFrame a), (l, acceptFrame a)]
  putTerminal asked (terminalNo l a) { terminal asked (terminalNo l a) with flagged := false }

theorem accepted_frame (s : State) (l a : Nat) :
    accepted s l a = { s with terminals := (accepted s l a).terminals, sent := (accepted s l a).sent } := rfl

@[simp] theorem visit_accepted (s : State) (l a x : Nat) : visit (accepted s l a) x = visit s x := rfl
@[simp] theorem loopRec_accepted (s : State) (l a x : Nat) : loopRec (accepted s l a) x = loopRec s x := rfl

@[simp] theorem terminal_accepted (s : State) (l a : Nat) :
    terminal (accepted s l a) (terminalNo l a) = { terminal s (terminalNo l a) with flagged := false } := by
  unfold accepted
  rw [terminal_putTerminal, if_pos rfl]
  rfl

theorem fetchTurn_of_phase {s : State} {l a : Nat} {rest : List Nat} (hphase : (loopRec s l).phase = some .fetch)
    (hturns : (loopRec s l).turns = a :: rest) : fetchTurn s l a = true := by
  simp [fetchTurn, hphase, hturns]

/-- What a message does in its terminal's turn: its effect on the accepted state `e`, and beside that only the passing of the
turn, which writes the loops. -/
theorem message_taken {s : State} {l a : Nat} (effect : State → State) {e : State} (hr : running s = true)
    (hturn : fetchTurn s l a = true) (he : effect (accepted s l a) = e) :
    ∃ t, event (fun s => fetch s l a true effect) s = .next t ∧ Settled t
      ∧ t = { signalled e t with loops := t.loops } := by
  have hfetch : fetch s l a true effect = setTurns e l (loopRec e l).turns.tail := by
    obtain ⟨hout, _⟩ | ⟨_, hfailed, _⟩ | ⟨_, _, t, ht, hf⟩ := fetch_cases s l a true effect
    · rw [hturn] at hout; cases hout
    · cases hfailed
    · rw [hf, ← he, ht]; rfl
  refine ⟨settle (setTurns e l (loopRec e l).turns.tail), ?_, settled_settle _, ?_⟩
  · rw [event_taken hr, hfetch]
  · rw [setTurns_frame]; rfl

section
variable {e t : State} (h : t = { signalled e t with loops := t.loops })
include h

theorem visit_of_passed (x : Nat) : visit t x = visit e x := by rw [h]; rfl

theorem terminal_of_passed (x : Nat) : terminal t x = terminal e x := by rw [h]; rfl

/-- The frame of a message whose effect on the accepted state writes terminals and visits. -/
theorem frame_of_passed {s : State} {l a : Nat}
    (he : e = { accepted s l a with terminals := e.terminals, visits := e.visits }) :
    t = { signalled s t with loops := t.loops, terminals := t.terminals, visits := t.visits, sent := t.sent } := by
  rw [h, he, accepted_frame]
  rfl

end

/-! ## A display pending on a loop that is polled -/

theorem polled_iff (s : State) (l : Nat) :
    polled s l = true ↔ (loopRec s l).state = .quiet ∨ (loopRec s l).state = .continuous := by
  simp [polled]

section
variable {s : State} {t : Nat}

/-- On a QUIET or CONTINUOUS loop a display made pending is the terminal's pending display (R64). -/
theorem pending_pend (d : Display) (hpolled : polled s (t / 16) = true) :
    (terminal (pend s t d) t).pending = some d := by
  obtain hpend | ⟨hstopped, _⟩ := terminal_pend s t d
  · exact hpend
  · obtain hp | hp := (polled_iff s _).1 hpolled <;> rw [hp] at hstopped <;> simp at hstopped

/-- While a roll call is in flight there, making a display pending starts none: it writes the terminal alone (R59, R64). -/
theorem pend_inFlight (d : Display) (hpolled : polled s (t / 16) = true) (hflight : inFlight s (t / 16) = true) :
    pend s t d = putTerminal s t { terminal s t with pending := some d } := by
  obtain hquiet | hcont := (polled_iff s _).1 hpolled
  · have hstill : inFlight (putTerminal s t { terminal s t with pending := some d }) (t / 16) = true := hflight
    simp [pend, hquiet, startIfIdle, hstill]
  · simp [pend, hcont]

theorem endVisit_of_open {v : Visit} (d : Display) (hv : visit s t = some v) :
    endVisit s t d = pend (dropVisit s t) t d := by
  simp [endVisit, hv]

theorem endVisit_of_closed (d : Display) (hv : visit s t = none) : endVisit s t d = s := by
  simp [endVisit, hv]

/-- A visit that ends on a polled loop leaves its display pending (R64, R69). -/
theorem pending_endVisit {v : Visit} (d : Display) (hv : visit s t = some v) (hpolled : polled s (t / 16) = true) :
    (terminal (endVisit s t d) t).pending = some d := by
  rw [endVisit_of_open d hv]
  exact pending_pend d hpolled

/-- While a roll call is in flight, the end of a visit writes the visit and the terminal alone (R59, R64). -/
theorem endVisit_inFlight_frame (d : Display) (hpolled : polled s (t / 16) = true) (hflight : inFlight s (t / 16) = true) :
    endVisit s t d = { s with terminals := (endVisit s t d).terminals, visits := (endVisit s t d).visits } := by
  cases hv : visit s t with
  | none => rw [endVisit_of_closed d hv]
  | some v =>
    rw [endVisit_of_open d hv, pend_inFlight (s := dropVisit s t) d hpolled hflight]
    rfl

/-! ## MORE -/

theorem takeMore_of_open {v : Visit} (hv : visit s t = some v) :
    takeMore s t = showList s t (renewed s v) (v.page + 1) := by
  simp [takeMore, hv]

theorem takeMore_of_closed (hv : visit s t = none) : takeMore s t = s := by
  simp [takeMore, hv]

theorem computeList_page (v : Visit) (asked : Nat) :
    (computeList s t v asked).2.page = pageGiven (listing s v.account (terminal s t).pool).length asked := by
  unfold computeList
  rw [touch_frame]
  rfl

/-- A LIST shown while a roll call is in flight writes the terminal's pending display and what computing the LIST writes. -/
theorem showList_inFlight (v : Visit) (asked : Nat)
    (hpolled : polled s (t / 16) = true) (hflight : inFlight s (t / 16) = true) :
    showList s t v asked =
      putTerminal (computeList s t v asked).1 t
        { terminal s t with pending := some (.list (computeList s t v asked).2) } := by
  have hframe := computeList_frame s t v asked
  have hloop : ∀ x, loopRec (computeList s t v asked).1 x = loopRec s x := fun x => by rw [hframe]; rfl
  have hterm : terminal (computeList s t v asked).1 t = terminal s t := by rw [hframe]; rfl
  rw [showList, pend_inFlight, hterm]
  · rwa [polled, hloop]
  · rwa [inFlight, hloop]

theorem visit_showList (v : Visit) (asked : Nat) :
    visit (showList s t v asked) t =
      let listed := listing s v.account (terminal s t).pool
      let page := pageGiven listed.length asked
      some { v with page := page, pageHandles := (pageOf listed page).map (handleOf s) } := by
  rw [showList, visit_pend, visit_computeList, if_pos rfl]

/-! ## REFRESH -/

theorem visit_takeRefresh : visit (takeRefresh s t) t = (visit s t).map (renewed s) := by
  unfold takeRefresh
  cases hv : visit s t with
  | none => dsimp only; split <;> simp [hv]
  | some v => simp [visit_putVisit]

/-- A REFRESH leaves the terminal as the display made pending leaves it: renewing the visit writes no terminal. -/
theorem terminals_takeRefresh :
    (takeRefresh s t).terminals =
      (if (terminal s t).pending = none then pend s t (terminal s t).current else s).terminals := by
  unfold takeRefresh
  cases visit s t <;> rfl

/-- While a roll call is in flight a REFRESH writes the terminal's pending display alone of its record (R77). -/
theorem terminal_takeRefresh_inFlight
    (hpolled : polled s (t / 16) = true) (hflight : inFlight s (t / 16) = true) :
    terminal (takeRefresh s t) t =
      { terminal s t with
        pending := if (terminal s t).pending = none then some (terminal s t).current else (terminal s t).pending } := by
  rw [terminal, terminals_takeRefresh, pend_inFlight _ hpolled hflight, ← terminal]
  by_cases hp : (terminal s t).pending = none
  · rw [if_pos hp, if_pos hp, terminal_putTerminal, if_pos rfl]
  · rw [if_neg hp, if_neg hp]

theorem takeRefresh_inFlight_frame
    (hpolled : polled s (t / 16) = true) (hflight : inFlight s (t / 16) = true) :
    takeRefresh s t = { s with terminals := (takeRefresh s t).terminals, visits := (takeRefresh s t).visits } := by
  unfold takeRefresh
  rw [pend_inFlight _ hpolled hflight]
  cases visit s t <;> dsimp only <;> split <;> rfl

/-! ## The idle expiry -/

theorem idleOut_of_reached {v : Visit} (hv : visit s t = some v) (hle : v.idleDeadline ≤ s.seconds) :
    idleOut s t = endVisit s t .goodbye := by
  simp [idleOut, hv, hle]

theorem idleOut_of_ahead {v : Visit} (hv : visit s t = some v) (hlt : s.seconds < v.idleDeadline) : idleOut s t = s := by
  simp [idleOut, hv, hlt]

theorem idleOut_of_closed (hv : visit s t = none) : idleOut s t = s := by
  simp [idleOut, hv]

end

/-! ## The commands on a polled loop -/

/-- The part runs, loop `l` is polled, and its roll call is fetching the message of the terminal at address `a`. -/
structure Fetching (s : State) (l a : Nat) : Prop where
  running : running s = true
  polled : polled s l = true
  phase : (loopRec s l).phase = some .fetch
  turn : fetchTurn s l a = true

section
variable {s : State} {l : Fin 4} {a : Fin 16} {v : Visit}

theorem Fetching.accepted_polled (h : Fetching s l.val a.val) :
    Machine.polled (accepted s l.val a.val) (terminalNo l.val a.val / 16) = true := by
  rw [terminalNo_div]
  exact h.polled

theorem Fetching.accepted_inFlight (h : Fetching s l.val a.val) :
    inFlight (accepted s l.val a.val) (terminalNo l.val a.val / 16) = true := by
  rw [terminalNo_div, inFlight, loopRec_accepted, h.phase]
  rfl

/-- MORE shows the page after the visit's own, page 0 after the last, and renews the visit (R71, R75). -/
theorem exec_more_of_open (h : Fetching s l.val a.val) (hv : visit s (terminalNo l.val a.val) = some v) :
    let n := terminalNo l.val a.val
    let listed := listing s v.account (terminal s n).pool
    let page := if v.page + 1 < pageCount listed.length then v.page + 1 else 0
    ∃ t, exec (.more l a) s = .next t ∧ Settled t
      ∧ visit t n = some
          { account := v.account, page := page, pageHandles := ((listed.drop (6 * page)).take 6).map (handleOf s)
            idleDeadline := min 4294967295 (s.seconds + 45) }
      ∧ (∃ part, (terminal t n).pending = some (.list part) ∧ part.page = page)
      ∧ t = { signalled s t with
          loops := t.loops, terminals := t.terminals, visits := t.visits, sent := t.sent, accounts := t.accounts } := by
  intro n listed page
  let e := accepted s l.val a.val
  have heffect := takeMore_of_open (s := e) hv
  obtain ⟨t, hnext, hsettled, ht⟩ := message_taken (takeMore · n) h.running h.turn heffect
  have hshow := showList_inFlight (renewed e v) (v.page + 1) h.accepted_polled h.accepted_inFlight
  have hpool : (terminal e n).pool = (terminal s n).pool := by rw [terminal_accepted]
  refine ⟨t, hnext, hsettled, ?_, ⟨(computeList e n (renewed e v) (v.page + 1)).2, ?_, ?_⟩, ?_⟩
  · rw [visit_of_passed ht, visit_showList, hpool, ← idleDeadline_eq_min]
    rfl
  · rw [terminal_of_passed ht, hshow, terminal_putTerminal, if_pos rfl]
  · rw [computeList_page, hpool]
    rfl
  · rw [ht, hshow, computeList_frame, touch_frame]
    rfl

/-- DONE ends the visit with GOODBYE (R76). -/
theorem exec_done_of_open (h : Fetching s l.val a.val) (hv : visit s (terminalNo l.val a.val) = some v) :
    let n := terminalNo l.val a.val
    ∃ t, exec (.done l a) s = .next t ∧ Settled t ∧ visit t n = none
      ∧ (terminal t n).pending = some .goodbye ∧ (∀ x, x ≠ n → visit t x = visit s x)
      ∧ t = { signalled s t with
          loops := t.loops, terminals := t.terminals, visits := t.visits, sent := t.sent } := by
  intro n
  obtain ⟨t, hnext, hsettled, ht⟩ := message_taken (endVisit · n .goodbye) h.running h.turn rfl
  have hframe := endVisit_inFlight_frame .goodbye h.accepted_polled h.accepted_inFlight
  refine ⟨t, hnext, hsettled, ?_, ?_, fun x hx => ?_, ?_⟩
  · rw [visit_of_passed ht, visit_endVisit, if_pos rfl]
  · rw [terminal_of_passed ht]
    exact pending_endVisit (s := accepted s l.val a.val) .goodbye hv h.accepted_polled
  · rw [visit_of_passed ht, visit_endVisit, if_neg hx, visit_accepted]
  · exact frame_of_passed ht hframe

/-- A message whose effect leaves the accepted state as it is does no more than the fetch (R62). -/
theorem message_without_effect (h : Fetching s l.val a.val) {effect : State → State}
    (heffect : effect (accepted s l.val a.val) = accepted s l.val a.val) :
    ∃ t, event (fun s => fetch s l.val a.val true effect) s = .next t ∧ Settled t
      ∧ terminal t (terminalNo l.val a.val) = { terminal s (terminalNo l.val a.val) with flagged := false }
      ∧ t = { signalled s t with loops := t.loops, terminals := t.terminals, sent := t.sent } := by
  obtain ⟨t, hnext, hsettled, ht⟩ := message_taken effect h.running h.turn heffect
  refine ⟨t, hnext, hsettled, ?_, ?_⟩
  · rw [terminal_of_passed ht, terminal_accepted]
  · rw [ht, accepted_frame]
    rfl

/-- REFRESH makes the current display pending unless one is pending, and renews an open visit (R77). -/
theorem exec_refresh_of_turn (h : Fetching s l.val a.val) :
    let n := terminalNo l.val a.val
    ∃ t, exec (.refresh l a) s = .next t ∧ Settled t
      ∧ (terminal t n).pending =
          (if (terminal s n).pending = none then some (terminal s n).current else (terminal s n).pending)
      ∧ (terminal t n).current = (terminal s n).current
      ∧ visit t n = (visit s n).map (fun v => { v with idleDeadline := min 4294967295 (s.seconds + 45) })
      ∧ t = { signalled s t with
          loops := t.loops, terminals := t.terminals, visits := t.visits, sent := t.sent } := by
  intro n
  obtain ⟨t, hnext, hsettled, ht⟩ := message_taken (takeRefresh · n) h.running h.turn rfl
  have hterm := terminal_takeRefresh_inFlight h.accepted_polled h.accepted_inFlight
  have hframe := takeRefresh_inFlight_frame h.accepted_polled h.accepted_inFlight
  refine ⟨t, hnext, hsettled, ?_, ?_, ?_, ?_⟩
  · rw [terminal_of_passed ht, hterm, terminal_accepted]
  · rw [terminal_of_passed ht, hterm, terminal_accepted]
  · rw [visit_of_passed ht, visit_takeRefresh, ← idleDeadline_eq_min]
    rfl
  · exact frame_of_passed ht hframe

/-- A visit whose deadline is reached ends with GOODBYE, whatever the phase of its loop (R78). -/
theorem exec_visitIdleExpiry_of_reached (hr : running s = true) (hpolled : polled s l.val = true)
    (hv : visit s (terminalNo l.val a.val) = some v) (hle : v.idleDeadline ≤ s.seconds) :
    let n := terminalNo l.val a.val
    ∃ t, exec (.visitIdleExpiry l a) s = .next t ∧ Settled t ∧ visit t n = none
      ∧ (terminal t n).pending = some .goodbye ∧ (∀ x, x ≠ n → visit t x = visit s x)
      ∧ t = { signalled s t with
          loops := t.loops, terminals := t.terminals, visits := t.visits, draws := t.draws } := by
  intro n
  have hframe := onlyLoops_endVisit s n .goodbye
  refine ⟨settle (endVisit s n .goodbye), ?_, settled_settle _, ?_, ?_, fun x hx => ?_, ?_⟩
  · rw [exec_visitIdleExpiry, event_taken hr, idleOut_of_reached hv hle]
  · exact (visit_endVisit s n .goodbye n).trans (if_pos rfl)
  · exact pending_endVisit .goodbye hv (by rwa [terminalNo_div])
  · exact (visit_endVisit s n .goodbye x).trans (if_neg hx)
  · rw [OnlyLoops] at hframe
    rw [hframe]
    rfl

/-- An idle expiry with no deadline reached ends nothing (R78). -/
theorem exec_visitIdleExpiry_of_idle (hr : running s = true) (hidle : idleOut s (terminalNo l.val a.val) = s) :
    exec (.visitIdleExpiry l a) s = .next (settle s) := by
  rw [exec_visitIdleExpiry, event_taken hr, hidle]

end

/-- Settles O60: a message in its turn meets a roll call in flight, so the display it makes pending starts none and only the
terminal, its visit and the turn are written; an idle expiry may meet any phase. -/
theorem otherMessagesOfAVisit : Obligations.OtherMessagesOfAVisit := by
  unfold Obligations.OtherMessagesOfAVisit
  intro s l a rest hr n q hstate late
  have hpolled := (polled_iff s l.val).2 hstate
  refine ⟨fun hphase hturns => ?_, fun v hv => ⟨?_, ?_⟩, fun hv => ?_⟩
  · have h : Fetching s l.val a.val := ⟨hr, hpolled, hphase, fetchTurn_of_phase hphase hturns⟩
    refine ⟨fun v hv => ⟨exec_more_of_open h hv, exec_done_of_open h hv⟩, fun hv c hc => ?_, exec_refresh_of_turn h⟩
    simp only [List.mem_cons, List.not_mem_nil, or_false] at hc
    obtain rfl | rfl := hc
    · exact message_without_effect h (takeMore_of_closed hv)
    · exact message_without_effect h (endVisit_of_closed .goodbye hv)
  · exact exec_visitIdleExpiry_of_reached hr hpolled hv
  · exact fun hlt => exec_visitIdleExpiry_of_idle hr (idleOut_of_ahead hv hlt)
  · exact exec_visitIdleExpiry_of_idle hr (idleOut_of_closed hv)

end Sys2Proof.Machine
end

