-- ==== Sys2Proof/Proofs/Router.lean ====
section
/-! PROOFS. The derived state, the usability and the condition set of a printer (R87 to R89), and the Router's choice
(R95, R96). -/

namespace Sys2Proof.Machine

/-! ## The derived state, one line of R88's table each -/

/-- The places of R87's reported kinds in the condition set. -/
theorem reportedMask_getLsbD (i : Nat) (h : i < 8) : reportedMask.getLsbD i = decide (i ∈ [0, 1, 2, 4, 6]) := by
  revert i
  decide

/-- FAULTED asks for one of the reported kinds that the mask keeps. -/
theorem reported_masked_ne_zero_iff (b : BitVec 8) :
    b &&& reportedMask ≠ 0 ↔ ∃ i ∈ [0, 1, 2, 4, 6], b.getLsbD i = true := by
  constructor
  · intro hne
    by_contra hnone
    refine hne (BitVec.eq_of_getLsbD_eq fun i hi => ?_)
    have hclear : i ∈ [0, 1, 2, 4, 6] → b.getLsbD i = false := fun hmem =>
      Bool.eq_false_iff.2 fun hset => hnone ⟨i, hmem, hset⟩
    rw [BitVec.getLsbD_and, reportedMask_getLsbD i hi]
    by_cases hmem : i ∈ [0, 1, 2, 4, 6]
    · simp [hclear hmem]
    · simp [hmem]
  · rintro ⟨i, hmem, hset⟩ hzero
    have hkept : (b &&& reportedMask).getLsbD i = true := by
      rw [BitVec.getLsbD_and, hset, reportedMask_getLsbD i (BitVec.lt_of_getLsbD hset)]
      simpa using hmem
    rw [hzero] at hkept
    simp at hkept

section
variable {r : Printer}

theorem Printer.derived_of_not_enrolled (he : r.enrolled = false) : r.derived = none := by
  simp [Printer.derived, he]

theorem Printer.derived_of_service (he : r.enrolled = true) (hs : r.service = true) : r.derived = some .service := by
  simp [Printer.derived, he, hs]

theorem Printer.derived_of_noContact (he : r.enrolled = true) (hs : r.service = false) (hc : r.noContact = true) :
    r.derived = some .offline := by
  simp [Printer.derived, he, hs, hc]

/-- The printer is enrolled, not in SERVICE and in contact: what it reports decides its derived state (R88). -/
structure Printer.Listening (r : Printer) : Prop where
  enrolled : r.enrolled = true
  service : r.service = false
  contact : r.noContact = false

theorem Printer.Listening.derived (h : r.Listening) :
    r.derived =
      if r.reported &&& reportedMask ≠ 0 then some .faulted
      else if !r.everReported then some .unknown
      else if 0 < r.queueCount then some .busy
      else some .ready := by
  simp [Printer.derived, h.enrolled, h.service, h.contact]

theorem Printer.Listening.derived_of_fault (h : r.Listening)
    (hf : ∃ i ∈ [0, 1, 2, 4, 6], r.reported.getLsbD i = true) : r.derived = some .faulted := by
  rw [h.derived, if_pos ((reported_masked_ne_zero_iff _).2 hf)]

theorem Printer.Listening.derived_of_no_fault (h : r.Listening)
    (hf : ¬ ∃ i ∈ [0, 1, 2, 4, 6], r.reported.getLsbD i = true) :
    r.derived =
      if !r.everReported then some .unknown else if 0 < r.queueCount then some .busy else some .ready := by
  rw [h.derived, if_neg (mt (reported_masked_ne_zero_iff _).1 hf)]

end

/-! ## Usability -/

theorem Printer.hasToner_iff (r : Printer) (ch : Channel) :
    r.hasToner ch = true ↔ ∃ x, r.supply ch = some x ∧ 0 < x.level := by
  unfold Printer.hasToner
  cases r.supply ch <;> simp

theorem Printer.usable_iff (r : Printer) :
    r.usable = true ↔
      (r.derived = some .ready ∨ r.derived = some .busy) ∧ ∃ x, r.supply .k = some x ∧ 0 < x.level := by
  simp [Printer.usable, Printer.up, Printer.hasToner_iff]

/-! ## The condition set -/

theorem maskOf_getLsbD (p : Nat → Bool) {n i : Nat} (hn : n ≤ 8) :
    (maskOf p n).getLsbD i = (decide (i < n) && p i) := by
  induction n with
  | zero => simp [maskOf]
  | succ n ih =>
    have hpow : (1#8 <<< n).getLsbD i = decide (i = n) := by
      rw [← BitVec.twoPow, BitVec.getLsbD_twoPow]
      simp [Nat.lt_of_succ_le hn, eq_comm]
    have hbit : (if p n then 1#8 <<< n else 0).getLsbD i = (decide (i = n) && p n) := by
      cases hp : p n <;> simp [hpow]
    rw [maskOf, BitVec.getLsbD_or, ih (Nat.le_of_succ_le hn), hbit]
    by_cases hi : i = n
    · simp [hi]
    · have hlt : i < n + 1 ↔ i < n := by omega
      simp [hi, hlt]

theorem Printer.conditionSet_getLsbD (r : Printer) (k : CondKind) :
    r.conditionSet.getLsbD (k.position - 1) = r.condition k := by
  have hbound : k.position - 1 < 8 := by have := k.position_bounds; omega
  have hkind : kindOfKey (k.position - 1) = k := by simpa [calloutKey] using kindOfKey_calloutKey 0 k
  rw [Printer.conditionSet, maskOf_getLsbD _ le_rfl, hkind]
  simp [hbound]

theorem Printer.condition_tonerEmpty_iff (r : Printer) :
    r.condition .tonerEmpty = true ↔ ∃ e ∈ r.supplies, e.2.level = 0 := by
  simp [Printer.condition]

theorem Printer.condition_tonerReorder_iff (r : Printer) :
    r.condition .tonerReorder = true ↔ ∃ e ∈ r.supplies, e.2.reorder = .due := by
  simp [Printer.condition]

/-! ## The Router -/

theorem Printer.candidate_iff (r : Printer) (need : Need) :
    r.candidate need = true ↔
      r.usable = true
      ∧ (need = .colour → r.capability = .colour ∧ ∀ ch, ch ≠ .k → ∃ x, r.supply ch = some x ∧ 0 < x.level) := by
  cases need with
  | mono => simp [Printer.candidate]
  | colour =>
    have hchannels : (∀ ch, ch ≠ .k → r.hasToner ch = true) ↔
        r.hasToner .c = true ∧ r.hasToner .m = true ∧ r.hasToner .y = true := by
      constructor
      · exact fun h => ⟨h .c nofun, h .m nofun, h .y nofun⟩
      · rintro ⟨hc, hm, hy⟩ ch hch
        cases ch with
        | k => exact absurd rfl hch
        | c => exact hc
        | m => exact hm
        | y => exact hy
    simp only [← Printer.hasToner_iff, hchannels]
    simp [Printer.candidate, and_assoc]

/-- The first element of lowest key among those of a list with a property, where the list itself is split. -/
theorem leastByKey_filter_some {α : Type} (key : α → Nat) (f : α → Bool) (l : List α) (x : α)
    (h : leastByKey key (l.filter f) = some x) :
    f x = true ∧ ∃ before after, l = before ++ x :: after
      ∧ (∀ y ∈ before, f y = true → key x < key y) ∧ ∀ y ∈ after, f y = true → key x ≤ key y := by
  obtain ⟨kept, rest, hsplit, hkept, hrest⟩ := leastByKey_some key _ x h
  obtain ⟨front, back, rfl, rfl, hback⟩ := List.filter_eq_append_iff.1 hsplit
  obtain ⟨skipped, after, rfl, hskipped, hx, rfl⟩ := List.filter_eq_cons_iff.1 hback
  refine ⟨hx, front ++ skipped, after, (List.append_assoc ..).symm, fun y hy hfy => ?_, fun y hy hfy => ?_⟩
  · obtain hy | hy := List.mem_append.1 hy
    · exact hkept y (List.mem_filter.2 ⟨hy, hfy⟩)
    · exact absurd hfy (hskipped y hy)
  · exact hrest y (List.mem_filter.2 ⟨hy, hfy⟩)

theorem route_some {s : State} {q : Nat} {need : Need} {p : Nat} (h : route s q need = some p) :
    (printer s p).candidate need = true
    ∧ ∃ before after, pool s q = before ++ p :: after
      ∧ (∀ x ∈ before, (printer s x).candidate need = true → (printer s p).queueCount < (printer s x).queueCount)
      ∧ ∀ x ∈ after, (printer s x).candidate need = true → (printer s p).queueCount ≤ (printer s x).queueCount :=
  leastByKey_filter_some _ _ _ p h

theorem route_least {s : State} {q : Nat} {need : Need} {p x : Nat} (h : route s q need = some p) (hx : x ∈ pool s q)
    (hc : (printer s x).candidate need = true) : (printer s p).queueCount ≤ (printer s x).queueCount := by
  obtain ⟨-, before, after, hsplit, hbefore, hafter⟩ := route_some h
  rw [hsplit, List.mem_append, List.mem_cons] at hx
  obtain hx | rfl | hx := hx
  · exact (hbefore x hx hc).le
  · exact le_rfl
  · exact hafter x hx hc

theorem route_none_iff (s : State) (q : Nat) (need : Need) :
    route s q need = none ↔ ∀ x ∈ pool s q, ¬ (printer s x).candidate need = true := by
  rw [route, leastByKey_none, List.filter_eq_nil_iff]

/-- Settles O28: R88's table line by line, the bits of the condition set, and the Router's choice as the first candidate of
least queue count, where the pool's list is split at the choice. -/
theorem printerStatesAndTheRouter : Obligations.PrinterStatesAndTheRouter := by
  unfold Obligations.PrinterStatesAndTheRouter
  constructor
  · intro r faulty
    refine ⟨Printer.derived_of_not_enrolled, fun he => ⟨Printer.derived_of_service he, Printer.derived_of_noContact he,
      fun hs hc => ?_⟩, r.usable_iff, r.conditionSet_getLsbD, ⟨rfl, rfl, rfl, rfl, rfl, rfl⟩,
      r.condition_tonerEmpty_iff, r.condition_tonerReorder_iff⟩
    have h : r.Listening := ⟨he, hs, hc⟩
    refine ⟨h.derived_of_fault, fun hf hever => ?_, fun hf hever hq => ?_, fun hf hever hq => ?_⟩
    · simp [h.derived_of_no_fault hf, hever]
    · simp [h.derived_of_no_fault hf, hever, hq]
    · simp [h.derived_of_no_fault hf, hever, hq]
  · intro s q need
    simp only [← Printer.candidate_iff]
    refine ⟨fun p h => ?_, route_none_iff s q need⟩
    obtain ⟨hcandidate, before, after, hsplit, hbefore, -⟩ := route_some h
    exact ⟨by simp [hsplit], hcandidate, fun x => route_least h, before, after, hsplit, hbefore⟩

end Sys2Proof.Machine
end

