-- ==== Sys2Proof/Proofs/Survey.lean ====
section
/-! PROOFS. The survey computation of one supply (R128, R129). -/

namespace Sys2Proof.Machine

/-! ## The figures of a computation -/

theorem newUsage_of_first {x : Supply} (now : Nat) (h : x.usage = none) : newUsage now x = dailyFigure now x := by
  simp [newUsage, h]

theorem newUsage_of_later {x : Supply} {u : Nat} (now : Nat) (h : x.usage = some u) :
    newUsage now x = (7 * u + dailyFigure now x) / 8 := by
  simp [newUsage, h]

@[simp] theorem forecastOf_zero (level : Nat) : forecastOf level 0 = 999 := rfl

/-- With some usage the forecast is the whole days the level lasts, held to 999. -/
theorem forecastOf_of_usage (level : Nat) {usage : Nat} (h : usage ≠ 0) :
    forecastOf level usage = min 999 (level / usage) := by
  rw [forecastOf, if_neg h]
  split <;> omega

theorem forecastOf_eq_ite_min (level usage : Nat) :
    forecastOf level usage = if usage = 0 then 999 else min 999 (level / usage) := by
  split
  case isTrue h => rw [h, forecastOf_zero]
  case isFalse h => exact forecastOf_of_usage level h

/-! ## The two outcomes of a visit -/

theorem Supply.visited_of_recent {x : Supply} {now : Nat} (lead : Nat) (h : surveyElapsed now x < 60) :
    x.visited now lead = x :=
  if_pos h

/-- The edge of R129 looks at the low flag before the visit and at the forecast of the visit. -/
theorem Supply.visited_of_hour {x : Supply} {now : Nat} (lead : Nat) (h : 60 ≤ surveyElapsed now x) :
    let forecast := forecastOf x.level (newUsage now x)
    x.visited now lead =
      { model := x.model, level := x.level, accumulator := 0, usage := some (newUsage now x), forecast := some forecast
        low := decide (forecast ≤ lead)
        reorder := if x.low = false ∧ forecast ≤ lead ∧ x.reorder = .none then .due else x.reorder
        lastSurvey := now } := by
  simp only [Supply.visited, if_neg h.not_gt, decide_eq_true_eq]

/-- Settles O40: a visit skips or computes, and a computation takes its usage from the daily figure alone the first time and
from the moving average later. -/
theorem surveyComputesTheForecast : Obligations.SurveyComputesTheForecast := by
  unfold Obligations.SurveyComputesTheForecast
  intro x now lead elapsed
  refine ⟨Supply.visited_of_recent lead, fun hhour => ?_⟩
  rw [Supply.visited_of_hour lead hhour, forecastOf_eq_ite_min]
  cases husage : x.usage with
  | none => rw [newUsage_of_first now husage]; rfl
  | some u => rw [newUsage_of_later now husage]; rfl

end Sys2Proof.Machine
end

