-- ==== Sys2Proof/Proofs/CalloutSettings.lean ====
section
/-! PROOFS. The requests that write one setting of the Callout Controller (R137, R146, R148). -/

namespace Sys2Proof.Machine

/-! ## What each setting request runs -/

theorem exec_setCondition (len : BitVec 16) (kind cls sense auto : Byte) (s : State) :
    exec (.setCondition len kind cls sense auto) s =
      request 0x70 (len == 4) true
        (setConditionRule (condKindOf kind.toNat) cls.toNat (senseOf sense) (flag auto)) s := rfl

theorem exec_setClassMode (len : BitVec 16) (c mode : Byte) (s : State) :
    exec (.setClassMode len c mode) s =
      request 0x72 (len == 2) true (setClassModeRule c.toNat (classModeOf mode)) s := rfl

theorem exec_setClassBase (len : BitVec 16) (c : Byte) (base : BitVec 16) (s : State) :
    exec (.setClassBase len c base) s = request 0x73 (len == 3) true (setClassBaseRule c.toNat base.toNat) s := rfl

theorem exec_setDeskMode (len : BitVec 16) (d mode : Byte) (s : State) :
    exec (.setDeskMode len d mode) s =
      request 0x75 (len == 2) true (setDeskModeRule d.toNat (deskModeOf mode)) s := rfl

/-! ## Codes (R195) -/

/-- The decoding of a field that has the codes 0 and 1 alone. -/
theorem two_codes_eq {α : Type} (b : Byte) (x y : α) :
    (if b = 0 then some x else if b = 1 then some y else none) =
      if b.toNat ≤ 1 then some (if b = 0 then x else y) else none := by
  by_cases h0 : b = 0
  · simp [h0]
  · by_cases h1 : b = 1
    · simp [h1]
    · have habove : ¬ b.toNat ≤ 1 := by bv_omega
      rw [if_neg h0, if_neg h1, if_neg habove]

theorem classModeOf_eq (b : Byte) :
    classModeOf b = if b.toNat ≤ 1 then some (if b = 0 then .fixed else .rotating) else none :=
  two_codes_eq b ..

theorem deskModeOf_eq (b : Byte) :
    deskModeOf b = if b.toNat ≤ 1 then some (if b = 0 then .nested else .opened) else none :=
  two_codes_eq b ..

theorem senseOf_eq (b : Byte) : senseOf b = if b.toNat ≤ 1 then some (if b = 0 then .level else .edge) else none :=
  two_codes_eq b ..

/-- The code of a kind is its position, and every code from 1 to 8 is one. -/
theorem exists_condKindOf {n : Nat} (h : 1 ≤ n ∧ n ≤ 8) : ∃ k, condKindOf n = some k ∧ k.position = n := by
  obtain ⟨hlow, hhigh⟩ := h
  interval_cases n <;> exact ⟨_, rfl, rfl⟩

theorem position_of_condKindOf {n : Nat} {k : CondKind} (h : condKindOf n = some k) : k.position = n := by
  unfold condKindOf at h
  split at h <;> cases h <;> rfl

theorem condKindOf_eq_none {n : Nat} (h : ¬ (1 ≤ n ∧ n ≤ 8)) : condKindOf n = none :=
  Option.eq_none_iff_forall_ne_some.mpr fun k hk => h (position_of_condKindOf hk ▸ k.position_bounds)

/-! ## The rules of the settings -/

theorem setConditionRule_of_codes {s : State} {kind : Option CondKind} {k : CondKind} {c : Nat} {sense : Byte} (auto : Bool)
    (hlock : s.lock = false) (hk : kind = some k) (hc : c ≤ 3) (hsense : sense.toNat ≤ 1) :
    setConditionRule kind c (senseOf sense) auto s =
      { state := putCondEntry s k { cls := c, sense := if sense = 0 then .level else .edge, autoClose := auto }
        code := .ok } := by
  simp [setConditionRule, hlock, hk, senseOf_eq, hsense, hc.not_gt]

theorem setConditionRule_of_bad_code {s : State} {n c : Nat} {sense : Byte} (auto : Bool) (hlock : s.lock = false)
    (h : ¬ (1 ≤ n ∧ n ≤ 8 ∧ c ≤ 3 ∧ sense.toNat ≤ 1)) :
    setConditionRule (condKindOf n) c (senseOf sense) auto s = refuse s .badField := by
  simp only [setConditionRule, hlock, Bool.false_eq_true, if_false]
  split
  case h_1 k e hk he =>
    have hn := position_of_condKindOf hk ▸ k.position_bounds
    have hsense : sense.toNat ≤ 1 := by
      by_contra habove
      simp [senseOf_eq, habove] at he
    exact if_pos (by omega)
  case h_2 => rfl

theorem setClassModeRule_eq (c : Nat) (mode : Byte) (s : State) :
    setClassModeRule c (classModeOf mode) s =
      if c ≤ 3 ∧ mode.toNat ≤ 1 then
        { state := putClass s c { classRec s c with mode := if mode = 0 then .fixed else .rotating }, code := .ok }
      else refuse s .badField := by
  rw [classModeOf_eq]
  by_cases hmode : mode.toNat ≤ 1
  · by_cases hc : c ≤ 3
    · simp [setClassModeRule, hmode, hc, hc.not_gt]
    · simp [setClassModeRule, hmode, hc, not_le.mp hc]
  · simp [setClassModeRule, hmode]

theorem setClassBaseRule_eq (c base : Nat) (s : State) :
    setClassBaseRule c base s =
      if c ≤ 3 ∧ base ≤ 255 then { state := putClass s c { classRec s c with base := base }, code := .ok }
      else refuse s .badField := by
  by_cases h : c ≤ 3 ∧ base ≤ 255
  · rw [if_pos h, setClassBaseRule, if_neg (by omega)]
  · rw [if_neg h, setClassBaseRule, if_pos (by omega)]

theorem setDeskModeRule_eq (d : Nat) (mode : Byte) (s : State) :
    setDeskModeRule d (deskModeOf mode) s =
      if d ≤ 7 ∧ mode.toNat ≤ 1 then
        { state := putDesk s d { desk s d with mode := if mode = 0 then .nested else .opened }, code := .ok }
      else refuse s .badField := by
  rw [deskModeOf_eq]
  by_cases hmode : mode.toNat ≤ 1
  · by_cases hd : d ≤ 7
    · simp [setDeskModeRule, hmode, hd, hd.not_gt]
    · simp [setDeskModeRule, hmode, hd, not_le.mp hd]
  · simp [setDeskModeRule, hmode]

/-! ## The records after a setting -/

theorem classRec_putClass_update (s : State) (k x : Nat) (f : ClassRec → ClassRec) :
    classRec (putClass s k (f (classRec s k))) x = if x = k then f (classRec s x) else classRec s x := by
  rw [classRec_putClass]
  split
  case isTrue h => rw [h]
  case isFalse => rfl

theorem desk_putDesk_update (s : State) (k x : Nat) (f : Desk → Desk) :
    desk (putDesk s k (f (desk s k))) x = if x = k then f (desk s x) else desk s x := by
  rw [desk_putDesk]
  split
  case isTrue h => rw [h]
  case isFalse => rfl

/-! ## The answers of a setting request -/

section
variable {kind : Byte} {lengthOk presence : Bool} {rule : State → Reply} {s w : State} {Q : State → Prop}

/-- A taken request whose rule writes `w` answers OK and leaves what holds of `w` answered. -/
theorem request_answers_write (hr : running s = true) (hl : lengthOk = true) (hp : presence = true)
    (hrule : rule s = { state := w, code := .ok }) (hresponse : w.response = s.response)
    (hwrite : Q (answered kind { state := w, code := .ok })) :
    ∃ t, request kind lengthOk presence rule s = .next t ∧ Answers s t kind .ok [] ∧ Q t := by
  refine ⟨_, ?_, answers_answered hresponse, hwrite⟩
  rw [request_taken hr hl hp, hrule]

/-- A taken request whose rule tests its fields either writes, and answers OK, or is refused with nothing written. -/
theorem request_answers_write_or_badField {p : Prop} [Decidable p] (hr : running s = true) (hl : lengthOk = true)
    (hp : presence = true) (hrule : rule s = if p then { state := w, code := .ok } else refuse s .badField)
    (hresponse : w.response = s.response) (hwrite : Q (answered kind { state := w, code := .ok })) :
    ∃ t, request kind lengthOk presence rule s = .next t
      ∧ if p then Answers s t kind .ok [] ∧ Q t else Answers s t kind .badField [] ∧ t = linked s t := by
  by_cases h : p
  · simp only [if_pos h] at hrule ⊢
    exact request_answers_write hr hl hp hrule hresponse hwrite
  · simp only [if_neg h] at hrule ⊢
    exact request_answers_refusal hr hl hp hrule

end

/-- Set Condition on a part whose lock is clear, with its four fields in range, writes the entry of the kind it names. -/
theorem exec_setCondition_of_codes {s : State} {n c sense : Byte} (auto : Byte) (hr : running s = true)
    (hlock : s.lock = false) (hn : 1 ≤ n.toNat ∧ n.toNat ≤ 8) (hc : c.toNat ≤ 3) (hsense : sense.toNat ≤ 1) :
    ∃ t, exec (.setCondition 4 n c sense auto) s = .next t ∧ Answers s t 0x70 .ok []
      ∧ t = { linked s t with conditions := t.conditions }
      ∧ ∀ k : CondKind, condEntry t k =
          if k.position = n.toNat then
            { cls := c.toNat, sense := if sense = 0 then .level else .edge, autoClose := auto != 0 }
          else condEntry s k := by
  obtain ⟨k, hk, hposition⟩ := exists_condKindOf hn
  have hnamed : ∀ x : CondKind, x.position = n.toNat ↔ x = k := fun x =>
    ⟨fun h => CondKind.position_inj (h.trans hposition.symm), fun h => h ▸ hposition⟩
  simp only [hnamed, exec_setCondition]
  exact request_answers_write hr rfl rfl (setConditionRule_of_codes _ hlock hk hc hsense) rfl
    ⟨rfl, fun x => condEntry_putCondEntry s k x _⟩

/-- Settles O42: each request is one write of a table entry, or a refusal. -/
theorem calloutSettings : Obligations.CalloutSettings := by
  unfold Obligations.CalloutSettings
  intro s n code sense auto base hr
  refine ⟨fun hlock => ?_, ?_, ?_, ?_⟩
  · by_cases h : 1 ≤ n.toNat ∧ n.toNat ≤ 8 ∧ code.toNat ≤ 3 ∧ sense.toNat ≤ 1
    · obtain ⟨hlow, hhigh, hc, hsense⟩ := h
      obtain ⟨t, hnext, hwritten⟩ := exec_setCondition_of_codes auto hr hlock ⟨hlow, hhigh⟩ hc hsense
      exact ⟨t, hnext, fun _ => hwritten, fun hbad => absurd ⟨hlow, hhigh, hc, hsense⟩ hbad⟩
    · obtain ⟨t, hnext, hrefused⟩ :=
        request_answers_refusal (kind := 0x70) hr rfl rfl (setConditionRule_of_bad_code (flag auto) hlock h)
      exact ⟨t, hnext, fun hgood => absurd hgood h, fun _ => hrefused⟩
  · exact request_answers_write_or_badField hr rfl rfl (setClassModeRule_eq ..) rfl
      ⟨rfl, fun c => classRec_putClass_update s n.toNat c ({ · with mode := if code = 0 then .fixed else .rotating })⟩
  · exact request_answers_write_or_badField hr rfl rfl (setClassBaseRule_eq ..) rfl
      ⟨rfl, fun c => classRec_putClass_update s n.toNat c ({ · with base := base.toNat })⟩
  · exact request_answers_write_or_badField hr rfl rfl (setDeskModeRule_eq ..) rfl
      ⟨rfl, fun d => desk_putDesk_update s n.toNat d ({ · with mode := if code = 0 then .nested else .opened })⟩

end Sys2Proof.Machine
end

