-- ==== Sys2Proof/Proofs/Frames.lean ====
section
/-! PROOFS. Which fields of the state an operation may change: the frame of each shared operation, said once, and how frames
are put one after the other. -/

namespace Sys2Proof.Machine

/-- The names of the fields of the state, to write down which of them an operation may change. -/
inductive Field where
  | pending | port | resetPinLow | supplyLow | response | hsdo | driven | attn | lock | tenants | accounts | badgeMap
  | jobs | releaseCounter | finished | dispatch | printers | pools | models | survey | conditions | callouts | classes
  | desks | deskSet | loops | terminals | visits | sent | seconds | calendar | rollovers | surveyPattern | boundaries
  | draws
deriving DecidableEq

/-- The state `s` with the fields of `w` taken from `t`. -/
def merge (w : List Field) (s t : State) : State where
  pending := if .pending ∈ w then t.pending else s.pending
  port := if .port ∈ w then t.port else s.port
  resetPinLow := if .resetPinLow ∈ w then t.resetPinLow else s.resetPinLow
  supplyLow := if .supplyLow ∈ w then t.supplyLow else s.supplyLow
  response := if .response ∈ w then t.response else s.response
  hsdo := if .hsdo ∈ w then t.hsdo else s.hsdo
  driven := if .driven ∈ w then t.driven else s.driven
  attn := if .attn ∈ w then t.attn else s.attn
  lock := if .lock ∈ w then t.lock else s.lock
  tenants := if .tenants ∈ w then t.tenants else s.tenants
  accounts := if .accounts ∈ w then t.accounts else s.accounts
  badgeMap := if .badgeMap ∈ w then t.badgeMap else s.badgeMap
  jobs := if .jobs ∈ w then t.jobs else s.jobs
  releaseCounter := if .releaseCounter ∈ w then t.releaseCounter else s.releaseCounter
  finished := if .finished ∈ w then t.finished else s.finished
  dispatch := if .dispatch ∈ w then t.dispatch else s.dispatch
  printers := if .printers ∈ w then t.printers else s.printers
  pools := if .pools ∈ w then t.pools else s.pools
  models := if .models ∈ w then t.models else s.models
  survey := if .survey ∈ w then t.survey else s.survey
  conditions := if .conditions ∈ w then t.conditions else s.conditions
  callouts := if .callouts ∈ w then t.callouts else s.callouts
  classes := if .classes ∈ w then t.classes else s.classes
  desks := if .desks ∈ w then t.desks else s.desks
  deskSet := if .deskSet ∈ w then t.deskSet else s.deskSet
  loops := if .loops ∈ w then t.loops else s.loops
  terminals := if .terminals ∈ w then t.terminals else s.terminals
  visits := if .visits ∈ w then t.visits else s.visits
  sent := if .sent ∈ w then t.sent else s.sent
  seconds := if .seconds ∈ w then t.seconds else s.seconds
  calendar := if .calendar ∈ w then t.calendar else s.calendar
  rollovers := if .rollovers ∈ w then t.rollovers else s.rollovers
  surveyPattern := if .surveyPattern ∈ w then t.surveyPattern else s.surveyPattern
  boundaries := if .boundaries ∈ w then t.boundaries else s.boundaries
  draws := if .draws ∈ w then t.draws else s.draws

/-- `t` differs from `s` in the fields of `w` alone. -/
def Frame (w : List Field) (s t : State) : Prop := t = merge w s t

/-- Two states hold the same value in a field. -/
def Field.same (s t : State) : Field → Prop
  | .pending => t.pending = s.pending
  | .port => t.port = s.port
  | .resetPinLow => t.resetPinLow = s.resetPinLow
  | .supplyLow => t.supplyLow = s.supplyLow
  | .response => t.response = s.response
  | .hsdo => t.hsdo = s.hsdo
  | .driven => t.driven = s.driven
  | .attn => t.attn = s.attn
  | .lock => t.lock = s.lock
  | .tenants => t.tenants = s.tenants
  | .accounts => t.accounts = s.accounts
  | .badgeMap => t.badgeMap = s.badgeMap
  | .jobs => t.jobs = s.jobs
  | .releaseCounter => t.releaseCounter = s.releaseCounter
  | .finished => t.finished = s.finished
  | .dispatch => t.dispatch = s.dispatch
  | .printers => t.printers = s.printers
  | .pools => t.pools = s.pools
  | .models => t.models = s.models
  | .survey => t.survey = s.survey
  | .conditions => t.conditions = s.conditions
  | .callouts => t.callouts = s.callouts
  | .classes => t.classes = s.classes
  | .desks => t.desks = s.desks
  | .deskSet => t.deskSet = s.deskSet
  | .loops => t.loops = s.loops
  | .terminals => t.terminals = s.terminals
  | .visits => t.visits = s.visits
  | .sent => t.sent = s.sent
  | .seconds => t.seconds = s.seconds
  | .calendar => t.calendar = s.calendar
  | .rollovers => t.rollovers = s.rollovers
  | .surveyPattern => t.surveyPattern = s.surveyPattern
  | .boundaries => t.boundaries = s.boundaries
  | .draws => t.draws = s.draws

theorem frame_iff (w : List Field) (s t : State) : Frame w s t ↔ ∀ f, f ∉ w → f.same s t := by
  constructor
  · intro h f hf
    rw [h]
    cases f <;> exact if_neg hf
  · intro h
    have field : ∀ {α : Type} (f : Field) (x y : α), (f ∉ w → y = x) → y = if f ∈ w then y else x := by
      intro α f x y hxy
      split
      · rfl
      · exact hxy ‹_›
    unfold Frame merge
    obtain ⟨⟩ := t
    congr 1 <;> exact field _ _ _ (h _)

namespace Frame

variable {w w' : List Field} {s t u : State}

theorem same (h : Frame w s t) (f : Field) (hf : f ∉ w) : f.same s t := (frame_iff w s t).1 h f hf

theorem refl (w : List Field) (s : State) : Frame w s s := (frame_iff w s s).2 fun f _ => by cases f <;> rfl

theorem trans (h : Frame w s t) (k : Frame w t u) : Frame w s u := by
  rw [frame_iff] at *
  intro f hf
  have hst := h f hf
  have htu := k f hf
  cases f <;> exact htu.trans hst

theorem mono (h : Frame w s t) (hw : ∀ f ∈ w, f ∈ w') : Frame w' s t :=
  (frame_iff w' s t).2 fun f hf => (frame_iff w s t).1 h f fun hm => hf (hw f hm)

/-- A write set that covers two operations covers the one after the other. -/
theorem comp {w₁ w₂ : List Field} (h : Frame w₁ s t) (k : Frame w₂ t u) (hw : ∀ f ∈ w₁ ++ w₂, f ∈ w) :
    Frame w s u :=
  (h.mono fun f hf => hw f (List.mem_append_left w₂ hf)).trans (k.mono fun f hf => hw f (List.mem_append_right w₁ hf))

theorem ite {c : Prop} [Decidable c] (h : Frame w s t) (k : Frame w s u) : Frame w s (if c then t else u) := by
  split
  · exact h
  · exact k

/-- A fold of operations within one write set stays within it. -/
theorem foldl {β : Type} {f : State → β → State} (step : ∀ s b, Frame w s (f s b)) (l : List β) (s : State) :
    Frame w s (l.foldl f s) :=
  foldl_rel (Frame.refl w) (fun _ _ _ => Frame.trans) step l s

/-! ### What a frame says of the records -/

theorem tenantRec (h : Frame w s t) (x : Nat) (hf : .tenants ∉ w) : tenantRec t x = tenantRec s x :=
  congrArg (Table.get _ x) (h.same .tenants hf)

theorem account (h : Frame w s t) (x : Nat) (hf : .accounts ∉ w) : account t x = account s x :=
  congrArg (Table.get _ x) (h.same .accounts hf)

theorem badgeHolder (h : Frame w s t) (x : Nat) (hf : .badgeMap ∉ w) : badgeHolder t x = badgeHolder s x :=
  congrArg (Table.get _ x) (h.same .badgeMap hf)

theorem slot (h : Frame w s t) (x : Nat) (hf : .jobs ∉ w) : slot t x = slot s x :=
  congrArg (Table.get _ x) (h.same .jobs hf)

theorem job (h : Frame w s t) (x : Nat) (hf : .jobs ∉ w) : job t x = job s x :=
  congrArg Slot.job (h.slot x hf)

theorem handleOf (h : Frame w s t) (x : Nat) (hf : .jobs ∉ w) : handleOf t x = handleOf s x :=
  congrArg (fun r : Slot => r.generation * 2048 + x) (h.slot x hf)

theorem printer (h : Frame w s t) (x : Nat) (hf : .printers ∉ w) : printer t x = printer s x :=
  congrArg (Table.get _ x) (h.same .printers hf)

theorem pool (h : Frame w s t) (x : Nat) (hf : .pools ∉ w) : pool t x = pool s x :=
  congrArg (Table.get _ x) (h.same .pools hf)

theorem model (h : Frame w s t) (x : Nat) (hf : .models ∉ w) : model t x = model s x :=
  congrArg (Table.get _ x) (h.same .models hf)

theorem condEntry (h : Frame w s t) (k : CondKind) (hf : .conditions ∉ w) : condEntry t k = condEntry s k :=
  congrArg (Table.get _ k.position) (h.same .conditions hf)

theorem callout (h : Frame w s t) (p : Nat) (k : CondKind) (hf : .callouts ∉ w) :
    callout t p k = callout s p k :=
  congrArg (Table.get _ (calloutKey p k)) (h.same .callouts hf)

theorem classRec (h : Frame w s t) (x : Nat) (hf : .classes ∉ w) : classRec t x = classRec s x :=
  congrArg (Table.get _ x) (h.same .classes hf)

theorem desk (h : Frame w s t) (x : Nat) (hf : .desks ∉ w) : desk t x = desk s x :=
  congrArg (Table.get _ x) (h.same .desks hf)

theorem loopRec (h : Frame w s t) (x : Nat) (hf : .loops ∉ w) : loopRec t x = loopRec s x :=
  congrArg (Table.get _ x) (h.same .loops hf)

theorem terminal (h : Frame w s t) (x : Nat) (hf : .terminals ∉ w) : terminal t x = terminal s x :=
  congrArg (Table.get _ x) (h.same .terminals hf)

theorem visit (h : Frame w s t) (x : Nat) (hf : .visits ∉ w) : visit t x = visit s x :=
  congrArg (Table.get _ x) (h.same .visits hf)

theorem rollover (h : Frame w s t) (x : Nat) (hf : .rollovers ∉ w) : rollover t x = rollover s x :=
  congrArg (Table.get _ x) (h.same .rollovers hf)

end Frame

/-! ## The write sets of the shared operations -/

/-- What a frame at the port and the end of every command write. -/
abbrev Field.link : List Field := [.port, .hsdo, .driven, .response, .deskSet, .attn]

/-- What the end of an event writes. -/
abbrev Field.signal : List Field := [.deskSet, .attn]

/-- What the operations of the Loop Controller and the Visit Table write. -/
abbrev Field.loopSide : List Field := [.loops, .terminals, .visits, .draws]

/-- What showing a LIST or a RESULT writes. -/
abbrev Field.visitSide : List Field := [.loops, .terminals, .visits, .draws, .accounts]

/-- What an event on a printer writes. -/
abbrev Field.printerSide : List Field := [.printers, .jobs, .finished, .dispatch, .callouts]

/-- What the money operations and a change of a job write. -/
abbrev Field.books : List Field := [.accounts, .jobs, .finished]

/-- What a release decision writes. -/
abbrev Field.release : List Field := [.accounts, .jobs, .finished, .dispatch, .releaseCounter, .printers]

section
variable (s : State)

theorem frame_answered (kind : Byte) (r : Reply) : Frame Field.link r.state (answered kind r) := rfl

theorem frame_settle : Frame Field.signal s (settle s) := rfl

theorem linked_eq_merge (t : State) : linked s t = merge Field.link s t := rfl

/-! ### The writes of one record -/

theorem frame_putTenant (k : Nat) (r : Tenant) : Frame [.tenants] s (putTenant s k r) := rfl
theorem frame_putAccount (k : Nat) (r : Account) : Frame [.accounts] s (putAccount s k r) := rfl
theorem frame_moveBadge (a : Nat) (old new : Option Nat) : Frame [.badgeMap] s (moveBadge s a old new) := rfl
theorem frame_putSlot (k : Nat) (r : Slot) : Frame [.jobs, .finished] s (putSlot s k r) := rfl
theorem frame_putJob (k : Nat) (r : Job) : Frame [.jobs, .finished] s (putJob s k r) := rfl
theorem frame_putPrinter (k : Nat) (r : Printer) : Frame [.printers] s (putPrinter s k r) := rfl
theorem frame_putPool (k : Nat) (r : List Nat) : Frame [.pools] s (putPool s k r) := rfl
theorem frame_putCallout (p : Nat) (k : CondKind) (c : Option Callout) : Frame [.callouts] s (putCallout s p k c) := rfl
theorem frame_putDesk (k : Nat) (r : Desk) : Frame [.desks] s (putDesk s k r) := rfl
theorem frame_putLoop (k : Nat) (r : Loop) : Frame [.loops] s (putLoop s k r) := rfl
theorem frame_putTerminal (k : Nat) (r : Terminal) : Frame [.terminals] s (putTerminal s k r) := rfl
theorem frame_putVisit (k : Nat) (v : Option Visit) : Frame [.visits] s (putVisit s k v) := rfl
theorem frame_transmit (frames : List (Nat × List Byte)) : Frame [.sent] s (transmit s frames) := rfl
theorem frame_survey (v : Survey) : Frame [.survey] s { s with survey := v } := rfl

/-! ### Accounts -/

theorem frame_touch (a : Nat) : Frame [.accounts] s (touch s a) := touch_frame s a

theorem frame_touchOpt (o : Option Nat) : Frame [.accounts] s (touchOpt s o) := touchOpt_frame s o

theorem frame_reserve (i pc due : Nat) (mono : Bool) : Frame Field.books s (reserve s i pc due mono).state :=
  onlyBooks_reserve s i pc due mono

theorem frame_commit (i k : Nat) : Frame Field.books s (commit s i k) := onlyBooks_commit s i k

theorem frame_returnReservation (i : Nat) : Frame Field.books s (returnReservation s i) := onlyBooks_returnReservation s i

/-! ### Printers and callouts -/

theorem frame_handChange (p : Nat) (k : CondKind) (present : Bool) : Frame [.callouts] s (handChange s p k present) :=
  onlyCallouts_handChange s p k present

theorem frame_handChanges (p : Nat) (before after : CondKind → Bool) :
    Frame [.callouts] s (handChanges s p before after) := onlyCallouts_handChanges s p before after

theorem frame_handToJobs (p : Nat) (old new : Printer) :
    Frame [.jobs, .finished, .dispatch] s (handToJobs s p old new) := onlyDispatch_handToJobs s p old new

theorem frame_printerEvent (p : Nat) (f : Printer → Printer) : Frame Field.printerSide s (printerEvent s p f) :=
  printerEvent_frame s p f

theorem frame_raiseQueue (p : Nat) : Frame [.printers] s (raiseQueue s p) := rfl

theorem frame_lowerQueue (o : Option Nat) : Frame [.printers] s (lowerQueue s o) := lowerQueue_frame s o

theorem frame_consume (i k : Nat) : Frame Field.printerSide s (consume s i k) := by
  unfold consume
  split
  · exact Frame.refl _ s
  · exact frame_printerEvent s _ _

theorem frame_leavePools (p : Nat) : Frame [.pools] s (leavePools s p) := by
  unfold leavePools
  exact Frame.foldl (fun s q => frame_putPool s q _) _ s

theorem frame_deleteCallouts (p : Nat) : Frame [.callouts, .desks] s (deleteCallouts s p) := by
  unfold deleteCallouts
  exact (Frame.foldl (fun s k => frame_putCallout s p k none) _ s).comp
    (Frame.foldl (fun s d => frame_putDesk s d _) _ _) (by decide)

theorem frame_retireCallout (p : Nat) (k : CondKind) (c : Callout) :
    Frame (.desks :: Field.printerSide) s (retireCallout s p k c) := by
  have left : Frame [.desks] s (match c.state with
      | .pending => s
      | .inService =>
        putDesk s c.desk { desk s c.desk with inService := (desk s c.desk).inService.filter (· != (p, k)) }) := by
    split
    · exact Frame.refl _ s
    · rfl
  have removed := left.comp (w := .desks :: Field.printerSide) (w₂ := [.callouts]) (u := putCallout _ p k none) rfl
    (by decide)
  have ordered : Frame (.desks :: Field.printerSide) s
      (if k = .tonerReorder then orderDue (putCallout _ p k none) p else putCallout _ p k none) :=
    (removed.comp (frame_printerEvent _ p Printer.order) (by decide)).ite removed
  unfold retireCallout
  exact (ordered.comp (w₂ := [.callouts]) (u := raiseCallout _ p k) rfl (by decide)).ite ordered

theorem frame_takeCallout (d p : Nat) (k : CondKind) (c : Callout) :
    Frame (.classes :: .desks :: Field.printerSide) s (takeCallout s d p k c) := by
  have rotated : Frame [.classes] s (rotateBase s c.cls p) := by
    unfold rotateBase
    split
    · exact Frame.refl _ s
    · rfl
  have served := rotated.comp (w := .classes :: .desks :: Field.printerSide) (w₂ := [.callouts, .desks])
    (u := putInService _ d p k c) rfl (by decide)
  unfold takeCallout
  exact (rotated.comp (frame_retireCallout _ p k c) (by decide)).ite
    ((served.comp (frame_printerEvent _ p Printer.order) (by decide)).ite served)

/-! ### Jobs -/

theorem frame_revertJob (i : Nat) : Frame [.jobs, .finished] s (revertJob s i) := revertJob_frame s i

theorem frame_giveUpRelease (i : Nat) : Frame (.printers :: Field.books) s (giveUpRelease s i) :=
  Frame.mono (w := [.accounts, .jobs, .finished, .printers]) (giveUpRelease_frame s i) (by decide)

theorem frame_reportCopies (i k : Nat) : Frame (.accounts :: Field.printerSide) s (reportCopies s i k) :=
  (Frame.refl _ s).ite ((frame_commit s i k).comp (frame_consume _ i k) (by decide))

theorem frame_decideRelease (h a q : Nat) : Frame Field.release s (decideRelease s h a q).state :=
  onlyRelease_decideRelease s h a q

theorem frame_decideAll (a q : Nat) : Frame Field.release s (decideAll s a q).state := onlyRelease_decideAll s a q

theorem frame_cancelRouted (i : Nat) : Frame (.printers :: .dispatch :: Field.books) s (cancelRouted s i) := by
  have off : Frame [.dispatch] s
      (if (job s i).state = .released then { s with dispatch := s.dispatch.filter (· != handleOf s i) } else s) :=
    Frame.ite rfl (Frame.refl _ s)
  exact ((off.comp (w := .printers :: .dispatch :: Field.books) (frame_returnReservation _ i) (by decide)).comp
    (w := .printers :: .dispatch :: Field.books) (frame_lowerQueue _ _) (by decide)).comp (w₂ := [.jobs, .finished]) rfl
      (by decide)

theorem frame_takeFrom (l : List Nat) (n : Nat) :
    Frame (.printers :: .dispatch :: Field.books) s (takeFrom s n l).state := by
  induction l generalizing s n with
  | nil => rfl
  | cons h rest ih =>
    have off : Frame [.dispatch] s { s with dispatch := rest } := rfl
    unfold takeFrom
    dsimp only
    split
    · exact off.comp (w₂ := [.jobs, .finished]) rfl (by decide)
    · split
      · exact off.comp
          ((frame_lowerQueue _ _).comp (w := [.printers, .jobs, .finished]) (w₂ := [.printers, .jobs, .finished])
            (u := rerouteJob _ _ _) rfl (by decide)) (by decide)
      · exact (off.comp (w := .printers :: .dispatch :: Field.books) (frame_giveUpRelease _ _) (by decide)).trans (ih _ _)

/-! ### Loops and visits -/

theorem frame_mapTerminals (l : Nat) (f : Terminal → Terminal) : Frame [.terminals] s (mapTerminals s l f) :=
  mapTerminals_frame s l f

theorem frame_startRollCall (l : Nat) : Frame [.loops, .terminals, .draws] s (startRollCall s l) := by
  have draws : ∀ u : State, Frame [.draws] u { u with draws := s.draws + 1 } := fun _ => rfl
  exact ((frame_mapTerminals s l _).comp (w := [.loops, .terminals, .draws]) (frame_putLoop _ l _) (by decide)).comp
    (draws _) (by decide)

theorem frame_startIfIdle (l : Nat) : Frame [.loops, .terminals, .draws] s (startIfIdle s l) :=
  (Frame.refl _ s).ite (frame_startRollCall s l)

theorem frame_setTurns (l : Nat) (turns : List Nat) : Frame [.loops] s (setTurns s l turns) := setTurns_frame s l turns

theorem frame_pend (t : Nat) (d : Display) : Frame [.loops, .terminals, .draws] s (pend s t d) := by
  unfold pend
  split
  · rfl
  · rfl
  · exact (frame_putTerminal s t _).comp (frame_startIfIdle _ _) (by decide)
  · rfl

theorem frame_endVisit (t : Nat) (d : Display) : Frame Field.loopSide s (endVisit s t d) := onlyLoops_endVisit s t d

theorem frame_endVisitOf (a : Nat) (d : Display) : Frame Field.loopSide s (endVisitOf s a d) := onlyLoops_endVisitOf s a d

theorem frame_dropVisits (l : Nat) : Frame [.visits] s (dropVisits s l) := by
  unfold dropVisits
  exact Frame.foldl (fun s a => frame_putVisit s (terminalNo l a) none) _ s

theorem frame_showList (t : Nat) (v : Visit) (asked : Nat) : Frame Field.visitSide s (showList s t v asked) :=
  Frame.mono (w := [.loops, .terminals, .visits, .accounts, .draws]) (onlyVisits_showList s t v asked) (by decide)

theorem frame_showResult (t : Nat) (v : Visit) (r : ResultPart) : Frame Field.visitSide s (showResult s t v r) :=
  Frame.mono (w := [.loops, .terminals, .visits, .accounts, .draws]) (onlyVisits_showResult s t v r) (by decide)

theorem frame_joinLoop (l : Nat) : Frame [.loops, .terminals, .draws] s (joinLoop s l) := by
  unfold joinLoop
  split
  · exact (frame_putLoop s l _).comp (frame_startRollCall _ l) (by decide)
  · exact frame_startIfIdle s l
  · exact frame_startIfIdle s l
  · exact Frame.refl _ s

theorem frame_leaveLoop (l a : Nat) : Frame [.loops] s (leaveLoop s l a) :=
  Frame.ite rfl ((frame_setTurns s l _).ite (Frame.refl _ s))

theorem frame_clearLoop (l : Nat) (st : LoopState) : Frame [.loops, .terminals, .visits] s (clearLoop s l st) :=
  ((frame_dropVisits s l).comp (w := [.terminals, .visits]) (frame_mapTerminals _ l _) (by decide)).comp
    (w₂ := [.loops]) rfl (by decide)

theorem frame_restartLoop (l : Nat) : Frame [.loops, .terminals, .draws] s (restartLoop s l) :=
  ((frame_mapTerminals s l _).comp (w := [.loops, .terminals, .draws]) (frame_putLoop _ l _) (by decide)).trans
    (frame_startRollCall _ l)

theorem frame_takeAnswer (t : Nat) (flagged : Bool) : Frame [.loops, .terminals, .draws] s (takeAnswer s t flagged) :=
  Frame.ite ((frame_putTerminal s t _).comp (frame_pend _ t _) (by decide)) rfl

theorem frame_missAnswer (t : Nat) : Frame [.terminals, .visits] s (missAnswer s t) :=
  Frame.ite rfl (Frame.ite rfl (Frame.refl _ s))

/-- An answer slot writes the loops and what was sent, beside what its effect writes (R60). -/
theorem frame_rollSlot {w : List Field} {effect : State → State} (he : ∀ s, Frame w s (effect s)) (l a : Nat)
    (hw : ∀ f ∈ [.loops, .sent], f ∈ w) : Frame w s (rollSlot s l a effect) := by
  have called : Frame w s (effect (transmit s [(l, callFrame a)])) :=
    ((frame_transmit s _).mono fun f hf => hw f (List.mem_cons_of_mem _ hf)).trans (he _)
  exact (Frame.refl _ s).ite
    (called.trans ((frame_setTurns _ l _).mono fun f hf => hw f (List.mem_cons.2 (.inl (List.mem_singleton.1 hf)))))

/-- A fetch writes the loops, the terminals and what was sent, beside what its effect writes (R62). -/
theorem frame_fetch {w : List Field} {effect : State → State} (he : ∀ s, Frame w s (effect s)) (l a : Nat) (accept : Bool)
    (hw : ∀ f ∈ [.loops, .terminals, .sent], f ∈ w) : Frame w s (fetch s l a accept effect) := by
  have sent : ∀ frames, Frame w s (transmit s frames) := fun frames =>
    Frame.mono (w := [.sent]) rfl fun f hf => hw f (by simp_all)
  have turned : ∀ u turns, Frame w u (setTurns u l turns) := fun u turns =>
    (frame_setTurns u l turns).mono fun f hf => hw f (by simp_all)
  have cleared : ∀ u n r, Frame w u (putTerminal u n r) := fun u n r =>
    Frame.mono (w := [.terminals]) rfl fun f hf => hw f (by simp_all)
  obtain ⟨_, hf⟩ | ⟨_, _, hf⟩ | ⟨_, _, t, ht, hf⟩ := fetch_cases s l a accept effect
  · rw [hf]; exact Frame.refl _ s
  · rw [hf]; exact (sent _).trans (turned _ _)
  · rw [hf, ht]; exact (((sent _).trans (cleared _ _ _)).trans (he _)).trans (turned _ _)

theorem frame_takeBadge (t n : Nat) : Frame Field.visitSide s (takeBadge s t n) := by
  unfold takeBadge
  split
  · exact (frame_putVisit s t none).comp (frame_pend _ t _) (by decide)
  · rename_i a _
    exact ((frame_touch s a).comp (w := Field.visitSide) (frame_putVisit _ t none) (by decide)).comp (frame_pend _ t _)
      (by decide)
  · rename_i a _
    have other : Frame Field.loopSide (touch s a) (endOtherVisit (touch s a) a t) := by
      unfold endOtherVisit
      split
      · exact Frame.refl _ _
      · exact (Frame.refl _ _).ite (frame_endVisit _ _ _)
    exact (((frame_touch s a).comp (w := Field.visitSide) other (by decide)).comp (w := Field.visitSide)
      (frame_putVisit _ t none) (by decide)).comp
      (frame_showList _ t _ _) (by decide)

/-- What a PICK may write: a release decision, and the RESULT shown. -/
abbrev Field.pickSide : List Field := Field.visitSide ++ Field.release

theorem frame_pickEvery (t : Nat) (v : Visit) : Frame Field.pickSide s (pickEvery s t v) :=
  (frame_decideAll s v.account _).comp (frame_showResult _ t v _) (by decide)

theorem frame_pickOne (t : Nat) (v : Visit) (entry : Nat) : Frame Field.pickSide s (pickOne s t v entry) := by
  unfold pickOne
  split
  · exact (frame_showResult s t v _).mono (by decide)
  · exact (frame_decideRelease s _ v.account _).comp (frame_showResult _ t v _) (by decide)

theorem frame_takePick (t entry : Nat) : Frame Field.pickSide s (takePick s t entry) := by
  unfold takePick
  split
  · exact Frame.refl _ s
  · exact (frame_pickEvery s t _).ite (frame_pickOne s t _ _)

theorem frame_takePickAll (t : Nat) : Frame Field.pickSide s (takePickAll s t) := by
  unfold takePickAll
  split
  · exact Frame.refl _ s
  · exact frame_pickEvery s t _

theorem frame_takeMore (t : Nat) : Frame Field.visitSide s (takeMore s t) := by
  unfold takeMore
  split
  · exact Frame.refl _ s
  · exact frame_showList s t _ _

theorem frame_takeRefresh (t : Nat) : Frame Field.loopSide s (takeRefresh s t) := by
  have shown : Frame Field.loopSide s (if (terminal s t).pending = none then pend s t (terminal s t).current else s) :=
    ((frame_pend s t _).mono (by decide)).ite (Frame.refl _ s)
  unfold takeRefresh
  cases visit s t with
  | none => exact shown
  | some v => exact shown.comp (frame_putVisit _ t _) (by decide)

theorem frame_idleOut (t : Nat) : Frame Field.loopSide s (idleOut s t) := by
  unfold idleOut
  split
  · exact Frame.refl _ s
  · exact (frame_endVisit s t _).ite (Frame.refl _ s)

theorem frame_sendDisplay (l : Nat) : Frame [.loops, .terminals, .sent] s (sendDisplay s l) := by
  unfold sendDisplay
  split
  · exact Frame.refl _ s
  · split
    · exact Frame.refl _ s
    · dsimp only
      split
      · exact Frame.refl _ s
      · exact ((frame_transmit s _).comp (w := [.loops, .terminals, .sent]) (frame_putTerminal _ _ _) (by decide)).comp
          (frame_setTurns _ l _) (by decide)

theorem frame_closeRollCall (l : Nat) : Frame [.loops, .terminals, .draws] s (closeRollCall s l) :=
  (Frame.refl _ s).ite (((frame_putLoop s l _).comp (frame_startRollCall _ l) (by decide)).ite
    ((frame_putLoop s l _).mono (by decide)))

theorem frame_rollCallInterval (l : Nat) : Frame [.loops, .terminals, .draws] s (rollCallInterval s l) :=
  (Frame.refl _ s).ite ((frame_startRollCall s l).ite rfl)

theorem frame_presenceInterval (l : Nat) : Frame [.loops, .terminals, .draws] s (presenceInterval s l) :=
  (Frame.refl _ s).ite ((frame_startRollCall s l).ite rfl)

/-! ### The survey and the calendar -/

theorem frame_surveyOnce : Frame (.survey :: Field.printerSide) s (surveyOnce s) := by
  unfold surveyOnce
  split
  · exact Frame.refl _ s
  · split
    · rfl
    · have moved := fun p f v => (frame_printerEvent s p f).comp (w := .survey :: Field.printerSide)
        (frame_survey (printerEvent s p f) v) (by decide)
      dsimp only
      split
      · exact (moved _ _ _).comp (frame_survey _ _) (by decide)
      · exact moved _ _ _

theorem frame_surveyMatch : Frame [.survey] s (surveyMatch s) :=
  (Frame.refl _ s).ite (frame_survey s _)

theorem frame_testRollover (c : Calendar) (t : Nat) : Frame [.tenants] s (testRollover c s t) :=
  (frame_putTenant s t _).ite (Frame.refl _ s)

theorem frame_testPatterns (c : Calendar) : Frame [.tenants, .survey] s (testPatterns s c) := by
  have periods := Frame.foldl (fun s t => frame_testRollover s c t) (List.range 32) s
  unfold testPatterns
  dsimp only
  split
  · exact periods.comp (frame_surveyMatch _) (by decide)
  · exact periods.mono (by decide)

theorem frame_takeBoundary : Frame [.tenants, .survey, .boundaries] s (takeBoundary s) := by
  unfold takeBoundary
  split
  · exact Frame.refl _ s
  · exact Frame.comp (w₁ := [.boundaries]) (w₂ := [.tenants, .survey]) (t := { s with boundaries := _ }) rfl
      (frame_testPatterns _ _) (by decide)

end

end Sys2Proof.Machine
end

