-- ==== Sys2Proof/Proofs/Steps.lean ====
section
/-! PROOFS. What a step can do, said once for all commands: the records each command's rule or effect leaves, the fields each
command may write, and the induction over steps that the invariants use. -/

namespace Sys2Proof.Machine

/-! ## The frames of the rules -/

section
variable (s : State)

theorem frame_setTenantPolicyRule (tenant mono colour credit hold resume : Nat) (policy : Option QuotaPolicy) (warn : Nat)
    (pattern : Pattern) : Frame [.tenants, .rollovers] s
      (setTenantPolicyRule tenant mono colour credit hold resume policy warn pattern s).state := by
  unfold setTenantPolicyRule
  split
  · exact Frame.refl _ s
  · split
    · exact Frame.refl _ s
    · split
      · exact Frame.refl _ s
      · rfl

theorem frame_loadFields_touched (f : LoadFields) : Frame [.accounts] s (f.touched s) :=
  (frame_touch s _).trans (frame_touchOpt _ _)

theorem frame_loadFields_write (f : LoadFields) (st : AccountState) (k : AccountKind) :
    Frame (.accounts :: .badgeMap :: Field.loopSide) s (f.write s st k) := by
  have written := (frame_moveBadge s f.number (account s f.number).badge f.badge).comp
    (w := .accounts :: .badgeMap :: Field.loopSide) (frame_putAccount _ f.number (f.record s st k)) (by decide)
  exact (written.comp (frame_endVisitOf _ _ _) (by decide)).ite written

theorem frame_loadAccountRule (f : LoadFields) :
    Frame (.accounts :: .badgeMap :: Field.loopSide) s (loadAccountRule f s).state := by
  have touched := frame_loadFields_touched s f
  unfold loadAccountRule
  dsimp only
  iterate 7
    split
    · exact touched.mono (by decide)
  split
  · exact touched.comp (frame_loadFields_write _ f _ _) (by decide)
  · exact touched.mono (by decide)

theorem frame_setLimitRule (a : Nat) (l : Option Nat) : Frame [.accounts] s (setLimitRule a l s).state := by
  unfold setLimitRule
  split
  · exact Frame.refl _ s
  · exact (frame_touch s a).trans (frame_putAccount _ a _)

theorem frame_suspendAccountRule (a : Nat) : Frame (.accounts :: Field.loopSide) s (suspendAccountRule a s).state := by
  unfold suspendAccountRule
  split
  · exact Frame.refl _ s
  · dsimp only
    split
    · exact ((frame_touch s a).trans (frame_putAccount _ a _)).comp (frame_endVisitOf _ _ _) (by decide)
    · exact (frame_touch s a).mono (by decide)

theorem frame_resumeAccountRule (a : Nat) : Frame [.accounts] s (resumeAccountRule a s).state := by
  unfold resumeAccountRule
  split
  · exact Frame.refl _ s
  · exact (frame_touch s a).trans (frame_putAccount _ a _)

theorem frame_retireAccountRule (a : Nat) :
    Frame (.accounts :: .badgeMap :: Field.loopSide) s (retireAccountRule a s).state := by
  have touched := frame_touch s a
  unfold retireAccountRule
  split
  · exact Frame.refl _ s
  · dsimp only
    split
    · exact touched.mono (by decide)
    · split
      · exact touched.mono (by decide)
      · exact (touched.comp (w := .accounts :: Field.loopSide) (frame_endVisitOf _ a .goodbye) (by decide)).comp
          ((frame_moveBadge _ a _ none).comp (w := [.accounts, .badgeMap]) (frame_putAccount _ a {}) (by decide)) (by decide)

theorem frame_readAccountRule (a : Nat) : Frame [.accounts] s (readAccountRule a s).state := by
  unfold readAccountRule
  split
  · exact Frame.refl _ s
  · exact frame_touch s a

theorem frame_holdJobRule (f : HoldFields) : Frame Field.books s (holdJobRule f s).state := by
  have touched := frame_touch s f.owner
  unfold holdJobRule
  split
  · exact Frame.refl _ s
  · split
    · exact Frame.refl _ s
    · split
      · exact Frame.refl _ s
      · dsimp only
        split
        · exact touched.mono (by decide)
        · split
          · exact touched.mono (by decide)
          · split
            · exact touched.mono (by decide)
            · exact touched.comp (frame_putJob _ _ _) (by decide)

theorem frame_cancelJobRule (h : Nat) : Frame (.printers :: .dispatch :: Field.books) s (cancelJobRule h s).state := by
  unfold cancelJobRule
  split
  · exact Frame.refl _ s
  · split
    · exact (frame_putJob s _ _).mono (by decide)
    · exact frame_cancelRouted s _
    · exact frame_cancelRouted s _
    · exact Frame.refl _ s

theorem frame_removeJobRule (h : Nat) : Frame [.jobs, .finished] s (removeJobRule h s).state := by
  unfold removeJobRule
  split
  · exact Frame.refl _ s
  · split
    · exact frame_putSlot s _ _
    · exact Frame.refl _ s

theorem frame_reportProgressRule (h n : Nat) :
    Frame (.accounts :: Field.printerSide) s (reportProgressRule h n s).state := by
  unfold reportProgressRule
  split
  · exact Frame.refl _ s
  · split
    · exact Frame.refl _ s
    · exact frame_reportCopies s _ _

/-- A Report Job End writes what its outcome's effect writes (R106). -/
theorem frame_jobEndRule {w : List Field} {effect : State → Nat → State} (he : ∀ s i, Frame w s (effect s i)) (h : Nat) :
    Frame w s (jobEndRule effect h s).state := by
  unfold jobEndRule
  split
  · exact Frame.refl _ s
  · split
    · exact Frame.refl _ s
    · exact he s _

theorem frame_completeJob (i : Nat) : Frame (.accounts :: Field.printerSide) s (completeJob s i) :=
  ((frame_reportCopies s i _).comp (w := .accounts :: Field.printerSide) (frame_lowerQueue _ _) (by decide)).comp
    (frame_putJob _ i _) (by decide)

theorem frame_cancelAtPrinter (i : Nat) : Frame (.printers :: Field.books) s (cancelAtPrinter s i) :=
  ((frame_returnReservation s i).comp (w := .printers :: Field.books) (frame_lowerQueue _ _) (by decide)).comp
    (frame_putJob _ i _) (by decide)

theorem frame_failDelivery (i : Nat) : Frame [.jobs, .finished] s (failDelivery s i) :=
  (frame_putJob s i _).ite (Frame.refl _ s)

theorem frame_enrollTerminalRule (l a q : Nat) : Frame Field.loopSide s (enrollTerminalRule l a q s).state := by
  unfold enrollTerminalRule
  split
  · exact Frame.refl _ s
  · dsimp only
    split
    · exact (frame_putTerminal s _ _).comp (frame_endVisit _ _ _) (by decide)
    · exact (frame_putTerminal s _ _).comp (frame_joinLoop _ l) (by decide)

theorem frame_retireTerminalRule (l a : Nat) :
    Frame [.loops, .terminals, .visits] s (retireTerminalRule l a s).state := by
  unfold retireTerminalRule
  split
  · exact Frame.refl _ s
  · dsimp only
    split
    · exact Frame.refl _ s
    · exact ((frame_putVisit s _ none).comp (w := [.terminals, .visits]) (frame_putTerminal _ _ _) (by decide)).comp
            (frame_leaveLoop _ l a) (by decide)

theorem frame_loopResetRule (l : Nat) : Frame Field.loopSide s (loopResetRule l s).state := by
  unfold loopResetRule
  split
  · exact Frame.refl _ s
  · split
    · exact Frame.refl _ s
    · exact (frame_clearLoop s l _).comp (frame_restartLoop _ l) (by decide)

theorem frame_enrollPrinterRule (f : EnrollFields) : Frame [.printers] s (enrollPrinterRule f s).state := by
  unfold enrollPrinterRule
  split
  · split
    · exact Frame.refl _ s
    · split
      · exact Frame.refl _ s
      · split
        · unfold reEnroll
          dsimp only
          split
          · exact Frame.refl _ s
          · exact frame_putPrinter s _ _
        · exact frame_putPrinter s _ _
  · exact Frame.refl _ s

theorem frame_retirePrinterRule (p : Nat) :
    Frame [.printers, .pools, .callouts, .desks] s (retirePrinterRule p s).state := by
  unfold retirePrinterRule
  split
  · exact Frame.refl _ s
  · split
    · exact Frame.refl _ s
    · exact ((frame_leavePools s p).comp (w := [.pools, .callouts, .desks]) (frame_deleteCallouts _ p) (by decide)).comp
        (frame_putPrinter _ p {}) (by decide)

theorem frame_setServiceRule (p : Nat) (on : Bool) : Frame Field.printerSide s (setServiceRule p on s).state := by
  unfold setServiceRule
  split
  · exact Frame.refl _ s
  · exact frame_printerEvent s p (fun _ => _)

theorem frame_printerStatusRule (p : Nat) (reported empty : BitVec 8) :
    Frame Field.printerSide s (printerStatusRule p reported empty s).state := by
  unfold printerStatusRule
  split
  · exact Frame.refl _ s
  · exact frame_printerEvent s p (fun _ => _)

theorem frame_setPoolRule (q : Nat) (l : List Nat) : Frame [.pools] s (setPoolRule q l s).state := by
  unfold setPoolRule
  split
  · exact Frame.refl _ s
  · exact frame_putPool s q l

theorem frame_setSupplyModelRule (m capacity lead : Nat) :
    Frame [.models] s (setSupplyModelRule m capacity lead s).state := by
  unfold setSupplyModelRule
  split
  · exact Frame.refl _ s
  · dsimp only
    split
    · exact Frame.refl _ s
    · rfl

/-- Supply Report and Supply Replaced write what their effect on the supply writes (R122, R123). -/
theorem frame_onSupply {w : List Field} {effect : Channel → Supply → Reply} (he : ∀ ch x, Frame w s (effect ch x).state)
    (p : Nat) (channel : Option Channel) : Frame w s (onSupply p channel effect s).state := by
  unfold onSupply
  split
  · exact Frame.refl _ s
  · split
    · exact Frame.refl _ s
    · split
      · exact Frame.refl _ s
      · exact he _ _

theorem frame_supplyReportRule (p : Nat) (channel : Option Channel) (percent : Nat) :
    Frame Field.printerSide s (supplyReportRule p channel percent s).state :=
  frame_onSupply s (fun _ _ => frame_printerEvent s p (fun _ => _)) p channel

theorem frame_supplyReplacedRule (p : Nat) (channel : Option Channel) :
    Frame Field.printerSide s (supplyReplacedRule p channel s).state :=
  frame_onSupply s (fun _ _ => frame_printerEvent s p (fun _ => _)) p channel

theorem frame_surveyNowRule (p : Option Nat) : Frame [.survey] s (surveyNowRule p s).state := by
  unfold surveyNowRule
  split
  · exact Frame.refl _ s
  · split
    · exact Frame.refl _ s
    · exact frame_survey s _

theorem frame_setConditionRule (kind : Option CondKind) (cls : Nat) (sense : Option Sense) (auto : Bool) :
    Frame [.conditions] s (setConditionRule kind cls sense auto s).state := by
  unfold setConditionRule
  split
  · exact Frame.refl _ s
  · split
    · split
      · exact Frame.refl _ s
      · rfl
    · exact Frame.refl _ s

theorem frame_setClassModeRule (c : Nat) (mode : Option ClassMode) :
    Frame [.classes] s (setClassModeRule c mode s).state := by
  unfold setClassModeRule
  split
  · exact Frame.refl _ s
  · split
    · exact Frame.refl _ s
    · rfl

theorem frame_setClassBaseRule (c base : Nat) : Frame [.classes] s (setClassBaseRule c base s).state := by
  unfold setClassBaseRule
  split
  · exact Frame.refl _ s
  · rfl

theorem frame_setDeskModeRule (d : Nat) (mode : Option DeskMode) : Frame [.desks] s (setDeskModeRule d mode s).state := by
  unfold setDeskModeRule
  split
  · exact Frame.refl _ s
  · split
    · exact Frame.refl _ s
    · exact frame_putDesk s d _

theorem frame_acknowledgeRule (d : Nat) :
    Frame (.classes :: .desks :: Field.printerSide) s (acknowledgeRule d s).state := by
  unfold acknowledgeRule
  split
  · exact Frame.refl _ s
  · split
    · exact Frame.refl _ s
    · exact frame_takeCallout s d _ _ _

theorem frame_closeSpecificRule (d p : Nat) (kind : Option CondKind) :
    Frame (.desks :: Field.printerSide) s (closeSpecificRule d p kind s).state := by
  unfold closeSpecificRule
  split
  · exact Frame.refl _ s
  · split
    · exact Frame.refl _ s
    · split
      · exact Frame.refl _ s
      · split
        · exact frame_retireCallout s p _ _
        · exact Frame.refl _ s

theorem frame_closeNonSpecificRule (d : Nat) : Frame (.desks :: Field.printerSide) s (closeNonSpecificRule d s).state := by
  unfold closeNonSpecificRule
  split
  · exact Frame.refl _ s
  · split
    · exact Frame.refl _ s
    · split
      · exact Frame.refl _ s
      · split
        · exact Frame.refl _ s
        · exact frame_retireCallout s _ _ _

theorem frame_expireHeld (i : Nat) : Frame [.jobs, .finished] s (expireHeld s i) :=
  (frame_putJob s i _).ite (Frame.refl _ s)

theorem frame_endWindow (i : Nat) : Frame (.printers :: Field.books) s (endWindow s i) :=
  (frame_giveUpRelease s i).ite (Frame.refl _ s)

theorem frame_loseContact (p : Nat) : Frame Field.printerSide s (loseContact s p) := by
  unfold loseContact
  split
  · exact Frame.refl _ s
  · exact (frame_printerEvent s p _).ite (Frame.refl _ s)

theorem frame_wakeLoop (l : Nat) : Frame [.loops, .terminals, .draws] s (wakeLoop s l) :=
  (frame_startIfIdle s l).ite (Frame.refl _ s)

theorem frame_faultLoop (l : Nat) : Frame [.loops, .terminals, .visits] s (faultLoop s l) :=
  (Frame.refl _ s).ite (frame_clearLoop s l .fault)

theorem frame_endFault (l : Nat) : Frame [.loops, .terminals, .draws] s (endFault s l) :=
  (frame_restartLoop s l).ite (Frame.refl _ s)

/-! ## The rules that read -/

theorem readTenantRule_state (n : Nat) : (readTenantRule n s).state = s := by unfold readTenantRule; split <;> rfl
theorem readJobRule_state (h : Nat) : (readJobRule h s).state = s := by unfold readJobRule; split <;> rfl
theorem findJobsRule_state (n : Nat) (o st : Option Nat) : (findJobsRule n o st s).state = s := by
  unfold findJobsRule; split <;> rfl
theorem readLoopRule_state (l : Nat) : (readLoopRule l s).state = s := by unfold readLoopRule; split <;> rfl
theorem readPrinterRule_state (p : Nat) : (readPrinterRule p s).state = s := by unfold readPrinterRule; split <;> rfl
theorem readPoolRule_state (q : Nat) : (readPoolRule q s).state = s := by unfold readPoolRule; split <;> rfl
theorem readSupplyModelRule_state (m : Nat) : (readSupplyModelRule m s).state = s := by
  unfold readSupplyModelRule; split <;> rfl
theorem readSuppliesRule_state (p : Nat) : (readSuppliesRule p s).state = s := by unfold readSuppliesRule; split <;> rfl
theorem readDeskRule_state (d : Nat) : (readDeskRule d s).state = s := by unfold readDeskRule; split <;> rfl
theorem readCalloutsRule_state (p : Nat) : (readCalloutsRule p s).state = s := by unfold readCalloutsRule; split <;> rfl
theorem readPatternRule_state (n : Nat) : (readPatternRule n s).state = s := by unfold readPatternRule; split <;> rfl

end

/-! ## The records a command leaves -/

/-- The records after the rule of a request or the effect of an event; every other command leaves them. -/
def recordsAfter (c : Instr) (s : State) : State :=
  match c with
  | .setTenantPolicy _ tenant mono colour credit hold resume policy warn rollover =>
    (setTenantPolicyRule tenant.toNat mono.toNat colour.toNat credit.toNat hold.toNat resume.toNat (policyOf policy)
      warn.toNat (clampPattern rollover) s).state
  | .readTenant _ tenant => (readTenantRule tenant.toNat s).state
  | .lockPolicy _ => { s with lock := true }
  | .loadAccount _ account state kind tenant badge department limit used =>
    (loadAccountRule
      { number := account.toNat, state := loadStateOf state, kind := accountKindOf kind, tenant := tenant.toNat
        badge := optional badge, department := optional department, limit := optional limit, used := used.toNat } s).state
  | .setLimit _ account limit => (setLimitRule account.toNat (optional limit) s).state
  | .suspendAccount _ account => (suspendAccountRule account.toNat s).state
  | .resumeAccount _ account => (resumeAccountRule account.toNat s).state
  | .retireAccount _ account => (retireAccountRule account.toNat s).state
  | .readAccount _ account => (readAccountRule account.toNat s).state
  | .holdJob _ owner pool sidesMono sidesColour copies size duplex covK covC covM covY =>
    (holdJobRule
      { owner := owner.toNat, pool := optional pool, sidesMono := sidesMono.toNat, sidesColour := sidesColour.toNat
        copies := copies.toNat, size := sizeOf size, duplex := flag duplex, covK := covK.toNat, covC := covC.toNat
        covM := covM.toNat, covY := covY.toNat } s).state
  | .readJob _ handle => (readJobRule handle.toNat s).state
  | .findJobs _ start owner state => (findJobsRule start.toNat (optional owner) (optional state) s).state
  | .cancelJob _ handle => (cancelJobRule handle.toNat s).state
  | .removeJob _ handle => (removeJobRule handle.toNat s).state
  | .takeDispatch _ => (takeFrom s 0 s.dispatch).state
  | .readDispatch _ => s
  | .reportProgress _ handle count => (reportProgressRule handle.toNat count.toNat s).state
  | .reportJobEndComplete _ handle outcome =>
    (if !endOutcomeKnown outcome then refuse s .badField else jobEndRule completeJob handle.toNat s).state
  | .reportJobEndCancelledAtPrinter _ handle => (jobEndRule cancelAtPrinter handle.toNat s).state
  | .reportJobEndDeliveryFailed _ handle => (jobEndRule failDelivery handle.toNat s).state
  | .enrollTerminal _ loop addr pool => (enrollTerminalRule loop.toNat addr.toNat pool.toNat s).state
  | .retireTerminal _ loop addr => (retireTerminalRule loop.toNat addr.toNat s).state
  | .loopReset _ loop => (loopResetRule loop.toNat s).state
  | .readLoop _ loop => (readLoopRule loop.toNat s).state
  | .enrollPrinter _ printer capability modelK modelC modelM modelY deskGroup routeMode contact surveyed =>
    (enrollPrinterRule
      { printer := printer.toNat, capability := capabilityOf capability, modelK := modelK.toNat, modelC := modelC.toNat
        modelM := modelM.toNat, modelY := modelY.toNat, deskGroup := deskGroup, routeMode := routeModeOf routeMode
        contact := contact.toNat, surveyed := flag surveyed } s).state
  | .retirePrinter _ printer => (retirePrinterRule printer.toNat s).state
  | .setService _ printer on => (setServiceRule printer.toNat (flag on) s).state
  | .printerStatus _ printer reported empty => (printerStatusRule printer.toNat reported empty s).state
  | .readPrinter _ printer => (readPrinterRule printer.toNat s).state
  | .setPool _ pool printers => (setPoolRule pool.toNat (printers.map BitVec.toNat) s).state
  | .readPool _ pool => (readPoolRule pool.toNat s).state
  | .setSupplyModel _ model capacity lead => (setSupplyModelRule model.toNat capacity.toNat lead.toNat s).state
  | .readSupplyModel _ model => (readSupplyModelRule model.toNat s).state
  | .readSupplies _ printer => (readSuppliesRule printer.toNat s).state
  | .supplyReport _ printer channel percent =>
    (supplyReportRule printer.toNat (channelOf channel) percent.toNat s).state
  | .supplyReplaced _ printer channel => (supplyReplacedRule printer.toNat (channelOf channel) s).state
  | .surveyNow _ printer => (surveyNowRule (optional printer) s).state
  | .readSurvey _ => (readSurveyRule s).state
  | .setCondition _ kind cls sense autoClose =>
    (setConditionRule (condKindOf kind.toNat) cls.toNat (senseOf sense) (flag autoClose) s).state
  | .readConditionTable _ => s
  | .setClassMode _ cls mode => (setClassModeRule cls.toNat (classModeOf mode) s).state
  | .setClassBase _ cls base => (setClassBaseRule cls.toNat base.toNat s).state
  | .readClasses _ => s
  | .setDeskMode _ desk mode => (setDeskModeRule desk.toNat (deskModeOf mode) s).state
  | .acknowledgeCallout _ desk => (acknowledgeRule desk.toNat s).state
  | .closeCalloutSpecific _ desk printer kind =>
    (closeSpecificRule desk.toNat printer.toNat (condKindOf kind.toNat) s).state
  | .closeCalloutNonSpecific _ desk => (closeNonSpecificRule desk.toNat s).state
  | .readDesk _ desk => (readDeskRule desk.toNat s).state
  | .readCallouts _ printer => (readCalloutsRule printer.toNat s).state
  | .setClock _ year month day hour minute second =>
    (setClockRule (clampedCalendar year.toNat month.toNat day.toNat hour.toNat minute.toNat second.toNat) s).state
  | .readClock _ => s
  | .setSurveyPattern _ pattern => { s with surveyPattern := clampPattern pattern }
  | .readPattern _ pattern => (readPatternRule pattern.toNat s).state
  | .readAttention _ => (readAttentionRule s).state
  | .secondsEvent => takeSecond s
  | .minuteBoundary => takeBoundary s
  | .holdExpiry i => expireHeld s i.val
  | .resumeWindowExpiry i => endWindow s i.val
  | .contactExpiry p => loseContact s p.val
  | .visitIdleExpiry l a => idleOut s (terminalNo l.val a.val)
  | .surveyStep => surveyOnce s
  | .wake l => wakeLoop s l.val
  | .rollCallIntervalExpiry l => rollCallInterval s l.val
  | .presenceIntervalExpiry l => presenceInterval s l.val
  | .answer l a flagged => rollSlot s l.val a.val fun s => takeAnswer s (terminalNo l.val a.val) flagged
  | .noAnswer l a => rollSlot s l.val a.val fun s => missAnswer s (terminalNo l.val a.val)
  | .displaySend l => sendDisplay s l.val
  | .fetchFailed l a => fetch s l.val a.val false id
  | .unknownMessage l a => fetch s l.val a.val true id
  | .badge l a number => fetch s l.val a.val true fun s => takeBadge s (terminalNo l.val a.val) number.toNat
  | .pick l a entry => fetch s l.val a.val true fun s => takePick s (terminalNo l.val a.val) entry.toNat
  | .pickAll l a => fetch s l.val a.val true fun s => takePickAll s (terminalNo l.val a.val)
  | .more l a => fetch s l.val a.val true fun s => takeMore s (terminalNo l.val a.val)
  | .done l a => fetch s l.val a.val true fun s => endVisit s (terminalNo l.val a.val) .goodbye
  | .refresh l a => fetch s l.val a.val true fun s => takeRefresh s (terminalNo l.val a.val)
  | .rollCallClose l => closeRollCall s l.val
  | .loopFault l => faultLoop s l.val
  | .faultEnd l => endFault s l.val
  | _ => s

/-- The fields the rule or the effect of a command may write. -/
def writes : Instr → List Field
  | .setTenantPolicy .. => [.tenants, .rollovers]
  | .lockPolicy .. => [.lock]
  | .loadAccount .. | .retireAccount .. => .accounts :: .badgeMap :: Field.loopSide
  | .setLimit .. | .resumeAccount .. | .readAccount .. => [.accounts]
  | .suspendAccount .. => .accounts :: Field.loopSide
  | .holdJob .. => Field.books
  | .cancelJob .. | .takeDispatch .. => .printers :: .dispatch :: Field.books
  | .removeJob .. | .reportJobEndDeliveryFailed .. | .holdExpiry .. => [.jobs, .finished]
  | .reportProgress .. | .reportJobEndComplete .. => .accounts :: Field.printerSide
  | .reportJobEndCancelledAtPrinter .. | .resumeWindowExpiry .. => .printers :: Field.books
  | .retireTerminal .. | .loopFault .. => [.loops, .terminals, .visits]
  | .enrollTerminal .. | .loopReset .. | .visitIdleExpiry .. => Field.loopSide
  | .enrollPrinter .. => [.printers]
  | .retirePrinter .. => [.printers, .pools, .callouts, .desks]
  | .setService .. | .printerStatus .. | .supplyReport .. | .supplyReplaced .. | .contactExpiry .. => Field.printerSide
  | .setPool .. => [.pools]
  | .setSupplyModel .. => [.models]
  | .surveyNow .. | .readAttention .. => [.survey]
  | .readSurvey .. => [.draws]
  | .setCondition .. => [.conditions]
  | .setClassMode .. | .setClassBase .. => [.classes]
  | .setDeskMode .. => [.desks]
  | .acknowledgeCallout .. => .classes :: .desks :: Field.printerSide
  | .closeCalloutSpecific .. | .closeCalloutNonSpecific .. => .desks :: Field.printerSide
  | .setClock .. => [.calendar]
  | .setSurveyPattern .. => [.surveyPattern]
  | .secondsEvent => [.seconds, .calendar, .boundaries]
  | .minuteBoundary => [.tenants, .survey, .boundaries]
  | .surveyStep => .survey :: Field.printerSide
  | .wake .. | .rollCallIntervalExpiry .. | .presenceIntervalExpiry .. | .rollCallClose .. | .faultEnd .. =>
    [.loops, .terminals, .draws]
  | .displaySend .. => [.loops, .terminals, .sent]
  | .answer .. | .noAnswer .. | .fetchFailed .. | .unknownMessage .. | .done .. | .refresh .. => .sent :: Field.loopSide
  | .badge .. | .more .. => .sent :: Field.visitSide
  | .pick .. | .pickAll .. => .sent :: Field.pickSide
  | _ => []

/-- A command writes no record outside its write set. -/
theorem frame_recordsAfter (c : Instr) (s : State) : Frame (writes c) s (recordsAfter c s) := by
  have none_frame : ∀ {t : State}, t = s → Frame [] s t := by
    rintro t rfl
    exact Frame.refl _ t
  cases c
  case setTenantPolicy => exact frame_setTenantPolicyRule s _ _ _ _ _ _ _ _ _
  case loadAccount => exact frame_loadAccountRule s _
  case setLimit => exact frame_setLimitRule s _ _
  case suspendAccount => exact frame_suspendAccountRule s _
  case resumeAccount => exact frame_resumeAccountRule s _
  case retireAccount => exact frame_retireAccountRule s _
  case readAccount => exact frame_readAccountRule s _
  case holdJob => exact frame_holdJobRule s _
  case cancelJob => exact frame_cancelJobRule s _
  case removeJob => exact frame_removeJobRule s _
  case takeDispatch => exact frame_takeFrom s _ 0
  case reportProgress => exact frame_reportProgressRule s _ _
  case reportJobEndComplete =>
    unfold recordsAfter
    dsimp only
    split
    · exact Frame.refl _ s
    · exact frame_jobEndRule s frame_completeJob _
  case reportJobEndCancelledAtPrinter => exact frame_jobEndRule s frame_cancelAtPrinter _
  case reportJobEndDeliveryFailed => exact frame_jobEndRule s frame_failDelivery _
  case enrollTerminal => exact frame_enrollTerminalRule s _ _ _
  case retireTerminal => exact frame_retireTerminalRule s _ _
  case loopReset => exact frame_loopResetRule s _
  case enrollPrinter => exact frame_enrollPrinterRule s _
  case retirePrinter => exact frame_retirePrinterRule s _
  case setService => exact frame_setServiceRule s _ _
  case printerStatus => exact frame_printerStatusRule s _ _ _
  case setPool => exact frame_setPoolRule s _ _
  case setSupplyModel => exact frame_setSupplyModelRule s _ _ _
  case supplyReport => exact frame_supplyReportRule s _ _ _
  case supplyReplaced => exact frame_supplyReplacedRule s _ _
  case surveyNow => exact frame_surveyNowRule s _
  case setCondition => exact frame_setConditionRule s _ _ _ _
  case setClassMode => exact frame_setClassModeRule s _ _
  case setClassBase => exact frame_setClassBaseRule s _ _
  case setDeskMode => exact frame_setDeskModeRule s _ _
  case acknowledgeCallout => exact frame_acknowledgeRule s _
  case closeCalloutSpecific => exact frame_closeSpecificRule s _ _ _
  case closeCalloutNonSpecific => exact frame_closeNonSpecificRule s _
  case minuteBoundary => exact frame_takeBoundary s
  case holdExpiry i => exact frame_expireHeld s i.val
  case resumeWindowExpiry i => exact frame_endWindow s i.val
  case contactExpiry p => exact frame_loseContact s p.val
  case visitIdleExpiry l a => exact frame_idleOut s _
  case surveyStep => exact frame_surveyOnce s
  case wake l => exact frame_wakeLoop s l.val
  case rollCallIntervalExpiry l => exact frame_rollCallInterval s l.val
  case presenceIntervalExpiry l => exact frame_presenceInterval s l.val
  case answer =>
    exact frame_rollSlot (w := .sent :: Field.loopSide) s (fun s => (frame_takeAnswer s _ _).mono (by decide)) _ _
      (by decide)
  case noAnswer =>
    exact frame_rollSlot (w := .sent :: Field.loopSide) s (fun s => (frame_missAnswer s _).mono (by decide)) _ _ (by decide)
  case displaySend l => exact frame_sendDisplay s l.val
  case fetchFailed => exact frame_fetch (w := .sent :: Field.loopSide) s (Frame.refl _) _ _ _ (by decide)
  case unknownMessage => exact frame_fetch (w := .sent :: Field.loopSide) s (Frame.refl _) _ _ _ (by decide)
  case badge =>
    exact frame_fetch (w := .sent :: Field.visitSide) s (fun s => (frame_takeBadge s _ _).mono (by decide)) _ _ _ (by decide)
  case pick =>
    exact frame_fetch (w := .sent :: Field.pickSide) s (fun s => (frame_takePick s _ _).mono (by decide)) _ _ _ (by decide)
  case pickAll =>
    exact frame_fetch (w := .sent :: Field.pickSide) s (fun s => (frame_takePickAll s _).mono (by decide)) _ _ _ (by decide)
  case more =>
    exact frame_fetch (w := .sent :: Field.visitSide) s (fun s => (frame_takeMore s _).mono (by decide)) _ _ _ (by decide)
  case done =>
    exact frame_fetch (w := .sent :: Field.loopSide) s (fun s => (frame_endVisit s _ _).mono (by decide)) _ _ _ (by decide)
  case refresh =>
    exact frame_fetch (w := .sent :: Field.loopSide) s (fun s => (frame_takeRefresh s _).mono (by decide)) _ _ _ (by decide)
  case rollCallClose l => exact frame_closeRollCall s l.val
  case loopFault l => exact frame_faultLoop s l.val
  case faultEnd l => exact frame_endFault s l.val
  case readTenant => exact none_frame (readTenantRule_state s _)
  case readJob => exact none_frame (readJobRule_state s _)
  case findJobs => exact none_frame (findJobsRule_state s _ _ _)
  case readLoop => exact none_frame (readLoopRule_state s _)
  case readPrinter => exact none_frame (readPrinterRule_state s _)
  case readPool => exact none_frame (readPoolRule_state s _)
  case readSupplyModel => exact none_frame (readSupplyModelRule_state s _)
  case readSupplies => exact none_frame (readSuppliesRule_state s _)
  case readDesk => exact none_frame (readDeskRule_state s _)
  case readCallouts => exact none_frame (readCalloutsRule_state s _)
  case readPattern => exact none_frame (readPatternRule_state s _)
  all_goals rfl

/-! ## What a command does -/

/-- A request frame is taken or refused by the port, and taken it runs its rule (R181, R182). -/
theorem exec_of_requestShape {c : Instr} {kind : Byte} {lengthOk presence : Bool}
    (h : requestShape c = some (kind, lengthOk, presence)) :
    ∃ rule, (∀ s, exec c s = request kind lengthOk presence rule s) ∧ ∀ s, (rule s).state = recordsAfter c s := by
  cases c <;> cases h <;> exact ⟨_, fun _ => rfl, fun _ => rfl⟩

/-- The commands that are a frame at the port but no request: they change no record. -/
def portCommand : Instr → Bool
  | .responseRead _ => true
  | .shortFrame => true
  | .badKind _ => true
  | .discardedStartingFrame => true
  | _ => false

/-- Every other command is an event. -/
theorem exec_of_event {c : Instr} (hs : requestShape c = none) (hp : portCommand c = false) (hr : resetCommand c = false)
    (s : State) : exec c s = event (recordsAfter c) s := by
  cases c
  case responseRead | shortFrame | badKind | discardedStartingFrame => cases hp
  case fullReset | powerOn | resetRelease | startingEnd => cases hr
  all_goals first | rfl | cases hs

/-- A frame that is no request changes no record (R179, R181, R190). -/
theorem frame_portCommand {c : Instr} (hp : portCommand c = true) {s t : State} (h : exec c s = .next t) :
    Frame (.draws :: Field.link) s t := by
  cases c <;> cases hp
  case responseRead n =>
    cases h
    exact (Frame.refl _ s).ite rfl
  case shortFrame =>
    have h : request 0x00 true true (fun s => refuse s .shortFrame) s = .next t := h
    obtain ⟨-, rfl⟩ | ⟨-, -, rfl⟩ | ⟨-, -, -, rfl⟩ := request_cases h
    · exact Frame.refl _ _
    · exact (frame_answered _ _).mono (by decide)
    · exact (frame_answered 0x00 (refuse _ .shortFrame)).mono (by decide)
  case badKind kind =>
    have h : request kind true true (fun s => refuse s .badKind) s = .next t := h
    obtain ⟨-, rfl⟩ | ⟨-, -, rfl⟩ | ⟨-, -, -, rfl⟩ := request_cases h
    · exact Frame.refl _ _
    · exact (frame_answered _ _).mono (by decide)
    · exact (frame_answered kind (refuse _ .badKind)).mono (by decide)
  case discardedStartingFrame =>
    cases h
    dsimp only
    split
    · exact Frame.refl _ s
    · rfl

/-- Everything a command that is not one of full reset can do: nothing but at the port, or the records its rule or its effect
leaves, with the port and the signals brought up to date. -/
theorem exec_frame {c : Instr} (hr : resetCommand c = false) {s t : State} (h : exec c s = .next t) :
    Frame (.draws :: Field.link) s t ∨ Frame Field.link (recordsAfter c s) t := by
  cases hs : requestShape c with
  | some shape =>
    obtain ⟨kind, lengthOk, presence⟩ := shape
    obtain ⟨rule, hexec, hrule⟩ := exec_of_requestShape hs
    rw [hexec] at h
    obtain ⟨-, rfl⟩ | ⟨-, -, rfl⟩ | ⟨-, -, -, rfl⟩ := request_cases h
    · exact .inl (Frame.refl _ _)
    · exact .inl ((frame_answered kind (refuse s .badField)).mono (by decide))
    · exact .inr (hrule s ▸ frame_answered kind (rule s))
  | none =>
    cases hp : portCommand c with
    | true => exact .inl (frame_portCommand hp h)
    | false =>
      rw [exec_of_event hs hp hr] at h
      obtain ⟨-, rfl⟩ | ⟨-, rfl⟩ := event_cases h
      · exact .inl (Frame.refl _ _)
      · exact .inr ((frame_settle _).mono (by decide))

/-- A command of full reset leaves the records, or all of them at their reset values (R189, R190). -/
theorem exec_reset {c : Instr} (hr : resetCommand c = true) {s t : State} (h : exec c s = .next t) :
    t = s ∨ Frame [.pending, .port, .resetPinLow, .supplyLow, .draws] State.reset t := by
  cases c <;> cases hr
  case fullReset cause =>
    cases h
    cases cause <;> exact .inr rfl
  case powerOn =>
    cases h
    exact .inr rfl
  case resetRelease =>
    cases h
    dsimp only
    split
    · exact .inr rfl
    · exact .inl rfl
  case startingEnd =>
    cases h
    dsimp only
    split
    · exact .inr rfl
    · exact .inl rfl

/-! ## The induction over steps -/

/-- The fields no invariant of the records looks at: the queue, the port, the signals and the counter of free values. -/
abbrev Field.unrecorded : List Field :=
  [.pending, .port, .resetPinLow, .supplyLow, .response, .hsdo, .driven, .attn, .deskSet, .draws]

/-- The property looks at the fields of `w` alone. -/
def LooksAt (w : List Field) (P : State → Prop) : Prop := ∀ {s t}, (∀ f ∈ w, f.same s t) → P s → P t

/-- A property that looks at fields outside a write set is kept. -/
theorem LooksAt.of_frame {w v : List Field} {P : State → Prop} (hP : LooksAt w P) {s t : State} (h : Frame v s t)
    (hw : ∀ f ∈ w, f ∉ v) (hs : P s) : P t :=
  hP (fun f hf => h.same f (hw f hf)) hs

/-- The command may write a field of `w`. -/
def mayWrite (w : List Field) (c : Instr) : Bool := w.any fun f => (writes c).contains f

/-- A property of the records that holds at reset and that each command which may write what it looks at keeps, is kept by
every step. -/
theorem step_keeps {w : List Field} {P : State → Prop} (hP : LooksAt w P) (hw : ∀ f ∈ w, f ∉ Field.unrecorded)
    (hreset : P State.reset)
    (hkeeps : ∀ c s, mayWrite w c = true → P s → P (recordsAfter c s)) {s t : State} (hs : P s)
    (h : step s = .next t) : P t := by
  have outside : ∀ {v : List Field} {a b : State}, Frame v a b → (∀ f ∈ v, f ∈ Field.unrecorded) → P a → P b :=
    fun hv hsub => hP.of_frame hv fun f hf hmem => hw f hf (hsub f hmem)
  have records : ∀ c a, P a → P (recordsAfter c a) := by
    intro c a ha
    cases hc : mayWrite w c with
    | true => exact hkeeps c a hc ha
    | false => exact hP.of_frame (frame_recordsAfter c a) (by simpa [mayWrite] using hc) ha
  cases hq : s.pending with
  | nil =>
    have hstep : step s = .next s := by simp [step, hq]
    cases hstep.symm.trans h
    exact hs
  | cons c rest =>
    rw [step_front c rest s hq] at h
    have hs' : P { s with pending := rest } := outside (v := [.pending]) rfl (by decide) hs
    cases hr : resetCommand c with
    | false =>
      obtain hport | hrecords := exec_frame hr h
      · exact outside hport (by decide) hs'
      · exact outside hrecords (by decide) (records c _ hs')
    | true =>
      obtain rfl | hfull := exec_reset hr h
      · exact hs'
      · exact outside hfull (by decide) hreset

end Sys2Proof.Machine
end

