-- ==== Sys2Proof/Proofs/RecordWrites.lean ====
section
/-! PROOFS. Every command changes the record tables by writes of single records alone. What such a write keeps, every step
keeps: the canonical form of the tables (log 9) and the finished count (R39). -/

namespace Sys2Proof.Machine

/-- The fields that are no record table, less the finished count, which is written with the job it counts. -/
abbrev Field.untabled : List Field :=
  [.pending, .port, .resetPinLow, .supplyLow, .response, .hsdo, .driven, .attn, .lock, .releaseCounter, .dispatch, .survey,
   .deskSet, .sent, .seconds, .calendar, .surveyPattern, .boundaries, .draws]

/-- `t` comes from `s` by writes of single records and changes of the fields that are no table. -/
inductive Wrote (s : State) : State → Prop
  | refl : Wrote s s
  | tenant {t : State} (k : Nat) (r : Tenant) : Wrote s t → Wrote s (putTenant t k r)
  | account {t : State} (k : Nat) (r : Account) : Wrote s t → Wrote s (putAccount t k r)
  | badge {t : State} (a : Nat) (old new : Option Nat) : Wrote s t → Wrote s (moveBadge t a old new)
  | slot {t : State} (k : Nat) (r : Slot) : Wrote s t → Wrote s (putSlot t k r)
  | printer {t : State} (k : Nat) (r : Printer) : Wrote s t → Wrote s (putPrinter t k r)
  | pool {t : State} (k : Nat) (r : List Nat) : Wrote s t → Wrote s (putPool t k r)
  | model {t : State} (k : Nat) (r : SupplyModel) : Wrote s t → Wrote s (putModel t k r)
  | condEntry {t : State} (k : CondKind) (r : CondEntry) : Wrote s t → Wrote s (putCondEntry t k r)
  | callout {t : State} (p : Nat) (k : CondKind) (r : Option Callout) : Wrote s t → Wrote s (putCallout t p k r)
  | classRec {t : State} (k : Nat) (r : ClassRec) : Wrote s t → Wrote s (putClass t k r)
  | desk {t : State} (k : Nat) (r : Desk) : Wrote s t → Wrote s (putDesk t k r)
  | loopRec {t : State} (k : Nat) (r : Loop) : Wrote s t → Wrote s (putLoop t k r)
  | terminal {t : State} (k : Nat) (r : Terminal) : Wrote s t → Wrote s (putTerminal t k r)
  | visit {t : State} (k : Nat) (r : Option Visit) : Wrote s t → Wrote s (putVisit t k r)
  | rollover {t : State} (k : Nat) (r : Pattern) : Wrote s t → Wrote s (putRollover t k r)
  | other {t u : State} : Frame Field.untabled t u → Wrote s t → Wrote s u

namespace Wrote

variable {s t u : State}

theorem job (k : Nat) (r : Job) (h : Wrote s t) : Wrote s (putJob t k r) := h.slot k _

theorem ite {c : Prop} [Decidable c] (ht : Wrote s t) (hu : Wrote s u) : Wrote s (if c then t else u) := by
  split
  · exact ht
  · exact hu

theorem foldl {β : Type} {f : State → β → State} (step : ∀ t b, Wrote s t → Wrote s (f t b)) (l : List β) (h : Wrote s t) :
    Wrote s (l.foldl f t) := by
  induction l generalizing t with
  | nil => exact h
  | cons b l ih => exact ih (step t b h)

variable (h : Wrote s t)
include h

/-! ### Fields that are no table -/

theorem draws (n : Nat) : Wrote s { t with draws := n } := .other rfl h

theorem survey (v : Survey) : Wrote s { t with survey := v } := .other rfl h

theorem dispatch (l : List Nat) : Wrote s { t with dispatch := l } := .other rfl h

theorem boundaries (l : List Calendar) : Wrote s { t with boundaries := l } := .other rfl h

theorem transmit (frames : List (Nat × List Byte)) : Wrote s (transmit t frames) := .other rfl h

/-! ### Accounts -/

theorem touch (a : Nat) : Wrote s (touch t a) := h.ite (h.account a _)

theorem touchOpt (o : Option Nat) : Wrote s (touchOpt t o) := by
  cases o with
  | none => exact h
  | some a => exact h.touch a

theorem onAccount {op : State → Nat → Nat → State} (hop : ∀ t a n, Wrote s t → Wrote s (op t a n)) (n : Nat)
    (o : Option Nat) : Wrote s (onAccount t op n o) := by
  cases o with
  | none => exact h
  | some a => exact hop t a n h

theorem warnAccount (a : Nat) : Wrote s (warnAccount t a) := (h.account a _).ite h

theorem reserve (i pc due : Nat) (mono : Bool) : Wrote s (reserve t i pc due mono).state := by
  have touched : Wrote s (reserveTouched t (Machine.job t i).owner) := (h.touch _).touchOpt _
  unfold Machine.reserve
  dsimp only
  generalize reserveTouched t (Machine.job t i).owner = u at touched ⊢
  generalize (Machine.account u (Machine.job t i).owner).department = dept
  cases dept with
  | none =>
    dsimp only [Machine.onAccount]
    split
    · exact touched
    · exact ((touched.account _ _).job i _).warnAccount _
  | some d =>
    dsimp only [Machine.onAccount]
    split
    · exact touched
    · exact ((((touched.account _ _).account d _).job i _).warnAccount _).warnAccount d

theorem commit (i k : Nat) : Wrote s (commit t i k) :=
  (onAccount (((h.touch _).touchOpt _).account _ _) (fun _ a _ h => h.account a _) _ _).job i _

theorem returnReservation (i : Nat) : Wrote s (returnReservation t i) :=
  (onAccount (((h.touch _).touchOpt _).account _ _) (fun _ a _ h => h.account a _) _ _).job i _

/-! ### Printers and callouts -/

theorem handChange (p : Nat) (k : CondKind) (present : Bool) : Wrote s (handChange t p k present) := by
  unfold Machine.handChange
  split
  · exact (h.callout p k _).ite h
  · split
    · exact h.callout p k _
    · exact h.callout p k _
    · exact h

theorem handChanges (p : Nat) (before after : CondKind → Bool) : Wrote s (handChanges t p before after) :=
  foldl (fun _ k h => h.ite (h.handChange p k _)) _ h

theorem resumeJobs (p : Nat) : Wrote s (resumeJobs t p) :=
  (foldl (fun _ i h => h.job i _) _ h).dispatch _

theorem handToJobs (p : Nat) (old new : Printer) : Wrote s (handToJobs t p old new) := by
  have interrupted : Wrote s (if (old.up && new.down) = true then interruptJobs t p else t) :=
    (foldl (fun _ i h => h.job i _) _ h).ite h
  exact (interrupted.resumeJobs p).ite interrupted

theorem printerEvent (p : Nat) (f : Printer → Printer) : Wrote s (printerEvent t p f) :=
  ((h.printer p _).handToJobs p _ _).handChanges p _ _

theorem lowerQueue (o : Option Nat) : Wrote s (lowerQueue t o) := by
  cases o with
  | none => exact h
  | some p => exact h.printer p _

theorem consume (i k : Nat) : Wrote s (consume t i k) := by
  unfold Machine.consume
  split
  · exact h
  · exact h.printerEvent _ _

theorem reportCopies (i k : Nat) : Wrote s (reportCopies t i k) := h.ite ((h.commit i k).consume i k)

theorem deleteCallouts (p : Nat) : Wrote s (deleteCallouts t p) :=
  foldl (fun _ d h => h.desk d _) _ (foldl (fun _ k h => h.callout p k none) _ h)

theorem leavePools (p : Nat) : Wrote s (leavePools t p) := foldl (fun _ q h => h.pool q _) _ h

theorem retireCallout (p : Nat) (k : CondKind) (c : Callout) : Wrote s (retireCallout t p k c) := by
  have left : Wrote s (match c.state with
      | .pending => t
      | .inService => putDesk t c.desk
          { Machine.desk t c.desk with inService := (Machine.desk t c.desk).inService.filter (· != (p, k)) }) := by
    split
    · exact h
    · exact h.desk _ _
  have ordered := ((left.callout p k none).printerEvent p Printer.order).ite (c := k = .tonerReorder)
    (left.callout p k none)
  exact (ordered.callout p k _).ite ordered

theorem takeCallout (d p : Nat) (k : CondKind) (c : Callout) : Wrote s (takeCallout t d p k c) := by
  have rotated : Wrote s (rotateBase t c.cls p) := by
    unfold rotateBase
    split
    · exact h
    · exact h.classRec _ _
  have served : Wrote s (putInService (rotateBase t c.cls p) d p k c) := (rotated.callout p k _).desk d _
  exact (rotated.retireCallout p k c).ite ((served.printerEvent p Printer.order).ite served)

/-! ### Jobs -/

theorem revertJob (i : Nat) : Wrote s (revertJob t i) :=
  (h.job i _).ite (h.job i _)

theorem giveUpRelease (i : Nat) : Wrote s (giveUpRelease t i) := ((h.returnReservation i).lowerQueue _).revertJob i

theorem releaseJob (i q p : Nat) : Wrote s (releaseJob t i q p) := by
  have counted : ∀ (r : Job) (n : Nat) (l : List Nat), Wrote s { putJob t i r with releaseCounter := n, dispatch := l } :=
    fun r _ _ => .other rfl (h.job i r)
  exact (counted _ _ _).printer p _

theorem attempt (i q : Nat) (need : Need) (mono : Bool) : Wrote s (attempt t i q need mono).state := by
  unfold Machine.attempt
  dsimp only
  split
  · exact h
  · split
    · exact h
    · split
      · exact (h.touch _).reserve i _ _ mono
      · exact ((h.touch _).reserve i _ _ mono).releaseJob i q _

theorem decideSlot (i q : Nat) : Wrote s (decideSlot t i q).state := by
  unfold Machine.decideSlot
  dsimp only
  generalize (if 0 < (Machine.job t i).sidesColour then Need.colour else Need.mono) = need
  split
  · exact h.attempt i q _ false
  · split
    · exact h.attempt i q _ false
    · split
      · exact (h.attempt i q _ false).attempt i q _ true
      · exact (h.attempt i q _ false).attempt i q _ true

theorem decideRelease (x a q : Nat) : Wrote s (decideRelease t x a q).state := by
  unfold Machine.decideRelease
  split
  · exact h
  · split
    · exact h.decideSlot _ q
    · exact h

theorem decideAll (a q : Nat) : Wrote s (decideAll t a q).state := by
  have all : ∀ (l : List Nat) (r : AllResult), Wrote s r.state →
      Wrote s (l.foldl (fun r x => r.add (Machine.decideRelease r.state x a q)) r).state := by
    intro l
    induction l with
    | nil => exact fun r hr => hr
    | cons x l ih => exact fun r hr => ih _ (hr.decideRelease x a q)
  exact all _ _ h

theorem cancelRouted (i : Nat) : Wrote s (cancelRouted t i) := by
  have off : Wrote s (if (Machine.job t i).state = .released then
      { t with dispatch := t.dispatch.filter (· != handleOf t i) } else t) := ite (h.dispatch _) h
  exact ((off.returnReservation i).lowerQueue _).job i _

theorem takeFrom (n : Nat) (l : List Nat) : Wrote s (takeFrom t n l).state := by
  induction l generalizing t n with
  | nil => exact h.dispatch []
  | cons x rest ih =>
    have off := h.dispatch rest
    unfold Machine.takeFrom
    dsimp only
    split
    · exact off.job _ _
    · split
      · exact ((off.lowerQueue _).printer _ _).job _ _
      · exact ih (off.giveUpRelease _) _

theorem completeJob (i : Nat) : Wrote s (completeJob t i) := ((h.reportCopies i _).lowerQueue _).job i _

theorem cancelAtPrinter (i : Nat) : Wrote s (cancelAtPrinter t i) := ((h.returnReservation i).lowerQueue _).job i _

theorem failDelivery (i : Nat) : Wrote s (failDelivery t i) := (h.job i _).ite h

theorem expireHeld (i : Nat) : Wrote s (expireHeld t i) := (h.job i _).ite h

theorem endWindow (i : Nat) : Wrote s (endWindow t i) := (h.giveUpRelease i).ite h

/-! ### Loops and visits -/

theorem mapTerminals (l : Nat) (f : Terminal → Terminal) : Wrote s (mapTerminals t l f) :=
  foldl (fun _ _ h => h.terminal _ _) _ h

theorem startRollCall (l : Nat) : Wrote s (startRollCall t l) :=
  ((h.mapTerminals l _).loopRec l _).draws _

theorem startIfIdle (l : Nat) : Wrote s (startIfIdle t l) := h.ite (h.startRollCall l)

theorem setTurns (l : Nat) (turns : List Nat) : Wrote s (setTurns t l turns) := by
  have passed : ∀ {u : State}, Wrote s u → Wrote s (passPhases u l) := by
    intro u hu
    unfold passPhases
    dsimp only
    split
    · exact hu
    · split
      · exact hu.loopRec l _
      · exact hu.loopRec l _
      · exact hu.loopRec l _
      · exact hu
  exact passed (h.loopRec l _)

theorem pend (n : Nat) (d : Display) : Wrote s (pend t n d) := by
  unfold Machine.pend
  split
  · exact h.terminal n _
  · exact h.terminal n _
  · exact (h.terminal n _).startIfIdle _
  · exact h.terminal n _

theorem endVisit (n : Nat) (d : Display) : Wrote s (endVisit t n d) := by
  unfold Machine.endVisit
  split
  · exact h
  · exact (h.visit n none).pend n d

theorem endVisitOf (a : Nat) (d : Display) : Wrote s (endVisitOf t a d) := by
  unfold Machine.endVisitOf
  split
  · exact h
  · exact h.endVisit _ d

theorem dropVisits (l : Nat) : Wrote s (dropVisits t l) := foldl (fun _ _ h => h.visit _ none) _ h

theorem clearLoop (l : Nat) (st : LoopState) : Wrote s (clearLoop t l st) := ((h.dropVisits l).mapTerminals l _).loopRec l _

theorem restartLoop (l : Nat) : Wrote s (restartLoop t l) := ((h.mapTerminals l _).loopRec l _).startRollCall l

theorem joinLoop (l : Nat) : Wrote s (joinLoop t l) := by
  unfold Machine.joinLoop
  split
  · exact (h.loopRec l _).startRollCall l
  · exact h.startIfIdle l
  · exact h.startIfIdle l
  · exact h

theorem leaveLoop (l a : Nat) : Wrote s (leaveLoop t l a) := (h.loopRec l _).ite ((h.setTurns l _).ite h)

theorem showList (n : Nat) (v : Visit) (asked : Nat) : Wrote s (showList t n v asked) :=
  ((h.touch v.account).visit n _).pend n _

theorem showResult (n : Nat) (v : Visit) (r : ResultPart) : Wrote s (showResult t n v r) :=
  ((h.touch v.account).visit n _).pend n _

theorem rollSlot {effect : State → State} (he : ∀ {u}, Wrote s u → Wrote s (effect u)) (l a : Nat) :
    Wrote s (rollSlot t l a effect) :=
  h.ite ((he (h.transmit _)).setTurns l _)

theorem fetch {effect : State → State} (he : ∀ {u}, Wrote s u → Wrote s (effect u)) (l a : Nat) (accept : Bool) :
    Wrote s (fetch t l a accept effect) := by
  exact h.ite (((he ((h.transmit _).terminal _ _)).ite (h.transmit _)).setTurns l _)

theorem takeAnswer (n : Nat) (flagged : Bool) : Wrote s (takeAnswer t n flagged) :=
  ((h.terminal n _).pend n _).ite (h.terminal n _)

theorem missAnswer (n : Nat) : Wrote s (missAnswer t n) :=
  ((h.visit n none).terminal n _).ite ((h.terminal n _).ite h)

theorem sendDisplay (l : Nat) : Wrote s (sendDisplay t l) := by
  unfold Machine.sendDisplay
  split
  · exact h
  · split
    · exact h
    · dsimp only
      split
      · exact h
      · exact ((h.transmit _).terminal _ _).setTurns l _

theorem closeRollCall (l : Nat) : Wrote s (closeRollCall t l) := h.ite (((h.loopRec l _).startRollCall l).ite (h.loopRec l _))

theorem rollCallInterval (l : Nat) : Wrote s (rollCallInterval t l) := h.ite ((h.startRollCall l).ite (h.loopRec l _))

theorem presenceInterval (l : Nat) : Wrote s (presenceInterval t l) := h.ite ((h.startRollCall l).ite (h.loopRec l _))

theorem takeBadge (n b : Nat) : Wrote s (takeBadge t n b) := by
  unfold Machine.takeBadge
  split
  · exact (h.visit n none).pend n _
  · exact ((h.touch _).visit n none).pend n _
  · have other : ∀ a, Wrote s (endOtherVisit (Machine.touch t a) a n) := by
      intro a
      unfold endOtherVisit
      split
      · exact h.touch a
      · exact (h.touch a).ite ((h.touch a).endVisit _ _)
    exact ((other _).visit n none).showList n _ _

theorem pickEvery (n : Nat) (v : Visit) : Wrote s (pickEvery t n v) := (h.decideAll v.account _).showResult n v _

theorem takePick (n entry : Nat) : Wrote s (takePick t n entry) := by
  unfold Machine.takePick
  split
  · exact h
  · refine (h.pickEvery n _).ite ?_
    unfold pickOne
    split
    · exact h.showResult n _ _
    · exact (h.decideRelease _ _ _).showResult n _ _

theorem takePickAll (n : Nat) : Wrote s (takePickAll t n) := by
  unfold Machine.takePickAll
  split
  · exact h
  · exact h.pickEvery n _

theorem takeMore (n : Nat) : Wrote s (takeMore t n) := by
  unfold Machine.takeMore
  split
  · exact h
  · exact h.showList n _ _

theorem takeRefresh (n : Nat) : Wrote s (takeRefresh t n) := by
  have shown := (h.pend n (Machine.terminal t n).current).ite (c := (Machine.terminal t n).pending = none) h
  unfold Machine.takeRefresh
  dsimp only
  split
  · exact shown
  · exact shown.visit n _

theorem idleOut (n : Nat) : Wrote s (idleOut t n) := by
  unfold Machine.idleOut
  split
  · exact h
  · exact (h.endVisit n _).ite h

/-! ### The clock -/

theorem surveyMatch : Wrote s (surveyMatch t) := h.ite (h.survey _)

theorem surveyOnce : Wrote s (surveyOnce t) := by
  unfold Machine.surveyOnce
  split
  · exact h
  · split
    · exact h.survey _
    · have seen := fun p => h.printerEvent p (fun r =>
        { r with supplies := r.supplies.map fun e => (e.1, e.2.visited t.seconds (Machine.model t e.2.model).lead) })
      dsimp only
      split
      · exact ((seen _).survey _).survey _
      · exact (seen _).survey _

theorem testRollover (c : Calendar) (n : Nat) : Wrote s (testRollover c t n) := (h.tenant n _).ite h

theorem testPatterns (c : Calendar) : Wrote s (testPatterns t c) := by
  have tested := foldl (fun _ n h => testRollover h c n) (List.range 32) h
  unfold Machine.testPatterns
  generalize (List.range 32).foldl (Machine.testRollover c) t = u at tested ⊢
  exact tested.surveyMatch.ite tested

theorem takeBoundary : Wrote s (takeBoundary t) := by
  unfold Machine.takeBoundary
  split
  · exact h
  · exact (h.boundaries _).testPatterns _

end Wrote

/-! ## The rules -/

theorem wrote_onSupply {s : State} {effect : Channel → Supply → Reply} (he : ∀ ch x, Wrote s (effect ch x).state) (p : Nat)
    (channel : Option Channel) : Wrote s (onSupply p channel effect s).state := by
  unfold onSupply
  split
  · exact .refl
  · split
    · exact .refl
    · split
      · exact .refl
      · exact he _ _

theorem wrote_jobEndRule {s : State} {effect : State → Nat → State} (he : ∀ i, Wrote s (effect s i)) (h : Nat) :
    Wrote s (jobEndRule effect h s).state := by
  unfold jobEndRule
  split
  · exact .refl
  · split
    · exact .refl
    · exact he _

section
variable (s : State)

theorem wrote_loadAccountRule (f : LoadFields) : Wrote s (loadAccountRule f s).state := by
  have touched : Wrote s (f.touched s) := (Wrote.refl.touch _).touchOpt _
  unfold loadAccountRule
  dsimp only
  repeat' split
  all_goals first
    | exact touched
    | exact ((touched.badge _ _ _).account _ _ |>.endVisitOf _ _).ite ((touched.badge _ _ _).account _ _)

theorem wrote_retireAccountRule (a : Nat) : Wrote s (retireAccountRule a s).state := by
  have touched : Wrote s (touch s a) := .touch .refl a
  unfold retireAccountRule
  split
  · exact .refl
  · dsimp only
    split
    · exact touched
    · split
      · exact touched
      · exact ((touched.endVisitOf a _).badge _ _ _).account a _

theorem wrote_suspendAccountRule (a : Nat) : Wrote s (suspendAccountRule a s).state := by
  have touched : Wrote s (touch s a) := .touch .refl a
  unfold suspendAccountRule
  split
  · exact .refl
  · dsimp only
    split
    · exact (touched.account a _).endVisitOf a _
    · exact touched

theorem wrote_holdJobRule (f : HoldFields) : Wrote s (holdJobRule f s).state := by
  have touched : Wrote s (touch s f.owner) := .touch .refl f.owner
  unfold holdJobRule
  dsimp only
  repeat' split
  all_goals first
    | exact .refl
    | exact touched
    | exact touched.job _ _

theorem wrote_cancelJobRule (h : Nat) : Wrote s (cancelJobRule h s).state := by
  unfold cancelJobRule
  split
  · exact .refl
  · split
    · exact Wrote.refl.job _ _
    · exact Wrote.refl.cancelRouted _
    · exact Wrote.refl.cancelRouted _
    · exact .refl

theorem wrote_enrollTerminalRule (l a q : Nat) : Wrote s (enrollTerminalRule l a q s).state := by
  unfold enrollTerminalRule
  split
  · exact .refl
  · dsimp only
    split
    · exact (Wrote.refl.terminal _ _).endVisit _ _
    · exact (Wrote.refl.terminal _ _).joinLoop l

theorem wrote_enrollPrinterRule (f : EnrollFields) : Wrote s (enrollPrinterRule f s).state := by
  unfold enrollPrinterRule reEnroll
  dsimp only
  repeat' split
  all_goals first
    | exact .refl
    | exact Wrote.refl.printer _ _

theorem wrote_acknowledgeRule (d : Nat) : Wrote s (acknowledgeRule d s).state := by
  unfold acknowledgeRule
  split
  · exact .refl
  · split
    · exact .refl
    · exact Wrote.refl.takeCallout d _ _ _

theorem wrote_closeSpecificRule (d p : Nat) (kind : Option CondKind) : Wrote s (closeSpecificRule d p kind s).state := by
  unfold closeSpecificRule
  repeat' split
  all_goals first
    | exact .refl
    | exact Wrote.refl.retireCallout _ _ _

theorem wrote_closeNonSpecificRule (d : Nat) : Wrote s (closeNonSpecificRule d s).state := by
  unfold closeNonSpecificRule
  repeat' split
  all_goals first
    | exact .refl
    | exact Wrote.refl.retireCallout _ _ _

theorem wrote_setTenantPolicyRule (tenant mono colour credit hold resume : Nat) (policy : Option QuotaPolicy) (warn : Nat)
    (pattern : Pattern) :
    Wrote s (setTenantPolicyRule tenant mono colour credit hold resume policy warn pattern s).state := by
  unfold setTenantPolicyRule
  repeat' split
  all_goals first
    | exact .refl
    | exact (Wrote.refl.tenant _ _).rollover _ _

/-- A command's rule or effect leaves the records by writes of single records. -/
theorem wrote_recordsAfter (c : Instr) : Wrote s (recordsAfter c s) := by
  have same : ∀ {t : State}, t = s → Wrote s t := by
    rintro t rfl
    exact .refl
  have guarded : ∀ {b : Prop} [Decidable b] {x y : Reply}, Wrote s x.state → Wrote s y.state →
      Wrote s (if b then x else y).state := by
    intro b _ x y hx hy
    split
    · exact hx
    · exact hy
  cases c
  case setTenantPolicy => exact wrote_setTenantPolicyRule s _ _ _ _ _ _ _ _ _
  case loadAccount => exact wrote_loadAccountRule s _
  case setLimit => exact guarded .refl ((Wrote.refl.touch _).account _ _)
  case suspendAccount => exact wrote_suspendAccountRule s _
  case resumeAccount => exact guarded .refl ((Wrote.refl.touch _).account _ _)
  case retireAccount => exact wrote_retireAccountRule s _
  case readAccount => exact guarded .refl (Wrote.refl.touch _)
  case holdJob => exact wrote_holdJobRule s _
  case cancelJob => exact wrote_cancelJobRule s _
  case removeJob =>
    unfold recordsAfter removeJobRule
    dsimp only
    split
    · exact .refl
    · exact guarded (Wrote.refl.slot _ _) .refl
  case takeDispatch => exact Wrote.refl.takeFrom 0 s.dispatch
  case reportProgress =>
    unfold recordsAfter reportProgressRule
    dsimp only
    split
    · exact .refl
    · exact guarded .refl (Wrote.refl.reportCopies _ _)
  case reportJobEndComplete => exact guarded .refl (wrote_jobEndRule (fun i => Wrote.refl.completeJob i) _)
  case reportJobEndCancelledAtPrinter => exact wrote_jobEndRule (fun i => Wrote.refl.cancelAtPrinter i) _
  case reportJobEndDeliveryFailed => exact wrote_jobEndRule (fun i => Wrote.refl.failDelivery i) _
  case enrollTerminal => exact wrote_enrollTerminalRule s _ _ _
  case retireTerminal => exact guarded .refl (guarded .refl (((Wrote.refl.visit _ none).terminal _ _).leaveLoop _ _))
  case loopReset => exact guarded .refl (guarded .refl ((Wrote.refl.clearLoop _ _).restartLoop _))
  case enrollPrinter => exact wrote_enrollPrinterRule s _
  case retirePrinter =>
    exact guarded .refl (guarded .refl (((Wrote.refl.leavePools _).deleteCallouts _).printer _ _))
  case setService => exact guarded .refl (Wrote.refl.printerEvent _ (fun _ => _))
  case printerStatus => exact guarded .refl (Wrote.refl.printerEvent _ (fun _ => _))
  case setPool => exact guarded .refl (Wrote.refl.pool _ _)
  case setSupplyModel => exact guarded .refl (guarded .refl (Wrote.refl.model _ _))
  case supplyReport => exact wrote_onSupply (fun _ _ => Wrote.refl.printerEvent _ (fun _ => _)) _ _
  case supplyReplaced => exact wrote_onSupply (fun _ _ => Wrote.refl.printerEvent _ (fun _ => _)) _ _
  case setCondition =>
    unfold recordsAfter setConditionRule
    dsimp only
    repeat' split
    all_goals first
      | exact .refl
      | exact Wrote.refl.condEntry _ _
  case setClassMode =>
    unfold recordsAfter setClassModeRule
    dsimp only
    split
    · exact .refl
    · exact guarded .refl (Wrote.refl.classRec _ _)
  case setClassBase => exact guarded .refl (Wrote.refl.classRec _ _)
  case setDeskMode =>
    unfold recordsAfter setDeskModeRule
    dsimp only
    split
    · exact .refl
    · exact guarded .refl (Wrote.refl.desk _ _)
  case acknowledgeCallout => exact wrote_acknowledgeRule s _
  case closeCalloutSpecific => exact wrote_closeSpecificRule s _ _ _
  case closeCalloutNonSpecific => exact wrote_closeNonSpecificRule s _
  case minuteBoundary => exact Wrote.refl.takeBoundary
  case holdExpiry i => exact Wrote.refl.expireHeld i.val
  case resumeWindowExpiry i => exact Wrote.refl.endWindow i.val
  case contactExpiry p =>
    unfold recordsAfter loseContact
    dsimp only
    split
    · exact .refl
    · exact (Wrote.refl.printerEvent _ _).ite .refl
  case visitIdleExpiry => exact Wrote.refl.idleOut _
  case surveyStep => exact Wrote.refl.surveyOnce
  case wake l => exact (Wrote.refl.startIfIdle l.val).ite .refl
  case rollCallIntervalExpiry l => exact Wrote.refl.rollCallInterval l.val
  case presenceIntervalExpiry l => exact Wrote.refl.presenceInterval l.val
  case answer => exact Wrote.refl.rollSlot (fun h => h.takeAnswer _ _) _ _
  case noAnswer => exact Wrote.refl.rollSlot (fun h => h.missAnswer _) _ _
  case displaySend l => exact Wrote.refl.sendDisplay l.val
  case fetchFailed => exact Wrote.refl.fetch (fun h => h) _ _ _
  case unknownMessage => exact Wrote.refl.fetch (fun h => h) _ _ _
  case badge => exact Wrote.refl.fetch (fun h => h.takeBadge _ _) _ _ _
  case pick => exact Wrote.refl.fetch (fun h => h.takePick _ _) _ _ _
  case pickAll => exact Wrote.refl.fetch (fun h => h.takePickAll _) _ _ _
  case more => exact Wrote.refl.fetch (fun h => h.takeMore _) _ _ _
  case done => exact Wrote.refl.fetch (fun h => h.endVisit _ _) _ _ _
  case refresh => exact Wrote.refl.fetch (fun h => h.takeRefresh _) _ _ _
  case rollCallClose l => exact Wrote.refl.closeRollCall l.val
  case loopFault l => exact Wrote.refl.ite (Wrote.refl.clearLoop l.val _)
  case faultEnd l => exact (Wrote.refl.restartLoop l.val).ite .refl
  case readTenant => exact same (readTenantRule_state s _)
  case readJob => exact same (readJobRule_state s _)
  case findJobs => exact same (findJobsRule_state s _ _ _)
  case readLoop => exact same (readLoopRule_state s _)
  case readPrinter => exact same (readPrinterRule_state s _)
  case readPool => exact same (readPoolRule_state s _)
  case readSupplyModel => exact same (readSupplyModelRule_state s _)
  case readSupplies => exact same (readSuppliesRule_state s _)
  case readDesk => exact same (readDeskRule_state s _)
  case readCallouts => exact same (readCalloutsRule_state s _)
  case readPattern => exact same (readPatternRule_state s _)
  case surveyNow => exact guarded .refl (guarded .refl (Wrote.refl.survey _))
  all_goals first
    | exact .refl
    | exact .other rfl .refl

end

end Sys2Proof.Machine
end

