-- ==== Sys2Proof/Proofs/JobTotals.lean ====
section
/-! PROOFS. Figures added up over the job table, as the finished count, the queue counts and the reserved figures are, and how
they move when one job changes. -/

namespace Sys2Proof.Machine

/-! ## Sums over a canonical table -/

section
variable {α : Type}

theorem Table.sum_insert (g : α → Nat) (k : Nat) (v : α) (t : Table α) :
    ((Table.insert k v t).map fun e => g e.2).sum = g v + (t.map fun e => g e.2).sum := by
  induction t with
  | nil => rfl
  | cons e t ih =>
    obtain ⟨i, w⟩ := e
    by_cases hk : k < i
    · simp [Table.insert, hk]
    · simp only [Table.insert, hk, if_false, List.map_cons, List.sum_cons, ih]
      omega

theorem Table.erase_of_above {k : Nat} {t : Table α} (h : ∀ e ∈ t, k < e.1) : Table.erase k t = t := by
  induction t with
  | nil => rfl
  | cons e t ih =>
    have hk := h e List.mem_cons_self
    rw [Table.erase, if_neg (by omega), ih fun x hx => h x (List.mem_cons_of_mem _ hx)]

theorem Table.sum_erase [DecidableEq α] {d : α} {g : α → Nat} (hg : g d = 0) (k : Nat) {t : Table α} (h : Table.wf (fun _ => d) t = true) :
    ((Table.erase k t).map fun e => g e.2).sum + g (Table.get d k t) = (t.map fun e => g e.2).sum := by
  induction t with
  | nil => simpa [Table.erase, Table.get] using hg
  | cons e t ih =>
    obtain ⟨i, w⟩ := e
    simp only [Table.wf, Bool.and_eq_true] at h
    obtain ⟨⟨_, habove⟩, hwf⟩ := h
    by_cases hi : i = k
    · subst hi
      simp only [Table.erase, Table.get, if_true, Table.erase_of_above ((Table.above_iff i t).1 habove), List.map_cons,
        List.sum_cons]
      omega
    · have := ih hwf
      simp only [Table.erase, Table.get, hi, if_false, List.map_cons, List.sum_cons]
      omega

/-- A write of one record moves the sum by what the record adds. -/
theorem Table.sum_put [DecidableEq α] {d : α} {g : α → Nat} (hg : g d = 0) (k : Nat) (v : α) {t : Table α}
    (h : Table.wf (fun _ => d) t = true) :
    ((Table.put d k v t).map fun e => g e.2).sum + g (Table.get d k t) = (t.map fun e => g e.2).sum + g v := by
  have erased := Table.sum_erase hg k h
  unfold Table.put
  split
  · subst_vars
    omega
  · rw [Table.sum_insert]
    omega

end

theorem length_filter_eq_sum {β : Type} (p : β → Bool) (l : List β) :
    (l.filter p).length = (l.map fun x => oneIf (p x)).sum := by
  induction l with
  | nil => rfl
  | cons x l ih =>
    cases hx : p x <;> simp [hx, ih, oneIf]
    omega

/-! ## Totals over the jobs -/

/-- The sum of a figure over the jobs. -/
def jobTotal (f : Job → Nat) (s : State) : Nat := (s.jobs.map fun e => f e.2.job).sum

theorem jobTotal_of_jobs {f : Job → Nat} {s t : State} (h : t.jobs = s.jobs) : jobTotal f t = jobTotal f s := by
  rw [jobTotal, jobTotal, h]

theorem jobTotal_putSlot {f : Job → Nat} (hf : f {} = 0) {s : State} (hs : Canonical s = true) (i : Nat) (r : Slot) :
    jobTotal f (putSlot s i r) + f (job s i) = jobTotal f s + f r.job :=
  Table.sum_put (d := ({} : Slot)) (g := fun x => f x.job) hf i r (canonical_jobs hs)

theorem jobs_ext {s t : State} (hs : Canonical s = true) (ht : Canonical t = true) (h : ∀ k, slot t k = slot s k) :
    t.jobs = s.jobs :=
  Table.ext_get _ (canonical_jobs ht) (canonical_jobs hs) h

/-- When one slot differs, a total moves by what its job adds. -/
theorem jobTotal_update {f : Job → Nat} (hf : f {} = 0) {s t : State} (hs : Canonical s = true) (ht : Canonical t = true)
    {i : Nat} (h : ∀ k, k ≠ i → slot t k = slot s k) : jobTotal f t + f (job s i) = jobTotal f s + f (job t i) := by
  have jobs : t.jobs = (putSlot s i (slot t i)).jobs := by
    refine jobs_ext (canonical_putSlot hs i _) ht fun k => ?_
    rw [slot_putSlot]
    split
    · subst_vars
      rfl
    · exact h k ‹_›
  have total := jobTotal_putSlot hf hs i (slot t i)
  rwa [← jobTotal_of_jobs jobs] at total

theorem jobTotal_congr {f : Job → Nat} {s t : State} (hs : Canonical s = true) (ht : Canonical t = true)
    (h : ∀ k, slot t k = slot s k) : jobTotal f t = jobTotal f s :=
  jobTotal_of_jobs (jobs_ext hs ht h)

theorem finishedCounted_iff (s : State) : FinishedCounted s ↔ s.finished = jobTotal (fun j => oneIf j.state.finished) s := by
  unfold FinishedCounted jobTotal
  rw [length_filter_eq_sum]

end Sys2Proof.Machine
end

