-- ==== Sys2Proof/Proofs/Tables.lean ====
section
/-! PROOFS. Writes of single records keep the canonical form of the tables and the finished count (log 9, R39). -/

namespace Sys2Proof.Machine

/-- The fields that are record tables. -/
abbrev Field.tables : List Field :=
  [.tenants, .accounts, .badgeMap, .jobs, .printers, .pools, .models, .conditions, .callouts, .classes, .desks, .loops,
   .terminals, .visits, .rollovers]

theorem looksAt_canonical : LooksAt Field.tables fun s => Canonical s = true := by
  intro s t h hs
  have tenants : t.tenants = s.tenants := h .tenants (by decide)
  have accounts : t.accounts = s.accounts := h .accounts (by decide)
  have badgeMap : t.badgeMap = s.badgeMap := h .badgeMap (by decide)
  have jobs : t.jobs = s.jobs := h .jobs (by decide)
  have printers : t.printers = s.printers := h .printers (by decide)
  have pools : t.pools = s.pools := h .pools (by decide)
  have models : t.models = s.models := h .models (by decide)
  have conditions : t.conditions = s.conditions := h .conditions (by decide)
  have callouts : t.callouts = s.callouts := h .callouts (by decide)
  have classes : t.classes = s.classes := h .classes (by decide)
  have desks : t.desks = s.desks := h .desks (by decide)
  have loops : t.loops = s.loops := h .loops (by decide)
  have terminals : t.terminals = s.terminals := h .terminals (by decide)
  have visits : t.visits = s.visits := h .visits (by decide)
  have rollovers : t.rollovers = s.rollovers := h .rollovers (by decide)
  unfold Canonical at *
  rwa [tenants, accounts, badgeMap, jobs, printers, pools, models, conditions, callouts, classes, desks, loops, terminals,
    visits, rollovers]

/-- Writes of single records keep the tables canonical. -/
theorem Wrote.canonical {s t : State} (h : Wrote s t) (hs : Canonical s = true) : Canonical t = true := by
  induction h with
  | refl => exact hs
  | tenant k r _ ih => exact canonical_putTenant ih k r
  | account k r _ ih => exact canonical_putAccount ih k r
  | badge a old new _ ih => exact canonical_moveBadge ih a old new
  | slot k r _ ih => exact canonical_putSlot ih k r
  | printer k r _ ih => exact canonical_putPrinter ih k r
  | pool k r _ ih => exact canonical_putPool ih k r
  | model k r _ ih => exact canonical_putModel ih k r
  | condEntry k r _ ih => exact canonical_putCondEntry ih k r
  | callout p k r _ ih => exact canonical_putCallout ih p k r
  | classRec k r _ ih => exact canonical_putClass ih k r
  | desk k r _ ih => exact canonical_putDesk ih k r
  | loopRec k r _ ih => exact canonical_putLoop ih k r
  | terminal k r _ ih => exact canonical_putTerminal ih k r
  | visit k r _ ih => exact canonical_putVisit ih k r
  | rollover k r _ ih => exact canonical_putRollover ih k r
  | other frame _ ih => exact looksAt_canonical.of_frame frame (by decide) ih

theorem canonical_recordsAfter (c : Instr) {s : State} (hs : Canonical s = true) : Canonical (recordsAfter c s) = true :=
  (wrote_recordsAfter s c).canonical hs

/-- Settles O3: every command changes the tables by writes of single records, each of which keeps the form. -/
theorem tablesStayCanonical : Obligations.TablesStayCanonical := by
  unfold Obligations.TablesStayCanonical
  intro s t hs h
  exact step_keeps looksAt_canonical (by decide) canonical_reset (fun c _ _ h => canonical_recordsAfter c h) hs h

/-! ## The finished count -/

theorem looksAt_finishedCounted : LooksAt [.jobs, .finished] FinishedCounted := by
  intro s t h hs
  have jobs : t.jobs = s.jobs := h .jobs (by decide)
  have finished : t.finished = s.finished := h .finished (by decide)
  unfold FinishedCounted at *
  rwa [jobs, finished]

/-- The one write that moves the finished count moves it as the job it writes enters or leaves the counted states. -/
theorem finishedCounted_putSlot {s : State} (hs : Canonical s = true) (h : FinishedCounted s) (i : Nat) (r : Slot) :
    FinishedCounted (putSlot s i r) := by
  rw [finishedCounted_iff] at *
  have total := jobTotal_putSlot (f := fun j => oneIf j.state.finished) rfl hs i r
  have written : (putSlot s i r).finished = s.finished + oneIf r.job.state.finished - oneIf (job s i).state.finished := rfl
  omega

theorem Wrote.finishedCounted {s t : State} (h : Wrote s t) (hs : Canonical s = true) (hf : FinishedCounted s) :
    FinishedCounted t := by
  have kept : ∀ {v : List Field} {a b : State}, Frame v a b → (∀ f ∈ [Field.jobs, .finished], f ∉ v) →
      FinishedCounted a → FinishedCounted b := fun frame hv => looksAt_finishedCounted.of_frame frame hv
  induction h with
  | refl => exact hf
  | slot k r before ih => exact finishedCounted_putSlot (before.canonical hs) ih k r
  | other frame _ ih => exact kept frame (by decide) ih
  | tenant k r _ ih => exact ih
  | account k r _ ih => exact ih
  | badge a old new _ ih => exact ih
  | printer k r _ ih => exact ih
  | pool k r _ ih => exact ih
  | model k r _ ih => exact ih
  | condEntry k r _ ih => exact ih
  | callout p k r _ ih => exact ih
  | classRec k r _ ih => exact ih
  | desk k r _ ih => exact ih
  | loopRec k r _ ih => exact ih
  | terminal k r _ ih => exact ih
  | visit k r _ ih => exact ih
  | rollover k r _ ih => exact ih

/-- A property that looks at some fields, together with the canonical form. -/
theorem LooksAt.withCanonical {w : List Field} {P : State → Prop} (hP : LooksAt w P) :
    LooksAt (w ++ Field.tables) fun s => Canonical s = true ∧ P s := fun h hs =>
  ⟨looksAt_canonical (fun f hf => h f (List.mem_append_right w hf)) hs.1,
    hP (fun f hf => h f (List.mem_append_left _ hf)) hs.2⟩

/-- Settles O6: a job enters and leaves the counted states by the one write that moves the count. -/
theorem finishedCountCounts : Obligations.FinishedCountCounts := by
  unfold Obligations.FinishedCountCounts
  intro s t hs hf h
  exact (step_keeps looksAt_finishedCounted.withCanonical (by decide) ⟨canonical_reset, rfl⟩
    (fun c s _ h => ⟨canonical_recordsAfter c h.1, (wrote_recordsAfter s c).finishedCounted h.1 h.2⟩) ⟨hs, hf⟩ h).2

end Sys2Proof.Machine
end

