-- ==== Sys2Proof/Proofs/Attention.lean ====
section
/-! PROOFS. Every command leaves ATTN and the desk set in agreement with the records (R151, R185). -/

namespace Sys2Proof.Machine

theorem settled_answered (kind : Byte) (r : Reply) : Settled (answered kind r) := ⟨rfl, rfl⟩

/-- A state whose records hold their reset values has no item to signal (R189). -/
theorem settled_of_reset {t : State} (h : Frame [.pending, .port, .resetPinLow, .supplyLow, .draws] State.reset t) :
    Settled t := by
  have set : t.deskSet = 0 := h.same .deskSet (by decide)
  have attn : t.attn = false := h.same .attn (by decide)
  have presentable : presentableSet t = presentableSet State.reset := by
    rw [h]
    rfl
  have items : anyItem t = anyItem State.reset := by
    rw [h]
    rfl
  have empty : presentableSet State.reset = 0 ∧ anyItem State.reset = false := by decide
  exact ⟨by rw [set, presentable, empty.1], by rw [attn, attnLevel, items, empty.2, Bool.and_false]⟩

/-- A frame that is no request leaves ATTN as it was, with the part out of RESET and STARTING as before. -/
theorem settled_of_portCommand {c : Instr} (hp : portCommand c = true) {s t : State} (hs : Settled s)
    (h : exec c s = .next t) : Settled t := by
  cases c <;> cases hp
  case responseRead n =>
    have h : Host.Outcome.next (if !running s then s else passFrame s (.shifted (readOut s.response n))) = .next t := h
    cases h
    cases hr : running s with
    | false => exact hs
    | true =>
      obtain ⟨hset, hattn⟩ := hs
      refine ⟨hset, hattn.trans ?_⟩
      rw [attnLevel, hr]
      rfl
  case shortFrame =>
    have h : request 0x00 true true (fun s => refuse s .shortFrame) s = .next t := h
    obtain ⟨-, rfl⟩ | ⟨-, -, rfl⟩ | ⟨-, -, -, rfl⟩ := request_cases h
    · exact hs
    · exact settled_answered _ _
    · exact settled_answered _ _
  case badKind kind =>
    have h : request kind true true (fun s => refuse s .badKind) s = .next t := h
    obtain ⟨-, rfl⟩ | ⟨-, -, rfl⟩ | ⟨-, -, -, rfl⟩ := request_cases h
    · exact hs
    · exact settled_answered _ _
    · exact settled_answered _ _
  case discardedStartingFrame =>
    cases h
    dsimp only
    split
    · exact hs
    · exact hs

theorem settled_of_resetCommand {c : Instr} (hr : resetCommand c = true) {s t : State} (hs : Settled s)
    (h : exec c s = .next t) : Settled t := by
  obtain rfl | hreset := exec_reset hr h
  · exact hs
  · exact settled_of_reset hreset

theorem settled_exec {c : Instr} {s t : State} (hs : Settled s) (h : exec c s = .next t) : Settled t := by
  cases hr : resetCommand c with
  | true => exact settled_of_resetCommand hr hs h
  | false =>
    cases hp : portCommand c with
    | true => exact settled_of_portCommand hp hs h
    | false =>
      cases hq : requestShape c with
      | some shape =>
        obtain ⟨rule, hexec, -⟩ := exec_of_requestShape hq
        rw [hexec] at h
        obtain ⟨-, rfl⟩ | ⟨-, -, rfl⟩ | ⟨-, -, -, rfl⟩ := request_cases h
        · exact hs
        · exact settled_answered _ _
        · exact settled_answered _ _
      | none =>
        rw [exec_of_event hq hp hr] at h
        obtain ⟨-, rfl⟩ | ⟨-, rfl⟩ := event_cases h
        · exact hs
        · exact settled_settle _

theorem step_keeps_settled {s t : State} (hs : Settled s) (h : step s = .next t) : Settled t := by
  cases hq : s.pending with
  | nil =>
    have hstep : step s = .next s := by simp [step, hq]
    cases hstep.symm.trans h
    exact hs
  | cons c rest =>
    rw [step_front c rest s hq] at h
    exact settled_exec (s := { s with pending := rest }) hs h

theorem attnLevel_iff (t : State) :
    attnLevel t = true ↔ (t.port = .deselected ∨ t.port = .selected)
      ∧ (presentableSet t ≠ 0 ∨ t.dispatch ≠ [] ∨ 0 < t.finished ∨ faultSet t ≠ 0 ∨ t.survey.done = true) := by
  simp [attnLevel, running, anyItem, Nat.pos_iff_ne_zero, or_assoc]

/-- Settles O4: every command that acts ends with the desk set and ATTN brought up to date. -/
theorem attentionFollowsTheItems : Obligations.AttentionFollowsTheItems := by
  unfold Obligations.AttentionFollowsTheItems
  intro s t hs h
  obtain ⟨hset, hattn⟩ := step_keeps_settled hs h
  exact ⟨hset, by rw [hattn, attnLevel_iff]⟩

end Sys2Proof.Machine
end

