-- ==== Sys2Proof/Proofs/Clocks.lean ====
section
/-! PROOFS. The calendar advances from legal dates to legal dates (R164 to R169). -/

namespace Sys2Proof.Machine

theorem Calendar.legal_iff (c : Calendar) :
    c.legal = true ↔
      c.year ≤ 99 ∧ 1 ≤ c.month ∧ c.month ≤ 12 ∧ 1 ≤ c.day ∧ c.day ≤ monthLength c.year c.month ∧ c.hour ≤ 23
      ∧ c.minute ≤ 59 ∧ c.second ≤ 59 ∧ c.weekday = weekdayOf c.year c.month c.day := by
  simp [Calendar.legal, and_assoc]

theorem clocksLegal_iff (s : State) :
    ClocksLegal s = true ↔
      s.calendar.legal = true ∧ s.seconds ≤ maxCount ∧ ∀ c ∈ s.boundaries, c.legal = true ∧ c.second = 0 := by
  simp [ClocksLegal, and_assoc]

theorem one_le_monthLength (y m : Nat) : 1 ≤ monthLength y m := by
  unfold monthLength
  repeat' split
  all_goals omega

/-- The next day of a legal date is one, its weekday derived (R166, R168). -/
theorem Calendar.legal_nextDay {c : Calendar} (h : c.legal = true) : c.nextDay.legal = true := by
  rw [Calendar.legal_iff] at *
  have first := one_le_monthLength
  obtain ⟨hy, hm, hm', hd, hd', hh, hmin, hs, -⟩ := h
  unfold Calendar.nextDay Calendar.withWeekday
  split
  · exact ⟨hy, hm, hm', by simp, ‹_›, hh, hmin, hs, rfl⟩
  · split
    · exact ⟨hy, by simp, by simp only; omega, by simp, first _ _, hh, hmin, hs, rfl⟩
    · exact ⟨by simp only; split <;> omega, by simp, by simp, by simp, first _ _, hh, hmin, hs, rfl⟩

theorem Calendar.legal_advance {c : Calendar} (h : c.legal = true) : c.advance.legal = true := by
  have parts := (Calendar.legal_iff c).1 h
  obtain ⟨hy, hm, hm', hd, hd', hh, hmin, hs, hw⟩ := parts
  unfold Calendar.advance
  split
  · exact (Calendar.legal_iff _).2 ⟨hy, hm, hm', hd, hd', hh, hmin, by simp only; omega, hw⟩
  · split
    · exact (Calendar.legal_iff _).2 ⟨hy, hm, hm', hd, hd', hh, by simp only; omega, by simp, hw⟩
    · split
      · exact (Calendar.legal_iff _).2 ⟨hy, hm, hm', hd, hd', by simp only; omega, by simp, by simp, hw⟩
      · exact Calendar.legal_nextDay ((Calendar.legal_iff _).2 ⟨hy, hm, hm', hd, hd', by simp, by simp, by simp, hw⟩)

theorem clamp_between {low high : Nat} (h : low ≤ high) (v : Nat) : low ≤ clamp low high v ∧ clamp low high v ≤ high := by
  unfold clamp
  split
  · omega
  · split <;> omega

/-- Set Clock writes a legal calendar whatever it is given (R168, R169). -/
theorem legal_clampedCalendar (year month day hour minute second : Nat) :
    (clampedCalendar year month day hour minute second).legal = true := by
  have months := clamp_between (low := 1) (high := 12) (by decide) month
  have days := clamp_between (one_le_monthLength (clamp 0 99 year) (clamp 1 12 month)) day
  exact (Calendar.legal_iff _).2
    ⟨(clamp_between (Nat.zero_le 99) year).2, months.1, months.2, days.1, days.2, (clamp_between (Nat.zero_le 23) hour).2,
      (clamp_between (Nat.zero_le 59) minute).2, (clamp_between (Nat.zero_le 59) second).2, rfl⟩

theorem clocksLegal_setClock {s : State} {c : Calendar} (hc : c.legal = true) (h : ClocksLegal s = true) :
    ClocksLegal (setClockRule c s).state = true := by
  rw [clocksLegal_iff] at *
  exact ⟨hc, h.2⟩

theorem clocksLegal_takeSecond {s : State} (h : ClocksLegal s = true) : ClocksLegal (takeSecond s) = true := by
  rw [clocksLegal_iff] at *
  obtain ⟨hcal, hsec, hwait⟩ := h
  have next := Calendar.legal_advance hcal
  refine ⟨next, ?_, fun c hc => ?_⟩
  · simp only [takeSecond]
    split <;> omega
  · simp only [takeSecond] at hc
    split at hc
    · obtain hc | hc := List.mem_append.1 hc
      · exact hwait c hc
      · rw [List.mem_singleton.1 hc]
        exact ⟨next, ‹_›⟩
    · exact hwait c hc

theorem looksAt_clocksLegal : LooksAt [.calendar, .seconds, .boundaries] fun s => ClocksLegal s = true := by
  intro s t h hs
  have calendar : t.calendar = s.calendar := h .calendar (by decide)
  have seconds : t.seconds = s.seconds := h .seconds (by decide)
  have boundaries : t.boundaries = s.boundaries := h .boundaries (by decide)
  unfold ClocksLegal at *
  rwa [calendar, seconds, boundaries]

/-- A minute boundary takes the oldest of the waiting calendars and leaves the clocks. -/
theorem clocksLegal_takeBoundary {s : State} (h : ClocksLegal s = true) : ClocksLegal (takeBoundary s) = true := by
  unfold takeBoundary
  split
  · exact h
  · rename_i c rest hwait
    have popped : ClocksLegal { s with boundaries := rest } = true := by
      rw [clocksLegal_iff] at *
      obtain ⟨hcal, hsec, hall⟩ := h
      exact ⟨hcal, hsec, fun c hc => hall c (hwait ▸ List.mem_cons_of_mem _ hc)⟩
    have frame := frame_testPatterns { s with boundaries := rest } c
    exact looksAt_clocksLegal.of_frame frame (by decide) popped

theorem clocksLegal_reset : ClocksLegal State.reset = true :=
  (clocksLegal_iff _).2 ⟨by decide, Nat.zero_le maxCount, fun _ h => nomatch h⟩

/-- Settles O5: a seconds event, a minute boundary and Set Clock are all that write the clocks. -/
theorem clocksStayLegal : Obligations.ClocksStayLegal := by
  unfold Obligations.ClocksStayLegal
  intro s t hs h
  refine step_keeps looksAt_clocksLegal (by decide) clocksLegal_reset (fun c s hw hs => ?_) hs h
  cases c
  case setClock => exact clocksLegal_setClock (legal_clampedCalendar _ _ _ _ _ _) hs
  case secondsEvent => exact clocksLegal_takeSecond hs
  case minuteBoundary => exact clocksLegal_takeBoundary hs
  all_goals exact absurd hw Bool.false_ne_true

end Sys2Proof.Machine
end

