-- ==== Sys2Proof/Proofs/LoopModes.lean ====
section
/-! PROOFS. A loop stays OFF exactly while none of its terminals is enrolled (R55, R57, R58, R65). -/

namespace Sys2Proof.Machine

/-! ## Legal moves of a loop -/

/-- What an OFF and a FAULT loop have to hold (R55, R65). -/
def Loop.Ok (r : Loop) : Prop :=
  (r.state = .off ∨ r.state = .fault → r.phase = none) ∧ (r.state = .off → r.lastStart = none)

/-- From a loop record that is in order, a move to another that neither enters nor leaves OFF. -/
def Loop.Moves (r r' : Loop) : Prop := r.Ok → (r'.state = .off ↔ r.state = .off) ∧ r'.Ok

theorem Loop.Moves.refl (r : Loop) : r.Moves r := fun h => ⟨Iff.rfl, h⟩

theorem Loop.Moves.trans {r r' r'' : Loop} (h : r.Moves r') (k : r'.Moves r'') : r.Moves r'' := by
  intro ok
  obtain ⟨off, ok'⟩ := h ok
  obtain ⟨off', ok''⟩ := k ok'
  exact ⟨off'.trans off, ok''⟩

theorem Loop.Moves.of_eq {r r' : Loop} (hs : r'.state = r.state) (hp : r'.phase = r.phase)
    (hl : r'.lastStart = r.lastStart) : r.Moves r' := by
  intro ok
  unfold Loop.Ok at *
  rw [hs, hp, hl]
  exact ⟨Iff.rfl, ok⟩

/-- A QUIET or CONTINUOUS loop may take any phase (R55). -/
theorem Loop.Moves.of_polled {r r' : Loop} (h : r.state ≠ .off) (h' : r'.state = .quiet ∨ r'.state = .continuous) :
    r.Moves r' := by
  intro _
  unfold Loop.Ok
  rcases h' with h' | h' <;> simp [h, h']

/-- A loop with a roll call in flight is QUIET or CONTINUOUS, and may pass to any other phase. -/
theorem Loop.Moves.of_phase {r r' : Loop} (hphase : r.phase ≠ none) (hs : r'.state = r.state) : r.Moves r' := by
  intro ok
  have polled : ¬ (r.state = .off ∨ r.state = .fault) := fun h => hphase (ok.1 h)
  unfold Loop.Ok
  rw [hs]
  exact ⟨Iff.rfl, fun h => absurd h polled, fun h => absurd (.inl h) polled⟩

/-! ## Steps that enroll and retire no terminal -/

/-- `t` comes from `s` with every enrolment as it was and every loop moved legally. -/
def Steady (s t : State) : Prop :=
  (∀ n, (terminal t n).enrolled = (terminal s n).enrolled) ∧ ∀ l, (loopRec s l).Moves (loopRec t l)

theorem loopsLegal_iff (s : State) :
    LoopsLegal s ↔ ∀ l < 4,
      ((loopRec s l).state = .off ↔ ∀ a < 16, (terminal s (terminalNo l a)).enrolled = false) ∧ (loopRec s l).Ok :=
  Iff.rfl

theorem Steady.loopsLegal {s t : State} (h : Steady s t) (hs : LoopsLegal s) : LoopsLegal t := by
  obtain ⟨enrolled, moves⟩ := h
  rw [loopsLegal_iff] at *
  intro l hl
  obtain ⟨hoff, hok⟩ := hs l hl
  obtain ⟨same, ok⟩ := moves l hok
  exact ⟨by simp only [same, hoff, enrolled], ok⟩

namespace Steady

theorem refl (s : State) : Steady s s := ⟨fun _ => rfl, fun _ => .refl _⟩

variable {s t u : State}

theorem trans (h : Steady s t) (k : Steady t u) : Steady s u :=
  ⟨fun n => (k.1 n).trans (h.1 n), fun l => (h.2 l).trans (k.2 l)⟩

theorem of_frame {w : List Field} (h : Frame w s t) (hl : .loops ∉ w) (ht : .terminals ∉ w) : Steady s t :=
  ⟨fun n => by rw [h.terminal n ht], fun l => by rw [h.loopRec l hl]; exact .refl _⟩

theorem ite {c : Prop} [Decidable c] (ht : Steady s t) (hu : Steady s u) : Steady s (if c then t else u) := by
  split
  · exact ht
  · exact hu

end Steady

section
variable (s : State)

theorem steady_putTerminal (n : Nat) {r : Terminal} (h : r.enrolled = (terminal s n).enrolled) :
    Steady s (putTerminal s n r) := by
  refine ⟨fun x => ?_, fun _ => .refl _⟩
  rw [terminal_putTerminal]
  split
  · subst_vars
    exact h
  · rfl

theorem steady_putLoop (l : Nat) {r : Loop} (h : (loopRec s l).Moves r) : Steady s (putLoop s l r) := by
  refine ⟨fun _ => rfl, fun x => ?_⟩
  rw [loopRec_putLoop]
  split
  · subst_vars
    exact h
  · exact .refl _

theorem steady_mapTerminals (l : Nat) {f : Terminal → Terminal} (h : ∀ r, (f r).enrolled = r.enrolled) :
    Steady s (mapTerminals s l f) := by
  refine ⟨fun n => ?_, fun x => ?_⟩
  · rw [terminal_mapTerminals]
    split
    · exact h _
    · rfl
  · rw [(frame_mapTerminals s l f).loopRec x (by decide)]
    exact .refl _

theorem steady_startRollCall (l : Nat) (h : (loopRec s l).state = .quiet ∨ (loopRec s l).state = .continuous) :
    Steady s (startRollCall s l) := by
  refine ⟨fun n => ?_, fun x => ?_⟩
  · rw [terminal_startRollCall]
    split <;> rfl
  · rw [loopRec_startRollCall]
    split
    · subst_vars
      exact .of_polled (by rcases h with h | h <;> simp [h]) h
    · exact .refl _

theorem steady_startIfIdle (l : Nat) (h : (loopRec s l).state = .quiet ∨ (loopRec s l).state = .continuous) :
    Steady s (startIfIdle s l) :=
  (Steady.refl s).ite (steady_startRollCall s l h)

/-- Phases are passed on a loop whose roll call is in flight alone. -/
theorem steady_passPhases (l : Nat) : Steady s (passPhases s l) := by
  unfold passPhases
  dsimp only
  split
  · exact .refl s
  · split
    · refine steady_putLoop s l (.of_phase (by simp [*]) ?_)
      split
      · split <;> rfl
      · rfl
    · refine steady_putLoop s l (.of_phase (by simp [*]) ?_)
      split <;> rfl
    · exact steady_putLoop s l (.of_phase (by simp [*]) (by rfl))
    · exact .refl s

theorem steady_setTurns (l : Nat) (turns : List Nat) : Steady s (setTurns s l turns) :=
  (steady_putLoop s l (.of_eq (by rfl) (by rfl) (by rfl))).trans (steady_passPhases _ l)

theorem steady_pend (n : Nat) (d : Display) : Steady s (pend s n d) := by
  unfold pend
  split
  · exact steady_putTerminal s n (by rfl)
  · exact steady_putTerminal s n (by rfl)
  · exact (steady_putTerminal s n (by rfl)).trans (steady_startIfIdle _ _ (.inl ‹_›))
  · exact steady_putTerminal s n (by rfl)

theorem steady_putVisit (n : Nat) (v : Option Visit) : Steady s (putVisit s n v) :=
  .of_frame (frame_putVisit s n v) (by decide) (by decide)

theorem steady_touch (a : Nat) : Steady s (touch s a) := .of_frame (frame_touch s a) (by decide) (by decide)

theorem steady_transmit (frames : List (Nat × List Byte)) : Steady s (transmit s frames) :=
  .of_frame (frame_transmit s frames) (by decide) (by decide)

theorem steady_endVisit (n : Nat) (d : Display) : Steady s (endVisit s n d) := by
  unfold endVisit
  split
  · exact .refl s
  · exact (steady_putVisit s n none).trans (steady_pend _ n d)

theorem steady_endVisitOf (a : Nat) (d : Display) : Steady s (endVisitOf s a d) := by
  unfold endVisitOf
  split
  · exact .refl s
  · exact steady_endVisit s _ d

theorem steady_computeList (n : Nat) (v : Visit) (asked : Nat) : Steady s (computeList s n v asked).1 :=
  .of_frame (w := [.accounts, .visits]) (computeList_frame s n v asked) (by decide) (by decide)

theorem steady_showList (n : Nat) (v : Visit) (asked : Nat) : Steady s (showList s n v asked) :=
  (steady_computeList s n v asked).trans (steady_pend _ n _)

theorem steady_showResult (n : Nat) (v : Visit) (r : ResultPart) : Steady s (showResult s n v r) :=
  (steady_computeList s n v v.page).trans (steady_pend _ n _)

/-! ### Roll calls -/

theorem steady_rollSlot {effect : State → State} (he : ∀ s, Steady s (effect s)) (l a : Nat) :
    Steady s (rollSlot s l a effect) :=
  (Steady.refl s).ite (((steady_transmit s _).trans (he _)).trans (steady_setTurns _ l _))

theorem steady_takeAnswer (n : Nat) (flagged : Bool) : Steady s (takeAnswer s n flagged) :=
  Steady.ite ((steady_putTerminal s n (by rfl)).trans (steady_pend _ n _)) (steady_putTerminal s n (by rfl))

theorem steady_missAnswer (n : Nat) : Steady s (missAnswer s n) :=
  Steady.ite ((steady_putVisit s n none).trans (steady_putTerminal _ n (by rfl)))
    ((steady_putTerminal s n (by rfl)).ite (.refl s))

theorem steady_sendDisplay (l : Nat) : Steady s (sendDisplay s l) := by
  unfold sendDisplay
  split
  · exact .refl s
  · split
    · exact .refl s
    · dsimp only
      split
      · exact .refl s
      · exact ((steady_transmit s _).trans (steady_putTerminal _ _ (by rfl))).trans (steady_setTurns _ l _)

theorem steady_closeRollCall (l : Nat) : Steady s (closeRollCall s l) := by
  unfold closeRollCall
  dsimp only
  split
  · exact .refl s
  · have inFlight : (loopRec s l).phase = some .close := not_not.1 ‹_›
    have polled : ∀ (r : Loop), r.state = (if busyLoop s l = true then .continuous else .quiet) →
        r.state = .quiet ∨ r.state = .continuous := by
      intro r hr
      cases busyLoop s l <;> simp [hr]
    have closed : ∀ (r : Loop), r.state = (if busyLoop s l = true then .continuous else .quiet) →
        Steady s (putLoop s l r) := by
      intro r hr
      refine steady_putLoop s l fun ok => ?_
      have on : (loopRec s l).state ≠ .off := fun h => by simp [ok.1 (.inl h)] at inFlight
      exact Loop.Moves.of_polled on (polled r hr) ok
    refine Steady.ite ((closed _ (by rfl)).trans (steady_startRollCall _ l ?_)) (closed _ (by rfl))
    rw [loopRec_putLoop, if_pos rfl]
    exact polled _ rfl

theorem polled_iff_state (l : Nat) :
    polled s l = true ↔ (loopRec s l).state = .quiet ∨ (loopRec s l).state = .continuous := by
  simp [polled]

theorem steady_rollCallInterval (l : Nat) : Steady s (rollCallInterval s l) := by
  unfold rollCallInterval
  split
  · exact .refl s
  · split
    · exact steady_startRollCall s l (.inr (‹_ ∧ _›).1)
    · exact steady_putLoop s l (.of_eq (by rfl) (by rfl) (by rfl))

theorem steady_presenceInterval (l : Nat) : Steady s (presenceInterval s l) := by
  unfold presenceInterval
  split
  · exact .refl s
  · split
    · exact steady_startRollCall s l (.inl (‹_ ∧ _›).1)
    · exact steady_putLoop s l (.of_eq (by rfl) (by rfl) (by rfl))

theorem steady_wakeLoop (l : Nat) : Steady s (wakeLoop s l) := by
  unfold wakeLoop
  split
  · exact steady_startIfIdle s l (.inl ‹_›)
  · exact .refl s

/-! ### Faults -/

theorem steady_dropVisits (l : Nat) : Steady s (dropVisits s l) :=
  .of_frame (frame_dropVisits s l) (by decide) (by decide)

/-- A loop that is not OFF is cleared into another state that is not OFF, without a roll call (R65, R67). -/
theorem steady_clearLoop (l : Nat) {st : LoopState} (h : (loopRec s l).state ≠ .off) (hst : st ≠ .off) :
    Steady s (clearLoop s l st) := by
  have before : Steady s (mapTerminals (dropVisits s l) l fun t => { t with pending := none, current := .goodbye }) :=
    (steady_dropVisits s l).trans (steady_mapTerminals _ l fun _ => rfl)
  have cleared : loopRec (mapTerminals (dropVisits s l) l fun t => { t with pending := none, current := .goodbye }) l
      = loopRec s l := by
    rw [(frame_mapTerminals _ l _).loopRec l (by decide), (frame_dropVisits s l).loopRec l (by decide)]
  refine before.trans (steady_putLoop _ l fun _ => ?_)
  rw [cleared]
  simp [Loop.Ok, h, hst]

theorem loopRec_clearLoop (l : Nat) (st : LoopState) (x : Nat) :
    loopRec (clearLoop s l st) x = if x = l then { loopRec s l with state := st, phase := none, turns := [] } else loopRec s x := by
  unfold clearLoop
  dsimp only
  rw [loopRec_putLoop, (frame_mapTerminals _ l _).loopRec x (by decide), (frame_dropVisits s l).loopRec x (by decide)]

theorem steady_restartLoop (l : Nat) (h : (loopRec s l).state ≠ .off) : Steady s (restartLoop s l) := by
  have unknown : Steady s (mapTerminals s l fun t => { t with presence := .unknown, missed := 0 }) :=
    steady_mapTerminals s l fun _ => rfl
  have same : loopRec (mapTerminals s l fun t => { t with presence := .unknown, missed := 0 }) l = loopRec s l :=
    (frame_mapTerminals s l _).loopRec l (by decide)
  refine (unknown.trans (steady_putLoop _ l (.of_polled (by rwa [same]) (.inl rfl)))).trans (steady_startRollCall _ l ?_)
  rw [loopRec_putLoop, if_pos rfl]
  exact .inl rfl

theorem steady_loopResetRule (l : Nat) : Steady s (loopResetRule l s).state := by
  unfold loopResetRule
  split
  · exact .refl s
  · split
    · exact .refl s
    · refine (steady_clearLoop s l ‹_› (by decide)).trans (steady_restartLoop _ l ?_)
      rw [loopRec_clearLoop, if_pos rfl]
      simp

theorem steady_faultLoop (l : Nat) : Steady s (faultLoop s l) := by
  unfold faultLoop
  split
  · exact .refl s
  · exact steady_clearLoop s l ‹_› (by decide)

theorem steady_endFault (l : Nat) : Steady s (endFault s l) := by
  unfold endFault
  split
  · exact steady_restartLoop s l (by simp [*])
  · exact .refl s

/-! ### Messages -/

theorem steady_fetch {effect : State → State} (he : ∀ s, Steady s (effect s)) (l a : Nat) (accept : Bool) :
    Steady s (fetch s l a accept effect) := by
  obtain ⟨-, h⟩ | ⟨-, -, h⟩ | ⟨-, -, t, ht, h⟩ := fetch_cases s l a accept effect <;> rw [h]
  · exact .refl s
  · exact (steady_transmit s _).trans (steady_setTurns _ l _)
  · have taken : Steady s t := by
      rw [ht]
      exact ((steady_transmit s _).trans (steady_putTerminal _ (terminalNo l a) (by rfl))).trans (he _)
    exact taken.trans (steady_setTurns t l _)

theorem steady_takeBadge (n b : Nat) : Steady s (takeBadge s n b) := by
  unfold takeBadge
  split
  · exact (steady_putVisit s n none).trans (steady_pend _ n _)
  · exact ((steady_touch s _).trans (steady_putVisit _ n none)).trans (steady_pend _ n _)
  · have other : ∀ u a, Steady u (endOtherVisit u a n) := by
      intro u a
      unfold endOtherVisit
      split
      · exact .refl u
      · exact (Steady.refl u).ite (steady_endVisit u _ _)
    exact (((steady_touch s _).trans (other _ _)).trans (steady_putVisit _ n none)).trans (steady_showList _ n _ _)

theorem steady_pickEvery (n : Nat) (v : Visit) : Steady s (pickEvery s n v) :=
  (Steady.of_frame (frame_decideAll s _ _) (by decide) (by decide)).trans (steady_showResult _ n v _)

theorem steady_pickOne (n : Nat) (v : Visit) (entry : Nat) : Steady s (pickOne s n v entry) := by
  unfold pickOne
  split
  · exact steady_showResult s n v _
  · exact (Steady.of_frame (frame_decideRelease s _ _ _) (by decide) (by decide)).trans (steady_showResult _ n v _)

theorem steady_takePick (n entry : Nat) : Steady s (takePick s n entry) := by
  unfold takePick
  split
  · exact .refl s
  · exact (steady_pickEvery s n _).ite (steady_pickOne s n _ entry)

theorem steady_takePickAll (n : Nat) : Steady s (takePickAll s n) := by
  unfold takePickAll
  split
  · exact .refl s
  · exact steady_pickEvery s n _

theorem steady_takeMore (n : Nat) : Steady s (takeMore s n) := by
  unfold takeMore
  split
  · exact .refl s
  · exact steady_showList s n _ _

theorem steady_takeRefresh (n : Nat) : Steady s (takeRefresh s n) := by
  have shown := (steady_pend s n (terminal s n).current).ite (c := (terminal s n).pending = none) (.refl s)
  unfold takeRefresh
  dsimp only
  split
  · exact shown
  · exact shown.trans (steady_putVisit _ n _)

theorem steady_idleOut (n : Nat) : Steady s (idleOut s n) := by
  unfold idleOut
  split
  · exact .refl s
  · exact (steady_endVisit s n _).ite (.refl s)

/-! ### Accounts whose visit ends -/

theorem steady_loadAccountRule (f : LoadFields) : Steady s (loadAccountRule f s).state := by
  have touched : Steady s (f.touched s) :=
    .of_frame ((frame_touch s _).trans (frame_touchOpt _ _)) (by decide) (by decide)
  have written : ∀ u st k, Steady u (f.write u st k) := by
    intro u st k
    have put : Steady u
        (putAccount (moveBadge u f.number (account u f.number).badge f.badge) f.number (f.record u st k)) :=
      .of_frame (w := [.accounts, .badgeMap]) rfl (by decide) (by decide)
    exact (put.trans (steady_endVisitOf _ _ _)).ite put
  unfold loadAccountRule
  dsimp only
  repeat' split
  all_goals first
    | exact touched
    | exact touched.trans (written _ _ _)

theorem steady_suspendAccountRule (a : Nat) : Steady s (suspendAccountRule a s).state := by
  unfold suspendAccountRule
  split
  · exact .refl s
  · dsimp only
    split
    · exact ((steady_touch s a).trans (.of_frame (frame_putAccount _ a _) (by decide) (by decide))).trans
        (steady_endVisitOf _ a _)
    · exact steady_touch s a

theorem steady_retireAccountRule (a : Nat) : Steady s (retireAccountRule a s).state := by
  unfold retireAccountRule
  split
  · exact .refl s
  · dsimp only
    split
    · exact steady_touch s a
    · split
      · exact steady_touch s a
      · exact ((steady_touch s a).trans (steady_endVisitOf _ a _)).trans
          (.of_frame (w := [.accounts, .badgeMap]) rfl (by decide) (by decide))

end

/-! ## Enrolling and retiring -/

/-- One loop's part of `LoopsLegal`. -/
def LegalAt (s : State) (l : Nat) : Prop :=
  ((loopRec s l).state = .off ↔ ∀ a < 16, (terminal s (terminalNo l a)).enrolled = false) ∧ (loopRec s l).Ok

theorem LegalAt.congr {s t : State} {l : Nat} (h : LegalAt s l) (hl : loopRec t l = loopRec s l)
    (ht : ∀ a < 16, (terminal t (terminalNo l a)).enrolled = (terminal s (terminalNo l a)).enrolled) : LegalAt t l := by
  unfold LegalAt at *
  rw [hl]
  exact ⟨h.1.trans (forall₂_congr fun a ha => by rw [ht a ha]), h.2⟩

/-- A loop with an enrolled terminal is in order when it is not OFF. -/
theorem LegalAt.of_enrolled {s : State} {l a : Nat} (ha : a < 16) (he : (terminal s (terminalNo l a)).enrolled = true)
    (hoff : (loopRec s l).state ≠ .off) (ok : (loopRec s l).Ok) : LegalAt s l :=
  ⟨⟨fun h => absurd h hoff, fun h => by simp [h a ha] at he⟩, ok⟩

theorem terminalNo_inj {l a l' a' : Nat} (ha : a < 16) (ha' : a' < 16) (h : terminalNo l a = terminalNo l' a') : l = l' := by
  unfold terminalNo at h
  omega

theorem loopRec_startIfIdle_ne (s : State) {l x : Nat} (h : x ≠ l) : loopRec (startIfIdle s l) x = loopRec s x := by
  unfold startIfIdle
  split
  · rfl
  · rw [loopRec_startRollCall, if_neg h]

/-- A newly enrolled terminal's loop is not OFF any more; no enrolment and no other loop changes (R57). -/
theorem joinLoop_keeps (s : State) (l : Nat) :
    (∀ n, (terminal (joinLoop s l) n).enrolled = (terminal s n).enrolled)
    ∧ (∀ x, x ≠ l → loopRec (joinLoop s l) x = loopRec s x)
    ∧ ((loopRec s l).Ok → (loopRec (joinLoop s l) l).state ≠ .off ∧ (loopRec (joinLoop s l) l).Ok) := by
  have steady : ∀ {t : State}, Steady s t → (loopRec s l).state ≠ .off → (loopRec s l).Ok →
      (loopRec t l).state ≠ .off ∧ (loopRec t l).Ok := by
    intro t ht hoff ok
    obtain ⟨same, ok'⟩ := ht.2 l ok
    exact ⟨fun h => hoff (same.1 h), ok'⟩
  unfold joinLoop
  split
  · refine ⟨fun n => ?_, fun x hx => ?_, fun _ => ?_⟩
    · rw [terminal_startRollCall]
      split <;> rfl
    · rw [loopRec_startRollCall, if_neg hx, loopRec_putLoop, if_neg hx]
    · rw [loopRec_startRollCall, if_pos rfl, loopRec_putLoop, if_pos rfl]
      simp [Loop.Ok]
  · have idle := steady_startIfIdle s l (.inl ‹_›)
    exact ⟨idle.1, fun x hx => loopRec_startIfIdle_ne s hx, steady idle (by simp [*])⟩
  · have idle := steady_startIfIdle s l (.inr ‹_›)
    exact ⟨idle.1, fun x hx => loopRec_startIfIdle_ne s hx, steady idle (by simp [*])⟩
  · exact ⟨fun _ => rfl, fun _ _ => rfl, steady (.refl s) (by simp [*])⟩

theorem loopsLegal_enroll {s : State} (h : LoopsLegal s) {l a : Nat} (ha : a < 16) {r : Terminal} (hr : r.enrolled = true) :
    LoopsLegal (joinLoop (putTerminal s (terminalNo l a) r) l) := by
  intro x hx
  obtain ⟨enrolled, others, joined⟩ := joinLoop_keeps (putTerminal s (terminalNo l a) r) l
  have before : LegalAt s x := h x hx
  by_cases hxl : x = l
  · subst hxl
    obtain ⟨hoff, ok⟩ := joined before.2
    exact LegalAt.of_enrolled ha (by rw [enrolled, terminal_putTerminal, if_pos rfl, hr]) hoff ok
  · refine before.congr (others x hxl) fun b hb => ?_
    rw [enrolled, terminal_putTerminal, if_neg fun hn => hxl (terminalNo_inj hb ha hn)]

theorem loopsLegal_enrollTerminalRule {s : State} (h : LoopsLegal s) (l a q : Nat) :
    LoopsLegal (enrollTerminalRule l a q s).state := by
  unfold enrollTerminalRule
  split
  · exact h
  · dsimp only
    split
    · exact ((steady_putTerminal s _ (by rfl)).trans (steady_endVisit _ _ _)).loopsLegal h
    · exact loopsLegal_enroll h (by omega) rfl

theorem anyEnrolled_iff (s : State) (l : Nat) :
    anyEnrolled s l = true ↔ ∃ a < 16, (terminal s (terminalNo l a)).enrolled = true := by
  simp [anyEnrolled, addressesOf]

theorem loopRec_setTurns_ne (s : State) {l x : Nat} (turns : List Nat) (h : x ≠ l) :
    loopRec (setTurns s l turns) x = loopRec s x := by
  have passed : ∀ u : State, loopRec (passPhases u l) x = loopRec u x := by
    intro u
    unfold passPhases
    dsimp only
    split
    · rfl
    · split <;> simp [loopRec_putLoop, h]
  unfold setTurns
  rw [passed, loopRec_putLoop, if_neg h]

/-- The retired terminal's loop turns OFF exactly when no terminal of it remains; no enrolment and no other loop changes
(R58). -/
theorem leaveLoop_keeps (s : State) (l a : Nat) :
    (∀ n, (terminal (leaveLoop s l a) n).enrolled = (terminal s n).enrolled)
    ∧ (∀ x, x ≠ l → loopRec (leaveLoop s l a) x = loopRec s x)
    ∧ (anyEnrolled s l = false → loopRec (leaveLoop s l a) l = {})
    ∧ (anyEnrolled s l = true → (loopRec s l).Moves (loopRec (leaveLoop s l a) l)) := by
  unfold leaveLoop
  split
  · refine ⟨fun _ => rfl, fun x hx => ?_, fun _ => ?_, fun h => ?_⟩
    · rw [loopRec_putLoop, if_neg hx]
    · rw [loopRec_putLoop, if_pos rfl]
    · simp_all
  · split
    · have turned := steady_setTurns s l ((loopRec s l).turns.filter (· != a))
      exact ⟨turned.1, fun x hx => loopRec_setTurns_ne s _ hx, fun h => by simp_all, fun _ => turned.2 l⟩
    · exact ⟨fun _ => rfl, fun _ _ => rfl, fun h => by simp_all, fun _ => .refl _⟩

theorem loopsLegal_retire {s : State} (h : LoopsLegal s) {l a : Nat} (ha : a < 16)
    (he : (terminal s (terminalNo l a)).enrolled = true) :
    LoopsLegal (leaveLoop (putTerminal (dropVisit s (terminalNo l a)) (terminalNo l a) {}) l a) := by
  intro x hx
  generalize hu : putTerminal (dropVisit s (terminalNo l a)) (terminalNo l a) {} = u
  have loops : ∀ y, loopRec u y = loopRec s y := fun y => by rw [← hu]; rfl
  have terminals : ∀ n, (terminal u n).enrolled = if n = terminalNo l a then false else (terminal s n).enrolled := by
    intro n
    rw [← hu, terminal_putTerminal]
    split <;> rfl
  obtain ⟨enrolled, others, emptied, kept⟩ := leaveLoop_keeps u l a
  have before : LegalAt s x := h x hx
  by_cases hxl : x = l
  · subst hxl
    have on : (loopRec s x).state ≠ .off := fun hoff => by simp [before.1.1 hoff a ha] at he
    cases hany : anyEnrolled u x with
    | false =>
      have none : ∀ b < 16, (terminal u (terminalNo x b)).enrolled = false := by
        intro b hb
        by_contra hne
        rw [Bool.not_eq_false] at hne
        rw [(anyEnrolled_iff u x).2 ⟨b, hb, hne⟩] at hany
        cases hany
      refine ⟨?_, ?_⟩ <;> rw [emptied hany]
      · exact ⟨fun _ b hb => by rw [enrolled, none b hb], fun _ => rfl⟩
      · exact ⟨fun _ => rfl, fun _ => rfl⟩
    | true =>
      obtain ⟨b, hb, hbe⟩ := (anyEnrolled_iff u x).1 hany
      obtain ⟨same, ok⟩ := kept hany (by rw [loops]; exact before.2)
      exact LegalAt.of_enrolled hb (by rw [enrolled, hbe]) (fun hoff => on (by rw [← loops]; exact same.1 hoff)) ok
  · refine before.congr ((others x hxl).trans (loops x)) fun b hb => ?_
    rw [enrolled, terminals, if_neg fun hn => hxl (terminalNo_inj hb ha hn)]

theorem loopsLegal_retireTerminalRule {s : State} (h : LoopsLegal s) (l a : Nat) :
    LoopsLegal (retireTerminalRule l a s).state := by
  unfold retireTerminalRule
  split
  · exact h
  · dsimp only
    split
    · exact h
    · rename_i henrolled
      exact loopsLegal_retire h (by omega) (by simpa using henrolled)

theorem looksAt_loopsLegal : LooksAt [.loops, .terminals] LoopsLegal := by
  intro s t h hs
  have loops : t.loops = s.loops := h .loops (by decide)
  have terminals : t.terminals = s.terminals := h .terminals (by decide)
  unfold LoopsLegal loopRec terminal at *
  rwa [loops, terminals]

theorem loopsLegal_reset : LoopsLegal State.reset := fun _ _ =>
  ⟨⟨fun _ _ _ => rfl, fun _ => rfl⟩, fun _ => rfl, fun _ => rfl⟩

/-- Settles O7: only an enrolment and a retirement move a loop out of OFF and into it, and both do as the terminals that
remain ask. -/
theorem loopModesStayLegal : Obligations.LoopModesStayLegal := by
  unfold Obligations.LoopModesStayLegal
  intro s t hs h
  refine step_keeps looksAt_loopsLegal (by decide) loopsLegal_reset (fun c s hw hs => ?_) hs h
  cases c
  case loadAccount => exact (steady_loadAccountRule s _).loopsLegal hs
  case suspendAccount => exact (steady_suspendAccountRule s _).loopsLegal hs
  case retireAccount => exact (steady_retireAccountRule s _).loopsLegal hs
  case enrollTerminal => exact loopsLegal_enrollTerminalRule hs _ _ _
  case retireTerminal => exact loopsLegal_retireTerminalRule hs _ _
  case loopReset => exact (steady_loopResetRule s _).loopsLegal hs
  case visitIdleExpiry => exact (steady_idleOut s _).loopsLegal hs
  case wake => exact (steady_wakeLoop s _).loopsLegal hs
  case rollCallIntervalExpiry => exact (steady_rollCallInterval s _).loopsLegal hs
  case presenceIntervalExpiry => exact (steady_presenceInterval s _).loopsLegal hs
  case answer => exact (steady_rollSlot s (fun s => steady_takeAnswer s _ _) _ _).loopsLegal hs
  case noAnswer => exact (steady_rollSlot s (fun s => steady_missAnswer s _) _ _).loopsLegal hs
  case displaySend => exact (steady_sendDisplay s _).loopsLegal hs
  case fetchFailed => exact (steady_fetch s Steady.refl _ _ _).loopsLegal hs
  case unknownMessage => exact (steady_fetch s Steady.refl _ _ _).loopsLegal hs
  case badge => exact (steady_fetch s (fun s => steady_takeBadge s _ _) _ _ _).loopsLegal hs
  case pick => exact (steady_fetch s (fun s => steady_takePick s _ _) _ _ _).loopsLegal hs
  case pickAll => exact (steady_fetch s (fun s => steady_takePickAll s _) _ _ _).loopsLegal hs
  case more => exact (steady_fetch s (fun s => steady_takeMore s _) _ _ _).loopsLegal hs
  case done => exact (steady_fetch s (fun s => steady_endVisit s _ _) _ _ _).loopsLegal hs
  case refresh => exact (steady_fetch s (fun s => steady_takeRefresh s _) _ _ _).loopsLegal hs
  case rollCallClose => exact (steady_closeRollCall s _).loopsLegal hs
  case loopFault => exact (steady_faultLoop s _).loopsLegal hs
  case faultEnd => exact (steady_endFault s _).loopsLegal hs
  all_goals exact absurd hw Bool.false_ne_true

end Sys2Proof.Machine
end

