-- ==== Sys2Proof/Proofs/PortAndReset.lean ====
section
/-! PROOFS. The Host Link Port's own frames, full reset and what full reset leaves (R177 to R181, R189 to R191). -/

namespace Sys2Proof.Machine

/-- Settles O1: by the definition of the step. -/
theorem stepRunsFrontCommand : Obligations.StepRunsFrontCommand := by
  unfold Obligations.StepRunsFrontCommand
  refine ⟨fun c rest s => step_front c rest { s with pending := c :: rest } rfl, fun s h => ?_⟩
  rw [step, h]

/-! ## Full reset -/

theorem exec_resetRelease_of_ne {s : State} (h : s.port ≠ .reset) : exec .resetRelease s = .next s := by
  have hexec : exec .resetRelease s = execResetRelease s := rfl
  rw [hexec, execResetRelease]
  split
  · exact absurd ‹_› h
  · rfl

theorem exec_startingEnd_of_ne {s : State} (h : s.port ≠ .starting) : exec .startingEnd s = .next s := by
  have hexec : exec .startingEnd s = execStartingEnd s := rfl
  rw [hexec, execStartingEnd]
  split
  · exact absurd ‹_› h
  · rfl

/-- Settles O14: each command of full reset writes the whole reset state, less the queue, the counter of free values, the port
and the two flags. -/
theorem fullResetClearsEverything : Obligations.FullResetClearsEverything := by
  unfold Obligations.FullResetClearsEverything
  intro s
  refine ⟨rfl, rfl, rfl, fun h => ?_, fun h => ?_, exec_resetRelease_of_ne, exec_startingEnd_of_ne⟩
  · have hexec : exec .resetRelease s = execResetRelease s := rfl
    rw [hexec, execResetRelease, h]
    rfl
  · have hexec : exec .startingEnd s = execStartingEnd s := rfl
    rw [hexec, execStartingEnd, h]
    rfl

theorem consistent_reset : Consistent State.reset where
  canonical := canonical_reset
  settled := settled_of_reset (Frame.refl _ _)
  clocks := clocksLegal_reset
  finished := rfl
  loops := loopsLegal_reset
  slots := fun _ h => absurd h List.not_mem_nil
  dispatch := ⟨List.nodup_nil, fun _ => ⟨nofun, nofun⟩⟩
  queues := ⟨fun _ h => absurd h List.not_mem_nil, fun _ => rfl⟩
  books := ⟨fun _ => rfl, fun _ h => absurd h List.not_mem_nil, nofun⟩
  badges := ⟨fun _ _ => ⟨nofun, nofun⟩, fun _ _ => rfl⟩
  desks := ⟨fun _ => ⟨List.nodup_nil, Nat.zero_le 16⟩, fun _ _ _ => ⟨nofun, nofun⟩, nofun⟩
  visits := nofun

/-- The pattern record of a tenant after full reset: the first of each month at 00:00 (R172). -/
theorem patternRec_reset {t : Nat} (h : t < 32) :
    patternRec State.reset t = { minute := some 0, hour := some 0, weekday := none, day := some 1, month := none } := by
  rw [patternRec, if_neg (by omega)]
  rfl

/-- Settles O2: the reset state's tables are empty, so every record reads as its reset value. -/
theorem resetIsConsistent : Obligations.ResetIsConsistent := by
  unfold Obligations.ResetIsConsistent
  exact ⟨consistent_reset, rfl, rfl, rfl, rfl, rfl, rfl, rfl, rfl, rfl, rfl, rfl, rfl, fun _ => rfl, fun _ => rfl,
    fun _ => rfl, fun _ => rfl, fun _ => rfl, fun _ => rfl, fun _ => rfl, fun _ _ => rfl, fun _ => rfl, fun _ => rfl,
    fun _ => rfl, fun _ => rfl, fun _ => rfl, fun _ => patternRec_reset, rfl, rfl⟩

/-! ## Ranks -/

/-- Settles O44: adding the base and one takes a rank back to its printer. -/
theorem rankStartsAfterTheBase : Obligations.RankStartsAfterTheBase := by
  unfold Obligations.RankStartsAfterTheBase
  intro s c hbase
  simp only [rank]
  refine ⟨fun p hp => ⟨?_, ?_⟩, fun p hp q hq h => ?_, ?_, fun hb p hp => ?_⟩ <;> omega

/-! ## Frames the port answers by itself -/

theorem portCommand_cases {c : Instr} (h : portCommand c = true) :
    (∃ n, c = .responseRead n) ∨ c = .shortFrame ∨ (∃ kind, c = .badKind kind) ∨ c = .discardedStartingFrame := by
  cases c <;> cases h <;> simp


theorem exec_responseRead_eq (n : Nat) (s : State) :
    exec (.responseRead n) s = .next (if !running s then s else passFrame s (.shifted (readOut s.response n))) := rfl

theorem exec_responseRead (n : Nat) {s : State} (h : running s = true) :
    exec (.responseRead n) s = .next (passFrame s (.shifted (readOut s.response n))) := by
  rw [exec_responseRead_eq, h]
  rfl

theorem exec_shortFrame (s : State) :
    exec .shortFrame s = request 0x00 true true (fun s => refuse s .shortFrame) s := rfl

theorem exec_badKind (kind : Byte) (s : State) :
    exec (.badKind kind) s = request kind true true (fun s => refuse s .badKind) s := rfl

theorem exec_discardedStartingFrame (s : State) :
    exec .discardedStartingFrame s = .next (match s.port with
      | .reset => s
      | _ => { releaseHsdo { s with hsdo := .unstated s.draws } with draws := s.draws + 1 }) := rfl

theorem bitsOf_length (b : Byte) : (bitsOf b).length = 8 := by simp [bitsOf]

theorem bitsOf_getElem? (b : Byte) {i : Nat} (h : i < 8) : (bitsOf b)[i]? = some (b.getMsbD i) := by
  simp [bitsOf, h]

/-- The bits of a run of bytes: bit `i` is bit `i % 8` of byte `i / 8`, most significant first. -/
theorem flatMap_bitsOf_getElem? (l : List Byte) (i : Nat) :
    (l.flatMap bitsOf)[i]? = (l[i / 8]?).map fun b => b.getMsbD (i % 8) := by
  induction l generalizing i with
  | nil => simp
  | cons b l ih =>
    rw [List.flatMap_cons]
    by_cases h : i < 8
    · rw [List.getElem?_append_left (by rw [bitsOf_length]; exact h), bitsOf_getElem? b h, Nat.div_eq_of_lt h,
        Nat.mod_eq_of_lt h]
      rfl
    · rw [List.getElem?_append_right (by rw [bitsOf_length]; omega), bitsOf_length, ih]
      have hdiv : i / 8 = (i - 8) / 8 + 1 := by omega
      have hmod : i % 8 = (i - 8) % 8 := by omega
      rw [hdiv, hmod, List.getElem?_cons_succ]

theorem flatMap_bitsOf_length (l : List Byte) : (l.flatMap bitsOf).length = 8 * l.length := by
  induction l with
  | nil => rfl
  | cons b l ih =>
    rw [List.flatMap_cons, List.length_append, ih, bitsOf_length, List.length_cons]
    omega

/-- The bits of a response read: filler under the kind byte, the response, filler after it (R177, R180). -/
theorem readOut_getElem? (r : Response) (n i : Nat) :
    (readOut r n)[i]? =
      if n ≤ i then none
      else if i < 8 then some true
      else
        match (responseBytes r)[i / 8 - 1]? with
        | none => some true
        | some b => some (b.getMsbD (i % 8)) := by
  unfold readOut
  have lengths : (List.replicate 8 true ++ (responseBytes r).flatMap bitsOf).length = 8 + 8 * (responseBytes r).length := by
    rw [List.length_append, List.length_replicate, flatMap_bitsOf_length]
  split
  · exact List.getElem?_eq_none_iff.2 ((List.length_take_le _ _).trans ‹_›)
  · rename_i hn
    rw [List.getElem?_take_of_lt (by omega)]
    split
    · rename_i hi
      rw [List.append_assoc, List.getElem?_append_left (by simpa using hi), List.getElem?_replicate, if_pos hi]
    · rename_i hi
      have hdiv : (i - 8) / 8 = i / 8 - 1 := by omega
      have hmod : (i - 8) % 8 = i % 8 := by omega
      cases hb : (responseBytes r)[i / 8 - 1]? with
      | none =>
        have past := List.getElem?_eq_none_iff.1 hb
        rw [List.getElem?_append_right (by rw [lengths]; omega), lengths, List.getElem?_replicate, if_pos (by omega)]
      | some b =>
        have below : i / 8 - 1 < (responseBytes r).length := (List.getElem?_eq_some_iff.1 hb).1
        rw [List.getElem?_append_left (by rw [lengths]; omega), List.getElem?_append_right (by simp; omega),
          List.length_replicate, flatMap_bitsOf_getElem?, hdiv, hmod, hb]
        rfl

/-- A frame whose kind byte arrives whole is answered by the port: DESELECTED, HSDO released, filler driven. -/
theorem request_drives_filler {kind : Byte} {lengthOk presence : Bool} {rule : State → Reply} {s : State}
    (hr : running s = true) :
    ∃ t, request kind lengthOk presence rule s = .next t ∧ t.port = .deselected ∧ t.hsdo = .highImpedance
      ∧ (∀ i, hsdoBit t.driven i = some true)
      ∧ (lengthOk = false ∨ presence = false → Answers s t kind .badField [] ∧ t = linked s t) := by
  by_cases bad : lengthOk = false ∨ presence = false
  · exact ⟨_, request_refused hr bad, rfl, rfl, fun _ => rfl,
      fun _ => ⟨answers_answered (r := refuse s .badField) rfl, refused_frame s kind .badField⟩⟩
  · have good : lengthOk = true ∧ presence = true := by simpa using bad
    exact ⟨_, request_taken hr good.1 good.2, rfl, rfl, fun _ => rfl, fun h => absurd h bad⟩

/-- A frame the port refuses by itself changes the latest response alone and drives filler. -/
theorem request_answers_filler {kind : Byte} (c : Code) {s : State} (hr : running s = true) :
    ∃ t, request kind true true (fun s => refuse s c) s = .next t ∧ Answers s t kind c []
      ∧ (∀ i, hsdoBit t.driven i = some true) ∧ t = linked s t :=
  ⟨_, request_taken hr rfl rfl, answers_answered (r := refuse s c) rfl, fun _ => rfl, refused_frame s kind c⟩

/-- Settles O12: every frame passes with its output released at the end, and each kind of frame by its own branch. -/
theorem framesThePortAnswersItself : Obligations.FramesThePortAnswersItself := by
  unfold Obligations.FramesThePortAnswersItself
  refine ⟨fun c kind lengthOk presence s hr hshape => ?_, fun s n hr => ⟨?_, fun kind => ?_, ?_⟩, fun s => ⟨fun hp => ?_, ?_⟩⟩
  · obtain ⟨rule, hexec, -⟩ := exec_of_requestShape hshape
    rw [hexec]
    exact request_drives_filler hr
  · exact request_answers_filler .shortFrame hr
  · exact request_answers_filler .badKind hr
  · exact ⟨_, exec_responseRead n hr, rfl, fun i => readOut_getElem? s.response n i⟩
  · rw [exec_discardedStartingFrame]
    split
    · exact absurd ‹_› hp
    · exact ⟨_, rfl, fun i => by simp [releaseHsdo], rfl⟩
  · intro hp
    rw [exec_discardedStartingFrame, hp]

/-! ## What leaves the response -/

/-- No rule and no effect of an event writes the port, its response or its signals: they are the frame's own. -/
theorem mayWrite_link (c : Instr) :
    mayWrite [.pending, .port, .resetPinLow, .supplyLow, .response, .hsdo, .driven, .attn, .deskSet] c = false := by
  cases c <;> rfl

theorem same_recordsAfter {w : List Field} {c : Instr} (h : mayWrite w c = false) (s : State) {f : Field} (hf : f ∈ w) :
    f.same s (recordsAfter c s) := by
  refine (frame_recordsAfter c s).same f fun hmem => ?_
  have none : ∀ f ∈ w, f ∉ writes c := by simpa [mayWrite] using h
  exact none f hf hmem

theorem response_of_event {c : Instr} (hs : requestShape c = none) (hp : portCommand c = false)
    (hr : resetCommand c = false) {s t : State} (h : exec c s = .next t) : t.response = s.response := by
  rw [exec_of_event hs hp hr] at h
  obtain ⟨-, rfl⟩ | ⟨-, rfl⟩ := event_cases h
  · rfl
  · exact same_recordsAfter (f := .response) (mayWrite_link c) s (by decide)

theorem response_of_responseRead {n : Nat} {s t : State} (h : exec (.responseRead n) s = .next t) :
    t.response = s.response := by
  rw [exec_responseRead_eq] at h
  cases h
  split <;> rfl

theorem response_of_discardedStartingFrame {s t : State} (h : exec .discardedStartingFrame s = .next t) :
    t.response = s.response := by
  rw [exec_discardedStartingFrame] at h
  cases h
  split <;> rfl

/-- Out of RESET and STARTING is where commands act (R189, R190). -/
theorem exec_of_not_running {c : Instr} {s : State} (hr : running s = false) (hc : resetCommand c = false)
    (hd : c ≠ .discardedStartingFrame) : exec c s = .next s := by
  cases hs : requestShape c with
  | some shape =>
    obtain ⟨rule, hexec, -⟩ := exec_of_requestShape hs
    rw [hexec, request_idle hr]
  | none =>
    cases hp : portCommand c with
    | false => rw [exec_of_event hs hp hc, event, hr]; rfl
    | true =>
      obtain ⟨n, rfl⟩ | rfl | ⟨kind, rfl⟩ | rfl := portCommand_cases hp
      · rw [exec_responseRead_eq, hr]
        rfl
      · rw [exec_shortFrame, request_idle hr]
      · rw [exec_badKind, request_idle hr]
      · exact absurd rfl hd

theorem released_answered (kind : Byte) (r : Reply) :
    (answered kind r).hsdo = .highImpedance ∧ (answered kind r).port ≠ .selected := ⟨rfl, nofun⟩

theorem released_of_resetCommand {c : Instr} (hr : resetCommand c = true) {s t : State} (hs : s.hsdo = .highImpedance)
    (hp : s.port ≠ .selected) (h : exec c s = .next t) : t.hsdo = .highImpedance ∧ t.port ≠ .selected := by
  cases c <;> cases hr
  case fullReset cause =>
    cases h
    cases cause <;> exact ⟨rfl, nofun⟩
  case powerOn =>
    cases h
    exact ⟨rfl, nofun⟩
  case resetRelease =>
    cases h
    dsimp only
    split
    · exact ⟨rfl, nofun⟩
    · exact ⟨hs, hp⟩
  case startingEnd =>
    cases h
    dsimp only
    split
    · exact ⟨rfl, nofun⟩
    · exact ⟨hs, hp⟩

theorem released_of_request {kind : Byte} {lengthOk presence : Bool} {rule : State → Reply} {s t : State}
    (hs : s.hsdo = .highImpedance) (hp : s.port ≠ .selected) (h : request kind lengthOk presence rule s = .next t) :
    t.hsdo = .highImpedance ∧ t.port ≠ .selected := by
  obtain ⟨-, rfl⟩ | ⟨-, -, rfl⟩ | ⟨-, -, -, rfl⟩ := request_cases h
  · exact ⟨hs, hp⟩
  · exact released_answered _ _
  · exact released_answered _ _

theorem released_of_portCommand {c : Instr} (hc : portCommand c = true) {s t : State} (hs : s.hsdo = .highImpedance)
    (hp : s.port ≠ .selected) (h : exec c s = .next t) : t.hsdo = .highImpedance ∧ t.port ≠ .selected := by
  obtain ⟨n, rfl⟩ | rfl | ⟨kind, rfl⟩ | rfl := portCommand_cases hc
  · rw [exec_responseRead_eq] at h
    cases h
    split
    · exact ⟨hs, hp⟩
    · exact ⟨rfl, nofun⟩
  · exact released_of_request hs hp ((exec_shortFrame s).symm.trans h)
  · exact released_of_request hs hp ((exec_badKind kind s).symm.trans h)
  · rw [exec_discardedStartingFrame] at h
    cases h
    split
    · exact ⟨hs, hp⟩
    · exact ⟨rfl, hp⟩

/-- Between frames select is high: every command leaves HSDO released and the port not SELECTED (R177). -/
theorem released_exec {c : Instr} {s t : State} (hs : s.hsdo = .highImpedance) (hp : s.port ≠ .selected)
    (h : exec c s = .next t) : t.hsdo = .highImpedance ∧ t.port ≠ .selected := by
  cases hr : resetCommand c with
  | true => exact released_of_resetCommand hr hs hp h
  | false =>
    cases hport : portCommand c with
    | true => exact released_of_portCommand hport hs hp h
    | false =>
      cases hq : requestShape c with
      | some shape =>
        obtain ⟨rule, hexec, -⟩ := exec_of_requestShape hq
        exact released_of_request hs hp ((hexec s).symm.trans h)
      | none =>
        rw [exec_of_event hq hport hr] at h
        obtain ⟨-, rfl⟩ | ⟨-, rfl⟩ := event_cases h
        · exact ⟨hs, hp⟩
        · have hsdo : (recordsAfter c s).hsdo = s.hsdo := same_recordsAfter (f := .hsdo) (mayWrite_link c) s (by decide)
          have port : (recordsAfter c s).port = s.port := same_recordsAfter (f := .port) (mayWrite_link c) s (by decide)
          exact ⟨hsdo.trans hs, fun hsel => hp (port.symm.trans hsel)⟩

/-- Settles O13: only the answer of a frame writes the response, RESET and STARTING take full reset alone, and every frame ends
with select high. -/
theorem whatLeavesTheResponse : Obligations.WhatLeavesTheResponse := by
  unfold Obligations.WhatLeavesTheResponse
  refine ⟨fun c s t hs hr hshort hkind h => ?_, fun c s => exec_of_not_running, fun s t hs hp h => ?_⟩
  · cases hport : portCommand c with
    | false => exact response_of_event hs hport hr h
    | true =>
      obtain ⟨n, rfl⟩ | rfl | ⟨kind, rfl⟩ | rfl := portCommand_cases hport
      · exact response_of_responseRead h
      · exact absurd rfl hshort
      · exact absurd rfl (hkind kind)
      · exact response_of_discardedStartingFrame h
  · cases hq : s.pending with
    | nil =>
      have hstep : step s = .next s := by simp [step, hq]
      cases hstep.symm.trans h
      exact ⟨hs, hp⟩
    | cons c rest =>
      rw [step_front c rest s hq] at h
      exact released_exec (s := { s with pending := rest }) hs hp h

end Sys2Proof.Machine
end

