-- ==== Sys2Proof/Proofs/Replies.lean ====
section
/-! PROOFS. The answer a request gives and the state an event leaves, for any reply; clamps and the lengths of bodies. -/

namespace Sys2Proof.Machine

section
variable {kind : Byte} {lengthOk presence : Bool} {rule : State → Reply} {s : State} {r : Reply} {P : State → Prop}

/-- A taken request whose rule replies `r` answers it, and leaves what holds of the state answered. -/
theorem request_answers (hr : running s = true) (hl : lengthOk = true) (hp : presence = true) (hrule : rule s = r)
    (hresponse : r.state.response = s.response) (hP : P (answered kind r)) :
    ∃ t, request kind lengthOk presence rule s = .next t ∧ Answers s t kind r.code r.body ∧ P t := by
  refine ⟨_, ?_, answers_answered hresponse, hP⟩
  rw [request_taken hr hl hp, hrule]

theorem event_settles {effect : State → State} {t : State} (hr : running s = true) (ht : effect s = t)
    (hP : P (settle t)) : ∃ u, event effect s = .next u ∧ Settled u ∧ P u :=
  ⟨_, event_taken hr, settled_settle _, ht ▸ hP⟩

/-- An event whose effect changes nothing. -/
theorem event_idle {effect : State → State} (hr : running s = true) (h : effect s = s) : event effect s = .next (settle s) := by
  rw [event_taken hr, h]

theorem Frame.answered {w : List Field} {t : State} (h : Frame w s t) {kind : Byte} {code : Code} {body : List Byte} :
    Frame (Field.link ++ w) s (answered kind { state := t, code := code, body := body }) :=
  (h.mono fun _ hf => List.mem_append_right _ hf).trans
    ((frame_answered kind { state := t, code := code, body := body }).mono fun _ hf => List.mem_append_left _ hf)

theorem Frame.settled {w : List Field} {t : State} (h : Frame w s t) : Frame (Field.signal ++ w) s (settle t) :=
  (h.mono fun _ hf => List.mem_append_right _ hf).trans ((frame_settle t).mono fun _ hf => List.mem_append_left _ hf)

end

/-! ## The records an answer leaves -/

section
variable (kind : Byte) (r : Reply)

@[simp] theorem tenantRec_answered (x : Nat) : tenantRec (answered kind r) x = tenantRec r.state x := rfl
@[simp] theorem account_answered (x : Nat) : account (answered kind r) x = account r.state x := rfl
@[simp] theorem badgeHolder_answered (x : Nat) : badgeHolder (answered kind r) x = badgeHolder r.state x := rfl
@[simp] theorem slot_answered (x : Nat) : slot (answered kind r) x = slot r.state x := rfl
@[simp] theorem job_answered (x : Nat) : job (answered kind r) x = job r.state x := rfl
@[simp] theorem handleOf_answered (x : Nat) : handleOf (answered kind r) x = handleOf r.state x := rfl
@[simp] theorem printer_answered (x : Nat) : printer (answered kind r) x = printer r.state x := rfl
@[simp] theorem pool_answered (x : Nat) : pool (answered kind r) x = pool r.state x := rfl
@[simp] theorem model_answered (x : Nat) : model (answered kind r) x = model r.state x := rfl
@[simp] theorem condEntry_answered (k : CondKind) : condEntry (answered kind r) k = condEntry r.state k := rfl
@[simp] theorem callout_answered (x : Nat) (k : CondKind) : callout (answered kind r) x k = callout r.state x k := rfl
@[simp] theorem classRec_answered (x : Nat) : classRec (answered kind r) x = classRec r.state x := rfl
@[simp] theorem desk_answered (x : Nat) : desk (answered kind r) x = desk r.state x := rfl
@[simp] theorem loopRec_answered (x : Nat) : loopRec (answered kind r) x = loopRec r.state x := rfl
@[simp] theorem terminal_answered (x : Nat) : terminal (answered kind r) x = terminal r.state x := rfl
@[simp] theorem visit_answered (x : Nat) : visit (answered kind r) x = visit r.state x := rfl
@[simp] theorem rollover_answered (x : Nat) : rollover (answered kind r) x = rollover r.state x := rfl
@[simp] theorem answered_accounts : (answered kind r).accounts = r.state.accounts := rfl
@[simp] theorem answered_jobs : (answered kind r).jobs = r.state.jobs := rfl
@[simp] theorem answered_finished : (answered kind r).finished = r.state.finished := rfl
@[simp] theorem answered_dispatch : (answered kind r).dispatch = r.state.dispatch := rfl
@[simp] theorem answered_releaseCounter : (answered kind r).releaseCounter = r.state.releaseCounter := rfl
@[simp] theorem answered_printers : (answered kind r).printers = r.state.printers := rfl
@[simp] theorem answered_survey : (answered kind r).survey = r.state.survey := rfl
@[simp] theorem answered_lock : (answered kind r).lock = r.state.lock := rfl
@[simp] theorem answered_calendar : (answered kind r).calendar = r.state.calendar := rfl
@[simp] theorem answered_visits : (answered kind r).visits = r.state.visits := rfl

end

/-! ## Clamps -/

theorem clamp_zero (high v : Nat) : clamp 0 high v = min high v := by
  rw [clamp, if_neg (Nat.not_lt_zero v)]
  split <;> omega

theorem clamp_eq {low high : Nat} (h : low ≤ high) (v : Nat) : clamp low high v = max low (min high v) := by
  unfold clamp
  split
  · omega
  · split <;> omega

theorem clamp_word (v : BitVec 16) : clamp 0 65535 v.toNat = v.toNat := by
  rw [clamp_zero]
  have := v.isLt
  omega

theorem clampPattern_eq (p : PatternFields) :
    clampPattern p =
      { minute := (optional p.minute).map (min 59), hour := (optional p.hour).map (min 23)
        weekday := (optional p.weekday).map fun v => max 1 (min 7 v)
        day := (optional p.day).map fun v => max 1 (min 31 v)
        month := (optional p.month).map fun v => max 1 (min 12 v) } := by
  have zero : ∀ high, clamp 0 high = min high := fun high => funext (clamp_zero high)
  have one : ∀ high, 1 ≤ high → clamp 1 high = fun v => max 1 (min high v) := fun high h => funext (clamp_eq h)
  rw [clampPattern, zero, zero, one 7 (by decide), one 31 (by decide), one 12 (by decide)]

/-! ## Lengths of bodies -/

@[simp] theorem num_length (w v : Nat) : (num w v).length = w := by
  induction w generalizing v with
  | zero => rfl
  | succ w ih => simp [num, ih]

@[simp] theorem optNum_length (w : Nat) (o : Option Nat) : (optNum w o).length = w + 1 := by
  cases o <;> simp [optNum]

theorem accountBody_length (a : Nat) (r : Account) : (accountBody a r).length = 35 := by simp [accountBody]

end Sys2Proof.Machine
end

