-- ==== Sys2Proof/Proofs/Policy.lean ====
section
/-! PROOFS. The policy lock, Set Tenant Policy, the touch and Read Account (R2, R3, R8, R15, R187). -/

namespace Sys2Proof.Machine

theorem exec_setTenantPolicy (len tenant mono colour credit hold resume : BitVec 16) (policy : Byte) (warn : BitVec 16)
    (p : PatternFields) (s : State) :
    exec (.setTenantPolicy len tenant mono colour credit hold resume policy warn p) s =
      request 0x10 (len == 25) (patternPresenceOk p)
        (setTenantPolicyRule tenant.toNat mono.toNat colour.toNat credit.toNat hold.toNat resume.toNat (policyOf policy)
          warn.toNat (clampPattern p)) s := rfl

theorem policyOf_eq (b : Byte) : policyOf b = if b.toNat ≤ 1 then some (if b = 0 then .refuse else .monoFallback) else none :=
  two_codes_eq b ..

theorem setTenantPolicyRule_of_lock {s : State} (h : s.lock = true) (tenant mono colour credit hold resume : Nat)
    (policy : Option QuotaPolicy) (warn : Nat) (pattern : Pattern) :
    setTenantPolicyRule tenant mono colour credit hold resume policy warn pattern s = refuse s .locked :=
  if_pos h

/-- The record Set Tenant Policy writes: every field held to its range, the period kept (R2). -/
def policyRecord (s : State) (tenant mono colour credit hold resume : BitVec 16) (policy : Byte) (warn : BitVec 16) :
    Tenant :=
  { monoRate := mono.toNat, colourRate := colour.toNat, duplexCredit := credit.toNat
    holdMinutes := max 1 (min 10080 hold.toNat), resumeMinutes := max 1 (min 60 resume.toNat)
    policy := if policy = 0 then .refuse else .monoFallback
    warnPermille := min 1000 warn.toNat, period := (tenantRec s tenant.toNat).period }

theorem setTenantPolicyRule_of_unlocked {s : State} (h : s.lock = false)
    (tenant mono colour credit hold resume : BitVec 16) (policy : Byte) (warn : BitVec 16) (pattern : Pattern) :
    setTenantPolicyRule tenant.toNat mono.toNat colour.toNat credit.toNat hold.toNat resume.toNat (policyOf policy)
        warn.toNat pattern s =
      if 31 < tenant.toNat ∨ 1 < policy.toNat then refuse s .badField
      else
        { state := putRollover
            (putTenant s tenant.toNat (policyRecord s tenant mono colour credit hold resume policy warn)) tenant.toNat pattern
          code := .ok } := by
  rw [policyOf_eq]
  unfold setTenantPolicyRule policyRecord
  simp only [clamp_word]
  simp only [clamp_zero, clamp_eq (by decide : 1 ≤ 10080), clamp_eq (by decide : 1 ≤ 60)]
  by_cases ht : 31 < tenant.toNat
  · simp [h, ht]
  · by_cases hp : policy.toNat ≤ 1
    · simp [h, ht, hp, hp.not_gt]
    · simp [h, ht, hp, not_le.1 hp]

theorem lock_of_recordsAfter (c : Instr) {s : State} (h : s.lock = true) : (recordsAfter c s).lock = true := by
  cases hw : mayWrite [.lock] c with
  | false => exact (same_recordsAfter (f := .lock) hw s (by decide)).trans h
  | true =>
    cases c
    case lockPolicy => rfl
    all_goals exact absurd hw Bool.false_ne_true

/-- Settles O15: of all commands Lock Policy alone writes the lock, and the two requests test it first. -/
theorem policyLockAndTenantPolicy : Obligations.PolicyLockAndTenantPolicy := by
  unfold Obligations.PolicyLockAndTenantPolicy
  refine ⟨⟨fun s hr => ?_, fun s tenant mono colour credit hold resume policy warn p hr hlock hp => ?_,
    fun s kind cls sense auto hr hlock => ?_, fun c s t hc hlock h => ?_⟩,
    fun s tenant mono colour credit hold resume policy warn p hr hlock hp => ?_⟩
  · have hexec : exec (.lockPolicy 0) s =
      request 0x12 true true (fun s => { state := { s with lock := true }, code := .ok }) s := rfl
    rw [hexec]
    exact request_answers hr rfl rfl rfl rfl rfl
  · exact request_answers_refusal hr rfl hp (setTenantPolicyRule_of_lock hlock ..)
  · exact request_answers_refusal hr rfl rfl (if_pos hlock)
  · obtain frame | frame := exec_frame hc h
    · exact (frame.same .lock (by decide)).trans hlock
    · exact (frame.same .lock (by decide)).trans (lock_of_recordsAfter c hlock)
  · have rule := setTenantPolicyRule_of_unlocked hlock tenant mono colour credit hold resume policy warn (clampPattern p)
    rw [exec_setTenantPolicy]
    by_cases bad : 31 < tenant.toNat ∨ 1 < policy.toNat
    · simp only [if_pos bad] at rule ⊢
      exact request_answers_refusal hr rfl hp rule
    · simp only [if_neg bad, clampPattern_eq] at rule ⊢
      refine request_answers hr rfl hp rule rfl ⟨rfl, ?_, ?_, fun x hx => ⟨?_, ?_⟩⟩
      · exact (tenantRec_putTenant s _ _ _).trans (if_pos rfl)
      · exact (rollover_putRollover _ _ _ _).trans (if_pos rfl)
      · exact (tenantRec_putTenant s _ _ _).trans (if_neg hx)
      · exact (rollover_putRollover _ _ _ _).trans (if_neg hx)

/-! ## Touches -/

theorem rolledOver_eq (period : Nat) (r : Account) :
    rolledOver period r = if r.stamp ≠ period then { r with used := 0, warned := false, stamp := period } else r := by
  unfold rolledOver
  split <;> simp [*]

theorem account_touch_self (s : State) (a : Nat) :
    account (touch s a) a =
      if (account s a).state ≠ .free ∧ (account s a).stamp ≠ (tenantRec s (account s a).tenant).period then
        { account s a with used := 0, warned := false, stamp := (tenantRec s (account s a).tenant).period }
      else account s a := by
  rw [account_touch, rolledOver_eq]
  by_cases hf : (account s a).state = .free <;> simp [hf]

theorem touch_of_free {s : State} {a : Nat} (h : (account s a).state = .free) : touch s a = s := if_pos h

theorem readAccountRule_of_number {s : State} {a : Nat} (h : a ≤ 4095) :
    readAccountRule a s = { state := touch s a, code := .ok, body := accountBody a (account (touch s a) a) } :=
  if_neg (by omega)

/-- Settles O16: the touch's one write, and Read Account's answer of the record it leaves. -/
theorem touchAndReadAccount : Obligations.TouchAndReadAccount := by
  unfold Obligations.TouchAndReadAccount
  refine ⟨fun s a => ⟨touch_frame s a, fun b hb => ?_, account_touch_self s a⟩, fun s a hr ha => ?_⟩
  · rw [account_touch, if_neg fun h => hb h.1]
  · rw [exec_readAccount]
    refine request_answers hr rfl rfl (readAccountRule_of_number ha) (by rw [touch_frame]) ⟨?_, ?_, rfl, fun b hb => ?_, ?_⟩
    · exact (frame_touch s a.toNat).answered
    · exact accountBody_length _ _
    · show account (touch s a.toNat) b = account s b
      rw [account_touch, if_neg fun h => hb h.1]
    · intro hf
      rw [touch_of_free hf]
      rfl

end Sys2Proof.Machine
end

