-- ==== Sys2Proof/Proofs/Reservations.lean ====
section
/-! PROOFS. What touching, Reserve, Commit and Return leave in each account and in the job (R22 to R26). -/

namespace Sys2Proof.Machine

/-! ## An operation on an owner and its department -/

theorem rolledOver_rolledOver (period : Nat) (r : Account) :
    rolledOver period (rolledOver period r) = rolledOver period r := by
  rw [rolledOver, rolledOver_stamp, if_pos rfl]

theorem account_touch_ne (s : State) {a b : Nat} (h : b ≠ a) : account (touch s a) b = account s b := by
  rw [account_touch, if_neg fun k => h k.1]

/-- A touch of an account looks at no other account. -/
theorem account_touch_congr {s t : State} {a : Nat} (hacc : account t a = account s a)
    (hten : ∀ x, tenantRec t x = tenantRec s x) : account (touch t a) a = account (touch s a) a := by
  rw [account_touch, account_touch, hacc, hten]

theorem account_touch_touch (s : State) (a : Nat) : account (touch (touch s a) a) a = account (touch s a) a := by
  have tenants := (onlyAccounts_touch s a).tenantRec
  by_cases hf : (account s a).state = .free
  · rw [touch_of_free hf, touch_of_free hf]
  · have first := account_touch s a a
    rw [if_pos ⟨rfl, hf⟩] at first
    rw [account_touch (touch s a), tenants, first, if_pos ⟨rfl, by simp [hf]⟩, rolledOver_tenant, rolledOver_rolledOver]

theorem account_touchOpt_touch (s : State) (o : Nat) (d : Option Nat) (b : Nat) :
    account (touchOpt (touch s o) d) b = if b = o ∨ d = some b then account (touch s b) b else account s b := by
  cases d with
  | none =>
    by_cases h : b = o
    · rw [if_pos (.inl h), h]; rfl
    · rw [if_neg (by simp [h])]; exact account_touch_ne s h
  | some x =>
    show account (touch (touch s o) x) b = _
    by_cases hx : b = x
    · rw [if_pos (.inr (hx ▸ rfl)), ← hx]
      by_cases ho : b = o
      · rw [← ho, account_touch_touch]
      · exact account_touch_congr (account_touch_ne s ho) (onlyAccounts_touch s o).tenantRec
    · rw [account_touch_ne _ hx]
      by_cases ho : b = o
      · rw [if_pos (.inl ho), ho]
      · rw [if_neg (by simp [ho, Ne.symm hx]), account_touch_ne _ ho]

/-- An operation that changes its account by `f`, run on an owner and on another account, changes those two by `f`. -/
theorem account_onAccount {op : State → Nat → Nat → State} {f : Account → Account} {n : Nat} {s : State} {o : Nat}
    (hop : ∀ t, OnlyBooks s t → ∀ a b, account (op t a n) b = if b = a then f (account t a) else account t b)
    (hs : OnlyBooks s (op s o n)) {d : Option Nat} (hd : ∀ x, d = some x → x ≠ o) (b : Nat) :
    account (onAccount (op s o n) op n d) b = if b = o ∨ d = some b then f (account s b) else account s b := by
  have first := hop s rfl o
  cases d with
  | none => simp [onAccount, first]; split <;> simp_all
  | some x =>
    have hx := hd x rfl
    show account (op (op s o n) x n) b = _
    rw [hop _ hs]
    by_cases hb : b = x
    · rw [if_pos hb, if_pos (.inr (hb ▸ rfl)), first, if_neg hx, hb]
    · rw [if_neg hb, first]
      by_cases ho : b = o
      · rw [if_pos ho, if_pos (.inl ho), ho]
      · rw [if_neg ho, if_neg (by simp [ho, Ne.symm hb])]

/-! ## Commit and Return -/

theorem account_commit (s : State) (i k : Nat) (hd : ∀ x, (job s i).chargedDept = some x → x ≠ (job s i).owner) (b : Nat) :
    account (commit s i k) b =
      if b = (job s i).owner ∨ (job s i).chargedDept = some b then
        { account (touch s b) b with
          reserved := (account (touch s b) b).reserved - (job s i).perCopyApplied.getD 0 * k
          used := min maxMoney ((account (touch s b) b).used + (job s i).perCopyApplied.getD 0 * k) }
      else account s b := by
  rw [commit]
  dsimp only
  rw [account_putJob, account_onAccount (f := fun r => { r with
        reserved := r.reserved - (job s i).perCopyApplied.getD 0 * k
        used := min maxMoney (r.used + (job s i).perCopyApplied.getD 0 * k) })
      (fun t _ a b => account_moveToUsed t a _ b) (onlyAccounts_moveToUsed _ _ _).books hd,
    account_touchOpt_touch]
  split <;> rfl

theorem account_returnReservation (s : State) (i : Nat)
    (hd : ∀ x, (job s i).chargedDept = some x → x ≠ (job s i).owner) (b : Nat) :
    account (returnReservation s i) b =
      if b = (job s i).owner ∨ (job s i).chargedDept = some b then
        { account (touch s b) b with
          reserved := (account (touch s b) b).reserved
            - (job s i).perCopyApplied.getD 0 * ((job s i).copies - (job s i).copiesDone) }
      else account s b := by
  rw [returnReservation]
  dsimp only
  rw [account_putJob, account_onAccount (f := fun r => { r with
        reserved := r.reserved - (job s i).perCopyApplied.getD 0 * ((job s i).copies - (job s i).copiesDone) })
      (fun t _ a b => account_subReserved t a _ b) (onlyAccounts_subReserved _ _ _).books hd,
    account_touchOpt_touch]
  split <;> rfl

/-- Settles O22: the two operations run on the owner and on the department, each once. -/
theorem commitAndReturnMoveTheMoney : Obligations.CommitAndReturnMoveTheMoney := by
  unfold Obligations.CommitAndReturnMoveTheMoney
  intro s i k j touched hd charged pc
  have touchedOf : ∀ a, charged a → account touched a = account (touch s a) a := fun a ha => by
    rw [account_touchOpt_touch, if_pos ha]
  refine ⟨fun a ha => ?_, fun a ha => ?_, fun a ha => ?_, ?_, ?_⟩
  · rw [account_commit s i k hd, if_pos ha, touchedOf a ha]
    exact ⟨rfl, rfl⟩
  · rw [account_returnReservation s i hd, if_pos ha, touchedOf a ha]
    exact ⟨rfl, rfl⟩
  · rw [account_commit s i k hd, account_returnReservation s i hd, if_neg ha, if_neg ha]
    exact ⟨rfl, rfl⟩
  · rw [job_commit, if_pos rfl]
  · rw [job_returnReservation, if_pos rfl]

/-! ## The warning test and Reserve -/

/-- The warning test of R24 on an account record whose tenant warns at `w` per mille. -/
def Account.reaches (w : Nat) (r : Account) : Bool :=
  match r.limit with
  | none => false
  | some l => w != 0 && decide (l * w ≤ (r.used + r.reserved) * 1000) && !r.warned

theorem Account.reaches_iff (w : Nat) (r : Account) :
    r.reaches w = true ↔ ∃ l, r.limit = some l ∧ 0 < w ∧ l * w ≤ (r.used + r.reserved) * 1000 ∧ r.warned = false := by
  unfold Account.reaches
  cases r.limit with
  | none => simp
  | some l => simp [Nat.pos_iff_ne_zero, and_assoc]

theorem crossesWarning_eq (s : State) (a : Nat) :
    crossesWarning s a = (account s a).reaches (tenantRec s (account s a).tenant).warnPermille := by
  unfold crossesWarning Account.reaches
  cases (account s a).limit <;> rfl

/-- The record after the warning test. -/
def Account.tested (w : Nat) (r : Account) : Account := { r with warned := r.warned || r.reaches w }

theorem account_warnAccount_tested (s : State) (a b : Nat) :
    account (warnAccount s a) b =
      if b = a then (account s a).tested (tenantRec s (account s a).tenant).warnPermille else account s b := by
  rw [account_warnAccount, crossesWarning_eq, Account.tested]
  by_cases hb : b = a
  · subst hb
    cases h : (account s b).reaches (tenantRec s (account s b).tenant).warnPermille <;> simp
  · simp [hb]

theorem accountFits_iff (r : Account) (n : Nat) :
    accountFits r n = true ↔ ∀ l, r.limit = some l → r.used + r.reserved + n ≤ l := by
  unfold accountFits
  cases r.limit <;> simp

/-- The warning test on the owner and then on its department. -/
def warnBoth (s : State) (o : Nat) (d : Option Nat) : State :=
  onAccount (warnAccount s o) (fun s a _ => warnAccount s a) 0 d

theorem finished_putJob_of_same {s : State} {i : Nat} {j : Job} (h : j.state.finished = (job s i).state.finished) :
    (putJob s i j).finished = s.finished := by
  show s.finished + oneIf j.state.finished - oneIf (job s i).state.finished = s.finished
  rw [h, Nat.add_sub_cancel]

/-- The job of slot `i` with its reservation written, the amount added to both accounts' reserved. -/
def bookBoth (t : State) (i pc due : Nat) (mono : Bool) (d : Option Nat) : State :=
  let charged := onAccount (addReserved t (job t i).owner due) addReserved due d
  putJob charged i
    { job t i with
      perCopyApplied := some pc, forcedMono := mono && decide (0 < (job t i).sidesColour), chargedDept := d }

theorem reserveTouched_eq (s : State) (o : Nat) : reserveTouched s o = touchOpt (touch s o) (account s o).department := by
  rw [reserveTouched, (account_touch_keeps s o o).2.2.2.2.1]

section
variable (s : State) (i pc due : Nat) (mono : Bool)

theorem department_reserveTouched (o : Nat) :
    (account (reserveTouched s o) o).department = (account s o).department := by
  rw [reserveTouched_eq, account_touchOpt_touch, if_pos (.inl rfl), (account_touch_keeps s o o).2.2.2.2.1]

theorem job_bookBoth (t : State) (d : Option Nat) (x : Nat) :
    job (bookBoth t i pc due mono d) x =
      if x = i then
        { job t i with
          perCopyApplied := some pc, forcedMono := mono && decide (0 < (job t i).sidesColour), chargedDept := d }
      else job t x := by
  have charged := (onlyAccounts_addReserved t (job t i).owner due).trans
    (onlyAccounts_onAccount onlyAccounts_addReserved _ due d)
  rw [bookBoth, job_putJob, charged.job]

theorem onlyBooks_bookBoth (t : State) (d : Option Nat) : OnlyBooks t (bookBoth t i pc due mono d) :=
  ((onlyAccounts_addReserved t _ due).trans (onlyAccounts_onAccount onlyAccounts_addReserved _ due d)).books.trans
    (onlyBooks_putJob _ _ _)

theorem onlyAccounts_warnBoth (o : Nat) (d : Option Nat) : OnlyAccounts s (warnBoth s o d) :=
  (onlyAccounts_warnAccount s o).trans (onlyAccounts_onAccount (fun s a _ => onlyAccounts_warnAccount s a) _ _ d)

/-- The job a Reserve of the job `i` charges for, its department and the state its checks run in. -/
theorem reserve_eq :
    let o := (job s i).owner
    let d := (account s o).department
    let t := reserveTouched s o
    let written := bookBoth t i pc due mono d
    reserve s i pc due mono =
      if accountFits (account t o) due = true ∧ ∀ x, d = some x → accountFits (account t x) due = true then
        { state := warnBoth written o d, ok := true
          warning := crossesWarning written o || d.any (crossesWarning (warnAccount written o)) }
      else { state := t, ok := false, warning := false } := by
  dsimp only
  have hjob : job (reserveTouched s (job s i).owner) i = job s i := (onlyAccounts_reserveTouched s _).job i
  unfold reserve bookBoth warnBoth
  dsimp only
  rw [department_reserveTouched, hjob]
  have charged := fun n d => ((onlyAccounts_addReserved (reserveTouched s (job s i).owner) (job s i).owner n).trans
    (onlyAccounts_onAccount onlyAccounts_addReserved _ n d)).job i
  rw [charged, hjob]
  cases (account s (job s i).owner).department with
  | none => cases accountFits (account (reserveTouched s (job s i).owner) (job s i).owner) due <;> simp [onAccount]
  | some d =>
    cases accountFits (account (reserveTouched s (job s i).owner) (job s i).owner) due <;>
      cases h : accountFits (account (reserveTouched s (job s i).owner) d) due <;> simp [onAccount, h]

end

section
variable {s : State} {o : Nat} {d : Option Nat} (hd : ∀ x, d = some x → x ≠ o)
include hd

theorem account_bookBoth {i : Nat} (pc due : Nat) (mono : Bool) (ho : (job s i).owner = o) (b : Nat) :
    account (bookBoth s i pc due mono d) b =
      if b = o ∨ d = some b then { account s b with reserved := (account s b).reserved + due } else account s b := by
  rw [bookBoth, account_putJob, ho, account_onAccount (f := fun r => { r with reserved := r.reserved + due })
      (fun t _ a b => account_addReserved t a _ b) (onlyAccounts_addReserved _ _ _).books hd]

theorem account_warnBoth (b : Nat) :
    account (warnBoth s o d) b =
      if b = o ∨ d = some b then (account s b).tested (tenantRec s (account s b).tenant).warnPermille
      else account s b :=
  account_onAccount (op := fun s a _ => warnAccount s a) (n := 0)
    (f := fun r => r.tested (tenantRec s r.tenant).warnPermille)
    (fun t ht a b => by
      have tenants : ∀ x, tenantRec t x = tenantRec s x := fun x => by unfold OnlyBooks at ht; rw [ht]; rfl
      rw [account_warnAccount_tested, tenants])
    (onlyAccounts_warnAccount s o).books hd b

end

/-- The record of account `a` touched and charged `due`. -/
def chargedRecord (s : State) (a due : Nat) : Account :=
  { account (touch s a) a with reserved := (account (touch s a) a).reserved + due }

theorem chargedRecord_tenant (s : State) (a due : Nat) : (chargedRecord s a due).tenant = (account s a).tenant :=
  (account_touch_keeps s a a).2.2.1

/-- Between the charge and the warning test of a Reserve that reserves. -/
def booked (s : State) (i pc due : Nat) (mono : Bool) : State :=
  bookBoth (touchOpt (touch s (job s i).owner) (account s (job s i).owner).department) i pc due mono
    (account s (job s i).owner).department

section
variable {s : State} {i pc due : Nat} {mono : Bool}

theorem onlyBooks_booked : OnlyBooks s (booked s i pc due mono) :=
  ((onlyAccounts_touch s (job s i).owner).trans
    (onlyAccounts_touchOpt _ (account s (job s i).owner).department)).books.trans (onlyBooks_bookBoth ..)

theorem job_booked (x : Nat) :
    job (booked s i pc due mono) x =
      if x = i then
        { job s i with
          perCopyApplied := some pc, forcedMono := mono && decide (0 < (job s i).sidesColour)
          chargedDept := (account s (job s i).owner).department }
      else job s x := by
  have touched := (onlyAccounts_touch s (job s i).owner).trans
    (onlyAccounts_touchOpt _ (account s (job s i).owner).department)
  rw [booked, job_bookBoth, touched.job, touched.job]

theorem finished_booked : (booked s i pc due mono).finished = s.finished := by
  have touched := (onlyAccounts_touch s (job s i).owner).trans
    (onlyAccounts_touchOpt _ (account s (job s i).owner).department)
  have charged := fun t => (onlyAccounts_addReserved t (job t i).owner due).trans
    (onlyAccounts_onAccount onlyAccounts_addReserved _ due (account s (job s i).owner).department)
  rw [booked, bookBoth]
  dsimp only
  rw [finished_putJob_of_same (by rw [(charged _).job]), charged, touched]

theorem tenantRec_booked (x : Nat) : tenantRec (booked s i pc due mono) x = tenantRec s x := by
  have books : OnlyBooks s (booked s i pc due mono) := onlyBooks_booked
  unfold OnlyBooks at books
  rw [books]
  rfl

/-- What a Reserve that reserved wrote and reported. -/
theorem reserve_of_ok (h : (reserve s i pc due mono).ok = true) :
    let o := (job s i).owner
    let d := (account s o).department
    (reserve s i pc due mono).state = warnBoth (booked s i pc due mono) o d
    ∧ (reserve s i pc due mono).warning = (crossesWarning (booked s i pc due mono) o
        || d.any (crossesWarning (warnAccount (booked s i pc due mono) o))) := by
  have eq := reserve_eq s i pc due mono
  dsimp only at eq ⊢
  rw [eq] at h ⊢
  rw [booked, ← reserveTouched_eq]
  split at h
  · rw [if_pos ‹_›]
    exact ⟨rfl, rfl⟩
  · cases h

theorem job_reserve_of_ok (h : (reserve s i pc due mono).ok = true) (x : Nat) :
    job (reserve s i pc due mono).state x =
      if x = i then
        { job s i with
          perCopyApplied := some pc, forcedMono := mono && decide (0 < (job s i).sidesColour)
          chargedDept := (account s (job s i).owner).department }
      else job s x := by
  rw [(reserve_of_ok h).1, (onlyAccounts_warnBoth _ _ _).job, job_booked]

variable (hd : ∀ x, (account s (job s i).owner).department = some x → x ≠ (job s i).owner)
include hd

theorem account_booked (a : Nat) :
    account (booked s i pc due mono) a =
      if a = (job s i).owner ∨ (account s (job s i).owner).department = some a then chargedRecord s a due
      else account s a := by
  have touched := (onlyAccounts_touch s (job s i).owner).trans
    (onlyAccounts_touchOpt _ (account s (job s i).owner).department)
  rw [booked, account_bookBoth hd _ _ _ (by rw [touched.job]), account_touchOpt_touch]
  split <;> rfl

theorem crossesWarning_booked {a : Nat} (ha : a = (job s i).owner ∨ (account s (job s i).owner).department = some a) :
    crossesWarning (booked s i pc due mono) a =
      (chargedRecord s a due).reaches (tenantRec s (account s a).tenant).warnPermille := by
  rw [crossesWarning_eq, account_booked hd, if_pos ha, tenantRec_booked, chargedRecord_tenant]

/-- The accounts after a Reserve that reserved (R23, R24): both charged accounts take the amount and the warning test. -/
theorem account_reserve_of_ok (h : (reserve s i pc due mono).ok = true) (a : Nat) :
    account (reserve s i pc due mono).state a =
      if a = (job s i).owner ∨ (account s (job s i).owner).department = some a then
        (chargedRecord s a due).tested (tenantRec s (account s a).tenant).warnPermille
      else account s a := by
  rw [(reserve_of_ok h).1, account_warnBoth hd, tenantRec_booked, account_booked hd]
  split
  · rw [chargedRecord_tenant]
  · rfl

theorem reserve_warning_of_ok (h : (reserve s i pc due mono).ok = true) :
    (reserve s i pc due mono).warning = true ↔
      ∃ a, (a = (job s i).owner ∨ (account s (job s i).owner).department = some a)
        ∧ (chargedRecord s a due).reaches (tenantRec s (account s a).tenant).warnPermille = true := by
  rw [(reserve_of_ok h).2, crossesWarning_booked hd (.inl rfl)]
  cases hdept : (account s (job s i).owner).department with
  | none => simp
  | some x =>
    have unwarned : crossesWarning (warnAccount (booked s i pc due mono) (job s i).owner) x
        = crossesWarning (booked s i pc due mono) x := by
      rw [crossesWarning_eq, crossesWarning_eq, account_warnAccount, if_neg fun k => hd x hdept k.1,
        (onlyAccounts_warnAccount _ _).tenantRec]
    rw [Option.any_some, unwarned, crossesWarning_booked hd (.inr hdept)]
    simp

end

theorem reserve_of_unfit {s : State} {i pc due : Nat} {mono : Bool} (h : (reserve s i pc due mono).ok = false) :
    (reserve s i pc due mono).state = touchOpt (touch s (job s i).owner) (account s (job s i).owner).department := by
  rw [(reserve_over s i pc due mono h).1, reserveTouched_eq]

/-- Settles O21: Reserve in its two cases, and the warning test in its two. -/
theorem reserveTakesBothOrNone : Obligations.ReserveTakesBothOrNone := by
  unfold Obligations.ReserveTakesBothOrNone
  constructor
  · intro s i pc due mono o d touched hd fits crosses r
    have eq := reserve_eq s i pc due mono
    have fitting : (accountFits (account (reserveTouched s o) o) due = true
        ∧ ∀ x, d = some x → accountFits (account (reserveTouched s o) x) due = true) ↔
        fits o ∧ ∀ x, d = some x → fits x := by
      simp only [accountFits_iff, reserveTouched_eq]
      exact Iff.rfl
    have record : ∀ a, a = o ∨ d = some a → account touched a = account (touch s a) a := fun a ha => by
      rw [account_touchOpt_touch, if_pos ha]
    have other : ∀ a, ¬ (a = o ∨ d = some a) → account touched a = account s a := fun a ha => by
      rw [account_touchOpt_touch, if_neg ha]
    have crossing : ∀ a, a = o ∨ d = some a →
        ((chargedRecord s a due).reaches (tenantRec s (account s a).tenant).warnPermille = true ↔ crosses a) :=
      fun a ha => by
        rw [Account.reaches_iff]
        simp only [crosses, record a ha, chargedRecord, Nat.add_assoc]
        constructor
        · rintro ⟨l, hl, hw, hle, hwarned⟩
          exact ⟨hwarned, l, hl, hw, hle⟩
        · rintro ⟨hwarned, l, hl, hw, hle⟩
          exact ⟨l, hl, hw, hle, hwarned⟩
    constructor
    · intro hnot
      have hr : r = _ := eq.trans (if_neg fun h => hnot (fitting.1 h))
      exact ⟨congrArg Reserved.ok hr, (congrArg Reserved.state hr).trans (reserveTouched_eq s o),
        congrArg Reserved.warning hr⟩
    · rintro ⟨howner, hdept⟩
      have hok : r.ok = true := by
        exact congrArg Reserved.ok (eq.trans (if_pos (fitting.2 ⟨howner, hdept⟩)))
      have accounts := account_reserve_of_ok hd hok
      refine ⟨hok, fun a => ?_, fun a => ?_, fun a => ?_, ?_, ?_, fun x hx => ?_, ?_⟩
      · rw [accounts]
        by_cases ha : a = o ∨ d = some a
        · rw [if_pos ha, if_pos ha, record a ha]; rfl
        · rw [if_neg ha, if_neg ha, other a ha]; rfl
      · rw [accounts]
        by_cases ha : a = o ∨ d = some a
        · rw [if_pos ha, record a ha]
          exact ⟨rfl, rfl, (account_touch_keeps s a a).2.2.2.2.2.1⟩
        · rw [if_neg ha, other a ha]
          exact ⟨rfl, rfl, rfl⟩
      · rw [accounts]
        by_cases ha : a = o ∨ d = some a
        · rw [if_pos ha, record a ha, ← crossing a ha]
          simp [Account.tested, chargedRecord, ha]
        · rw [if_neg ha, other a ha]
          simp [ha]
      · rw [reserve_warning_of_ok hd hok]
        constructor
        · rintro ⟨a, rfl | ha, hc⟩
          · exact .inl ((crossing _ (.inl rfl)).1 hc)
          · exact .inr ⟨a, ha, (crossing a (.inr ha)).1 hc⟩
        · rintro (hc | ⟨a, ha, hc⟩)
          · exact ⟨o, .inl rfl, (crossing o (.inl rfl)).2 hc⟩
          · exact ⟨a, .inr ha, (crossing a (.inr ha)).2 hc⟩
      · rw [job_reserve_of_ok hok, if_pos rfl]
      · rw [job_reserve_of_ok hok, if_neg hx]
      · have finished : r.state.finished = s.finished := by
          rw [(reserve_of_ok hok).1, onlyAccounts_warnBoth]
          exact finished_booked
        have books : r.state = _ := onlyBooks_reserve s i pc due mono
        rw [finished] at books
        exact books
  · intro s a r w passes
    have hreach : crossesWarning s a = true ↔ passes := by rw [crossesWarning_eq, Account.reaches_iff]
    refine ⟨fun h => ?_, fun h => ?_, fun b hb => ?_⟩
    · rw [account_warnAccount, if_pos ⟨rfl, hreach.2 h⟩]
    · exact if_neg fun k => h (hreach.1 k)
    · rw [account_warnAccount, if_neg fun k => hb k.1]

end Sys2Proof.Machine
end

