-- ==== Sys2Proof/Proofs/AccountLife.lean ====
section
/-! PROOFS. Suspend, Retire and Load Account (R9, R10, R12, R14, R79). -/

namespace Sys2Proof.Machine

/-! ## The open visit of an account -/

/-- A visit entry of the account. -/
def visitBy (a : Nat) (e : Nat × Option Visit) : Bool :=
  match e.2 with
  | none => false
  | some v => v.account == a

theorem visitOf_eq (s : State) (a : Nat) : visitOf s a = (s.visits.find? (visitBy a)).map (·.1) := rfl

theorem mem_visits_iff {s : State} (hs : Canonical s = true) (u : Nat) (v : Visit) :
    (u, some v) ∈ s.visits ↔ visit s u = some v := by
  have wf : Table.wf (fun _ => (none : Option Visit)) s.visits = true := by
    simp only [Canonical, Bool.and_eq_true] at hs
    exact hs.1.2
  rw [Table.mem_iff_get _ wf]
  exact ⟨fun h => h.1, fun h => ⟨h, nofun⟩⟩

theorem visit_of_visitOf {s : State} (hs : Canonical s = true) {a u : Nat} (h : visitOf s a = some u) :
    ∃ v, visit s u = some v ∧ v.account = a := by
  rw [visitOf_eq, Option.map_eq_some_iff] at h
  obtain ⟨⟨u', o⟩, hfind, rfl⟩ := h
  have hby := List.find?_some hfind
  have hmem := List.mem_of_find?_eq_some hfind
  cases o with
  | none => cases hby
  | some v => exact ⟨v, (mem_visits_iff hs _ _).1 hmem, by simpa [visitBy] using hby⟩

theorem visitOf_none_iff {s : State} (hs : Canonical s = true) (a : Nat) :
    visitOf s a = none ↔ ∀ u v, visit s u = some v → v.account ≠ a := by
  rw [visitOf_eq, Option.map_eq_none_iff, List.find?_eq_none]
  constructor
  · intro h u v hv
    simpa [visitBy] using h _ ((mem_visits_iff hs u v).2 hv)
  · rintro h ⟨u, _ | v⟩ hmem
    · exact Bool.false_ne_true
    · simpa [visitBy] using h u v ((mem_visits_iff hs u v).1 hmem)

theorem visitOf_congr {s t : State} (h : t.visits = s.visits) (a : Nat) : visitOf t a = visitOf s a := by
  rw [visitOf_eq, visitOf_eq, h]

theorem endVisitOf_of_none {s : State} {a : Nat} (h : visitOf s a = none) (d : Display) : endVisitOf s a d = s := by
  rw [endVisitOf, h]

/-- The account's visit ends, and its terminal shows the display or has it pending. -/
theorem endVisitOf_of_some {s : State} (hs : Canonical s = true) {a u : Nat} (h : visitOf s a = some u) (d : Display) :
    (∀ x, visit (endVisitOf s a d) x = if x = u then none else visit s x)
    ∧ ((terminal (endVisitOf s a d) u).pending = some d ∨ (terminal (endVisitOf s a d) u).current = d) := by
  obtain ⟨v, hv, -⟩ := visit_of_visitOf hs h
  have ends : endVisitOf s a d = endVisit s u d := by rw [endVisitOf, h]
  rw [ends]
  refine ⟨visit_endVisit s u d, ?_⟩
  rw [endVisit_of_open d hv]
  obtain hpending | ⟨-, hcurrent, -⟩ := terminal_pend (dropVisit s u) u d
  · exact .inl hpending
  · exact .inr hcurrent

/-! ## Who names an account -/

theorem mem_accounts_iff {s : State} (hs : Canonical s = true) (a : Nat) (r : Account) :
    (a, r) ∈ s.accounts ↔ account s a = r ∧ r ≠ {} := by
  have wf : Table.wf (fun _ => ({} : Account)) s.accounts = true := by
    simp only [Canonical, Bool.and_eq_true] at hs
    exact hs.1.1.1.1.1.1.1.1.1.1.1.1.1.2
  exact Table.mem_iff_get _ wf a r

theorem userNames_iff {s : State} (hs : Canonical s = true) (a : Nat) :
    userNames s a = true ↔
      ∃ b, (account s b).state ≠ .free ∧ (account s b).kind = .user ∧ (account s b).department = some a := by
  simp only [userNames, List.any_eq_true, Bool.and_eq_true, bne_iff_ne, beq_iff_eq]
  constructor
  · rintro ⟨⟨b, r⟩, hmem, ⟨hfree, huser⟩, hdept⟩
    obtain ⟨rfl, -⟩ := (mem_accounts_iff hs b r).1 hmem
    exact ⟨b, hfree, huser, hdept⟩
  · rintro ⟨b, hfree, huser, hdept⟩
    refine ⟨(b, account s b), (mem_accounts_iff hs b _).2 ⟨rfl, fun h => hfree ?_⟩, ⟨hfree, huser⟩, hdept⟩
    rw [h]

theorem canonical_touch {s : State} (hs : Canonical s = true) (a : Nat) : Canonical (touch s a) = true := by
  unfold touch
  split
  · exact hs
  · exact canonical_putAccount hs _ _

theorem userNames_touch {s : State} (hs : Canonical s = true) (a x : Nat) : userNames (touch s a) x = userNames s x := by
  rw [Bool.eq_iff_iff, userNames_iff (canonical_touch hs a), userNames_iff hs]
  refine exists_congr fun b => ?_
  obtain ⟨hstate, hkind, -, -, hdept, -⟩ := account_touch_keeps s a b
  rw [hstate, hkind, hdept]

theorem jobNames_touch (s : State) (a x : Nat) : jobNames (touch s a) x = jobNames s x := by
  rw [touch_frame]
  rfl

theorem badgeHolder_moveBadge (s : State) (a : Nat) (old new : Option Nat) (n : Nat) :
    badgeHolder (moveBadge s a old new) n =
      if new = some n then some a else if old = some n then none else badgeHolder s n := by
  unfold moveBadge badgeHolder
  cases old <;> cases new <;> simp [Table.get_put, eq_comm]

/-! ## Suspend Account -/

section
variable {s : State} {a : Nat} (hno : noAccount s a = false)
include hno

theorem suspendAccountRule_of_active (h : (account s a).state = .active) :
    suspendAccountRule a s =
      { state := endVisitOf (putAccount (touch s a) a { account (touch s a) a with state := .suspended }) a .suspended
        code := .ok } := by
  simp [suspendAccountRule, hno, (account_touch_keeps s a a).1, h]

theorem suspendAccountRule_of_suspended (h : (account s a).state = .suspended) :
    suspendAccountRule a s = { state := touch s a, code := .ok } := by
  simp [suspendAccountRule, hno, (account_touch_keeps s a a).1, h]

theorem retireAccountRule_of_named (hs : Canonical s = true) (h : jobNames s a = true ∨ userNames s a = true) :
    retireAccountRule a s = refuse (touch s a) .inUse := by
  rw [retireAccountRule, hno]
  simp only [jobNames_touch, userNames_touch hs]
  obtain h | h := h <;> simp [h]

theorem retireAccountRule_of_unnamed (hs : Canonical s = true) (hj : jobNames s a = false) (hu : userNames s a = false) :
    let ended := endVisitOf (touch s a) a .goodbye
    retireAccountRule a s =
      { state := putAccount (moveBadge ended a (account ended a).badge none) a {}, code := .ok } := by
  rw [retireAccountRule, hno]
  simp [jobNames_touch, userNames_touch hs, hj, hu]

end

/-- The state Suspend Account leaves of an ACTIVE account, before its visit ends. -/
def suspendedState (s : State) (a : Nat) : State :=
  putAccount (touch s a) a { account (touch s a) a with state := .suspended }

theorem frame_suspendedState (s : State) (a : Nat) : Frame [.accounts] s (suspendedState s a) :=
  (frame_touch s a).trans (frame_putAccount _ _ _)

theorem canonical_suspendedState {s : State} (hs : Canonical s = true) (a : Nat) : Canonical (suspendedState s a) = true :=
  canonical_putAccount (canonical_touch hs a) _ _

/-- Settles O18: in each rule the account's write, then what its visit's end leaves. -/
theorem suspendAndRetireAccount : Obligations.SuspendAndRetireAccount := by
  unfold Obligations.SuspendAndRetireAccount
  constructor
  · intro s a hs hr hle hfree
    have hno := noAccount_eq_false hle hfree
    rw [exec_suspendAccount]
    obtain hactive | hsuspended : (account s a.toNat).state = .active ∨ (account s a.toNat).state = .suspended := by
      cases h : (account s a.toNat).state <;> simp_all
    · have visits := (frame_suspendedState s a.toNat).same .visits (by decide)
      have loops : Frame Field.loopSide (suspendedState s a.toNat) (endVisitOf (suspendedState s a.toNat) a.toNat .suspended) :=
        frame_endVisitOf _ _ _
      have acc : ∀ b, account (endVisitOf (suspendedState s a.toNat) a.toNat .suspended) b
          = if b = a.toNat then { account (touch s a.toNat) a.toNat with state := .suspended } else account s b := fun b => by
        rw [loops.account b (by decide), suspendedState, account_putAccount_touch]
      refine request_answers hr rfl rfl (suspendAccountRule_of_active hno hactive) ?_ ⟨?_, ?_, fun b hb => ?_, ?_, ?_⟩
      · exact ((frame_suspendedState s _).comp loops (w := .accounts :: Field.loopSide) (by decide)).same .response (by decide)
      · exact ((frame_suspendedState s _).comp loops (w := .accounts :: Field.loopSide) (by decide)).answered
      · exact (acc _).trans (if_pos rfl)
      · exact (acc _).trans (if_neg hb)
      · intro _ u hu
        obtain ⟨hclosed, hshown⟩ := endVisitOf_of_some (canonical_suspendedState hs a.toNat)
          ((visitOf_congr visits _).trans hu) .suspended
        exact ⟨(hclosed u).trans (if_pos rfl), hshown⟩
      · rintro (h | h)
        · rw [hactive] at h; cases h
        · have same := endVisitOf_of_none ((visitOf_congr visits _).trans h) .suspended
          rw [suspendedState] at same
          rw [same]
          exact (frame_suspendedState s a.toNat).answered
    · refine request_answers hr rfl rfl (suspendAccountRule_of_suspended hno hsuspended) (by rw [touch_frame])
        ⟨?_, ?_, fun b hb => ?_, fun h => ?_, fun _ => ?_⟩
      · exact ((frame_touch s a.toNat).mono (w' := .accounts :: Field.loopSide) (by decide)).answered
      · show account (touch s a.toNat) a.toNat = _
        rw [← hsuspended, ← (account_touch_keeps s a.toNat a.toNat).1]
      · exact account_touch_ne s hb
      · rw [hsuspended] at h; cases h
      · exact (frame_touch s a.toNat).answered
  · intro s a hs hr hle hfree
    have hno := noAccount_eq_false hle hfree
    have canonical := canonical_touch hs a.toNat
    rw [exec_retireAccount]
    refine ⟨fun h => ?_, fun hj hu => ?_⟩
    · refine request_answers hr rfl rfl (retireAccountRule_of_named hno hs h) (by rw [refuse, touch_frame]) ?_
      exact (frame_touch s a.toNat).answered
    · have rule := retireAccountRule_of_unnamed hno hs hj hu
      dsimp only at rule
      have ended : Frame (.accounts :: Field.loopSide) s (endVisitOf (touch s a.toNat) a.toNat .goodbye) :=
        (frame_touch s a.toNat).comp (frame_endVisitOf _ _ _) (by decide)
      have loops : Frame Field.loopSide (touch s a.toNat) (endVisitOf (touch s a.toNat) a.toNat .goodbye) :=
        frame_endVisitOf _ _ _
      have badge : (account (endVisitOf (touch s a.toNat) a.toNat .goodbye) a.toNat).badge = (account s a.toNat).badge := by
        rw [loops.account _ (by decide), (account_touch_keeps s _ _).2.2.2.1]
      have written : Frame (.accounts :: .badgeMap :: Field.loopSide) s (retireAccountRule a.toNat s).state :=
        frame_retireAccountRule s _
      rw [rule] at written
      refine request_answers hr rfl rfl rule (written.same .response (by decide))
        ⟨written.answered, ?_, fun b hb => ?_, fun n => ?_, fun u hu => ?_⟩
      · rw [account_answered, account_putAccount, if_pos rfl]
      · rw [account_answered, account_putAccount, if_neg hb, account_moveBadge, loops.account _ (by decide),
          account_touch_ne s hb]
      · rw [badgeHolder_answered, badgeHolder_putAccount, badgeHolder_moveBadge, if_neg nofun, badge,
          ended.badgeHolder _ (by decide)]
      · obtain ⟨hclosed, hshown⟩ := endVisitOf_of_some canonical
          ((visitOf_congr (by rw [touch_frame]) _).trans hu) .goodbye
        rw [visit_answered, terminal_answered, visit_putAccount, terminal_putAccount, visit_moveBadge, terminal_moveBadge]
        exact ⟨(hclosed u).trans (if_pos rfl), hshown⟩

/-! ## Load Account -/

theorem exec_loadAccount (len a : BitVec 16) (state kind : Byte) (tenant : BitVec 16) (badge : Opt 24) (dept : Opt 16)
    (limit : Opt 32) (used : BitVec 48) (s : State) :
    exec (.loadAccount len a state kind tenant badge dept limit used) s =
      request 0x20 (len == 24) (presenceOk badge && presenceOk dept && presenceOk limit)
        (loadAccountRule
          { number := a.toNat, state := loadStateOf state, kind := accountKindOf kind, tenant := tenant.toNat
            badge := optional badge, department := optional dept, limit := optional limit, used := used.toNat }) s := rfl

theorem accountKindOf_eq (b : Byte) :
    accountKindOf b = if b.toNat ≤ 1 then some (if b = 0 then .user else .department) else none := two_codes_eq b ..

theorem accountKindOf_isNone (b : Byte) : (accountKindOf b).isNone = decide (1 < b.toNat) := by
  rw [accountKindOf_eq]
  split <;> simp <;> omega

theorem accountKindOf_department_iff (b : Byte) : accountKindOf b = some .department ↔ b = 1 := by
  unfold accountKindOf
  split_ifs with h0 h1
  · simp [h0]
  · simp [h1]
  · simp only [false_iff]
    exact h1

theorem loadStateOf_eq (b : Byte) :
    loadStateOf b = if b ≠ 1 ∧ b ≠ 2 then none else some (if b = 1 then .active else .suspended) := by
  unfold loadStateOf
  split_ifs with h1 h h2 h <;> simp_all

theorem loadStateOf_isNone (b : Byte) : (loadStateOf b).isNone = decide (b ≠ 1 ∧ b ≠ 2) := by
  rw [loadStateOf_eq]
  by_cases h : b ≠ 1 ∧ b ≠ 2
  · rw [if_pos h, decide_eq_true h]; rfl
  · rw [if_neg h, decide_eq_false h]; rfl

/-- The first of the seven checks of R9 that fails on the touched records, and its code. -/
def LoadFields.refusal (f : LoadFields) (t : State) : Option Code :=
  if f.outOfRange = true then some .badField
  else if f.kind = some .department ∧ (f.badge.isSome ∨ f.department.isSome) then some .badField
  else if f.badge = some 0 then some .badField
  else if f.badDepartment t = true then some .badField
  else if f.badgeTaken t = true then some .duplicate
  else if f.jobHolds t = true then some .inUse
  else if f.userHolds t = true then some .inUse
  else none

theorem loadAccountRule_of_refusal {f : LoadFields} {s : State} {c : Code} (h : f.refusal (f.touched s) = some c) :
    loadAccountRule f s = refuse (f.touched s) c := by
  unfold loadAccountRule
  unfold LoadFields.refusal at h
  dsimp only
  split_ifs at h ⊢ <;> cases h <;> rfl

theorem loadAccountRule_of_none {f : LoadFields} {s : State} {st : AccountState} {k : AccountKind}
    (h : f.refusal (f.touched s) = none) (hst : f.state = some st) (hk : f.kind = some k) :
    loadAccountRule f s = { state := f.write (f.touched s) st k, code := .ok } := by
  unfold loadAccountRule
  unfold LoadFields.refusal at h
  dsimp only
  split_ifs at h ⊢
  rw [hst, hk]

section
variable (f : LoadFields) (s : State)

theorem account_touched (b : Nat) :
    account (f.touched s) b = if b = f.number ∨ f.department = some b then account (touch s b) b else account s b :=
  account_touchOpt_touch s f.number f.department b

/-- The fields the checks read are those a touch keeps. -/
theorem account_touched_keeps (b : Nat) :
    (account (f.touched s) b).state = (account s b).state ∧ (account (f.touched s) b).kind = (account s b).kind
    ∧ (account (f.touched s) b).tenant = (account s b).tenant ∧ (account (f.touched s) b).badge = (account s b).badge
    ∧ (account (f.touched s) b).department = (account s b).department
    ∧ (account (f.touched s) b).reserved = (account s b).reserved := by
  rw [account_touched]
  split
  · obtain ⟨hstate, hkind, htenant, hbadge, hdept, -, hreserved⟩ := account_touch_keeps s b b
    exact ⟨hstate, hkind, htenant, hbadge, hdept, hreserved⟩
  · exact ⟨rfl, rfl, rfl, rfl, rfl, rfl⟩

theorem onlyAccounts_touched : OnlyAccounts s (f.touched s) :=
  (onlyAccounts_touch s f.number).trans (onlyAccounts_touchOpt _ f.department)

variable {s}

theorem canonical_touched (hs : Canonical s = true) : Canonical (f.touched s) = true := by
  unfold LoadFields.touched
  cases f.department with
  | none => exact canonical_touch hs _
  | some d => exact canonical_touch (canonical_touch hs _) _

theorem userNames_touched (hs : Canonical s = true) (a : Nat) : userNames (f.touched s) a = userNames s a := by
  unfold LoadFields.touched
  cases f.department with
  | none => exact userNames_touch hs _ _
  | some d => exact (userNames_touch (canonical_touch hs _) _ _).trans (userNames_touch hs _ _)

theorem jobNames_touched (a : Nat) : jobNames (f.touched s) a = jobNames s a := by
  have only := onlyAccounts_touched f s
  unfold OnlyAccounts at only
  rw [only]
  rfl

theorem badDepartment_touched_iff :
    f.badDepartment (f.touched s) = true ↔
      f.department.any (fun d => decide ((account s d).state = .free ∨ (account s d).kind = .user
        ∨ (account s d).tenant ≠ f.tenant ∨ d = f.number)) = true := by
  unfold LoadFields.badDepartment
  cases f.department with
  | none => simp
  | some d =>
    obtain ⟨hstate, hkind, htenant, -⟩ := account_touched_keeps f s d
    simp [hstate, hkind, htenant, or_assoc]

theorem badgeTaken_touched_iff :
    f.badgeTaken (f.touched s) = true ↔
      f.badge.any (fun b => (badgeHolder s b).any fun x => x != f.number) = true := by
  have holder : ∀ b, badgeHolder (f.touched s) b = badgeHolder s b := fun b => by
    have only := onlyAccounts_touched f s
    unfold OnlyAccounts at only
    rw [only]
    rfl
  unfold LoadFields.badgeTaken
  cases f.badge with
  | none => simp
  | some b =>
    dsimp only
    rw [holder]
    cases h : badgeHolder s b <;> simp [h]

theorem jobHolds_touched_iff {k : AccountKind} (hk : f.kind = some k) :
    f.jobHolds (f.touched s) = true ↔
      (account s f.number).state ≠ .free
      ∧ ((account s f.number).tenant ≠ f.tenant ∨ (account s f.number).kind ≠ k
        ∨ (account s f.number).department ≠ f.department)
      ∧ jobNames s f.number = true := by
  obtain ⟨hstate, hkind, htenant, -, hdept, -⟩ := account_touched_keeps f s f.number
  simp [LoadFields.jobHolds, hk, hstate, hkind, htenant, hdept, jobNames_touched, or_assoc, and_assoc]

theorem userHolds_touched_iff (hs : Canonical s = true) {k : AccountKind} (hk : f.kind = some k) :
    f.userHolds (f.touched s) = true ↔
      (account s f.number).state ≠ .free ∧ (account s f.number).kind = .department
      ∧ ((account s f.number).tenant ≠ f.tenant ∨ k = .user) ∧ userNames s f.number = true := by
  obtain ⟨hstate, hkind, htenant, -⟩ := account_touched_keeps f s f.number
  have differs : (account s f.number).kind = .department → ((account s f.number).kind ≠ k ↔ k = .user) := fun h => by
    rw [h]
    cases k <;> simp
  simp only [LoadFields.userHolds, hk, hstate, hkind, htenant, userNames_touched f hs, Bool.and_eq_true, Bool.or_eq_true,
    bne_iff_ne, beq_iff_eq, ne_eq, Option.some_inj, and_assoc]
  refine and_congr_right fun _ => and_congr_right fun h => ?_
  rw [← ne_eq _ k, differs h]

/-- The state a Load Account leaves before a visit may end. -/
def LoadFields.loaded (s : State) (st : AccountState) (k : AccountKind) : State :=
  putAccount (moveBadge (f.touched s) f.number (account (f.touched s) f.number).badge f.badge) f.number
    (f.record (f.touched s) st k)

theorem frame_loaded (st : AccountState) (k : AccountKind) : Frame [.accounts, .badgeMap] s (f.loaded s st k) :=
  ((frame_loadFields_touched s f).comp (w := [.accounts, .badgeMap]) (frame_moveBadge _ _ _ _) (by decide)).comp
    (frame_putAccount _ _ _) (by decide)

theorem write_eq (st : AccountState) (k : AccountKind) :
    f.write (f.touched s) st k =
      if st = .suspended then endVisitOf (f.loaded s st k) f.number .suspended else f.loaded s st k := rfl

/-- The end of a visit leaves what Load Account loaded of the accounts and the badge map. -/
theorem write_loaded (st : AccountState) (k : AccountKind) :
    Frame Field.loopSide (f.loaded s st k) (f.write (f.touched s) st k) := by
  rw [write_eq]
  exact Frame.ite (frame_endVisitOf _ _ _) (Frame.refl _ _)

theorem account_loaded (st : AccountState) (k : AccountKind) (b : Nat) :
    account (f.loaded s st k) b = if b = f.number then f.record (f.touched s) st k else account (f.touched s) b := by
  rw [LoadFields.loaded, account_putAccount, account_moveBadge]

theorem badgeHolder_loaded (st : AccountState) (k : AccountKind) (b : Nat) :
    badgeHolder (f.loaded s st k) b =
      if f.badge = some b then some f.number
      else if (account s f.number).badge = some b then none else badgeHolder s b := by
  rw [LoadFields.loaded, badgeHolder_putAccount, badgeHolder_moveBadge, (account_touched_keeps f s _).2.2.2.1,
    (frame_loadFields_touched s f).badgeHolder _ (by decide)]

theorem record_touched (st : AccountState) (k : AccountKind) :
    f.record (f.touched s) st k =
      { state := st, kind := k, tenant := f.tenant, badge := f.badge, department := f.department
        limit := f.limit.map (min 1000000000), used := f.used
        reserved := if (account s f.number).state = .free then 0 else (account s f.number).reserved
        stamp := (tenantRec s f.tenant).period, warned := false } := by
  obtain ⟨hstate, -, -, -, -, hreserved⟩ := account_touched_keeps f s f.number
  rw [LoadFields.record, clampLimit_eq, hstate, hreserved, (onlyAccounts_touched f s).tenantRec]

theorem canonical_loaded (hs : Canonical s = true) (st : AccountState) (k : AccountKind) :
    Canonical (f.loaded s st k) = true :=
  canonical_putAccount (canonical_moveBadge (canonical_touched f hs) _ _ _) _ _

end

/-- Settles O19: the checks on the touched records are those on the records before, and the writes are the record, the
badge map and the end of the visit. -/
theorem loadAccount : Obligations.LoadAccount := by
  unfold Obligations.LoadAccount
  intro s a state kind tenant badge dept limit used hs hr hbadge hdept hlimit n r kindOf refusal
  have hp : (presenceOk badge && presenceOk dept && presenceOk limit) = true := by rw [hbadge, hdept, hlimit]; rfl
  rw [exec_loadAccount]
  obtain ⟨f, hf⟩ : ∃ f : LoadFields, f =
      { number := n, state := loadStateOf state, kind := accountKindOf kind, tenant := tenant.toNat
        badge := optional badge, department := optional dept, limit := optional limit, used := used.toNat } := ⟨_, rfl⟩
  have range : f.outOfRange = true ↔ 4095 < n ∨ 31 < tenant.toNat
      ∨ (optional dept).any (fun d => decide (4095 < d)) = true ∨ (state ≠ 1 ∧ state ≠ 2) ∨ 1 < kind.toNat := by
    rw [hf]
    cases optional dept <;>
      simp only [LoadFields.outOfRange, loadStateOf_isNone, accountKindOf_isNone, Bool.or_eq_true, decide_eq_true_eq,
        Option.any_none, Option.any_some, or_assoc, Bool.false_eq_true, false_or]
  have kindKnown : ¬ f.outOfRange = true → f.kind = some kindOf := fun h => by
    have hle : ¬ 1 < kind.toNat := fun k => h (range.2 (.inr (.inr (.inr (.inr k)))))
    rw [hf]
    exact (accountKindOf_eq kind).trans (if_pos (Nat.not_lt.1 hle))
  have stateKnown : ¬ f.outOfRange = true → f.state = some (if state = 1 then .active else .suspended) := fun h => by
    rw [hf]
    exact (loadStateOf_eq state).trans (if_neg fun k => h (range.2 (.inr (.inr (.inr (.inl k))))))
  have agree : f.refusal (f.touched s) = refusal := by
    unfold LoadFields.refusal
    by_cases h : f.outOfRange = true
    · exact (if_pos h).trans (if_pos (range.1 h)).symm
    refine (if_neg h).trans (Eq.symm ((if_neg fun k => h (range.2 k)).trans (Eq.symm ?_)))
    have hk := kindKnown h
    have dept : f.kind = some .department ∧ (f.badge.isSome = true ∨ f.department.isSome = true)
        ↔ kind = 1 ∧ (optional badge ≠ none ∨ optional dept ≠ none) := by
      rw [hf]
      simp only [accountKindOf_department_iff, Option.isSome_iff_ne_none]
    refine if_congr dept rfl (if_congr (by rw [hf]) rfl (if_congr (by rw [badDepartment_touched_iff, hf]) rfl
      (if_congr (by rw [badgeTaken_touched_iff, hf]) rfl (if_congr ?_ rfl (if_congr ?_ rfl rfl)))))
    · rw [jobHolds_touched_iff f hk, hf]
    · rw [userHolds_touched_iff f hs hk, hf]
  cases hcode : refusal with
  | some c =>
    have rule := loadAccountRule_of_refusal (agree.trans hcode)
    rw [← hf]
    obtain ⟨t, hnext, hanswers, hframe⟩ := request_answers (kind := 0x20) (P := fun t => t =
      { linked s t with accounts := (touchOpt (touch s n) (optional dept)).accounts }) hr (by rfl) hp rule
      ((frame_loadFields_touched s f).same .response (by decide)) (by
        rw [← show f.touched s = touchOpt (touch s n) (optional dept) by rw [hf]; rfl]
        exact (frame_loadFields_touched s f).answered)
    refine ⟨t, hnext, fun code h => ?_, nofun⟩
    cases h
    exact ⟨hanswers, hframe⟩
  | none =>
    have known : ¬ f.outOfRange = true := fun h => by
      rw [show refusal = some .badField from if_pos (range.1 h)] at hcode
      cases hcode
    have rule := loadAccountRule_of_none (agree.trans hcode) (stateKnown known) (kindKnown known)
    have visits : (f.loaded s (if state = 1 then .active else .suspended) kindOf).visits = s.visits :=
      (frame_loaded f _ _).same .visits (by decide)
    have canonical := canonical_loaded f hs (if state = 1 then .active else .suspended) kindOf
    have suspends := write_eq f (s := s) (if state = 1 then .active else .suspended) kindOf
    have side := write_loaded f (s := s) (if state = 1 then .active else .suspended) kindOf
    have whole := frame_loadAccountRule s f
    rw [rule] at whole
    have number : f.number = n := by rw [hf]
    have department : f.department = optional dept := by rw [hf]
    rw [← hf]
    refine ⟨_, request_taken hr rfl hp, nofun, fun _ => ?_⟩
    rw [rule]
    refine ⟨answers_answered (whole.same .response (by decide)), ?_, fun b hb => ?_, fun b => ?_, fun h => ?_,
      fun u hstate hu => ?_, whole.answered⟩
    · rw [account_answered, side.account _ (by decide), account_loaded, number, if_pos rfl, record_touched, hf]
    · rw [account_answered, side.account _ (by decide), account_loaded, number, if_neg hb, account_touched, number, department]
      simp only [hb, false_or]
    · rw [badgeHolder_answered, side.badgeHolder _ (by decide), badgeHolder_loaded, number, hf]
    · have plain : f.write (f.touched s) (if state = 1 then .active else .suspended) kindOf
          = f.loaded s (if state = 1 then .active else .suspended) kindOf := by
        rw [suspends]
        obtain h | h := h
        · rw [if_pos h, if_neg nofun]
        · rw [number, endVisitOf_of_none ((visitOf_congr visits n).trans h), ite_self]
      rw [plain]
      exact (frame_loaded f _ _).answered
    · have ended : f.write (f.touched s) (if state = 1 then .active else .suspended) kindOf
          = endVisitOf (f.loaded s (if state = 1 then .active else .suspended) kindOf) n .suspended := by
        rw [suspends, number, hstate]
        rfl
      obtain ⟨hclosed, hshown⟩ := endVisitOf_of_some canonical ((visitOf_congr visits n).trans hu) .suspended
      rw [ended, visit_answered, terminal_answered]
      refine ⟨(hclosed u).trans (if_pos rfl), fun x hx => ?_, hshown⟩
      rw [visit_answered, hclosed, if_neg hx, (frame_loaded f _ _).visit _ (by decide)]

end Sys2Proof.Machine
end

