-- ==== Sys2Proof/Proofs/HeldJobs.lean ====
section
/-! PROOFS. Holding, cancelling, expiring and removing jobs, and the requests a job's state refuses (R28 to R37). -/

namespace Sys2Proof.Machine

/-! ## The lowest number with a property -/

theorem firstFrom_some_iff {p : Nat → Bool} {start n i : Nat} :
    firstFrom p start n = some i ↔ start ≤ i ∧ i < start + n ∧ p i = true ∧ ∀ k, start ≤ k → k < i → p k = false := by
  induction n generalizing start with
  | zero => simp [firstFrom]; omega
  | succ n ih =>
    unfold firstFrom
    split
    · rename_i hp
      constructor
      · rintro ⟨⟩
        exact ⟨Nat.le_refl _, by omega, hp, fun k h₁ h₂ => by omega⟩
      · rintro ⟨hle, -, -, hlow⟩
        obtain rfl | hlt := Nat.eq_or_lt_of_le hle
        · rfl
        · rw [hlow start (Nat.le_refl _) hlt] at hp
          cases hp
    · rename_i hp
      rw [ih]
      constructor
      · rintro ⟨hle, hlt, hi, hlow⟩
        refine ⟨by omega, by omega, hi, fun k h₁ h₂ => ?_⟩
        obtain rfl | hk := Nat.eq_or_lt_of_le h₁
        · simpa using hp
        · exact hlow k hk h₂
      · rintro ⟨hle, hlt, hi, hlow⟩
        obtain rfl | hk := Nat.eq_or_lt_of_le hle
        · exact absurd hi hp
        · exact ⟨hk, by omega, hi, fun k h₁ h₂ => hlow k (by omega) h₂⟩

theorem firstFrom_none_iff {p : Nat → Bool} {start n : Nat} :
    firstFrom p start n = none ↔ ∀ k, start ≤ k → k < start + n → p k = false := by
  induction n generalizing start with
  | zero => simp [firstFrom]; omega
  | succ n ih =>
    unfold firstFrom
    split
    · rename_i hp
      simp only [reduceCtorEq, false_iff]
      intro h
      rw [h start (Nat.le_refl _) (by omega)] at hp
      cases hp
    · rename_i hp
      rw [ih]
      constructor
      · intro h k h₁ h₂
        obtain rfl | hk := Nat.eq_or_lt_of_le h₁
        · simpa using hp
        · exact h k hk (by omega)
      · exact fun h k h₁ h₂ => h k (by omega) (by omega)

theorem freeSlot_some_iff {s : State} {i : Nat} :
    freeSlot s = some i ↔ i < 2048 ∧ (job s i).state = .free ∧ ∀ k < i, (job s k).state ≠ .free := by
  simp [freeSlot, firstFrom_some_iff]

theorem freeSlot_none_iff {s : State} : freeSlot s = none ↔ ∀ i < 2048, (job s i).state ≠ .free := by
  simp [freeSlot, firstFrom_none_iff]

theorem deadline_eq_min (now d : Nat) : deadline now d = min 4294967295 (now + d) := by
  show (if 4294967295 < now + d then 4294967295 else now + d) = _
  split <;> omega

/-! ## Hold Job -/

theorem exec_holdJob (len owner : BitVec 16) (pool : Opt 16) (sm sc copies : BitVec 16) (size duplex : Byte)
    (ck cc cm cy : BitVec 16) (s : State) :
    exec (.holdJob len owner pool sm sc copies size duplex ck cc cm cy) s =
      request 0x30 (len == 21) (presenceOk pool)
        (holdJobRule
          { owner := owner.toNat, pool := optional pool, sidesMono := sm.toNat, sidesColour := sc.toNat
            copies := copies.toNat, size := sizeOf size, duplex := flag duplex, covK := ck.toNat, covC := cc.toNat
            covM := cm.toNat, covY := cy.toNat }) s := rfl

/-- The size of a size code in its set. -/
def sizeNamed (b : Byte) : Size := if b = 0 then .a4 else if b = 1 then .letter else if b = 2 then .legal else .a3

theorem sizeOf_eq (b : Byte) : sizeOf b = if b.toNat ≤ 3 then some (sizeNamed b) else none := by
  have code : b.toNat ≤ 3 ↔ b = 0 ∨ b = 1 ∨ b = 2 ∨ b = 3 := by
    simp only [← BitVec.toNat_inj]
    show _ ↔ b.toNat = 0 ∨ b.toNat = 1 ∨ b.toNat = 2 ∨ b.toNat = 3
    omega
  unfold sizeOf sizeNamed
  split_ifs <;> simp_all

theorem badPool_iff (f : HoldFields) : f.badPool = true ↔ ∃ q, f.pool = some q ∧ 63 < q := by
  unfold HoldFields.badPool
  cases f.pool <;> simp

/-- The owner's touch moves nothing Hold Job reads. -/
theorem record_touch (f : HoldFields) (s : State) (size : Size) :
    f.record (touch s f.owner) size = f.record s size := by
  have seconds : (touch s f.owner).seconds = s.seconds := (frame_touch s f.owner).same .seconds (by decide)
  simp only [HoldFields.record, seconds, (onlyAccounts_touch s f.owner).tenantRec, (account_touch_keeps s f.owner f.owner).2.2.1]

section
variable {f : HoldFields} {s : State}

theorem holdJobRule_of_badField (h : (∃ q, f.pool = some q ∧ 63 < q) ∨ f.size = none) :
    holdJobRule f s = refuse s .badField := by
  unfold holdJobRule
  split
  · rfl
  · rename_i size hsize
    exact if_pos ((badPool_iff f).2 (h.resolve_right (by rw [hsize]; nofun)))

variable {size : Size} (hsize : f.size = some size) (hpool : f.badPool = false)
include hsize hpool

theorem holdJobRule_of_noOwner (h : 4095 < f.owner ∨ (account s f.owner).state = .free) :
    holdJobRule f s = refuse s .noSuch := by
  simp [holdJobRule, hsize, hpool, h]

variable (howner : ¬ (4095 < f.owner ∨ (account s f.owner).state = .free))
include howner

/-- The checks of R30 that run with the owner touched. -/
theorem holdJobRule_of_owner :
    holdJobRule f s =
      let t := touch s f.owner
      if (account s f.owner).kind = .department ∨ (f.sidesMono = 0 ∧ f.sidesColour = 0) ∨ f.copies = 0 then
        refuse t .badField
      else
        (freeSlot t).elim (refuse t .tableFull) fun i =>
          { state := putJob t i (f.record t size), code := .ok, body := num 2 (handleOf t i) } := by
  unfold holdJobRule
  rw [hsize]
  dsimp only
  rw [hpool, if_neg Bool.false_ne_true, if_neg howner, (account_touch_keeps s f.owner f.owner).2.1]
  cases freeSlot (touch s f.owner) <;> split_ifs <;> simp_all

theorem holdJobRule_of_badRequest
    (h : (account s f.owner).kind = .department ∨ (f.sidesMono = 0 ∧ f.sidesColour = 0) ∨ f.copies = 0) :
    holdJobRule f s = refuse (touch s f.owner) .badField := by
  rw [holdJobRule_of_owner hsize hpool howner]
  exact if_pos h

variable (hgood : ¬ ((account s f.owner).kind = .department ∨ (f.sidesMono = 0 ∧ f.sidesColour = 0) ∨ f.copies = 0))
include hgood

theorem holdJobRule_of_full (h : ∀ i < 2048, (job s i).state ≠ .free) :
    holdJobRule f s = refuse (touch s f.owner) .tableFull := by
  have full : freeSlot (touch s f.owner) = none := freeSlot_none_iff.2 fun i hi => by
    rw [(onlyAccounts_touch s f.owner).job]
    exact h i hi
  rw [holdJobRule_of_owner hsize hpool howner]
  dsimp only
  rw [if_neg hgood, full, Option.elim_none]

theorem holdJobRule_of_slot {i : Nat} (hi : i < 2048) (hfree : (job s i).state = .free)
    (hlow : ∀ k < i, (job s k).state ≠ .free) :
    holdJobRule f s =
      { state := putJob (touch s f.owner) i (f.record s size), code := .ok
        body := num 2 (handleOf s i) } := by
  have free : freeSlot (touch s f.owner) = some i := freeSlot_some_iff.2
    ⟨hi, by rwa [(onlyAccounts_touch s f.owner).job], fun k hk => by rw [(onlyAccounts_touch s f.owner).job]; exact hlow k hk⟩
  rw [holdJobRule_of_owner hsize hpool howner]
  dsimp only
  rw [if_neg hgood, free, Option.elim_some, (frame_touch s f.owner).handleOf i (by decide), record_touch]

end

theorem toNat_eq_zero_iff (v : BitVec 16) : v.toNat = 0 ↔ v = 0 := BitVec.toNat_inj (y := 0#16)

/-- Settles O23: the checks of R30 in their order, and the record written at the lowest FREE slot. -/
theorem holdJob : Obligations.HoldJob := by
  unfold Obligations.HoldJob
  constructor
  · intro s owner pool sm sc copies sizeCode duplex ck cc cm cy i hr hp hpool hsize hle hfree hkind hsides hcopies hi hstate hlow
    rw [exec_holdJob]
    obtain ⟨f, hf⟩ : ∃ f : HoldFields, f =
        { owner := owner.toNat, pool := optional pool, sidesMono := sm.toNat, sidesColour := sc.toNat
          copies := copies.toNat, size := sizeOf sizeCode, duplex := flag duplex, covK := ck.toNat, covC := cc.toNat
          covM := cm.toNat, covY := cy.toNat } := ⟨_, rfl⟩
    have size : f.size = some (sizeNamed sizeCode) := by
      rw [hf]
      exact (sizeOf_eq sizeCode).trans (if_pos hsize)
    have goodPool : f.badPool = false := by
      rw [← Bool.not_eq_true, badPool_iff, hf]
      rintro ⟨q, hq, habove⟩
      have := hpool q hq
      omega
    have goodOwner : ¬ (4095 < f.owner ∨ (account s f.owner).state = .free) := by
      rw [hf]
      rintro (h | h)
      · exact absurd hle (Nat.not_le.2 h)
      · exact hfree h
    have good : ¬ ((account s f.owner).kind = .department ∨ (f.sidesMono = 0 ∧ f.sidesColour = 0) ∨ f.copies = 0) := by
      rw [hf]
      simp only [toNat_eq_zero_iff]
      rintro (h | ⟨h₁, h₂⟩ | h)
      · rw [hkind] at h; cases h
      · exact hsides.elim (fun k => k h₁) fun k => k h₂
      · exact hcopies h
    have rule := holdJobRule_of_slot size goodPool goodOwner good hi hstate hlow
    rw [← hf]
    have hown : f.owner = owner.toNat := by rw [hf]
    have touched := frame_touch s f.owner
    have written := touched.comp (w := Field.books)
      (frame_putJob (touch s f.owner) i (f.record s (sizeNamed sizeCode))) (by decide)
    have free : (job (touch s f.owner) i).state = .free := by rwa [(onlyAccounts_touch s f.owner).job]
    have finished : (putJob (touch s f.owner) i (f.record s (sizeNamed sizeCode))).finished = s.finished := by
      rw [finished_putJob_of_same (by rw [free]; rfl), touch_frame]
    refine request_answers hr rfl hp rule (written.same .response (by decide)) ⟨?_, finished, ?_, fun k hk => ?_⟩
    · have accounts : (putJob (touch s f.owner) i (f.record s (sizeNamed sizeCode))).accounts = (touch s owner.toNat).accounts := by rw [hown]; rfl
      rw [← accounts]
      exact written.answered
    · rw [slot_answered, slot_putJob, if_pos rfl, touched.slot i (by decide), hf]
      simp only [HoldFields.record, clamp_zero, deadline_eq_min]
      rfl
    · rw [slot_answered, slot_putJob, if_neg hk, touched.slot k (by decide)]
  · intro s owner pool sm sc copies sizeCode duplex ck cc cm cy hr hp o refusal code accounts hcode hfull
    rw [exec_holdJob]
    obtain ⟨f, hf⟩ : ∃ f : HoldFields, f =
        { owner := owner.toNat, pool := optional pool, sidesMono := sm.toNat, sidesColour := sc.toNat
          copies := copies.toNat, size := sizeOf sizeCode, duplex := flag duplex, covK := ck.toNat, covC := cc.toNat
          covM := cm.toNat, covY := cy.toNat } := ⟨_, rfl⟩
    have touched : Frame (Field.link ++ [.accounts]) s (answered 0x30 (refuse (touch s o) code)) :=
      (frame_touch s o).answered
    have owner : f.owner = o := by rw [hf]
    rw [← hf]
    by_cases bad : (∃ q, optional pool = some q ∧ 63 < q) ∨ 3 < sizeCode.toNat
    · cases (if_pos bad).symm.trans hcode
      refine request_answers_refusal hr rfl hp (holdJobRule_of_badField ?_)
      rw [hf]
      exact bad.imp id fun h => (sizeOf_eq sizeCode).trans (if_neg (Nat.not_le.2 h))
    have size : f.size = some (sizeNamed sizeCode) := by
      rw [hf]
      exact (sizeOf_eq sizeCode).trans (if_pos (Nat.not_lt.1 fun h => bad (.inr h)))
    have goodPool : f.badPool = false := by
      rw [← Bool.not_eq_true, badPool_iff, hf]
      exact fun h => bad (.inl h)
    replace hcode := (if_neg bad).symm.trans hcode
    by_cases none : 4095 < o ∨ (account s o).state = .free
    · cases (if_pos none).symm.trans hcode
      refine request_answers_refusal hr rfl hp (holdJobRule_of_noOwner size goodPool ?_)
      rwa [owner]
    replace hcode := (if_neg none).symm.trans hcode
    rw [← owner] at none
    by_cases wrong : (account s o).kind = .department ∨ (sm = 0 ∧ sc = 0) ∨ copies = 0
    · cases (if_pos wrong).symm.trans hcode
      have rule := holdJobRule_of_badRequest size goodPool none (by rw [hf]; simpa only [toNat_eq_zero_iff] using wrong)
      rw [owner] at rule
      exact request_answers hr rfl hp rule (by rw [refuse, touch_frame]) touched
    · cases (if_neg wrong).symm.trans hcode
      have rule := holdJobRule_of_full size goodPool none (by rw [hf]; simpa only [toNat_eq_zero_iff] using wrong)
        (hfull rfl)
      rw [owner] at rule
      exact request_answers hr rfl hp rule (by rw [refuse, touch_frame]) touched

/-! ## Handles that do not resolve, and states a request does not accept -/

theorem resolve_none_iff (s : State) (h : Nat) :
    resolve s h = none ↔
      32767 < h ∨ h / 2048 ≠ (slot s (h % 2048)).generation ∨ (job s (h % 2048)).state = .free := by
  rw [← not_iff_not, ← ne_eq, Option.ne_none_iff_exists']
  simp only [resolve_iff]
  constructor
  · rintro ⟨i, hle, rfl, hgen, hstate⟩
    exact fun k => k.elim (fun h => by omega) fun k => k.elim (fun k => k hgen) hstate
  · intro k
    refine ⟨_, ?_, rfl, ?_, ?_⟩
    · exact Nat.not_lt.1 fun h => k (.inl h)
    · exact Decidable.not_not.1 fun h => k (.inr (.inl h))
    · exact fun h => k (.inr (.inr h))

section
variable {s : State} {h : Nat}

theorem readJobRule_of_stale (hno : resolve s h = none) : readJobRule h s = refuse s .noSuch := by
  rw [readJobRule, hno]

theorem cancelJobRule_of_stale (hno : resolve s h = none) : cancelJobRule h s = refuse s .noSuch := by
  rw [cancelJobRule, hno]

theorem removeJobRule_of_stale (hno : resolve s h = none) : removeJobRule h s = refuse s .noSuch := by
  rw [removeJobRule, hno]

theorem reportProgressRule_of_stale (n : Nat) (hno : resolve s h = none) : reportProgressRule h n s = refuse s .noSuch := by
  rw [reportProgressRule, hno]

theorem jobEndRule_of_stale (effect : State → Nat → State) (hno : resolve s h = none) :
    jobEndRule effect h s = refuse s .noSuch := by
  rw [jobEndRule, hno]

variable {i : Nat} (hres : resolve s h = some i)
include hres

theorem cancelJobRule_of_ended (hst : (job s i).state = .printing ∨ (job s i).state.finished = true) :
    cancelJobRule h s = refuse s .wrongState := by
  rw [cancelJobRule, hres]
  dsimp only
  cases hstate : (job s i).state <;> simp_all [JobState.finished]

theorem cancelJobRule_of_held (hst : (job s i).state = .held) :
    cancelJobRule h s = { state := cancelHeld s i, code := .ok } := by
  rw [cancelJobRule, hres]
  simp [hst]

theorem cancelJobRule_of_routed (hst : (job s i).state = .released ∨ (job s i).state = .interrupted) :
    cancelJobRule h s = { state := cancelRouted s i, code := .ok } := by
  rw [cancelJobRule, hres]
  obtain hst | hst := hst <;> simp [hst]

theorem removeJobRule_of_unfinished (hst : (job s i).state.finished = false) :
    removeJobRule h s = refuse s .wrongState := by
  rw [removeJobRule, hres]
  simp [hst]

theorem removeJobRule_of_finished (hst : (job s i).state.finished = true) :
    removeJobRule h s =
      { state := putSlot s i { generation := ((slot s i).generation + 1) % 16, job := {} }, code := .ok } := by
  rw [removeJobRule, hres]
  simp [hst]

theorem reportProgressRule_of_unreportable (n : Nat) (hst : reportable (job s i) = false) :
    reportProgressRule h n s = refuse s .wrongState := by
  rw [reportProgressRule, hres]
  simp [hst]

theorem reportProgressRule_of_reportable (n : Nat) (hst : reportable (job s i) = true) :
    reportProgressRule h n s =
      { state := reportCopies s i (min n (job s i).copies - (job s i).copiesDone), code := .ok } := by
  rw [reportProgressRule, hres]
  simp [hst]

theorem jobEndRule_of_unreportable (effect : State → Nat → State) (hst : reportable (job s i) = false) :
    jobEndRule effect h s = refuse s .wrongState := by
  rw [jobEndRule, hres]
  simp [hst]

theorem jobEndRule_of_reportable (effect : State → Nat → State) (hst : reportable (job s i) = true) :
    jobEndRule effect h s = { state := effect s i, code := .ok } := by
  rw [jobEndRule, hres]
  simp [hst]

end

theorem reportable_iff (j : Job) : reportable j = true ↔ j.state = .printing ∨ j.state = .interrupted := by
  simp [reportable]

theorem exec_reportJobEndComplete_of_known {outcome : Byte} (h : outcome = 1 ∨ outcome = 3 ∨ outcome = 5)
    (len handle : BitVec 16) (s : State) :
    exec (.reportJobEndComplete len handle outcome) s =
      request 0x38 (len == 3) true (jobEndRule completeJob handle.toNat) s := by
  have known : endOutcomeKnown outcome = true := by
    obtain rfl | rfl | rfl := h <;> rfl
  show request 0x38 (len == 3) true
    (fun s => if !endOutcomeKnown outcome then refuse s .badField else jobEndRule completeJob handle.toNat s) s = _
  rw [known]
  rfl

/-- Settles O24: the handle is resolved before anything else, and each rule looks at the job's state next. -/
theorem jobRequestsRefused : Obligations.JobRequestsRefused := by
  unfold Obligations.JobRequestsRefused
  refine ⟨resolve_iff, fun s h n outcome hr ho hno => ?_, fun s h n i hr hres => ⟨fun hst => ?_, fun hst => ?_, ?_⟩⟩
  · have hno := (resolve_none_iff s h.toNat).2 hno
    rw [exec_reportJobEndComplete_of_known ho]
    exact ⟨request_answers_refusal hr rfl rfl (readJobRule_of_stale hno),
      request_answers_refusal hr rfl rfl (cancelJobRule_of_stale hno),
      request_answers_refusal hr rfl rfl (removeJobRule_of_stale hno),
      request_answers_refusal hr rfl rfl (reportProgressRule_of_stale n.toNat hno),
      request_answers_refusal hr rfl rfl (jobEndRule_of_stale _ hno),
      request_answers_refusal hr rfl rfl (jobEndRule_of_stale cancelAtPrinter hno),
      request_answers_refusal hr rfl rfl (jobEndRule_of_stale failDelivery hno)⟩
  · exact request_answers_refusal hr rfl rfl (cancelJobRule_of_ended hres hst)
  · exact request_answers_refusal hr rfl rfl (removeJobRule_of_unfinished hres hst)
  · intro hprinting hinterrupted
    have hst : reportable (job s i) = false := by
      rw [← Bool.not_eq_true, reportable_iff]
      exact fun k => k.elim hprinting hinterrupted
    rw [exec_reportJobEndComplete_of_known (.inl rfl)]
    exact ⟨request_answers_refusal hr rfl rfl (reportProgressRule_of_unreportable hres n.toNat hst),
      request_answers_refusal hr rfl rfl (jobEndRule_of_unreportable hres _ hst),
      request_answers_refusal hr rfl rfl (jobEndRule_of_unreportable hres cancelAtPrinter hst),
      request_answers_refusal hr rfl rfl (jobEndRule_of_unreportable hres failDelivery hst)⟩

/-! ## HELD jobs that end, and finished jobs removed -/

theorem exec_holdExpiry (i : Fin 2048) (s : State) : exec (.holdExpiry i) s = event (fun s => expireHeld s i.val) s := rfl

theorem finished_putJob_ended {s : State} {i : Nat} {j : Job} (hj : j.state.finished = true)
    (hi : (job s i).state.finished = false) : (putJob s i j).finished = s.finished + 1 := by
  show s.finished + oneIf j.state.finished - oneIf (job s i).state.finished = _
  rw [hj, hi]
  rfl

/-- Settles O25: each is one write of the job's slot. -/
theorem heldJobsEndAndAreRemoved : Obligations.HeldJobsEndAndAreRemoved := by
  unfold Obligations.HeldJobsEndAndAreRemoved
  intro s h i hr hres
  refine ⟨fun hst => ⟨?_, fun hle => ?_, fun hlt => ?_⟩, fun hst => ?_, fun hst => ?_⟩
  · refine request_answers hr rfl rfl (cancelJobRule_of_held hres hst) rfl
      ⟨(frame_putJob s i.val _).answered, ?_, ?_, fun k hk => ?_⟩
    · exact finished_putJob_ended rfl (by rw [hst]; rfl)
    · exact (slot_putJob _ _ _ _).trans (if_pos rfl)
    · exact (slot_putJob _ _ _ _).trans (if_neg hk)
  · rw [exec_holdExpiry]
    refine event_settles hr (if_pos ⟨hst, hle⟩) ⟨(frame_putJob s i.val _).settled, ?_, ?_, fun k hk => ?_⟩
    · exact finished_putJob_ended rfl (by rw [hst]; rfl)
    · exact (slot_putJob _ _ _ _).trans (if_pos rfl)
    · exact (slot_putJob _ _ _ _).trans (if_neg hk)
  · rw [exec_holdExpiry]
    exact event_idle hr (if_neg fun k => absurd k.2 (Nat.not_le.2 hlt))
  · rw [exec_holdExpiry]
    exact event_idle hr (if_neg fun k => hst k.1)
  · refine request_answers hr rfl rfl (removeJobRule_of_finished hres hst) rfl
      ⟨(frame_putSlot s i.val _).answered, ?_, ?_, fun k hk => ?_⟩
    · show s.finished + oneIf false - oneIf (job s i.val).state.finished = _
      rw [hst]
      rfl
    · exact (slot_putSlot _ _ _ _).trans (if_pos rfl)
    · exact (slot_putSlot _ _ _ _).trans (if_neg hk)

end Sys2Proof.Machine
end

