-- ==== Sys2Proof/Proofs/PrinterJobs.lean ====
section
/-! PROOFS. The jobs of a printer that goes down or comes up (R54, R89, R110, R111). -/

namespace Sys2Proof.Machine

/-! ## The slots of a printer -/

theorem mem_slotsOn_iff {s : State} (hs : Canonical s = true) {st : JobState} {p i : Nat} :
    i ∈ slotsOn s st p ↔ (job s i).state = st ∧ (job s i).printer = some p := by
  simp only [slotsOn, List.mem_map, List.mem_filter, Bool.and_eq_true, beq_iff_eq]
  constructor
  · rintro ⟨⟨i, v⟩, ⟨hmem, hst, hprinter⟩, rfl⟩
    obtain ⟨rfl, -⟩ := (mem_jobs_iff hs i v).1 hmem
    exact ⟨hst, hprinter⟩
  · rintro ⟨hst, hprinter⟩
    refine ⟨(i, slot s i), ⟨(mem_jobs_iff hs i _).2 ⟨rfl, fun h => ?_⟩, hst, hprinter⟩, rfl⟩
    rw [job, h] at hprinter
    cases hprinter

theorem slotsOn_nodup {s : State} (hs : Canonical s = true) (st : JobState) (p : Nat) : (slotsOn s st p).Nodup :=
  (Table.nodup_keys _ (canonical_jobs hs)).sublist (List.filter_sublist.map _)

/-! ## One write for each of several jobs -/

theorem generation_foldl {op : State → Nat → State} {g : State → Job → Job}
    (hop : ∀ s i, op s i = putJob s i (g s (job s i))) (l : List Nat) (s : State) (x : Nat) :
    (slot (l.foldl op s) x).generation = (slot s x).generation := by
  induction l generalizing s with
  | nil => rfl
  | cons i l ih => rw [List.foldl_cons, ih, hop, generation_putJob]

section
variable {op : State → Nat → State} {g : State → Job → Job} (hop : ∀ s i, op s i = putJob s i (g s (job s i)))
  (hg : ∀ s i j, g (putJob s i j) = g s)
include hop hg

theorem rewrite_foldl (l : List Nat) (s : State) : g (l.foldl op s) = g s := by
  induction l generalizing s with
  | nil => rfl
  | cons i l ih => rw [List.foldl_cons, ih, hop, hg]

theorem job_foldl_of_nodup {l : List Nat} (hl : l.Nodup) (s : State) (x : Nat) :
    job (l.foldl op s) x = if x ∈ l then g s (job s x) else job s x := by
  induction l generalizing s with
  | nil => rfl
  | cons i l ih =>
    obtain ⟨hi, hl⟩ := List.nodup_cons.1 hl
    rw [List.foldl_cons, ih hl, hop, hg, job_putJob]
    by_cases hx : x = i
    · subst hx
      simp [hi]
    · simp [hx]

theorem finished_foldl {l : List Nat} (hl : l.Nodup) {s : State}
    (h : ∀ i ∈ l, (g s (job s i)).state.finished = (job s i).state.finished) : (l.foldl op s).finished = s.finished := by
  induction l generalizing s with
  | nil => rfl
  | cons i l ih =>
    obtain ⟨hi, hl⟩ := List.nodup_cons.1 hl
    have hop' := hop s i
    rw [List.foldl_cons, ih hl (fun k hk => ?_), hop', finished_putJob_of_same (h i List.mem_cons_self)]
    have hne : k ≠ i := fun e => hi (e ▸ hk)
    rw [hop', hg, job_putJob, if_neg hne]
    exact h k (List.mem_cons_of_mem _ hk)

end

/-- The record of a job interrupted now (R110). -/
def interrupted (s : State) (j : Job) : Job := { j with state := .interrupted, resumeDeadline := some (resumeDeadlineOf s j) }

/-- The record of a job returned to the Dispatch List (R111). -/
def resumed (j : Job) : Job := { j with state := .released, resumeDeadline := none }

theorem interruptJob_eq (s : State) (i : Nat) : interruptJob s i = putJob s i (interrupted s (job s i)) := rfl

theorem interrupted_putJob (s : State) (i : Nat) (j : Job) : interrupted (putJob s i j) = interrupted s := rfl

theorem resumeJob_eq (s : State) (i : Nat) : resumeJob s i = putJob s i (resumed (job s i)) := rfl

/-- The slots of the INTERRUPTED jobs of a printer in the order in which they return (R54; log 14). -/
def resumeGroup (s : State) (p : Nat) : List Nat := sortByKey (fun i => (job s i).releaseSeq) (slotsOn s .interrupted p)

section
variable {s : State} (hs : Canonical s = true) (p : Nat)
include hs

theorem mem_resumeGroup_iff {i : Nat} :
    i ∈ resumeGroup s p ↔ (job s i).state = .interrupted ∧ (job s i).printer = some p := by
  rw [resumeGroup, (sortByKey_perm _ _).mem_iff, mem_slotsOn_iff hs]

theorem resumeGroup_nodup : (resumeGroup s p).Nodup :=
  (sortByKey_perm _ _).nodup_iff.2 (slotsOn_nodup hs _ _)

theorem job_interruptJobs (i : Nat) :
    job (interruptJobs s p) i =
      if (job s i).state = .printing ∧ (job s i).printer = some p then interrupted s (job s i) else job s i := by
  rw [interruptJobs, job_foldl_of_nodup interruptJob_eq interrupted_putJob (slotsOn_nodup hs _ _)]
  simp only [mem_slotsOn_iff hs]

theorem job_resumeJobs (i : Nat) :
    job (resumeJobs s p) i =
      if (job s i).state = .interrupted ∧ (job s i).printer = some p then resumed (job s i) else job s i := by
  have returned := job_foldl_of_nodup resumeJob_eq (g := fun _ => resumed) (fun _ _ _ => rfl) (resumeGroup_nodup hs p) s i
  simp only [mem_resumeGroup_iff hs] at returned
  exact returned

theorem finished_interruptJobs : (interruptJobs s p).finished = s.finished := by
  refine finished_foldl interruptJob_eq interrupted_putJob (slotsOn_nodup hs _ _) fun i hi => ?_
  rw [((mem_slotsOn_iff hs).1 hi).1]
  rfl

theorem finished_resumeJobs : (resumeJobs s p).finished = s.finished := by
  refine finished_foldl resumeJob_eq (g := fun _ => resumed) (fun _ _ _ => rfl) (resumeGroup_nodup hs p) fun i hi => ?_
  rw [((mem_resumeGroup_iff hs p).1 hi).1]
  rfl

end

theorem dispatch_interruptJobs (s : State) (p : Nat) : (interruptJobs s p).dispatch = s.dispatch := by
  unfold interruptJobs
  induction slotsOn s .printing p generalizing s with
  | nil => rfl
  | cons i l ih => exact ih (interruptJob s i)

theorem dispatch_resumeJobs (s : State) (p : Nat) :
    (resumeJobs s p).dispatch = (resumeGroup s p).map (handleOf s) ++ s.dispatch := rfl

theorem generation_interruptJobs (s : State) (p x : Nat) :
    (slot (interruptJobs s p) x).generation = (slot s x).generation :=
  generation_foldl interruptJob_eq _ _ _

theorem generation_resumeJobs (s : State) (p x : Nat) :
    (slot (resumeJobs s p) x).generation = (slot s x).generation :=
  generation_foldl (g := fun _ => resumed) resumeJob_eq (resumeGroup s p) s x

/-! ## What a printer hands to its jobs -/

theorem not_usable_of_down {r : Printer} (h : r.down = true) : r.usable = false := by
  unfold Printer.down at h
  unfold Printer.usable Printer.up
  cases hd : r.derived with
  | none => rfl
  | some d => cases d <;> simp_all

theorem handToJobs_of_down {old new : Printer} (s : State) (p : Nat) (hup : old.up = true) (hdown : new.down = true) :
    handToJobs s p old new = interruptJobs s p := by
  simp [handToJobs, hup, hdown, not_usable_of_down hdown]

theorem handToJobs_of_up {old new : Printer} (s : State) (p : Nat) (hold : old.usable = false) (hnew : new.usable = true) :
    handToJobs s p old new = resumeJobs s p := by
  have hdown : new.down = false := by
    rw [← Bool.not_eq_true]
    intro h
    rw [not_usable_of_down h] at hnew
    cases hnew
  simp [handToJobs, hold, hnew, hdown]

theorem handToJobs_of_still {old new : Printer} (s : State) (p : Nat) (hdown : ¬ (old.up = true ∧ new.down = true))
    (hup : ¬ (old.usable = false ∧ new.usable = true)) : handToJobs s p old new = s := by
  unfold handToJobs
  dsimp only
  rw [if_neg (by simpa using hup), if_neg (by simpa using hdown)]

/-- The jobs and the Dispatch List after an event on a printer are those its jobs were handed. -/
theorem printerEvent_handed (s : State) (p : Nat) (f : Printer → Printer) :
    Frame [.callouts] (handToJobs (putPrinter s p (f (printer s p))) p (printer s p) (f (printer s p))) (printerEvent s p f) :=
  frame_handChanges _ _ _ _

section
variable {s : State} (hs : Canonical s = true) (p : Nat) (f : Printer → Printer)

theorem printerEvent_of_still (hdown : ¬ ((printer s p).up = true ∧ (f (printer s p)).down = true))
    (hup : ¬ ((printer s p).usable = false ∧ (f (printer s p)).usable = true)) :
    Frame [.printers, .callouts] s (printerEvent s p f) := by
  have handed := printerEvent_handed s p f
  rw [handToJobs_of_still _ p hdown hup] at handed
  exact (frame_putPrinter s p _).comp handed (by decide)

include hs

theorem finished_handToJobs (old new : Printer) : (handToJobs s p old new).finished = s.finished := by
  by_cases hdown : old.up = true ∧ new.down = true
  · rw [handToJobs_of_down s p hdown.1 hdown.2, finished_interruptJobs hs]
  · by_cases hup : old.usable = false ∧ new.usable = true
    · rw [handToJobs_of_up s p hup.1 hup.2, finished_resumeJobs hs]
    · rw [handToJobs_of_still s p hdown hup]

/-- An event on a printer ends no job. -/
theorem finished_printerEvent : (printerEvent s p f).finished = s.finished :=
  ((printerEvent_handed s p f).same .finished (by decide)).trans (finished_handToJobs (canonical_putPrinter hs p _) p _ _)

end

/-- Settles O34: the three things an event can hand to the jobs exclude each other. -/
theorem goingDownAndComingUp : Obligations.GoingDownAndComingUp := by
  unfold Obligations.GoingDownAndComingUp
  intro s p f hs old new t
  have canonical := canonical_putPrinter hs p new
  have handed : Frame [.callouts] (handToJobs (putPrinter s p new) p old new) t := printerEvent_handed s p f
  refine ⟨fun hup hdown => ⟨?_, fun i => ?_⟩, fun hold hnew => ⟨⟨resumeGroup s p, ?_, ?_, ?_, ?_⟩, fun i => ?_⟩,
    fun hdown hup => ?_⟩
  · rw [handToJobs_of_down _ p hup hdown] at handed
    exact (handed.same .dispatch (by decide)).trans (dispatch_interruptJobs _ p)
  · rw [handToJobs_of_down _ p hup hdown] at handed
    rw [handed.job i (by decide), job_interruptJobs canonical, job_putPrinter, interrupted, resumeDeadlineOf, deadline_eq_min]
    rfl
  · rw [handToJobs_of_up _ p hold hnew] at handed
    exact handed.same .dispatch (by decide)
  · exact resumeGroup_nodup hs p
  · exact fun i => mem_resumeGroup_iff hs p
  · exact sortByKey_sorted _ _
  · rw [handToJobs_of_up _ p hold hnew] at handed
    rw [handed.job i (by decide), job_resumeJobs canonical, job_putPrinter]
    rfl
  · have still := printerEvent_of_still p f hdown hup
    exact ⟨still.same .jobs (by decide), still.same .dispatch (by decide)⟩

end Sys2Proof.Machine
end

