-- ==== Sys2Proof/Proofs/ConditionChanges.lean ====
section
/-! PROOFS. What a change of a condition's presence leaves of the callout record, and what an event on a printer hands (R87,
R139 to R143). -/

namespace Sys2Proof.Machine

/-! ## The desk of a new record -/

theorem mem_groupDesks_iff (g : BitVec 8) (d : Nat) : d ∈ groupDesks g ↔ d < 8 ∧ g.getLsbD d = true := by
  simp [groupDesks]

theorem groupDesks_sorted (g : BitVec 8) : (groupDesks g).Pairwise (· < ·) :=
  List.pairwise_lt_range.sublist List.filter_sublist

theorem groupDesks_zero : groupDesks 0 = [] := by decide

theorem groupDesks_ne_nil {g : BitVec 8} (h : g ≠ 0) : groupDesks g ≠ [] := by
  intro hnil
  refine h (BitVec.eq_of_getLsbD_eq fun i hi => ?_)
  rw [show (0 : BitVec 8).getLsbD i = false from BitVec.getLsbD_zero, ← Bool.not_eq_true]
  intro hbit
  have hmem := (mem_groupDesks_iff g i).2 ⟨hi, hbit⟩
  rw [hnil] at hmem
  cases hmem

theorem routeDesk_of_empty (s : State) {pr : Printer} (h : pr.deskGroup = 0) : routeDesk s pr = 0 := by
  unfold routeDesk
  rw [h, groupDesks_zero]
  cases pr.routeMode <;> rfl

theorem routeDesk_of_fixed (s : State) {pr : Printer} (hmode : pr.routeMode = .fixed) (h : pr.deskGroup ≠ 0) :
    routeDesk s pr ∈ groupDesks pr.deskGroup ∧ ∀ x ∈ groupDesks pr.deskGroup, routeDesk s pr ≤ x := by
  have sorted := groupDesks_sorted pr.deskGroup
  unfold routeDesk
  rw [hmode]
  cases hl : groupDesks pr.deskGroup with
  | nil => exact absurd hl (groupDesks_ne_nil h)
  | cons d rest =>
    rw [hl, List.pairwise_cons] at sorted
    refine ⟨List.mem_cons_self, fun x hx => ?_⟩
    obtain rfl | hx := List.mem_cons.1 hx
    · exact Nat.le_refl _
    · exact Nat.le_of_lt (sorted.1 x hx)

theorem routeDesk_of_leastBusy (s : State) {pr : Printer} (hmode : pr.routeMode = .leastBusy) (h : pr.deskGroup ≠ 0) :
    routeDesk s pr ∈ groupDesks pr.deskGroup
    ∧ ∀ x ∈ groupDesks pr.deskGroup,
        (desk s (routeDesk s pr)).inService.length < (desk s x).inService.length
        ∨ (desk s (routeDesk s pr)).inService.length = (desk s x).inService.length ∧ routeDesk s pr ≤ x := by
  have sorted := groupDesks_sorted pr.deskGroup
  unfold routeDesk
  rw [hmode]
  cases hl : leastByKey (fun d => (desk s d).inService.length) (groupDesks pr.deskGroup) with
  | none => exact absurd ((leastByKey_none _ _).1 hl) (groupDesks_ne_nil h)
  | some d =>
    obtain ⟨before, after, hsplit, hbefore, hafter⟩ := leastByKey_some _ _ _ hl
    show d ∈ groupDesks pr.deskGroup ∧ _
    rw [hsplit] at sorted ⊢
    have later := (List.pairwise_cons.1 (List.pairwise_append.1 sorted).2.1).1
    refine ⟨by simp, fun x hx => ?_⟩
    obtain hx | hx := List.mem_append.1 hx
    · exact .inl (hbefore x hx)
    · obtain rfl | hx := List.mem_cons.1 hx
      · exact .inr ⟨rfl, Nat.le_refl _⟩
      · obtain hlt | heq := Nat.lt_or_eq_of_le (hafter x hx)
        · exact .inl hlt
        · exact .inr ⟨heq, Nat.le_of_lt (later x hx)⟩

theorem routeDesk_mem (s : State) {pr : Printer} (h : pr.deskGroup ≠ 0) : routeDesk s pr ∈ groupDesks pr.deskGroup := by
  cases hmode : pr.routeMode with
  | fixed => exact (routeDesk_of_fixed s hmode h).1
  | leastBusy => exact (routeDesk_of_leastBusy s hmode h).1

theorem routeDesk_lt (s : State) (pr : Printer) : routeDesk s pr < 8 := by
  by_cases h : pr.deskGroup = 0
  · rw [routeDesk_of_empty s h]
    decide
  · exact ((mem_groupDesks_iff _ _).1 (routeDesk_mem s h)).1

/-! ## One change of presence -/

/-- The record a condition raises for printer `p` (R140). -/
def raisedRecord (s : State) (p : Nat) (k : CondKind) : Callout :=
  { state := .pending, cls := (condEntry s k).cls, sense := (condEntry s k).sense, autoClose := (condEntry s k).autoClose
    desk := routeDesk s (printer s p), raisedAt := s.calendar.stamp, ackedAt := none, again := false }

/-- The record a change of presence leaves in the place of another (R139, R142, R143). -/
def recordAfter (raised : Callout) (present : Bool) : Option Callout → Option Callout
  | none => if present then some raised else none
  | some c =>
    if c.state = .pending ∧ present = false ∧ c.sense = .level then none
    else if c.state = .inService ∧ present = true ∧ c.sense = .edge then some { c with again := true }
    else some c

theorem callout_handChange (s : State) (p : Nat) (k : CondKind) (present : Bool) :
    callout (handChange s p k present) p k = recordAfter (raisedRecord s p k) present (callout s p k) := by
  unfold handChange
  cases h : callout s p k with
  | none =>
    cases present
    · exact h
    · exact (callout_putCallout _ _ _ _ _ _).trans (if_pos ⟨rfl, rfl⟩)
  | some c =>
    obtain ⟨state, cls, sense, autoClose, d, raised, acked, again⟩ := c
    cases state <;> cases present <;> cases sense <;> simp [recordAfter, callout_putCallout, h]

theorem routeDesk_congr {s t : State} {q r : Printer} (hgroup : q.deskGroup = r.deskGroup) (hmode : q.routeMode = r.routeMode)
    (hdesks : ∀ d, desk t d = desk s d) : routeDesk t q = routeDesk s r := by
  simp only [routeDesk, hgroup, hmode, hdesks]

/-- What a raised record is made of. -/
theorem raisedRecord_congr {s t : State} {w : List Field} (h : Frame w s t) {p : Nat}
    (hgroup : (printer t p).deskGroup = (printer s p).deskGroup) (hmode : (printer t p).routeMode = (printer s p).routeMode)
    (hw : ∀ f ∈ [Field.conditions, .calendar, .desks], f ∉ w) (k : CondKind) : raisedRecord t p k = raisedRecord s p k := by
  have calendar : t.calendar = s.calendar := h.same .calendar (hw _ (by decide))
  have route := routeDesk_congr hgroup hmode fun d => h.desk d (hw _ (by decide))
  rw [raisedRecord, raisedRecord, route, calendar, h.condEntry k (hw _ (by decide))]

/-! ## The changes of one event -/

/-- One kind of an event's changes. -/
def handKind (p : Nat) (before after : CondKind → Bool) (s : State) (k : CondKind) : State :=
  if before k = after k then s else handChange s p k (after k)

theorem handChanges_eq (s : State) (p : Nat) (before after : CondKind → Bool) :
    handChanges s p before after = CondKind.handing.foldl (handKind p before after) s := rfl

theorem frame_handKind (p : Nat) (before after : CondKind → Bool) (s : State) (k : CondKind) :
    Frame [.callouts] s (handKind p before after s k) :=
  Frame.ite (Frame.refl _ s) (frame_handChange s p k _)

theorem callout_handKind_ne (p : Nat) (before after : CondKind → Bool) (s : State) (k : CondKind) {x : Nat} {y : CondKind}
    (h : ¬ (x = p ∧ y = k)) : callout (handKind p before after s k) x y = callout s x y := by
  unfold handKind
  split
  · rfl
  · exact callout_handChange_ne s p k _ x y h

theorem callout_foldl_handKind (p : Nat) (before after : CondKind → Bool) {l : List CondKind} (hl : l.Nodup) (s : State)
    (y : CondKind) :
    callout (l.foldl (handKind p before after) s) p y =
      if y ∈ l ∧ before y ≠ after y then recordAfter (raisedRecord s p y) (after y) (callout s p y)
      else callout s p y := by
  induction l generalizing s with
  | nil => simp
  | cons k l ih =>
    obtain ⟨hk, hl⟩ := List.nodup_cons.1 hl
    have frame := frame_handKind p before after s k
    rw [List.foldl_cons, ih hl, raisedRecord_congr frame (by rw [frame.printer p (by decide)])
      (by rw [frame.printer p (by decide)]) (by decide)]
    by_cases hy : y = k
    · subst hy
      have self : callout (handKind p before after s y) p y
          = if before y = after y then callout s p y
            else recordAfter (raisedRecord s p y) (after y) (callout s p y) := by
        unfold handKind
        split
        · rfl
        · exact callout_handChange s p y _
      rw [if_neg fun h => hk h.1, self]
      by_cases he : before y = after y <;> simp [he]
    · rw [callout_handKind_ne p before after s k fun h => hy h.2]
      simp [hy]

theorem callout_foldl_handKind_ne (p : Nat) (before after : CondKind → Bool) (l : List CondKind) (s : State) {x : Nat}
    (hx : x ≠ p) (y : CondKind) : callout (l.foldl (handKind p before after) s) x y = callout s x y := by
  induction l generalizing s with
  | nil => rfl
  | cons k l ih => rw [List.foldl_cons, ih, callout_handKind_ne p before after s k fun h => hx h.1]

theorem handing_complete (k : CondKind) : k ∈ CondKind.handing := by cases k <;> decide

theorem handing_nodup : CondKind.handing.Nodup := by decide

section
variable (s : State) (p : Nat) (f : Printer → Printer)

/-- The state in which an event on a printer hands its condition changes. -/
theorem frame_handing :
    Frame [.jobs, .finished, .dispatch] (putPrinter s p (f (printer s p)))
      (handToJobs (putPrinter s p (f (printer s p))) p (printer s p) (f (printer s p))) :=
  frame_handToJobs _ _ _ _

theorem callout_printerEvent (k : CondKind) :
    callout (printerEvent s p f) p k =
      if (printer s p).condition k = (f (printer s p)).condition k then callout s p k
      else recordAfter (raisedRecord (putPrinter s p (f (printer s p))) p k) ((f (printer s p)).condition k)
        (callout s p k) := by
  have handing := frame_handing s p f
  show callout (CondKind.handing.foldl (handKind p _ _) _) p k = _
  rw [callout_foldl_handKind p _ _ handing_nodup, handing.callout p k (by decide),
    raisedRecord_congr handing (by rw [handing.printer p (by decide)]) (by rw [handing.printer p (by decide)]) (by decide),
    callout_putPrinter]
  by_cases h : (printer s p).condition k = (f (printer s p)).condition k <;> simp [h, handing_complete]

theorem callout_printerEvent_ne {x : Nat} (hx : x ≠ p) (k : CondKind) :
    callout (printerEvent s p f) x k = callout s x k := by
  show callout (CondKind.handing.foldl (handKind p _ _) _) x k = _
  rw [callout_foldl_handKind_ne p _ _ _ _ hx, (frame_handing s p f).callout x k (by decide), callout_putPrinter]

end

theorem handChange_eq_callouts (s : State) (p : Nat) (k : CondKind) (present : Bool) :
    handChange s p k present = { s with callouts := (handChange s p k present).callouts } :=
  frame_handChange s p k present

/-- Settles O43: `recordAfter` is the table of R139, R142 and R143, and the changes of one event fall on different records. -/
theorem conditionChangesActOnTheRecord : Obligations.ConditionChangesActOnTheRecord := by
  unfold Obligations.ConditionChangesActOnTheRecord
  constructor
  · intro s p k present t e
    have self := callout_handChange s p k present
    refine ⟨handChange_eq_callouts s p k present, callout_handChange_ne s p k present, fun h hp => ?_, fun h hp => ?_,
      fun c h => ?_⟩
    · rw [self, h, hp]
      rfl
    · refine ⟨routeDesk s (printer s p), ?_, routeDesk_of_empty s, fun hne => ?_⟩
      · rw [self, h, hp]
        rfl
      · obtain ⟨hlt, hbit⟩ := (mem_groupDesks_iff _ _).1 (routeDesk_mem s hne)
        refine ⟨hlt, hbit, fun hmode x hx => ?_, fun hmode x hx hxbit => ?_⟩
        · rw [← Bool.not_eq_true]
          intro hxbit
          have := (routeDesk_of_fixed s hmode hne).2 x ((mem_groupDesks_iff _ _).2 ⟨by omega, hxbit⟩)
          omega
        · exact (routeDesk_of_leastBusy s hmode hne).2 x ((mem_groupDesks_iff _ _).2 ⟨hx, hxbit⟩)
    · rw [self, h]
      rfl
  · intro s p f hs old new t
    have finished : t.finished = s.finished := finished_printerEvent hs p f
    have frame : t = _ := printerEvent_frame s p f
    rw [show (printerEvent s p f).finished = s.finished from finished] at frame
    refine ⟨frame, ?_, fun x hx => ?_, fun k => ?_, fun x k hx => callout_printerEvent_ne s p f hx k⟩
    · exact (printer_printerEvent s p f p).trans (if_pos rfl)
    · exact (printer_printerEvent s p f x).trans (if_neg hx)
    · rw [callout_handChange, callout_putPrinter]
      exact callout_printerEvent s p f k

end Sys2Proof.Machine
end

