-- ==== Sys2Proof/Proofs/SupplyEvents.lean ====
section
/-! PROOFS. Events on a printer that write its settings and supplies, and the survey (R84 to R87, R115, R120 to R127, R131). -/

namespace Sys2Proof.Machine

/-! ## Changes of a printer's supplies -/

/-- Every supply of a printer changed, by a change that may look at the channel. -/
def Printer.mapSupplies (r : Printer) (g : Channel → Supply → Supply) : Printer :=
  { r with supplies := r.supplies.map fun e => (e.1, g e.1 e.2) }

theorem supply_mapSupplies (r : Printer) (g : Channel → Supply → Supply) (ch : Channel) :
    (r.mapSupplies g).supply ch = (r.supply ch).map (g ch) := by
  unfold Printer.mapSupplies Printer.supply
  rw [List.find?_map]
  cases h : r.supplies.find? fun e => e.1 == ch with
  | none => simpa [Function.comp_def] using h
  | some e =>
    have he : e.1 = ch := by simpa using List.find?_some h
    simp [h, he]

theorem mapSupply_eq (r : Printer) (ch : Channel) (f : Supply → Supply) :
    r.mapSupply ch f = r.mapSupplies fun other x => if other = ch then f x else x := by
  unfold Printer.mapSupply Printer.mapSupplies
  congr 2
  funext e
  by_cases h : e.1 = ch <;> simp [h]

theorem order_eq (r : Printer) :
    r.order = r.mapSupplies fun _ x => { x with reorder := if x.reorder = .due then .ordered else x.reorder } := by
  unfold Printer.order Printer.mapSupplies
  congr 2
  funext e
  split <;> simp_all

theorem consume_eq (r : Printer) (j : Job) (k : Nat) :
    r.consume j k = r.mapSupplies fun ch x => x.consume (copyToner j ch * k) := rfl

theorem status_supplies (r : Printer) (now : Nat) (reported empty : BitVec 8) :
    (r.status now reported empty).supplies =
      (r.mapSupplies fun ch x => if emptyFlag empty ch then x.setLevel 0 else x).supplies := by
  unfold Printer.status Printer.mapSupplies
  dsimp only
  congr 1
  funext e
  split <;> rfl

theorem supply_of_supplies {q r : Printer} (h : q.supplies = r.supplies) (ch : Channel) : q.supply ch = r.supply ch := by
  rw [Printer.supply, Printer.supply, h]

theorem not_up_of_down {r : Printer} (hup : r.up = true) : r.down = false := by
  unfold Printer.up at hup
  unfold Printer.down
  cases hd : r.derived with
  | none => rfl
  | some d => cases d <;> simp_all

theorem hasToner_mapSupplies {r : Printer} {g : Channel → Supply → Supply} {ch : Channel}
    (hg : ∀ x, 0 < (g ch x).level → 0 < x.level) (h : (r.mapSupplies g).hasToner ch = true) : r.hasToner ch = true := by
  rw [Printer.hasToner_iff] at h ⊢
  obtain ⟨y, hy, hpos⟩ := h
  rw [supply_mapSupplies, Option.map_eq_some_iff] at hy
  obtain ⟨x, hx, rfl⟩ := hy
  exact ⟨x, hx, hg x hpos⟩

/-- A change that fills no empty supply neither takes a printer down nor makes it usable. -/
theorem mapSupplies_still {r : Printer} {g : Channel → Supply → Supply} (hg : ∀ ch x, 0 < (g ch x).level → 0 < x.level) :
    ¬ (r.up = true ∧ (r.mapSupplies g).down = true) ∧ ¬ (r.usable = false ∧ (r.mapSupplies g).usable = true) := by
  constructor
  · rintro ⟨hup, hdown⟩
    have same : (r.mapSupplies g).down = r.down := rfl
    rw [same, not_up_of_down hup] at hdown
    cases hdown
  · rintro ⟨hold, hnew⟩
    have up : (r.mapSupplies g).up = r.up := rfl
    simp only [Printer.usable, Bool.and_eq_true, up] at hnew
    have black := hasToner_mapSupplies (hg .k) hnew.2
    simp [Printer.usable, hnew.1, black] at hold

section
variable (s : State) (p : Nat)

/-- An event whose change fills no empty supply hands the jobs nothing. -/
theorem frame_mapSupplies {g : Channel → Supply → Supply} (hg : ∀ ch x, 0 < (g ch x).level → 0 < x.level) :
    Frame [.printers, .callouts] s (printerEvent s p fun r => r.mapSupplies g) :=
  printerEvent_of_still p (fun r => r.mapSupplies g) (mapSupplies_still hg).1 (mapSupplies_still hg).2

/-- An event is the event that writes the record it leaves. -/
theorem printerEvent_of_record (f : Printer → Printer) {t : State} (h : printer t p = f (printer s p)) :
    printerEvent s p (fun _ => printer t p) = printerEvent s p f := by
  rw [h]
  rfl

/-- An event ends no job, so it writes four tables at most. -/
theorem frame_printerEvent_of_canonical (hs : Canonical s = true) (f : Printer → Printer) :
    Frame [.printers, .jobs, .dispatch, .callouts] s (printerEvent s p f) := by
  have frame := printerEvent_frame s p f
  rw [finished_printerEvent hs p f] at frame
  exact frame

end

/-! ## Ordering -/

theorem order_supplies (r : Printer) :
    r.order.supplies = r.supplies.map fun e =>
      (e.1, { e.2 with reorder := if e.2.reorder = .due then .ordered else e.2.reorder }) := by
  rw [order_eq]
  rfl

theorem order_record (r : Printer) :
    r.order = { r with
      supplies := r.supplies.map fun e =>
        (e.1, { e.2 with reorder := if e.2.reorder = .due then .ordered else e.2.reorder }) } := by
  rw [order_eq]
  rfl

theorem condition_order_tonerReorder (r : Printer) : r.order.condition .tonerReorder = false := by
  rw [← Bool.not_eq_true, Printer.condition_tonerReorder_iff, order_supplies]
  rintro ⟨e, he, hdue⟩
  obtain ⟨e, -, rfl⟩ := List.mem_map.1 he
  dsimp only at hdue
  split at hdue
  · cases hdue
  · contradiction

/-- Ordering moves the presence of TONER_REORDER alone. -/
theorem condition_order_of_ne (r : Printer) {k : CondKind} (hk : k ≠ .tonerReorder) : r.order.condition k = r.condition k := by
  cases k <;> first | rfl | contradiction | skip
  rw [Bool.eq_iff_iff, Printer.condition_tonerEmpty_iff, Printer.condition_tonerEmpty_iff, order_supplies]
  simp

/-- The event of ordering hands the jobs nothing (R133, R134). -/
theorem frame_orderDue (s : State) (p : Nat) : Frame [.printers, .callouts] s (orderDue s p) := by
  have event : orderDue s p = printerEvent s p fun r => r.mapSupplies fun _ x =>
      { x with reorder := if x.reorder = .due then .ordered else x.reorder } := by
    rw [orderDue, funext order_eq]
  rw [event]
  exact frame_mapSupplies s p fun _ _ h => h

/-- Ordering withdraws no record that is not PENDING, and raises none. -/
theorem callout_orderDue {s : State} {p : Nat}
    (h : ∀ c, callout s p .tonerReorder = some c → c.state = .inService) (x : Nat) (k : CondKind) :
    callout (orderDue s p) x k = callout s x k := by
  by_cases hx : x = p
  · subst hx
    rw [orderDue, callout_printerEvent]
    split
    · rfl
    · by_cases hk : k = .tonerReorder
      · subst hk
        rw [condition_order_tonerReorder]
        cases hc : callout s x .tonerReorder with
        | none => rfl
        | some c => simp [recordAfter, h c hc]
      · rename_i hne
        exact absurd (condition_order_of_ne _ hk).symm hne
  · exact callout_printerEvent_ne s p _ hx k

/-! ## Printer Status, Set Service and the contact expiry -/

theorem toNat_ofNat_fin (p : Fin 256) : (BitVec.ofNat 16 p.val).toNat = p.val := by
  rw [BitVec.toNat_ofNat]
  exact Nat.mod_eq_of_lt (by have := p.isLt; omega)

theorem noPrinter_iff (s : State) (p : Nat) : noPrinter s p = true ↔ 255 < p ∨ (printer s p).enrolled = false := by
  simp [noPrinter]

theorem noPrinter_eq_false {s : State} (p : Fin 256) (h : (printer s p.val).enrolled = true) : noPrinter s p.val = false := by
  have := p.isLt
  rw [← Bool.not_eq_true, noPrinter_iff]
  rintro (hlt | hno)
  · omega
  · rw [h] at hno; cases hno

section
variable {s : State} {p : Nat} (hno : noPrinter s p = false)
include hno

theorem setServiceRule_of_printer (on : Bool) :
    setServiceRule p on s = { state := printerEvent s p fun r => { r with service := on }, code := .ok } := by
  rw [setServiceRule, hno]
  rfl

theorem printerStatusRule_of_printer (reported empty : BitVec 8) :
    printerStatusRule p reported empty s =
      { state := printerEvent s p fun r => r.status s.seconds reported empty, code := .ok } := by
  rw [printerStatusRule, hno]
  rfl

end

theorem loseContact_of_reached {s : State} {p d : Nat} (he : (printer s p).enrolled = true)
    (hd : (printer s p).contactDeadline = some d) (hle : d ≤ s.seconds) :
    loseContact s p = printerEvent s p fun r => { r with noContact := true, contactDeadline := none } := by
  rw [loseContact, hd]
  exact if_pos ⟨he, hle⟩

theorem loseContact_of_ahead {s : State} {p : Nat}
    (h : (printer s p).contactDeadline = none ∨ ∃ d, (printer s p).contactDeadline = some d ∧ s.seconds < d) :
    loseContact s p = s := by
  rw [loseContact]
  obtain h | ⟨d, h, hlt⟩ := h
  · rw [h]
  · rw [h]
    exact if_neg fun k => absurd k.2 (Nat.not_le.2 hlt)

theorem exec_contactExpiry (p : Fin 256) (s : State) :
    exec (.contactExpiry p) s = event (fun s => loseContact s p.val) s := rfl

/-- The frame of a request that is one event on a printer. -/
theorem answered_printerEvent {s : State} (hs : Canonical s = true) (p : Nat) (f : Printer → Printer) {kind : Byte}
    {code : Code} {body : List Byte} :
    let t := answered kind { state := printerEvent s p f, code := code, body := body }
    let event := printerEvent s p fun _ => printer t p
    t = { linked s t with printers := t.printers, jobs := event.jobs, dispatch := event.dispatch, callouts := event.callouts }
    ∧ printer t p = f (printer s p) ∧ ∀ x, x ≠ p → printer t x = printer s x := by
  dsimp only
  have record : printer (printerEvent s p f) p = f (printer s p) := (printer_printerEvent s p f p).trans (if_pos rfl)
  rw [printerEvent_of_record s p f (by rw [printer_answered, record])]
  refine ⟨(frame_printerEvent_of_canonical s p hs f).answered, record, fun x hx => ?_⟩
  rw [printer_answered, printer_printerEvent, if_neg hx]

/-- The frame of an event that is one event on a printer. -/
theorem settled_printerEvent {s : State} (hs : Canonical s = true) (p : Nat) (f : Printer → Printer) :
    let t := settle (printerEvent s p f)
    let event := printerEvent s p fun _ => printer t p
    t = { signalled s t with
        printers := t.printers, jobs := event.jobs, dispatch := event.dispatch, callouts := event.callouts }
    ∧ printer t p = f (printer s p) ∧ ∀ x, x ≠ p → printer t x = printer s x := by
  dsimp only
  have record : printer (printerEvent s p f) p = f (printer s p) := (printer_printerEvent s p f p).trans (if_pos rfl)
  rw [printerEvent_of_record s p f (by rw [printer_settle, record])]
  refine ⟨(frame_printerEvent_of_canonical s p hs f).settled, record, fun x hx => ?_⟩
  rw [printer_settle, printer_printerEvent, if_neg hx]

theorem status_record (r : Printer) (now : Nat) (reported empty : BitVec 8) :
    r.status now reported empty =
      { r with
        reported := reported &&& 0x57#8, everReported := true, noContact := false
        contactDeadline := some (min 4294967295 (now + r.contactMinutes * 60))
        supplies := (r.status now reported empty).supplies } := by
  rw [← deadline_eq_min]
  rfl

theorem setLevel_reorder (x : Supply) (v : Nat) :
    (x.setLevel v).reorder = if 0 < x.level ∧ v = 0 ∧ x.reorder = .none then .due else x.reorder := rfl

theorem supply_status {r : Printer} (now : Nat) (reported empty : BitVec 8) {ch : Channel} {x : Supply}
    (h : r.supply ch = some x) :
    ∃ y, (r.status now reported empty).supply ch = some y ∧ y.level = (if emptyFlag empty ch then 0 else x.level)
      ∧ y.model = x.model ∧ y.accumulator = x.accumulator
      ∧ y.reorder = (if emptyFlag empty ch ∧ 0 < x.level ∧ x.reorder = .none then .due else x.reorder) := by
  refine ⟨if emptyFlag empty ch then x.setLevel 0 else x, ?_, ?_⟩
  · rw [supply_of_supplies (status_supplies ..), supply_mapSupplies, h, Option.map_some]
  · cases emptyFlag empty ch
    · simp
    · simp [Supply.setLevel]

theorem exec_printerStatus (len p : BitVec 16) (reported empty : Byte) (s : State) :
    exec (.printerStatus len p reported empty) s =
      request 0x53 (len == 4) true (printerStatusRule p.toNat reported empty) s := rfl

theorem exec_setService (len p : BitVec 16) (on : Byte) (s : State) :
    exec (.setService len p on) s = request 0x52 (len == 3) true (setServiceRule p.toNat (flag on)) s := rfl

theorem exec_supplyReport (len p : BitVec 16) (channel percent : Byte) (s : State) :
    exec (.supplyReport len p channel percent) s =
      request 0x63 (len == 4) true (supplyReportRule p.toNat (channelOf channel) percent.toNat) s := rfl

theorem exec_supplyReplaced (len p : BitVec 16) (channel : Byte) (s : State) :
    exec (.supplyReplaced len p channel) s =
      request 0x64 (len == 3) true (supplyReplacedRule p.toNat (channelOf channel)) s := rfl

/-- Settles O37: each of the three is one event on the printer, and an event's record is the change given. -/
theorem printerEventsWriteTheirFields : Obligations.PrinterEventsWriteTheirFields := by
  unfold Obligations.PrinterEventsWriteTheirFields
  intro s p hs hr he r number event
  have hno := noPrinter_eq_false p he
  refine ⟨fun reported empty => ?_, fun on => ?_, fun d hd hle => ?_, fun h => ?_⟩
  · obtain ⟨frame, record, others⟩ := answered_printerEvent hs p.val (kind := 0x53) (code := .ok) (body := [])
      (fun r => r.status s.seconds reported empty)
    rw [exec_printerStatus, toNat_ofNat_fin]
    refine request_answers hr rfl rfl (printerStatusRule_of_printer hno reported empty)
      ((frame_printerEvent s p.val _).same .response (by decide)) ⟨frame, ?_, fun ch x hx => ?_, others⟩
    · rw [record]
      exact status_record _ _ _ _
    · rw [record]
      exact supply_status _ _ _ hx
  · obtain ⟨frame, record, others⟩ := answered_printerEvent hs p.val (kind := 0x52) (code := .ok) (body := [])
      (fun r => { r with service := flag on })
    rw [exec_setService, toNat_ofNat_fin]
    exact request_answers hr rfl rfl (setServiceRule_of_printer hno (flag on))
      ((frame_printerEvent s p.val _).same .response (by decide)) ⟨frame, record, others⟩
  · obtain ⟨frame, record, others⟩ := settled_printerEvent hs p.val
      (fun r => { r with noContact := true, contactDeadline := none })
    rw [exec_contactExpiry]
    exact event_settles hr (loseContact_of_reached he hd hle) ⟨frame, record, others⟩
  · rw [exec_contactExpiry]
    exact event_idle hr (loseContact_of_ahead h)

/-! ## Supply models -/

theorem exec_setSupplyModel (len m : BitVec 16) (capacity : BitVec 32) (lead : Byte) (s : State) :
    exec (.setSupplyModel len m capacity lead) s =
      request 0x60 (len == 7) true (setSupplyModelRule m.toNat capacity.toNat lead.toNat) s := rfl

theorem modelUsers_pos_iff (s : State) (m : Nat) :
    0 < modelUsers s m ↔ (s.printers.any fun e => e.2.supplies.any fun x => x.2.model == m) = true := by
  simp only [modelUsers, List.length_pos_iff_exists_mem, List.mem_flatMap, List.mem_filter, List.any_eq_true]
  constructor
  · rintro ⟨x, e, he, hx, hm⟩
    exact ⟨e, he, x, hx, hm⟩
  · rintro ⟨e, he, x, hx, hm⟩
    exact ⟨x, e, he, hx, hm⟩

theorem setSupplyModelRule_eq (m capacity lead : Nat) (s : State) :
    setSupplyModelRule m capacity lead s =
      let cap := max 1 (min 16777215 capacity)
      if 31 < m then refuse s .badField
      else if cap ≠ (model s m).capacity
          ∧ (s.printers.any fun e => e.2.supplies.any fun x => x.2.model == m) = true then refuse s .inUse
      else { state := putModel s m { capacity := cap, lead := max 1 (min 60 lead) }, code := .ok } := by
  simp only [setSupplyModelRule, clamp_eq (by decide : 1 ≤ 16777215), clamp_eq (by decide : 1 ≤ 60), modelUsers_pos_iff]

theorem frame_putModel (s : State) (m : Nat) (r : SupplyModel) : Frame [.models] s (putModel s m r) := rfl

/-! ## Supply Report and Supply Replaced -/

theorem channelOf_none {b : Byte} (h : 3 < b.toNat) : channelOf b = none := by
  unfold channelOf
  split_ifs with h0 h1 h2 h3
  · rw [h0] at h; exact absurd h (by decide)
  · rw [h1] at h; exact absurd h (by decide)
  · rw [h2] at h; exact absurd h (by decide)
  · rw [h3] at h; exact absurd h (by decide)
  · rfl

section
variable {s : State} {p : Nat} (hno : noPrinter s p = false) (effect : Channel → Supply → Reply)
include hno

theorem onSupply_of_badChannel : onSupply p none effect s = refuse s .badField := by
  rw [onSupply, hno]
  rfl

theorem onSupply_of_noSupply {ch : Channel} (h : (printer s p).supply ch = none) :
    onSupply p (some ch) effect s = refuse s .noSuch := by
  rw [onSupply, hno]
  simp [h]

theorem onSupply_of_supply {ch : Channel} {x : Supply} (h : (printer s p).supply ch = some x) :
    onSupply p (some ch) effect s = effect ch x := by
  rw [onSupply, hno]
  simp [h]

end

/-- The gauge figure differs from the level by more than a tenth of the capacity (R122). -/
theorem beyondTolerance_eq (capacity level gauge : Nat) :
    beyondTolerance capacity level gauge =
      decide (capacity / 10 + level < gauge ∨ capacity / 10 + gauge < level) := by
  rw [beyondTolerance, ← Bool.decide_or, decide_eq_decide]
  omega

/-- The record of one supply after a change of it alone, and those of the other channels. -/
theorem supply_mapSupply {r : Printer} {ch : Channel} (f : Supply → Supply) {x : Supply} (h : r.supply ch = some x) :
    (r.mapSupply ch f).supply ch = some (f x)
    ∧ ∀ other, other ≠ ch → (r.mapSupply ch f).supply other = r.supply other := by
  rw [mapSupply_eq]
  refine ⟨?_, fun other hne => ?_⟩
  · rw [supply_mapSupplies, h]
    simp
  · rw [supply_mapSupplies]
    simp [hne]

/-- A report of a supply: the gauge figure taken where it is beyond the tolerance, and a level that reaches 0 DUE. -/
theorem setLevel_reported (x : Supply) (far : Bool) (gauge : Nat) :
    x.setLevel (if far then gauge else x.level) =
      { x with
        level := if far then gauge else x.level
        reorder := if far ∧ gauge = 0 ∧ 0 < x.level ∧ x.reorder = .none then .due else x.reorder } := by
  have order : (0 < x.level ∧ gauge = 0 ∧ x.reorder = .none) ↔ (gauge = 0 ∧ 0 < x.level ∧ x.reorder = .none) := by tauto
  cases far
  · simp only [Supply.setLevel, Bool.false_eq_true, if_false, false_and]
    rw [if_neg fun h => absurd h.2.1 (Nat.pos_iff_ne_zero.1 h.1)]
  · simp [Supply.setLevel, order]

section
variable {s : State} {p : Nat} (hno : noPrinter s p = false) {ch : Channel} {x : Supply}
  (hx : (printer s p).supply ch = some x)
include hno hx

theorem supplyReportRule_of_supply (percent : Nat) :
    let capacity := (model s x.model).capacity
    let gauge := min 100 percent * capacity / 100
    let far := decide (capacity / 10 + x.level < gauge ∨ capacity / 10 + gauge < x.level)
    supplyReportRule p (some ch) percent s =
      { state := printerEvent s p fun r => r.mapSupply ch fun y => y.setLevel (if far then gauge else x.level)
        code := .ok
        body := num 4 (if far then gauge else x.level) ++ [if far then 1 else 0] } := by
  dsimp only
  have gauge : gaugeFigure (model s x.model).capacity percent = min 100 percent * (model s x.model).capacity / 100 := by
    rw [gaugeFigure, Nat.min_comm]
  rw [supplyReportRule, onSupply_of_supply hno _ hx]
  simp only [reportedLevel, gauge, beyondTolerance_eq, flagByte]

theorem supplyReplacedRule_of_supply :
    supplyReplacedRule p (some ch) s =
      { state := printerEvent s p fun r => r.mapSupply ch fun y => y.replaced (model s x.model).capacity
        code := .ok } :=
  onSupply_of_supply hno _ hx

end

/-- The frame of a request that changes one supply in one event on the printer. -/
theorem answered_mapSupply {s : State} (hs : Canonical s = true) (p : Nat) {ch : Channel} {x : Supply}
    (hx : (printer s p).supply ch = some x) (f : Supply → Supply) {kind : Byte} {code : Code} {body : List Byte} :
    let t := answered kind { state := printerEvent s p fun r => r.mapSupply ch f, code := code, body := body }
    let event := printerEvent s p fun _ => printer t p
    (printer t p).supply ch = some (f x)
    ∧ (∀ other, other ≠ ch → (printer t p).supply other = (printer s p).supply other)
    ∧ (∀ y, y ≠ p → printer t y = printer s y)
    ∧ printer t p = { printer s p with supplies := (printer t p).supplies }
    ∧ t = { linked s t with
        printers := t.printers, jobs := event.jobs, dispatch := event.dispatch, callouts := event.callouts } := by
  obtain ⟨frame, record, others⟩ := answered_printerEvent hs p (kind := kind) (code := code) (body := body)
    (fun r => r.mapSupply ch f)
  obtain ⟨self, other⟩ := supply_mapSupply f hx
  refine ⟨by rw [record, self], fun code hne => by rw [record, other code hne], others, ?_, frame⟩
  rw [record]
  rfl

/-- Settles O39: the checks of each request, then one event on the printer that changes one supply. -/
theorem supplyModelsAndReports : Obligations.SupplyModelsAndReports := by
  unfold Obligations.SupplyModelsAndReports
  constructor
  · intro s m capacity lead hr cap
    have rule := setSupplyModelRule_eq m.toNat capacity.toNat lead.toNat s
    dsimp only at rule
    rw [exec_setSupplyModel]
    by_cases hm : 31 < m.toNat
    · rw [if_pos hm] at rule
      simp only [if_pos hm]
      exact request_answers_refusal hr rfl rfl rule
    rw [if_neg hm] at rule
    simp only [if_neg hm]
    by_cases huse : cap ≠ (model s m.toNat).capacity
        ∧ (s.printers.any fun e => e.2.supplies.any fun x => x.2.model == m.toNat) = true
    · rw [if_pos huse] at rule
      simp only [if_pos huse]
      exact request_answers_refusal hr rfl rfl rule
    · rw [if_neg huse] at rule
      simp only [if_neg huse]
      refine request_answers hr rfl rfl rule rfl ⟨(frame_putModel s m.toNat _).answered, ?_, fun x hx => ?_⟩
      · rw [model_answered, model_putModel, if_pos rfl]
      · rw [model_answered, model_putModel, if_neg hx]
  · intro s p channel percent hs hr he number refused
    have hno := noPrinter_eq_false p he
    have report := exec_supplyReport 4 number channel percent s
    have replaced := exec_supplyReplaced 3 number channel s
    rw [toNat_ofNat_fin] at report replaced
    have refusal : ∀ code, (∀ effect, onSupply p.val (channelOf channel) effect s = refuse s code) → refused code :=
      fun code h => by
        simp only [refused, report, replaced]
        exact ⟨request_answers_refusal hr rfl rfl (h _), request_answers_refusal hr rfl rfl (h _)⟩
    refine ⟨fun hch => refusal _ fun effect => ?_, fun ch hch hnone => refusal _ fun effect => ?_, fun ch x hch hx => ?_⟩
    · rw [channelOf_none hch]
      exact onSupply_of_badChannel hno effect
    · rw [hch]
      exact onSupply_of_noSupply hno effect hnone
    · intro capacity gauge far event others
      have response := fun f => (frame_printerEvent s p.val f).same .response (by decide)
      constructor
      · rw [report, hch]
        obtain ⟨self, rest⟩ := answered_mapSupply hs p.val hx (fun y => y.setLevel (if far then gauge else x.level))
          (kind := 0x63) (code := .ok) (body := num 4 (if far then gauge else x.level) ++ [if far then 1 else 0])
        rw [setLevel_reported] at self
        exact request_answers hr rfl rfl (supplyReportRule_of_supply hno hx percent.toNat) (response _) ⟨self, rest⟩
      · rw [replaced, hch]
        obtain ⟨self, rest⟩ := answered_mapSupply hs p.val hx (fun y => y.replaced capacity)
          (kind := 0x64) (code := .ok) (body := [])
        exact request_answers hr rfl rfl (supplyReplacedRule_of_supply hno hx) (response _) ⟨self, rest⟩

end Sys2Proof.Machine
end

