-- ==== Sys2Proof/Proofs/SurveyRuns.lean ====
section
/-! PROOFS. The survey's start, its steps and its completion (R125 to R127, R131). -/

namespace Sys2Proof.Machine

theorem exec_surveyNow (len : BitVec 16) (n : Opt 16) (s : State) :
    exec (.surveyNow len n) s = request 0x65 (len == 3) (presenceOk n) (surveyNowRule (optional n)) s := rfl

theorem exec_surveyStep (s : State) : exec .surveyStep s = event surveyOnce s := rfl

theorem badSurveyPrinter_eq_false_iff (s : State) (n : Option Nat) :
    badSurveyPrinter s n = false ↔ ∀ p, n = some p → p ≤ 255 ∧ (printer s p).enrolled = true := by
  cases n with
  | none => simp [badSurveyPrinter]
  | some p => simp [badSurveyPrinter, noPrinter]

theorem surveyEligible_iff (s : State) (sc : Scope) (p : Nat) :
    surveyEligible s sc p = true ↔
      (printer s p).enrolled = true ∧ (sc = .all → (printer s p).surveyed = true) ∧ ∀ q, sc = .one q → p = q := by
  cases sc <;> simp [surveyEligible]

theorem nextSurveyed_some_iff {s : State} {sc : Scope} {cursor p : Nat} :
    nextSurveyed s sc cursor = some p ↔
      cursor ≤ p ∧ p < 256 ∧ surveyEligible s sc p = true ∧ ∀ y < p, cursor ≤ y → surveyEligible s sc y = false := by
  rw [nextSurveyed, firstFrom_some_iff]
  constructor
  · rintro ⟨hle, hlt, he, hlow⟩
    exact ⟨hle, by omega, he, fun y hy hc => hlow y hc hy⟩
  · rintro ⟨hle, hlt, he, hlow⟩
    exact ⟨hle, by omega, he, fun y hc hy => hlow y hy hc⟩

theorem nextSurveyed_none_iff {s : State} {sc : Scope} {cursor : Nat} :
    nextSurveyed s sc cursor = none ↔ ∀ y < 256, cursor ≤ y → surveyEligible s sc y = false := by
  rw [nextSurveyed, firstFrom_none_iff]
  exact ⟨fun h y hy hc => h y hc (by omega), fun h y hc hy => h y (by omega) hc⟩

/-- A visit keeps every level, so it hands the jobs nothing. -/
theorem frame_visitPrinter (s : State) (p : Nat) : Frame [.printers, .callouts] s (visitPrinter s p) := by
  have level : ∀ x : Supply, (x.visited s.seconds (model s x.model).lead).level = x.level := fun x => by
    unfold Supply.visited
    split <;> rfl
  exact frame_mapSupplies s p (g := fun _ x => x.visited s.seconds (model s x.model).lead) fun _ x h => level x ▸ h

theorem printer_visitPrinter (s : State) (p x : Nat) :
    printer (visitPrinter s p) x =
      if x = p then
        { printer s p with
          supplies := (printer s p).supplies.map fun e => (e.1, e.2.visited s.seconds (model s e.2.model).lead) }
      else printer s x := printer_printerEvent s p _ x

theorem surveyEligible_visitPrinter (s : State) (p : Nat) (sc : Scope) (y : Nat) :
    surveyEligible (visitPrinter s p) sc y = surveyEligible s sc y := by
  unfold surveyEligible
  rw [printer_visitPrinter]
  by_cases h : y = p
  · rw [if_pos h, h]
  · rw [if_neg h]

/-- What a step with a printer to visit leaves (R127, R131). -/
theorem surveyOnce_of_next {s : State} {sc : Scope} {p : Nat} (hsc : s.survey.scope = some sc)
    (hnext : nextSurveyed s sc s.survey.cursor = some p) :
    surveyOnce s =
      { visitPrinter s p with
        survey := if nextSurveyed s sc (p + 1) = none then { scope := none, cursor := 0, done := true }
          else { s.survey with cursor := p + 1 } } := by
  have survey : (visitPrinter s p).survey = s.survey := (frame_visitPrinter s p).same .survey (by decide)
  have again : nextSurveyed { visitPrinter s p with survey := { (visitPrinter s p).survey with cursor := p + 1 } } sc (p + 1)
      = nextSurveyed s sc (p + 1) :=
    congrArg (fun f => firstFrom f (p + 1) (256 - (p + 1))) (funext (surveyEligible_visitPrinter s p sc))
  rw [surveyOnce, hsc]
  dsimp only
  rw [hnext]
  dsimp only
  rw [again]
  cases nextSurveyed s sc (p + 1) with
  | none => rfl
  | some q =>
    dsimp only
    rw [survey, if_neg nofun]

theorem surveyOnce_of_none {s : State} {sc : Scope} (hsc : s.survey.scope = some sc)
    (hnext : nextSurveyed s sc s.survey.cursor = none) : surveyOnce s = completeSurvey s := by
  rw [surveyOnce, hsc]
  dsimp only
  rw [hnext]

theorem surveyOnce_of_idle {s : State} (hsc : s.survey.scope = none) : surveyOnce s = s := by
  rw [surveyOnce, hsc]

/-- Settles O41: Survey Now in its three cases, and a step in its three. -/
theorem surveyRunsOverThePrinters : Obligations.SurveyRunsOverThePrinters := by
  unfold Obligations.SurveyRunsOverThePrinters
  intro s n hr hp eligible known
  have good : known → badSurveyPrinter s (optional n) = false := (badSurveyPrinter_eq_false_iff s _).2
  have eligibleIff : ∀ sc p, surveyEligible s sc p = true ↔ eligible sc p := surveyEligible_iff s
  have passed : ∀ sc p, surveyEligible s sc p = false ↔ ¬ eligible sc p := fun sc p => by
    rw [← eligibleIff, Bool.not_eq_true]
  refine ⟨fun hunknown => ?_, fun hsc => ⟨fun hknown => ?_, ?_⟩, fun sc hsc => ⟨fun hknown => ?_, ?_, fun hnone => ?_⟩⟩
  · have bad : badSurveyPrinter s (optional n) = true := by
      rw [← Bool.not_eq_false, badSurveyPrinter_eq_false_iff]
      exact hunknown
    exact request_answers_refusal hr rfl hp (if_pos bad)
  · have rule : surveyNowRule (optional n) s =
        { state := startSurvey s (match optional n with
            | none => .all
            | some p => .one p), code := .ok } := by
      unfold surveyNowRule
      rw [good hknown, hsc]
      rfl
    refine request_answers hr rfl hp rule rfl ⟨(frame_survey s _).answered, rfl, rfl, ?_⟩
    cases optional n <;> rfl
  · rw [exec_surveyStep]
    exact event_idle hr (surveyOnce_of_idle hsc)
  · have rule : surveyNowRule (optional n) s = refuse s .busy := by
      unfold surveyNowRule
      rw [good hknown, hsc]
      rfl
    exact request_answers_refusal hr rfl hp rule
  · intro p hle hlt he hlow
    have hnext : nextSurveyed s sc s.survey.cursor = some p :=
      nextSurveyed_some_iff.2 ⟨hle, hlt, (eligibleIff sc p).2 he, fun y hy hc => (passed sc y).2 (hlow y hy hc)⟩
    have visited := printer_visitPrinter s p
    have whole : printerEvent s p (fun _ => printer (visitPrinter s p) p) = visitPrinter s p :=
      printerEvent_of_record s p
        (fun r => { r with supplies := r.supplies.map fun e => (e.1, e.2.visited s.seconds (model s e.2.model).lead) })
        ((visited p).trans (if_pos rfl))
    have visit := frame_visitPrinter s p
    rw [exec_surveyStep]
    refine event_settles hr (surveyOnce_of_next hsc hnext)
      ⟨(visited p).trans (if_pos rfl), fun y hy => (visited y).trans (if_neg hy), fun hnone => ?_, fun y hy hpy hey => ?_, ?_⟩
    · exact if_pos (nextSurveyed_none_iff.2 fun y hy hpy => (passed sc y).2 (hnone y hy hpy))
    · refine if_neg fun hnone => ?_
      have := nextSurveyed_none_iff.1 hnone y hy hpy
      rw [(eligibleIff sc y).2 hey] at this
      cases this
    · intro left
      rw [show left = visitPrinter s p from whole, visit.same .jobs (by decide), visit.same .dispatch (by decide)]
      exact (visit.comp (w := [.printers, .callouts, .survey]) (frame_survey _ _) (by decide)).settled
  · have hnext : nextSurveyed s sc s.survey.cursor = none :=
      nextSurveyed_none_iff.2 fun y hy hc => (passed sc y).2 (hnone y hy hc)
    rw [exec_surveyStep]
    exact event_settles hr (surveyOnce_of_none hsc hnext) (frame_survey s _).settled

end Sys2Proof.Machine
end

