-- ==== Sys2Proof/Proofs/Ledger.lean ====
section
/-! PROOFS. The ledger: the jobs, the accounts that pay for them, the queues they stand in and the Dispatch List. What it
must satisfy (R7, R17, R27, R29, R52, R90), written for each slot, and the two ways a step keeps it: it leaves every job
alike, or it moves one job and the figures with it. -/

namespace Sys2Proof.Machine

/-! ## Totals over the slots -/

theorem job_eq_of_mem {s : State} (hs : Canonical s = true) {e : Nat × Slot} (he : e ∈ s.jobs) : job s e.1 = e.2.job := by
  rw [job, ((mem_jobs_iff hs e.1 e.2).1 he).1]

theorem job_of_not_mem {s : State} (hs : Canonical s = true) {i : Nat} (h : ∀ e ∈ s.jobs, e.1 ≠ i) : job s i = {} := by
  by_contra hne
  refine h (i, slot s i) ((mem_jobs_iff hs i _).2 ⟨rfl, fun hfree => hne ?_⟩) rfl
  rw [job, hfree]

/-- A property of every job in the table is one of every slot, where the FREE contents have it. -/
theorem forall_jobs_iff {s : State} (hs : Canonical s = true) {P : Job → Prop} (hfree : P {}) :
    (∀ e ∈ s.jobs, P e.2.job) ↔ ∀ i, P (job s i) := by
  constructor
  · intro h i
    by_cases hi : ∃ e ∈ s.jobs, e.1 = i
    · obtain ⟨e, he, rfl⟩ := hi
      exact job_eq_of_mem hs he ▸ h e he
    · rw [job_of_not_mem hs fun e he hei => hi ⟨e, he, hei⟩]
      exact hfree
  · exact fun h e he => job_eq_of_mem hs he ▸ h e.1

theorem jobTotal_eq_sum {f : Job → Nat} (hf : f {} = 0) {s : State} (hs : Canonical s = true) {K : Finset Nat}
    (hK : ∀ e ∈ s.jobs, e.1 ∈ K) : jobTotal f s = ∑ k ∈ K, f (job s k) := by
  have keys : (s.jobs.map (·.1)).Nodup := Table.nodup_keys _ (canonical_jobs hs)
  calc jobTotal f s = (s.jobs.map fun e => f (job s e.1)).sum :=
        congrArg List.sum (List.map_congr_left fun e he => by rw [job_eq_of_mem hs he])
    _ = ((s.jobs.map (·.1)).map fun k => f (job s k)).sum := by rw [List.map_map]; rfl
    _ = ∑ k ∈ (s.jobs.map (·.1)).toFinset, f (job s k) := (List.sum_toFinset _ keys).symm
    _ = ∑ k ∈ K, f (job s k) := by
        refine Finset.sum_subset (fun k hk => ?_) fun k _ hk => ?_
        · obtain ⟨e, he, rfl⟩ := List.mem_map.1 (List.mem_toFinset.1 hk)
          exact hK e he
        · rw [job_of_not_mem hs fun e he hek => hk (List.mem_toFinset.2 (List.mem_map.2 ⟨e, he, hek⟩)), hf]

/-- The slots in use. -/
def usedSlots (s : State) : Finset Nat := (s.jobs.map (·.1)).toFinset

theorem mem_usedSlots {s : State} {e : Nat × Slot} (he : e ∈ s.jobs) : e.1 ∈ usedSlots s :=
  List.mem_toFinset.2 (List.mem_map_of_mem he)

theorem jobTotal_of_job {f : Job → Nat} (hf : f {} = 0) {s t : State} (hs : Canonical s = true) (ht : Canonical t = true)
    (h : ∀ i, f (job t i) = f (job s i)) : jobTotal f t = jobTotal f s := by
  rw [jobTotal_eq_sum hf hs (K := usedSlots s ∪ usedSlots t) fun e he => Finset.mem_union_left _ (mem_usedSlots he),
    jobTotal_eq_sum hf ht (K := usedSlots s ∪ usedSlots t) fun e he => Finset.mem_union_right _ (mem_usedSlots he)]
  exact Finset.sum_congr rfl fun i _ => h i

theorem le_jobTotal {f : Job → Nat} (hf : f {} = 0) {s : State} (hs : Canonical s = true) (i : Nat) :
    f (job s i) ≤ jobTotal f s := by
  rw [jobTotal_eq_sum hf hs (K := insert i (usedSlots s)) fun e he => Finset.mem_insert_of_mem (mem_usedSlots he)]
  exact Finset.single_le_sum (f := fun k => f (job s k)) (fun _ _ => Nat.zero_le _) (Finset.mem_insert_self i _)

theorem jobTotal_eq_zero {f : Job → Nat} (hf : f {} = 0) {s : State} (hs : Canonical s = true)
    (h : ∀ i, f (job s i) = 0) : jobTotal f s = 0 := by
  rw [jobTotal_eq_sum hf hs (K := usedSlots s) fun e he => mem_usedSlots he]
  exact Finset.sum_eq_zero fun i _ => h i

/-! ## What a job counts for -/

/-- What a job adds to the queue count of printer `p` (R90). -/
def Job.queuedAt (p : Nat) (j : Job) : Nat := oneIf (j.state.routed && j.printer == some p)

/-- What a job holds in the reserved of account `a` (R17). -/
def Job.heldFor (a : Nat) (j : Job) : Nat :=
  if j.state.routed = true ∧ (a = j.owner ∨ j.chargedDept = some a) then j.perCopyApplied.getD 0 * (j.copies - j.copiesDone)
  else 0

/-- A routed job names an enrolled printer (R29). -/
def Job.Placed (s : State) (j : Job) : Prop :=
  j.state.routed = true → ∃ p, j.printer = some p ∧ (Machine.printer s p).enrolled = true

/-- The accounts a job names are not FREE, and its copies done are at most its copies (R14, R17, R29). -/
def Job.Named (s : State) (j : Job) : Prop :=
  j.state ≠ .free →
    (account s j.owner).state ≠ .free ∧ j.copiesDone ≤ j.copies
    ∧ ∀ d, j.chargedDept = some d → d ≠ j.owner ∧ (account s d).state ≠ .free

theorem heldTerm_eq (a : Nat) (e : Nat × Slot) : heldTerm a e = e.2.job.heldFor a := by
  unfold heldTerm Job.heldFor
  simp only [Bool.and_eq_true, Bool.or_eq_true, beq_iff_eq, eq_comm (a := a)]

theorem Job.queuedAt_of_unrouted {j : Job} (h : j.state.routed = false) (p : Nat) : j.queuedAt p = 0 := by
  rw [Job.queuedAt, h]
  rfl

theorem Job.queuedAt_of_routed {j : Job} (h : j.state.routed = true) (p : Nat) :
    j.queuedAt p = if j.printer = some p then 1 else 0 := by
  rw [Job.queuedAt, h, Bool.true_and, oneIf]
  simp only [beq_iff_eq]

theorem Job.heldFor_of_unrouted {j : Job} (h : j.state.routed = false) (a : Nat) : j.heldFor a = 0 :=
  if_neg fun hr => Bool.false_ne_true (h.symm.trans hr.1)

/-- The accounts a job charges: its owner and its charged department. -/
def Job.Charges (j : Job) (a : Nat) : Prop := a = j.owner ∨ j.chargedDept = some a

theorem Job.heldFor_of_charged {j : Job} (h : j.state.routed = true) {a : Nat} (ha : j.Charges a) :
    j.heldFor a = j.perCopyApplied.getD 0 * (j.copies - j.copiesDone) := if_pos ⟨h, ha⟩

theorem Job.heldFor_of_uncharged {j : Job} {a : Nat} (ha : ¬ j.Charges a) : j.heldFor a = 0 := if_neg fun h => ha h.2

theorem Job.heldFor_of_spent {j : Job} (h : j.perCopyApplied.getD 0 * (j.copies - j.copiesDone) = 0) (a : Nat) :
    j.heldFor a = 0 := by
  unfold Job.heldFor
  rw [h, ite_self]

theorem ne_free_of_routed {st : JobState} (h : st.routed = true) : st ≠ .free := by
  rintro rfl
  cases h

/-- The ledger balances: what `QueuesCounted`, `BooksBalance` and `BadgesExact` say, by slots. -/
structure Balanced (s : State) : Prop where
  placed      : ∀ i, (job s i).Placed s
  queue       : ∀ p, (printer s p).queueCount = jobTotal (Job.queuedAt p) s
  reserved    : ∀ a, (account s a).reserved = jobTotal (Job.heldFor a) s
  named       : ∀ i, (job s i).Named s
  departments : ∀ a d, (account s a).department = some d →
    d ≠ a ∧ (account s a).state ≠ .free ∧ (account s a).kind = .user
    ∧ (account s d).state ≠ .free ∧ (account s d).kind = .department
  badges      : BadgesExact s

theorem balanced_iff {s : State} (hs : Canonical s = true) :
    Balanced s ↔ QueuesCounted s ∧ BooksBalance s ∧ BadgesExact s := by
  have placed : (∀ e ∈ s.jobs, (Slot.job e.2).Placed s) ↔ ∀ i, (job s i).Placed s := forall_jobs_iff hs nofun
  have named : (∀ e ∈ s.jobs, (Slot.job e.2).Named s) ↔ ∀ i, (job s i).Named s :=
    forall_jobs_iff hs fun h => absurd rfl h
  have queue : ∀ p, (routedTo s p).length = jobTotal (Job.queuedAt p) s := fun p => length_filter_eq_sum _ _
  have held : ∀ a, (s.jobs.map (heldTerm a)).sum = jobTotal (Job.heldFor a) s := fun a =>
    congrArg List.sum (List.map_congr_left fun e _ => heldTerm_eq a e)
  constructor
  · intro h
    exact ⟨⟨placed.2 h.placed, fun p => (h.queue p).trans (queue p).symm⟩,
      ⟨fun a => (h.reserved a).trans (held a).symm, named.2 h.named, h.departments⟩, h.badges⟩
  · rintro ⟨⟨hplaced, hqueue⟩, ⟨hreserved, hnamed, hdept⟩, hbadges⟩
    exact ⟨placed.1 hplaced, fun p => (hqueue p).trans (queue p), fun a => (hreserved a).trans (held a),
      named.1 hnamed, hdept, hbadges⟩

/-! ## What a step may change in an account -/

/-- The fields the ledger's invariants read in an account, apart from reserved, stay, and so does a FREE record. -/
structure Account.Alike (r r' : Account) : Prop where
  free  : r'.state = .free ↔ r.state = .free
  kind  : r'.kind = r.kind
  dept  : r'.department = r.department
  badge : r'.badge = r.badge
  whole : r.state = .free → r' = r

theorem Account.Alike.refl (r : Account) : r.Alike r := ⟨.rfl, rfl, rfl, rfl, fun _ => rfl⟩

theorem Account.Alike.of_eq {r r' : Account} (h : r' = r) : r.Alike r' := h ▸ .refl r

theorem Account.Alike.of_state {r r' : Account} (hs : r'.state = r.state) (hfree : r.state ≠ .free) (hk : r'.kind = r.kind)
    (hd : r'.department = r.department) (hb : r'.badge = r.badge) : r.Alike r' :=
  ⟨by rw [hs], hk, hd, hb, fun h => absurd h hfree⟩

theorem alike_touch (s : State) (a b : Nat) : (account s b).Alike (account (touch s a) b) := by
  obtain ⟨state, kind, -, badge, dept, -, -⟩ := account_touch_keeps s a b
  refine ⟨by rw [state], kind, dept, badge, fun hfree => ?_⟩
  rw [account_touch]
  split
  · rename_i h
    exact absurd (h.1 ▸ hfree) h.2
  · rfl

theorem Job.Named.mono {s t : State} {j : Job} (h : ∀ a, (account s a).Alike (account t a)) (hj : j.Named s) : j.Named t :=
  fun hne =>
    have ⟨owner, done, dept⟩ := hj hne
    ⟨mt (h _).free.1 owner, done, fun d hd => ⟨(dept d hd).1, mt (h d).free.1 (dept d hd).2⟩⟩

theorem Job.Placed.mono {s t : State} {j : Job} (h : ∀ p, (Machine.printer t p).enrolled = (Machine.printer s p).enrolled)
    (hj : j.Placed s) : j.Placed t := fun hr =>
  have ⟨p, hp, he⟩ := hj hr
  ⟨p, hp, (h p).trans he⟩

/-! ## A step that moves figures and jobs together -/

/-- The records of printers and accounts that a step of the ledger keeps. -/
structure Standing (s t : State) : Prop where
  accounts : ∀ a, (account s a).Alike (account t a)
  badges   : t.badgeMap = s.badgeMap
  enrolled : ∀ p, (printer t p).enrolled = (printer s p).enrolled

theorem badgesExact_of_alike {s t : State} (hmap : t.badgeMap = s.badgeMap)
    (h : ∀ a, (account s a).Alike (account t a)) (hs : BadgesExact s) : BadgesExact t := by
  obtain ⟨exact, free⟩ := hs
  refine ⟨fun b a => ?_, fun a ha => ?_⟩
  · rw [(h a).badge, badgeHolder, hmap]
    exact exact b a
  · have hfree := (h a).free.1 ha
    rw [(h a).whole hfree, free a hfree]

theorem Balanced.update {s t : State} (h : Balanced s) (keep : Standing s t) (placed : ∀ i, (job t i).Placed s)
    (named : ∀ i, (job t i).Named s)
    (queue : ∀ p, (printer t p).queueCount + jobTotal (Job.queuedAt p) s
      = (printer s p).queueCount + jobTotal (Job.queuedAt p) t)
    (reserved : ∀ a, (account t a).reserved + jobTotal (Job.heldFor a) s
      = (account s a).reserved + jobTotal (Job.heldFor a) t) : Balanced t where
  placed i := (placed i).mono keep.enrolled
  queue p := by
    have := h.queue p
    have := queue p
    omega
  reserved a := by
    have := h.reserved a
    have := reserved a
    omega
  named i := (named i).mono keep.accounts
  departments a d hd := by
    rw [(keep.accounts a).dept] at hd
    obtain ⟨hne, hfree, hkind, hdfree, hdkind⟩ := h.departments a d hd
    exact ⟨hne, mt (keep.accounts a).free.1 hfree, (keep.accounts a).kind.trans hkind,
      mt (keep.accounts d).free.1 hdfree, (keep.accounts d).kind.trans hdkind⟩
  badges := badgesExact_of_alike keep.badges keep.accounts h.badges

/-- The ledger counts the two jobs the same. -/
structure Job.Alike (j j' : Job) : Prop where
  free    : j.state = .free → j'.state = .free
  routed  : j'.state.routed = j.state.routed
  printer : j.state.routed = true → j'.printer = j.printer
  owner   : j'.owner = j.owner
  dept    : j'.chargedDept = j.chargedDept
  applied : j'.perCopyApplied = j.perCopyApplied
  copies  : j'.copies = j.copies
  done    : j'.copiesDone = j.copiesDone

theorem Job.Alike.refl (j : Job) : j.Alike j := ⟨id, rfl, fun _ => rfl, rfl, rfl, rfl, rfl, rfl⟩

/-- A routed job in another routed state. -/
theorem Job.Alike.of_routed {j : Job} {st : JobState} (d : Option Nat) (h : j.state.routed = true) (hst : st.routed = true) :
    j.Alike { j with state := st, resumeDeadline := d } :=
  ⟨fun hfree => absurd hfree (ne_free_of_routed h), hst.trans h.symm, fun _ => rfl, rfl, rfl, rfl, rfl, rfl⟩

theorem Job.Alike.named {s : State} {j j' : Job} (h : j.Alike j') (hj : j.Named s) : j'.Named s := by
  intro hne
  rw [h.owner, h.copies, h.done, h.dept]
  exact hj (mt h.free hne)

theorem Job.Alike.placed {s : State} {j j' : Job} (h : j.Alike j') (hj : j.Placed s) : j'.Placed s := by
  intro hr
  rw [h.routed] at hr
  rw [h.printer hr]
  exact hj hr

theorem Job.Alike.queuedAt {j j' : Job} (h : j.Alike j') (p : Nat) : j'.queuedAt p = j.queuedAt p := by
  unfold Job.queuedAt
  rw [h.routed]
  cases hr : j.state.routed with
  | false => rfl
  | true => rw [h.printer hr]

theorem Job.Alike.heldFor {j j' : Job} (h : j.Alike j') (a : Nat) : j'.heldFor a = j.heldFor a := by
  unfold Job.heldFor
  rw [h.routed, h.owner, h.dept, h.applied, h.copies, h.done]

theorem Balanced.of_alike {s t : State} (hs : Canonical s = true) (ht : Canonical t = true) (h : Balanced s)
    (keep : Standing s t) (jobs : ∀ i, (job s i).Alike (job t i))
    (queue : ∀ p, (Machine.printer t p).queueCount = (Machine.printer s p).queueCount)
    (reserved : ∀ a, (account t a).reserved = (account s a).reserved) : Balanced t := by
  refine h.update keep (fun i => (jobs i).placed (h.placed i)) (fun i => (jobs i).named (h.named i)) (fun p => ?_) fun a => ?_
  · rw [queue p, jobTotal_of_job (f := Job.queuedAt p) rfl hs ht fun i => (jobs i).queuedAt p]
  · rw [reserved a, jobTotal_of_job (f := Job.heldFor a) rfl hs ht fun i => (jobs i).heldFor a]

/-- The step moves the job of slot `i` and each figure by as much as that job's part in it. -/
theorem Balanced.of_move {s t : State} (hs : Canonical s = true) (ht : Canonical t = true) (h : Balanced s)
    (keep : Standing s t) {i : Nat} (others : ∀ k, k ≠ i → slot t k = slot s k) (placed : (job t i).Placed s)
    (named : (job t i).Named s)
    (queue : ∀ p, (Machine.printer t p).queueCount + (job s i).queuedAt p
      = (Machine.printer s p).queueCount + (job t i).queuedAt p)
    (reserved : ∀ a, (account t a).reserved + (job s i).heldFor a = (account s a).reserved + (job t i).heldFor a) :
    Balanced t := by
  have same : ∀ k, k ≠ i → job t k = job s k := fun k hk => congrArg Slot.job (others k hk)
  refine h.update keep (fun k => ?_) (fun k => ?_) (fun p => ?_) fun a => ?_
  · by_cases hk : k = i
    · exact hk ▸ placed
    · exact same k hk ▸ h.placed k
  · by_cases hk : k = i
    · exact hk ▸ named
    · exact same k hk ▸ h.named k
  · have := jobTotal_update (f := Job.queuedAt p) rfl hs ht others
    have := queue p
    omega
  · have := jobTotal_update (f := Job.heldFor a) rfl hs ht others
    have := reserved a
    omega

theorem Balanced.heldFor_le {s : State} (hs : Canonical s = true) (h : Balanced s) (i a : Nat) :
    (job s i).heldFor a ≤ (account s a).reserved := by
  rw [h.reserved a]
  exact le_jobTotal (f := Job.heldFor a) rfl hs i

theorem Balanced.queuedAt_le {s : State} (hs : Canonical s = true) (h : Balanced s) (i p : Nat) :
    (job s i).queuedAt p ≤ (Machine.printer s p).queueCount := by
  rw [h.queue p]
  exact le_jobTotal (f := Job.queuedAt p) rfl hs i

theorem Balanced.charged {s : State} (h : Balanced s) {i : Nat} (hne : (job s i).state ≠ .free) {a : Nat}
    (ha : (job s i).Charges a) : (account s a).state ≠ .free := by
  obtain ⟨owner, -, dept⟩ := h.named i hne
  obtain rfl | hd := ha
  · exact owner
  · exact (dept a hd).2

end Sys2Proof.Machine
end

