-- ==== Sys2Proof/Proofs/LedgerMoves.lean ====
section
/-! PROOFS. The ledger's invariants through each operation on jobs: the slots in use (R27), the Dispatch List (R52) and the
figures of the ledger. -/

namespace Sys2Proof.Machine

/-! ## The slots in use stay below 2,048 -/

theorem slotsBounded_putSlot {s : State} (h : SlotsBounded s) {i : Nat} (hi : i < 2048) (r : Slot) :
    SlotsBounded (putSlot s i r) := by
  intro e he
  have stays : e ∈ Table.erase i s.jobs → e.1 < 2048 := fun h' => h e (Table.mem_erase.1 h').1
  have written : (putSlot s i r).jobs = if r = {} then Table.erase i s.jobs else Table.insert i r (Table.erase i s.jobs) :=
    rfl
  rw [written] at he
  split at he
  · exact stays he
  · obtain rfl | he := Table.mem_insert.1 he
    · exact hi
    · exact stays he

theorem slotsBounded_of_jobs {s t : State} (h : SlotsBounded s) (ht : t.jobs = s.jobs) : SlotsBounded t := by
  unfold SlotsBounded
  rwa [ht]

theorem slotsBounded_foldl {op : State → Nat → State} {g : State → Job → Job} (hop : ∀ s i, op s i = putJob s i (g s (job s i)))
    {l : List Nat} (hl : ∀ i ∈ l, i < 2048) {s : State} (h : SlotsBounded s) : SlotsBounded (l.foldl op s) := by
  induction l generalizing s with
  | nil => exact h
  | cons i l ih =>
    refine ih (fun k hk => hl k (List.mem_cons_of_mem i hk)) ?_
    rw [hop]
    exact slotsBounded_putSlot h (hl i List.mem_cons_self) _

theorem lt_of_mem_slotsOn {s : State} (h : SlotsBounded s) {st : JobState} {p i : Nat} (hi : i ∈ slotsOn s st p) :
    i < 2048 := by
  obtain ⟨e, he, rfl⟩ := List.mem_map.1 hi
  exact h e (List.mem_of_mem_filter he)

theorem slotsBounded_interruptJobs {s : State} (h : SlotsBounded s) (p : Nat) : SlotsBounded (interruptJobs s p) :=
  slotsBounded_foldl interruptJob_eq (fun _ => lt_of_mem_slotsOn h) h

theorem slotsBounded_resumeJobs {s : State} (h : SlotsBounded s) (p : Nat) : SlotsBounded (resumeJobs s p) :=
  slotsBounded_foldl (l := resumeGroup s p) (g := fun _ => resumed) resumeJob_eq
    (fun _ hi => lt_of_mem_slotsOn h ((sortByKey_perm _ _).mem_iff.1 hi)) h

theorem slotsBounded_printerEvent {s : State} (h : SlotsBounded s) (p : Nat) (f : Printer → Printer) :
    SlotsBounded (printerEvent s p f) := by
  have written : SlotsBounded (putPrinter s p (f (printer s p))) := h
  refine slotsBounded_of_jobs ?_ ((printerEvent_handed s p f).same .jobs (by decide))
  by_cases hdown : (printer s p).up = true ∧ (f (printer s p)).down = true
  · rw [handToJobs_of_down _ p hdown.1 hdown.2]
    exact slotsBounded_interruptJobs written p
  · by_cases hup : (printer s p).usable = false ∧ (f (printer s p)).usable = true
    · rw [handToJobs_of_up _ p hup.1 hup.2]
      exact slotsBounded_resumeJobs written p
    · rw [handToJobs_of_still _ p hdown hup]
      exact written

/-! ## The slots an operation writes -/

/-- `t` differs from `s` in the job of slot `i` at most, as far as the jobs go. -/
structure WroteJob (i : Nat) (s t : State) : Prop where
  others     : ∀ k, k ≠ i → slot t k = slot s k
  generation : ∀ k, (slot t k).generation = (slot s k).generation
  bounded    : i < 2048 → SlotsBounded s → SlotsBounded t

namespace WroteJob

variable {i : Nat} {s t u : State}

theorem of_jobs (h : t.jobs = s.jobs) : WroteJob i s t := by
  have slots : ∀ k, slot t k = slot s k := fun k => by rw [slot, h]; rfl
  exact ⟨fun k _ => slots k, fun k => by rw [slots], fun _ hb => slotsBounded_of_jobs hb h⟩

theorem put (s : State) (i : Nat) (j : Job) : WroteJob i s (putJob s i j) :=
  ⟨fun k hk => by rw [slot_putJob, if_neg hk], fun x => generation_putJob s i x j, fun hi hb => slotsBounded_putSlot hb hi _⟩

theorem trans (h : WroteJob i s t) (k : WroteJob i t u) : WroteJob i s u :=
  ⟨fun x hx => (k.others x hx).trans (h.others x hx), fun x => (k.generation x).trans (h.generation x),
    fun hi hb => k.bounded hi (h.bounded hi hb)⟩

theorem of_accounts (h : OnlyAccounts s t) : WroteJob i s t := .of_jobs (by rw [h])

theorem job_ne (h : WroteJob i s t) {k : Nat} (hk : k ≠ i) : job t k = job s k := congrArg Slot.job (h.others k hk)

theorem handleOf (h : WroteJob i s t) (k : Nat) : handleOf t k = handleOf s k := by
  rw [Machine.handleOf, h.generation]
  rfl

end WroteJob

theorem wroteJob_commit (s : State) (i k : Nat) : WroteJob i s (commit s i k) :=
  (WroteJob.of_accounts (((((onlyAccounts_touch s _).trans (onlyAccounts_touchOpt _ _)).trans
    (onlyAccounts_moveToUsed _ _ _))).trans (onlyAccounts_onAccount onlyAccounts_moveToUsed _ _ _))).trans (.put _ i _)

theorem wroteJob_returnReservation (s : State) (i : Nat) : WroteJob i s (returnReservation s i) :=
  (WroteJob.of_accounts (((((onlyAccounts_touch s _).trans (onlyAccounts_touchOpt _ _)).trans
    (onlyAccounts_subReserved _ _ _))).trans (onlyAccounts_onAccount onlyAccounts_subReserved _ _ _))).trans (.put _ i _)

theorem wroteJob_reserve {s : State} {i pc due : Nat} {mono : Bool} (h : (reserve s i pc due mono).ok = true) :
    WroteJob i s (reserve s i pc due mono).state := by
  rw [(reserve_of_ok h).1]
  have touched := (onlyAccounts_touch s (job s i).owner).trans
    (onlyAccounts_touchOpt _ (account s (job s i).owner).department)
  exact (((WroteJob.of_accounts touched).trans (.of_accounts ((onlyAccounts_addReserved _ _ _).trans
    (onlyAccounts_onAccount onlyAccounts_addReserved _ _ _)))).trans (.put _ i _)).trans
    (.of_accounts (onlyAccounts_warnBoth _ _ _))

/-! ## The Dispatch List -/

theorem handleOf_mod {s : State} {i : Nat} (hi : i < 2048) : handleOf s i % 2048 = i := by
  unfold handleOf
  omega

theorem eq_of_handleOf {s t : State} {i k : Nat} (hi : i < 2048) (hk : k < 2048) (h : handleOf s i = handleOf t k) : i = k := by
  rw [← handleOf_mod (s := s) hi, h, handleOf_mod hk]

theorem DispatchExact.of_released {s t : State} (h : DispatchExact s) (hd : t.dispatch = s.dispatch)
    (hr : ∀ i, (job t i).state = .released ↔ (job s i).state = .released)
    (hg : ∀ i, (slot t i).generation = (slot s i).generation) : DispatchExact t := by
  have handles : ∀ i, handleOf t i = handleOf s i := fun i => by
    rw [handleOf, hg]
    rfl
  unfold DispatchExact
  simp only [hd, hr, handles]
  exact h

/-- The list keeps what a step keeps RELEASED. -/
theorem DispatchExact.of_other {s t : State} {i : Nat} (h : DispatchExact s) (hd : t.dispatch = s.dispatch)
    (others : ∀ k, k ≠ i → slot t k = slot s k) (hold : (job s i).state ≠ .released) (hnew : (job t i).state ≠ .released) :
    DispatchExact t := by
  have same : ∀ k, (job t k).state = .released → slot t k = slot s k := fun k hk =>
    others k fun hki => hnew (hki ▸ hk)
  have same' : ∀ k, (job s k).state = .released → slot t k = slot s k := fun k hk =>
    others k fun hki => hold (hki ▸ hk)
  refine ⟨hd ▸ h.1, fun x => ?_⟩
  rw [hd, h.2]
  constructor
  · rintro ⟨k, hk, hr, rfl⟩
    refine ⟨k, hk, ?_, ?_⟩
    · rwa [job, same' k hr]
    · rw [handleOf, handleOf, same' k hr]
  · rintro ⟨k, hk, hr, rfl⟩
    refine ⟨k, hk, ?_, ?_⟩
    · rwa [job, same k hr] at hr
    · rw [handleOf, handleOf, same k hr]

/-- The ways a handle of slot `i` leaves the Dispatch List: it was not on it, it is taken off, it is at its head. -/
inductive Drops (s : State) (i : Nat) : List Nat → Prop
  | absent (h : (job s i).state ≠ .released) : Drops s i s.dispatch
  | off (l : List Nat) (hi : i < 2048) (h : l = s.dispatch.filter (· != handleOf s i)) : Drops s i l
  | head (x : Nat) (l : List Nat) (hx : x % 2048 = i) (h : s.dispatch = x :: l) : Drops s i l

theorem DispatchExact.head {s : State} (h : DispatchExact s) {x : Nat} {l : List Nat} (hd : s.dispatch = x :: l) :
    x % 2048 < 2048 ∧ (job s (x % 2048)).state = .released ∧ x = handleOf s (x % 2048) := by
  obtain ⟨k, hk, hr, rfl⟩ := (h.2 x).1 (hd ▸ List.mem_cons_self)
  rw [handleOf_mod hk]
  exact ⟨hk, hr, rfl⟩

theorem DispatchExact.drops {s : State} (h : DispatchExact s) {i : Nat} {l : List Nat} (hl : Drops s i l) :
    l.Nodup ∧ ∀ x, x ∈ l ↔ ∃ k < 2048, k ≠ i ∧ (job s k).state = .released ∧ x = handleOf s k := by
  have other : ∀ x, (x ∈ s.dispatch ∧ x % 2048 ≠ i) ↔
      ∃ k < 2048, k ≠ i ∧ (job s k).state = .released ∧ x = handleOf s k := by
    intro x
    rw [h.2]
    constructor
    · rintro ⟨⟨k, hk, hr, rfl⟩, hne⟩
      exact ⟨k, hk, fun hki => hne (hki ▸ handleOf_mod hk), hr, rfl⟩
    · rintro ⟨k, hk, hki, hr, rfl⟩
      exact ⟨⟨k, hk, hr, rfl⟩, fun hm => hki ((handleOf_mod hk).symm.trans hm)⟩
  cases hl with
  | absent hno =>
    refine ⟨h.1, fun x => ?_⟩
    rw [← other x]
    refine ⟨fun hx => ⟨hx, fun hm => hno ?_⟩, And.left⟩
    obtain ⟨k, hk, hr, rfl⟩ := (h.2 x).1 hx
    rw [handleOf_mod hk] at hm
    exact hm ▸ hr
  | off l hi hl =>
    subst hl
    refine ⟨h.1.filter _, fun x => ?_⟩
    rw [← other x, List.mem_filter, bne_iff_ne]
    refine and_congr_right fun hx => not_congr ⟨fun hm => ?_, fun hm => ?_⟩
    · obtain ⟨k, hk, -, rfl⟩ := (h.2 x).1 hx
      rw [hm, handleOf_mod hi]
    · obtain ⟨k, hk, -, rfl⟩ := (h.2 x).1 hx
      rw [← hm, handleOf_mod hk]
  | head x l hx hd =>
    have nodup := h.1
    rw [hd, List.nodup_cons] at nodup
    refine ⟨nodup.2, fun y => ?_⟩
    rw [← other y, hd, List.mem_cons]
    obtain ⟨hlt, -, hhandle⟩ := h.head hd
    constructor
    · intro hy
      refine ⟨.inr hy, fun hm => nodup.1 ?_⟩
      obtain ⟨k, hk, -, rfl⟩ := (h.2 y).1 (hd ▸ List.mem_cons_of_mem x hy)
      rw [handleOf_mod hk] at hm
      rw [hhandle, hx, ← hm]
      exact hy
    · rintro ⟨rfl | hy, hne⟩
      · exact absurd hx hne
      · exact hy

theorem DispatchExact.of_drops {s t : State} {i : Nat} (h : DispatchExact s) (hl : Drops s i t.dispatch)
    (others : ∀ k, k ≠ i → slot t k = slot s k) (hnew : (job t i).state ≠ .released) : DispatchExact t := by
  obtain ⟨nodup, mem⟩ := h.drops hl
  refine ⟨nodup, fun x => ?_⟩
  rw [mem]
  constructor
  · rintro ⟨k, hk, hki, hr, rfl⟩
    refine ⟨k, hk, ?_, ?_⟩
    · rwa [job, others k hki]
    · rw [handleOf, handleOf, others k hki]
  · rintro ⟨k, hk, hr, rfl⟩
    have hki : k ≠ i := fun hki => hnew (hki ▸ hr)
    refine ⟨k, hk, hki, ?_, ?_⟩
    · rwa [job, others k hki] at hr
    · rw [handleOf, handleOf, others k hki]

/-- A handle enters at the tail as its job becomes RELEASED. -/
theorem DispatchExact.of_append {s t : State} {i : Nat} (h : DispatchExact s) (hi : i < 2048)
    (hold : (job s i).state ≠ .released) (hnew : (job t i).state = .released) (hw : WroteJob i s t)
    (hd : t.dispatch = s.dispatch ++ [handleOf s i]) : DispatchExact t := by
  have absent : handleOf s i ∉ s.dispatch := fun hx => hold <| by
    obtain ⟨k, hk, hr, heq⟩ := (h.2 _).1 hx
    exact eq_of_handleOf hi hk heq ▸ hr
  refine ⟨?_, fun x => ?_⟩
  · rw [hd]
    exact h.1.append (List.nodup_singleton _) (List.disjoint_singleton.2 absent)
  · rw [hd, List.mem_append, List.mem_singleton, h.2]
    constructor
    · rintro (⟨k, hk, hr, rfl⟩ | rfl)
      · have hki : k ≠ i := fun hki => hold (hki ▸ hr)
        exact ⟨k, hk, hw.job_ne hki ▸ hr, (hw.handleOf k).symm⟩
      · exact ⟨i, hi, hnew, (hw.handleOf i).symm⟩
    · rintro ⟨k, hk, hr, rfl⟩
      by_cases hki : k = i
      · exact .inr (hki ▸ hw.handleOf k)
      · exact .inl ⟨k, hk, hw.job_ne hki ▸ hr, hw.handleOf k⟩

section
variable {s : State} (hs : Canonical s = true) (hb : SlotsBounded s) (h : DispatchExact s) (p : Nat)
include hs h

theorem dispatchExact_interruptJobs : DispatchExact (interruptJobs s p) := by
  refine h.of_released (dispatch_interruptJobs s p) (fun i => ?_) (generation_interruptJobs s p)
  rw [job_interruptJobs hs]
  split
  · rename_i hp
    rw [hp.1]
    exact ⟨nofun, nofun⟩
  · rfl

include hb

theorem dispatchExact_resumeJobs : DispatchExact (resumeJobs s p) := by
  have group : ∀ i, i ∈ resumeGroup s p → i < 2048 := fun i hi =>
    lt_of_mem_slotsOn hb ((sortByKey_perm _ _).mem_iff.1 hi)
  have handles : ∀ i, handleOf (resumeJobs s p) i = handleOf s i := fun i => by
    rw [handleOf, generation_resumeJobs]
    rfl
  have released : ∀ i, (job (resumeJobs s p) i).state = .released ↔ i ∈ resumeGroup s p ∨ (job s i).state = .released := by
    intro i
    rw [job_resumeJobs hs, mem_resumeGroup_iff hs]
    split
    · exact ⟨fun _ => .inl ‹_›, fun _ => rfl⟩
    · exact ⟨.inr, fun h => h.resolve_left ‹_›⟩
  have inj : ∀ i ∈ resumeGroup s p, ∀ k ∈ resumeGroup s p, handleOf s i = handleOf s k → i = k := fun i hi k hk heq =>
    eq_of_handleOf (group i hi) (group k hk) heq
  have mem : ∀ x, x ∈ (resumeGroup s p).map (handleOf s) ↔ ∃ i ∈ resumeGroup s p, x = handleOf s i := fun x => by
    rw [List.mem_map]
    exact exists_congr fun i => and_congr_right fun _ => eq_comm
  refine ⟨?_, fun x => ?_⟩
  · rw [dispatch_resumeJobs]
    refine (List.Nodup.map_on inj (resumeGroup_nodup hs p)).append h.1 fun x hx hx' => ?_
    obtain ⟨i, hi, rfl⟩ := (mem x).1 hx
    obtain ⟨k, hk, hr, heq⟩ := (h.2 _).1 hx'
    have hik : i = k := eq_of_handleOf (group i hi) hk heq
    have := ((mem_resumeGroup_iff hs p).1 hi).1
    rw [hik, hr] at this
    cases this
  · rw [dispatch_resumeJobs, List.mem_append, mem, h.2]
    simp only [released, handles]
    constructor
    · rintro (⟨i, hi, rfl⟩ | ⟨k, hk, hr, rfl⟩)
      · exact ⟨i, group i hi, .inl hi, rfl⟩
      · exact ⟨k, hk, .inr hr, rfl⟩
    · rintro ⟨k, hk, hi | hr, rfl⟩
      · exact .inl ⟨k, hi, rfl⟩
      · exact .inr ⟨k, hk, hr, rfl⟩

end

end Sys2Proof.Machine
end

