-- ==== Sys2Proof/Proofs/LedgerSteps.lean ====
section
/-! PROOFS. Every operation on the ledger keeps its invariants: the Dispatch List exact, the queue counts, the books and the
badge map (R7, R17, R27, R52, R90). -/

namespace Sys2Proof.Machine

/-- What every state that commands reach from full reset satisfies in its ledger. -/
structure Sound (s : State) : Prop where
  canonical : Canonical s = true
  slots     : SlotsBounded s
  dispatch  : DispatchExact s
  balanced  : Balanced s

/-- The fields the ledger's invariants look at. -/
abbrev Field.ledger : List Field := [.accounts, .badgeMap, .jobs, .dispatch, .printers]

theorem looksAt_ledger : LooksAt Field.ledger fun s => SlotsBounded s ∧ DispatchExact s ∧ QueuesCounted s ∧ BooksBalance s
    ∧ BadgesExact s := by
  intro s t h hs
  have accounts : ∀ a, account t a = account s a := fun a => by rw [account, show t.accounts = _ from h .accounts (by decide)]; rfl
  have badges : ∀ b, badgeHolder t b = badgeHolder s b := fun b => by
    rw [badgeHolder, show t.badgeMap = _ from h .badgeMap (by decide)]; rfl
  have jobs : t.jobs = s.jobs := h .jobs (by decide)
  have slots : ∀ i, slot t i = slot s i := fun i => by rw [slot, jobs]; rfl
  have printers : ∀ p, printer t p = printer s p := fun p => by rw [printer, show t.printers = _ from h .printers (by decide)]; rfl
  have dispatch : t.dispatch = s.dispatch := h .dispatch (by decide)
  unfold SlotsBounded DispatchExact QueuesCounted BooksBalance BadgesExact routedTo job handleOf at *
  simpa only [accounts, badges, jobs, slots, printers, dispatch] using hs

theorem sound_iff (s : State) : Sound s ↔ Canonical s = true ∧ SlotsBounded s ∧ DispatchExact s ∧ QueuesCounted s
    ∧ BooksBalance s ∧ BadgesExact s := by
  constructor
  · rintro ⟨hs, hb, hd, h⟩
    exact ⟨hs, hb, hd, (balanced_iff hs).1 h⟩
  · rintro ⟨hs, hb, hd, h⟩
    exact ⟨hs, hb, hd, (balanced_iff hs).2 h⟩

namespace Sound

variable {s : State} (h : Sound s)
include h

theorem of_frame {w : List Field} {t : State} (hw : ∀ f ∈ Field.ledger, f ∉ w) (hf : Frame w s t) (ht : Canonical t = true) :
    Sound t :=
  (sound_iff t).2 ⟨ht, looksAt_ledger.of_frame hf hw ((sound_iff s).1 h).2⟩

theorem putAccount (a : Nat) {r : Account} (hr : (account s a).Alike r) (hres : r.reserved = (account s a).reserved) :
    Sound (putAccount s a r) := by
  have ht := canonical_putAccount h.canonical a r
  have accounts : ∀ x, account (Machine.putAccount s a r) x = if x = a then r else account s x := fun x => account_putAccount s a x r
  refine ⟨ht, h.slots, h.dispatch, h.balanced.of_alike h.canonical ht ⟨fun x => ?_, rfl, fun _ => rfl⟩
    (fun i => .refl _) (fun _ => rfl) fun x => ?_⟩
  · rw [accounts]
    split
    · rename_i hx
      exact hx ▸ hr
    · exact .refl _
  · rw [accounts]
    split
    · rename_i hx
      exact hx ▸ hres
    · rfl

theorem putPrinter (p : Nat) {r : Printer} (he : r.enrolled = (printer s p).enrolled)
    (hq : r.queueCount = (printer s p).queueCount) : Sound (putPrinter s p r) := by
  have ht := canonical_putPrinter h.canonical p r
  have printers : ∀ x, printer (Machine.putPrinter s p r) x = if x = p then r else printer s x := fun x => printer_putPrinter s p x r
  refine ⟨ht, h.slots, h.dispatch, h.balanced.of_alike h.canonical ht ⟨fun _ => .refl _, rfl, fun x => ?_⟩
    (fun i => .refl _) (fun x => ?_) fun _ => rfl⟩
  · rw [printers]
    split
    · rename_i hx
      exact hx ▸ he
    · rfl
  · rw [printers]
    split
    · rename_i hx
      exact hx ▸ hq
    · rfl

/-- A step that changes jobs and the Dispatch List alone, each job alike. -/
theorem of_alike {t : State} (hf : OnlyDispatch s t) (ht : Canonical t = true) (hb : SlotsBounded t)
    (hd : DispatchExact t) (jobs : ∀ i, (job s i).Alike (job t i)) : Sound t := by
  have accounts : ∀ a, account t a = account s a := fun a => by rw [hf]; rfl
  have printers : ∀ p, printer t p = printer s p := fun p => by rw [hf]; rfl
  exact ⟨ht, hb, hd, h.balanced.of_alike h.canonical ht
    ⟨fun a => .of_eq (accounts a), by rw [hf], fun p => by rw [printers]⟩ jobs (fun p => by rw [printers]) fun a => by
    rw [accounts]⟩

theorem interruptJobs (p : Nat) : Sound (interruptJobs s p) := by
  refine h.of_alike (onlyDispatch_interruptJobs s p)
    ((Wrote.refl.foldl (fun _ i h => h.job i _) _).canonical h.canonical) (slotsBounded_interruptJobs h.slots p)
    (dispatchExact_interruptJobs h.canonical h.dispatch p) fun i => ?_
  rw [job_interruptJobs h.canonical]
  split
  · rename_i hp
    exact .of_routed _ (by rw [hp.1]; rfl) rfl
  · exact .refl _

theorem resumeJobs (p : Nat) : Sound (resumeJobs s p) := by
  refine h.of_alike (onlyDispatch_resumeJobs s p) ((Wrote.refl.resumeJobs p).canonical h.canonical)
    (slotsBounded_resumeJobs h.slots p) (dispatchExact_resumeJobs h.canonical h.slots h.dispatch p) fun i => ?_
  rw [job_resumeJobs h.canonical]
  split
  · rename_i hp
    exact .of_routed _ (by rw [hp.1]; rfl) rfl
  · exact .refl _

theorem printerEvent (p : Nat) {f : Printer → Printer} (hf : ∀ r, (f r).enrolled = r.enrolled ∧ (f r).queueCount = r.queueCount) :
    Sound (printerEvent s p f) := by
  have written := h.putPrinter p (hf (printer s p)).1 (hf (printer s p)).2
  have handed : Sound (handToJobs (Machine.putPrinter s p (f (printer s p))) p (printer s p) (f (printer s p))) := by
    by_cases hdown : (printer s p).up = true ∧ (f (printer s p)).down = true
    · rw [handToJobs_of_down _ p hdown.1 hdown.2]
      exact written.interruptJobs p
    · by_cases hup : (printer s p).usable = false ∧ (f (printer s p)).usable = true
      · rw [handToJobs_of_up _ p hup.1 hup.2]
        exact written.resumeJobs p
      · rw [handToJobs_of_still _ p hdown hup]
        exact written
  exact handed.of_frame (by decide) (printerEvent_handed s p f) ((Wrote.refl.printerEvent p f).canonical h.canonical)

/-- A job that is not routed is written with one that is not. -/
theorem putSlot {i : Nat} (hi : i < 2048) (r : Slot) (hold : (job s i).state.routed = false)
    (hnew : r.job.state.routed = false) (hnamed : (job s i).Named s → r.job.Named s) : Sound (putSlot s i r) := by
  have ht := canonical_putSlot h.canonical i r
  have written : job (Machine.putSlot s i r) i = r.job := (job_putSlot s i i r).trans (if_pos rfl)
  have others : ∀ k, k ≠ i → slot (Machine.putSlot s i r) k = slot s k := fun k hk => (slot_putSlot s i k r).trans (if_neg hk)
  have unreleased : ∀ {j : Job}, j.state.routed = false → j.state ≠ .released := fun hr hst => by
    rw [hst] at hr
    cases hr
  refine ⟨ht, slotsBounded_putSlot h.slots hi r, h.dispatch.of_other rfl others (unreleased hold)
    (unreleased (written ▸ hnew)), h.balanced.of_move h.canonical ht ⟨fun _ => .refl _, rfl, fun _ => rfl⟩ others
    (fun hr => ?_) (written ▸ hnamed (h.balanced.named i)) (fun p => ?_) fun a => ?_⟩
  · rw [written, hnew] at hr
    cases hr
  · rw [written, Job.queuedAt_of_unrouted hold, Job.queuedAt_of_unrouted hnew]
    rfl
  · rw [written, Job.heldFor_of_unrouted hold, Job.heldFor_of_unrouted hnew]
    rfl

theorem interruptJob {i : Nat} (hi : i < 2048) (hst : (job s i).state = .printing) : Sound (interruptJob s i) := by
  have written := fun k => job_putJob s i k (interrupted s (job s i))
  refine h.of_alike (onlyDispatch_interruptJob s i) (canonical_putJob h.canonical i _)
    (slotsBounded_putSlot h.slots hi _) (h.dispatch.of_other (i := i) rfl (WroteJob.put s i _).others (by rw [hst]; nofun) ?_)
    fun k => ?_
  · rw [interruptJob_eq, written, if_pos rfl]
    nofun
  · rw [interruptJob_eq, written]
    split
    · rename_i hk
      rw [hk]
      exact .of_routed _ (by rw [hst]; rfl) rfl
    · exact .refl _

/-! ## The money of a routed job -/

/-- Money moves on the accounts a routed job charges, and its part in their reserved with it. -/
theorem of_money {t : State} {i : Nat} (hf : OnlyBooks s t) (hw : WroteJob i s t) (ht : Canonical t = true) (hi : i < 2048)
    (hr : (job s i).state.routed = true) (hst : (job t i).state = (job s i).state)
    (hp : (job t i).printer = (job s i).printer) (hnamed : (job t i).Named s)
    (accounts : ∀ a, ((job s i).Charges a → (account s a).Alike (account t a)
        ∧ (account t a).reserved + (job s i).heldFor a = (account s a).reserved + (job t i).heldFor a)
      ∧ (¬ (job s i).Charges a → account t a = account s a ∧ (job t i).heldFor a = 0)) : Sound t := by
  have printers : ∀ p, printer t p = printer s p := fun p => by rw [hf]; rfl
  refine ⟨ht, hw.bounded hi h.slots, ?_, h.balanced.of_move h.canonical ht ⟨fun a => ?_, by rw [hf], fun p => by rw [printers]⟩
    hw.others (fun hrt => ?_) hnamed (fun p => ?_) fun a => ?_⟩
  · refine h.dispatch.of_released (by rw [hf]) (fun k => ?_) hw.generation
    by_cases hk : k = i
    · rw [hk, hst]
    · rw [hw.job_ne hk]
  · by_cases ha : (job s i).Charges a
    · exact ((accounts a).1 ha).1
    · exact .of_eq ((accounts a).2 ha).1
  · rw [hp]
    exact h.balanced.placed i hr
  · rw [printers, Job.queuedAt, Job.queuedAt, hst, hp]
  · by_cases ha : (job s i).Charges a
    · exact ((accounts a).1 ha).2
    · rw [((accounts a).2 ha).1, ((accounts a).2 ha).2, Job.heldFor_of_uncharged ha]

/-- A charged account as money moves on it: touched, with other figures. -/
theorem alike_moved {i a : Nat} (hne : (job s i).state ≠ .free) (ha : (job s i).Charges a) {r : Account}
    (hr : r = { account (touch s a) a with reserved := r.reserved, used := r.used, warned := r.warned }) :
    (account s a).Alike r := by
  obtain ⟨state, kind, -, badge, dept, -, -⟩ := account_touch_keeps s a a
  rw [hr]
  exact .of_state state (h.balanced.charged hne ha) kind dept badge

theorem commit {i k : Nat} (hi : i < 2048) (hr : (job s i).state.routed = true)
    (hk : (job s i).copiesDone + k ≤ (job s i).copies) : Sound (commit s i k) := by
  have written : job (Machine.commit s i k) i = { job s i with copiesDone := (job s i).copiesDone + k } :=
    (job_commit s i k i).trans (if_pos rfl)
  have hne := ne_free_of_routed hr
  obtain ⟨owner, -, dept⟩ := h.balanced.named i hne
  have accounts := account_commit s i k fun x hx => (dept x hx).1
  refine h.of_money (onlyBooks_commit s i k) (wroteJob_commit s i k) ((Wrote.refl.commit i k).canonical h.canonical) hi hr
    (by rw [written]) (by rw [written]) (by rw [written]; exact fun _ => ⟨owner, hk, dept⟩)
    fun a => ⟨fun ha => ?_, fun ha => ⟨(accounts a).trans (if_neg ha), by rw [written]; exact Job.heldFor_of_uncharged ha⟩⟩
  have moved := (accounts a).trans (if_pos ha)
  refine ⟨h.alike_moved hne ha (by rw [moved]), ?_⟩
  have enough := h.balanced.heldFor_le h.canonical i a
  have reserved : (account (touch s a) a).reserved = (account s a).reserved := (account_touch_keeps s a a).2.2.2.2.2.2
  have split : (job s i).perCopyApplied.getD 0 * ((job s i).copies - (job s i).copiesDone)
      = (job s i).perCopyApplied.getD 0 * k
        + (job s i).perCopyApplied.getD 0 * ((job s i).copies - ((job s i).copiesDone + k)) := by
    rw [← Nat.mul_add]
    congr 1
    omega
  rw [moved, written, Job.heldFor_of_charged hr ha, Job.heldFor_of_charged (by exact hr) (by exact ha), reserved]
  rw [Job.heldFor_of_charged hr ha] at enough
  dsimp only
  omega

theorem returnReservation {i : Nat} (hi : i < 2048) (hr : (job s i).state.routed = true) : Sound (returnReservation s i) := by
  have written : job (Machine.returnReservation s i) i =
      { job s i with perCopyApplied := none, chargedDept := none, forcedMono := false } :=
    (job_returnReservation s i i).trans (if_pos rfl)
  have hne := ne_free_of_routed hr
  obtain ⟨owner, done, dept⟩ := h.balanced.named i hne
  have accounts := account_returnReservation s i fun x hx => (dept x hx).1
  have nothing : ∀ a, (job (Machine.returnReservation s i) i).heldFor a = 0 := fun a => by
    rw [written]
    exact Job.heldFor_of_spent (Nat.zero_mul _) a
  refine h.of_money (onlyBooks_returnReservation s i) (wroteJob_returnReservation s i)
    ((Wrote.refl.returnReservation i).canonical h.canonical) hi hr
    (by rw [written]) (by rw [written]) (by rw [written]; exact fun _ => ⟨owner, done, nofun⟩)
    fun a => ⟨fun ha => ?_, fun ha => ⟨(accounts a).trans (if_neg ha), nothing a⟩⟩
  have moved := (accounts a).trans (if_pos ha)
  refine ⟨h.alike_moved hne ha (by rw [moved]), ?_⟩
  have enough := h.balanced.heldFor_le h.canonical i a
  have reserved : (account (touch s a) a).reserved = (account s a).reserved := (account_touch_keeps s a a).2.2.2.2.2.2
  rw [moved, nothing, Job.heldFor_of_charged hr ha, reserved]
  rw [Job.heldFor_of_charged hr ha] at enough
  dsimp only
  omega

/-! ## Queues -/

/-- A routed job that holds nothing leaves its queue and the Dispatch List. -/
theorem leave {i : Nat} {j : Job} {l : List Nat} (hi : i < 2048) (hr : (job s i).state.routed = true)
    (hspent : (job s i).perCopyApplied.getD 0 * ((job s i).copies - (job s i).copiesDone) = 0)
    (hnew : j.state.routed = false) (hnamed : (job s i).Named s → j.Named s) (hl : Drops s i l) :
    Sound (putJob (lowerQueue { s with dispatch := l } (job s i).printer) i j) := by
  obtain ⟨p, hp, -⟩ := h.balanced.placed i hr
  rw [hp]
  have ht : Canonical (putJob (lowerQueue { s with dispatch := l } (some p)) i j) = true :=
    (((Wrote.refl.dispatch l).lowerQueue (some p)).job i j).canonical h.canonical
  have hw : WroteJob i s (putJob (lowerQueue { s with dispatch := l } (some p)) i j) :=
    (WroteJob.of_jobs (s := s) (t := lowerQueue { s with dispatch := l } (some p)) rfl).trans (.put _ i j)
  have written : job (putJob (lowerQueue { s with dispatch := l } (some p)) i j) i = j := (job_putJob _ i i j).trans (if_pos rfl)
  have printers : ∀ x, printer (putJob (lowerQueue { s with dispatch := l } (some p)) i j) x =
      if x = p then { printer s p with queueCount := (printer s p).queueCount - 1 } else printer s x :=
    printer_lowerQueue { s with dispatch := l } p
  refine ⟨ht, hw.bounded hi h.slots, h.dispatch.of_drops hl hw.others ?_,
    h.balanced.of_move h.canonical ht ⟨fun _ => .refl _, rfl, fun x => ?_⟩ hw.others (fun hrt => ?_)
      (by rw [written]; exact hnamed (h.balanced.named i)) (fun x => ?_) fun a => ?_⟩
  · rw [written]
    intro hst
    rw [hst] at hnew
    cases hnew
  · rw [printers]
    split
    · subst_vars
      rfl
    · rfl
  · rw [written, hnew] at hrt
    cases hrt
  · have count := h.balanced.queuedAt_le h.canonical i p
    rw [printers, written, Job.queuedAt_of_unrouted hnew, Job.queuedAt_of_routed hr, hp]
    rw [Job.queuedAt_of_routed hr, if_pos hp] at count
    by_cases hx : x = p
    · rw [if_pos hx, if_pos (congrArg some hx.symm), hx]
      dsimp only
      omega
    · rw [if_neg hx, if_neg fun heq => hx (Option.some.inj heq).symm]
  · rw [written, Job.heldFor_of_unrouted hnew, Job.heldFor_of_spent hspent]
    rfl

/-- The head of the Dispatch List is dispatched to the printer it names. -/
theorem dispatchJob {x p : Nat} {l : List Nat} (hd : s.dispatch = x :: l) (hp : (job s (x % 2048)).printer = some p) :
    Sound (dispatchJob { s with dispatch := l } (x % 2048) p) := by
  obtain ⟨hi, hst, -⟩ := h.dispatch.head hd
  have hw : WroteJob (x % 2048) s (Machine.dispatchJob { s with dispatch := l } (x % 2048) p) :=
    (WroteJob.of_jobs (s := s) (t := { s with dispatch := l }) rfl).trans (.put _ _ _)
  have written : ∀ k, job (Machine.dispatchJob { s with dispatch := l } (x % 2048) p) k = if k = x % 2048 then
      { job s (x % 2048) with state := .printing, printer := some p } else job s k := fun k =>
    job_putJob { s with dispatch := l } _ k _
  refine h.of_alike rfl (((Wrote.refl.dispatch l).job _ _).canonical h.canonical) (hw.bounded hi h.slots)
    (h.dispatch.of_drops (.head x l rfl hd) hw.others ?_) fun k => ?_
  · rw [written, if_pos rfl]
    nofun
  · rw [written]
    split
    · rename_i hk
      have hr : (job s (x % 2048)).state.routed = true := by rw [hst]; rfl
      rw [hk]
      exact ⟨fun hfree => absurd hfree (ne_free_of_routed hr), hr.symm, fun _ => hp.symm, rfl, rfl, rfl, rfl, rfl⟩
    · exact .refl _

/-- The head of the Dispatch List is dispatched to another printer. -/
theorem rerouteJob {x p : Nat} {l : List Nat} (hd : s.dispatch = x :: l) (he : (printer s p).enrolled = true) :
    Sound (rerouteJob { s with dispatch := l } (x % 2048) p) := by
  obtain ⟨hi, hst, -⟩ := h.dispatch.head hd
  have hr : (job s (x % 2048)).state.routed = true := by rw [hst]; rfl
  obtain ⟨o, ho, -⟩ := h.balanced.placed _ hr
  unfold Machine.rerouteJob
  rw [show (job { s with dispatch := l } (x % 2048)).printer = some o from ho]
  have ht : Canonical (Machine.dispatchJob (raiseQueue (lowerQueue { s with dispatch := l } (some o)) p) (x % 2048) p) = true :=
    ((((Wrote.refl.dispatch l).lowerQueue (some o)).printer p _).job _ _).canonical h.canonical
  have hw : WroteJob (x % 2048) s
      (Machine.dispatchJob (raiseQueue (lowerQueue { s with dispatch := l } (some o)) p) (x % 2048) p) :=
    (WroteJob.of_jobs (s := s) (t := raiseQueue (lowerQueue { s with dispatch := l } (some o)) p) rfl).trans (.put _ _ _)
  have written : job (Machine.dispatchJob (raiseQueue (lowerQueue { s with dispatch := l } (some o)) p) (x % 2048) p) (x % 2048)
      = { job s (x % 2048) with state := .printing, printer := some p } := (job_putJob _ _ _ _).trans (if_pos rfl)
  have lowered := printer_lowerQueue { s with dispatch := l } o
  have printers : ∀ y, printer (Machine.dispatchJob (raiseQueue (lowerQueue { s with dispatch := l } (some o)) p) (x % 2048) p) y
      = if y = p then { printer (lowerQueue { s with dispatch := l } (some o)) p with
          queueCount := (printer (lowerQueue { s with dispatch := l } (some o)) p).queueCount + 1 }
        else printer (lowerQueue { s with dispatch := l } (some o)) y := printer_raiseQueue _ p
  have enrolled : ∀ y, (printer (lowerQueue { s with dispatch := l } (some o)) y).enrolled = (printer s y).enrolled := fun y => by
    rw [lowered]
    split
    · subst_vars
      rfl
    · rfl
  have count := h.balanced.queuedAt_le h.canonical (x % 2048) o
  rw [Job.queuedAt_of_routed hr, if_pos ho] at count
  have counts : ∀ y, (printer (lowerQueue { s with dispatch := l } (some o)) y).queueCount + (job s (x % 2048)).queuedAt y
      = (printer s y).queueCount := fun y => by
    rw [lowered, Job.queuedAt_of_routed hr, ho]
    by_cases hy : y = o
    · rw [if_pos hy, if_pos (congrArg some hy.symm), hy]
      exact Nat.sub_add_cancel count
    · rw [if_neg hy, if_neg fun heq => hy (Option.some.inj heq).symm]
      rfl
  refine ⟨ht, hw.bounded hi h.slots, h.dispatch.of_drops (.head x l rfl hd) hw.others (by rw [written]; nofun),
    h.balanced.of_move h.canonical ht ⟨fun _ => .refl _, rfl, fun y => ?_⟩ hw.others (fun _ => ⟨p, by rw [written], he⟩)
      ?_ (fun y => ?_) fun a => ?_⟩
  · rw [printers]
    split
    · subst_vars
      exact enrolled _
    · exact enrolled y
  · rw [written]
    exact fun _ => h.balanced.named _ (ne_free_of_routed hr)
  · have := counts y
    rw [printers, written, Job.queuedAt_of_routed (j := { job s (x % 2048) with state := .printing, printer := some p }) rfl]
    dsimp only
    by_cases hy : y = p
    · rw [if_pos hy, if_pos (congrArg some hy.symm), ← hy]
      dsimp only
      omega
    · rw [if_neg hy, if_neg fun heq => hy (Option.some.inj heq).symm]
      omega
  · rw [written, Job.heldFor, Job.heldFor, hst]
    rfl

/-- A HELD job is released: reserved for, on the Dispatch List, in its printer's queue. -/
theorem releaseJob {i q p pc : Nat} {mono : Bool} (hi : i < 2048) (hst : (job s i).state = .held)
    (he : (printer s p).enrolled = true) (hok : (reserve s i pc (amountDue pc (job s i)) mono).ok = true) :
    Sound (releaseJob (reserve s i pc (amountDue pc (job s i)) mono).state i q p) := by
  have hne : (job s i).state ≠ .free := by rw [hst]; nofun
  have unrouted : (job s i).state.routed = false := by rw [hst]; rfl
  obtain ⟨owner, done, -⟩ := h.balanced.named i hne
  have dept : ∀ d, (account s (job s i).owner).department = some d → d ≠ (job s i).owner ∧ (account s d).state ≠ .free :=
    fun d hd => have ⟨hne, _, _, hfree, _⟩ := h.balanced.departments _ d hd; ⟨hne, hfree⟩
  have books := onlyBooks_reserve s i pc (amountDue pc (job s i)) mono
  have accounts := account_reserve_of_ok (fun d hd => (dept d hd).1) hok
  have reservedJob := (job_reserve_of_ok hok i).trans (if_pos rfl)
  have reservedSlots := wroteJob_reserve hok
  generalize hm : (reserve s i pc (amountDue pc (job s i)) mono).state = m at *
  have ht : Canonical (Machine.releaseJob m i q p) = true := by
    rw [← hm]
    exact ((Wrote.refl.reserve i pc _ mono).releaseJob i q p).canonical h.canonical
  have hw : WroteJob i s (Machine.releaseJob m i q p) := (reservedSlots.trans (.put m i _)).trans (.of_jobs rfl)
  have written : job (Machine.releaseJob m i q p) i = { job m i with
      state := .released, releasePool := some q, printer := some p, releaseSeq := m.releaseCounter } :=
    (job_putJob m i i _).trans (if_pos rfl)
  rw [reservedJob] at written
  have printers : ∀ x, printer (Machine.releaseJob m i q p) x =
      if x = p then { printer s p with queueCount := (printer s p).queueCount + 1 } else printer s x := fun x => by
    have same : ∀ y, printer m y = printer s y := fun y => by rw [books]; rfl
    rw [← same, ← same]
    exact printer_raiseQueue _ p x
  have charged : ∀ a, (a = (job s i).owner ∨ (account s (job s i).owner).department = some a) →
      (account s a).state ≠ .free := by
    rintro a (rfl | hd)
    · exact owner
    · exact (dept a hd).2
  have held : ∀ a, (job (Machine.releaseJob m i q p) i).heldFor a =
      if a = (job s i).owner ∨ (account s (job s i).owner).department = some a then amountDue pc (job s i) else 0 := fun a => by
    rw [written, Job.heldFor]
    simp only [amountDue, Option.getD_some, JobState.routed, true_and]
  refine ⟨ht, hw.bounded hi h.slots, ?_, h.balanced.of_move h.canonical ht ⟨fun a => ?_, ?_, fun x => ?_⟩ hw.others
    (fun _ => ⟨p, by rw [written], he⟩) ?_ (fun x => ?_) fun a => ?_⟩
  · refine h.dispatch.of_append hi (by rw [hst]; nofun) (by rw [written]) hw ?_
    have : m.dispatch = s.dispatch := by rw [books]
    rw [← this, ← reservedSlots.handleOf i]
    rfl
  · show (account s a).Alike (account m a)
    rw [accounts]
    split
    · rename_i ha
      obtain ⟨state, kind, -, badge, dept, -, -⟩ := account_touch_keeps s a a
      exact .of_state state (charged a ha) kind dept badge
    · exact .refl _
  · show m.badgeMap = _
    rw [books]
  · rw [printers]
    split
    · subst_vars
      rfl
    · rfl
  · rw [written]
    exact fun _ => ⟨owner, done, dept⟩
  · rw [printers, written, Job.queuedAt_of_unrouted unrouted, Job.queuedAt_of_routed rfl]
    dsimp only
    by_cases hx : x = p
    · rw [if_pos hx, if_pos (congrArg some hx.symm), hx]
    · rw [if_neg hx, if_neg fun heq => hx (Option.some.inj heq).symm]
  · show (account m a).reserved + _ = _
    rw [accounts, held, Job.heldFor_of_unrouted unrouted]
    have reserved : (account (touch s a) a).reserved = (account s a).reserved := (account_touch_keeps s a a).2.2.2.2.2.2
    split
    · show (account (touch s a) a).reserved + _ + 0 = _
      rw [reserved]
      rfl
    · rfl

end Sound

end Sys2Proof.Machine
end

