-- ==== Sys2Proof/Proofs/Worked.lean ====
section
/-! PROOFS. The operations that work on the ledger, each once: what a command does to the ledger is a run of them. -/

namespace Sys2Proof.Machine

/-- Slot `i` is the one an operation of a routed job works on: its job is routed, or its handle heads the Dispatch List. -/
def AtHand (s : State) (i : Nat) : Prop :=
  i < 2048 ∧ ((job s i).state.routed = true ∨ ∃ x l, s.dispatch = x :: l ∧ x % 2048 = i)

theorem Sound.routed_of_atHand {s : State} (h : Sound s) {i : Nat} (hi : AtHand s i) : (job s i).state.routed = true := by
  obtain ⟨-, hr | ⟨x, l, hd, rfl⟩⟩ := hi
  · exact hr
  · rw [(h.dispatch.head hd).2.1]
    rfl

/-- `t` comes from `s` by the operations on the ledger, and steps that leave the ledger. -/
inductive Worked (s : State) : State → Prop
  | refl : Worked s s
  | frame {t u : State} {w : List Field} : Frame w t u → (∀ f ∈ Field.ledger, f ∉ w) → Wrote t u → Worked s t → Worked s u
  | account {t : State} (a : Nat) (r : Account) : (account t a).Alike r → r.reserved = (account t a).reserved →
      Worked s t → Worked s (putAccount t a r)
  | event {t : State} (p : Nat) (f : Printer → Printer) :
      (∀ r, (f r).enrolled = r.enrolled ∧ (f r).queueCount = r.queueCount) → Worked s t → Worked s (printerEvent t p f)
  | slot {t : State} (i : Nat) (r : Slot) : i < 2048 → (job t i).state.routed = false → r.job.state.routed = false →
      ((job t i).Named t → r.job.Named t) → Worked s t → Worked s (putSlot t i r)
  | interrupt {t : State} (i : Nat) : i < 2048 → (job t i).state = .printing → Worked s t → Worked s (interruptJob t i)
  | commit {t : State} (i k : Nat) : i < 2048 → (job t i).state.routed = true →
      (job t i).copiesDone + k ≤ (job t i).copies → Worked s t → Worked s (commit t i k)
  | giveBack {t : State} (i : Nat) : AtHand t i → Worked s t → Worked s (returnReservation t i)
  | leave {t : State} (i : Nat) (j : Job) (l : List Nat) : AtHand t i →
      (job t i).perCopyApplied.getD 0 * ((job t i).copies - (job t i).copiesDone) = 0 → j.state.routed = false →
      ((job t i).state ≠ .free → (job t i).Named t → j.Named t) → Drops t i l → Worked s t →
      Worked s (putJob (lowerQueue { t with dispatch := l } (job t i).printer) i j)
  | dispatch {t : State} (x p : Nat) (l : List Nat) : t.dispatch = x :: l → (job t (x % 2048)).printer = some p →
      Worked s t → Worked s (dispatchJob { t with dispatch := l } (x % 2048) p)
  | reroute {t : State} (x p : Nat) (l : List Nat) : t.dispatch = x :: l → (printer t p).enrolled = true →
      Worked s t → Worked s (rerouteJob { t with dispatch := l } (x % 2048) p)
  | release {t : State} (i q p pc : Nat) (mono : Bool) : i < 2048 → (job t i).state = .held →
      (printer t p).enrolled = true → (reserve t i pc (amountDue pc (job t i)) mono).ok = true → Worked s t →
      Worked s (releaseJob (reserve t i pc (amountDue pc (job t i)) mono).state i q p)

/-- The operations keep the slots within the 2,048 (R27). -/
theorem Worked.slots {s t : State} (h : Worked s t) (hs : SlotsBounded s) : SlotsBounded t := by
  induction h with
  | refl => exact hs
  | frame hf hw _ _ ih => exact slotsBounded_of_jobs ih (hf.same .jobs (hw _ (by decide)))
  | account a r _ _ _ ih => exact ih
  | event p f _ _ ih => exact slotsBounded_printerEvent ih p f
  | slot i r hi _ _ _ _ ih => exact slotsBounded_putSlot ih hi r
  | interrupt i hi _ _ ih => exact slotsBounded_putSlot ih hi _
  | commit i k hi _ _ _ ih => exact (wroteJob_commit _ i k).bounded hi ih
  | giveBack i hi _ ih => exact (wroteJob_returnReservation _ i).bounded hi.1 ih
  | @leave t i j l hi _ _ _ _ _ ih =>
    have lowered := (frame_lowerQueue { t with dispatch := l } (job t i).printer).same .jobs (by decide)
    exact slotsBounded_putSlot (slotsBounded_of_jobs ih lowered) hi.1 _
  | @dispatch t x p l _ _ _ ih =>
    exact slotsBounded_putSlot (s := { t with dispatch := l }) ih (Nat.mod_lt _ (by decide)) _
  | @reroute t x p l _ _ _ ih =>
    have lowered := (frame_lowerQueue { t with dispatch := l } (job t (x % 2048)).printer).same .jobs (by decide)
    exact slotsBounded_putSlot (slotsBounded_of_jobs ih lowered) (Nat.mod_lt _ (by decide)) _
  | release i q p pc mono hi _ _ hok _ ih => exact slotsBounded_putSlot ((wroteJob_reserve hok).bounded hi ih) hi _

/-- The operations keep the ledger sound. -/
theorem Worked.sound {s t : State} (h : Worked s t) (hs : Sound s) : Sound t := by
  induction h with
  | refl => exact hs
  | frame hf hw hwrote _ ih => exact ih.of_frame hw hf (hwrote.canonical ih.canonical)
  | account a r hr hres _ ih => exact ih.putAccount a hr hres
  | event p f hf _ ih => exact ih.printerEvent p hf
  | slot i r hi hold hnew hnamed _ ih => exact ih.putSlot hi r hold hnew hnamed
  | interrupt i hi hst _ ih => exact ih.interruptJob hi hst
  | commit i k hi hr hk _ ih => exact ih.commit hi hr hk
  | giveBack i hi _ ih => exact ih.returnReservation hi.1 (ih.routed_of_atHand hi)
  | leave i j l hi hspent hnew hnamed hl _ ih =>
    have hr := ih.routed_of_atHand hi
    exact ih.leave hi.1 hr hspent hnew (hnamed (ne_free_of_routed hr)) hl
  | dispatch x p l hd hp _ ih => exact ih.dispatchJob hd hp
  | reroute x p l hd he _ ih => exact ih.rerouteJob hd he
  | release i q p pc mono hi hst he hok _ ih => exact ih.releaseJob hi hst he hok

/-! ## Operations made of these -/

/-- What a failed attempt leaves: touches (R45). -/
theorem attempt_of_failure {s : State} {i q : Nat} {need : Need} {mono : Bool} {f : PickResult}
    (h : (attempt s i q need mono).failure = some f) :
    (attempt s i q need mono).state = s
    ∨ (attempt s i q need mono).state = touchOpt (touch (touch s (job s i).owner) (job s i).owner)
        (account (touch s (job s i).owner) (job s i).owner).department := by
  obtain ⟨-, -, hs⟩ | ⟨-, -, -, -, hs⟩ | ⟨-, -, -, hok, -, hs⟩ | ⟨-, -, -, -, hnone, -⟩ := attempt_cases s i q need mono
  · exact .inl hs
  · exact .inl hs
  · refine .inr (hs.trans ?_)
    rw [reserve_of_unfit hok, (onlyAccounts_touch s _).job]
  · rw [hnone] at h
    cases h

theorem onlyAccounts_attempt {s : State} {i q : Nat} {need : Need} {mono : Bool} {f : PickResult}
    (h : (attempt s i q need mono).failure = some f) : OnlyAccounts s (attempt s i q need mono).state := by
  obtain hs | hs := attempt_of_failure h
  · rw [hs]
    exact .refl s
  · rw [hs]
    exact ((onlyAccounts_touch s _).trans (onlyAccounts_touch _ _)).trans (onlyAccounts_touchOpt _ _)

/-- The first attempt of a release decision (R45). -/
def firstAttempt (s : State) (i q : Nat) : Attempt := attempt s i q (if 0 < (job s i).sidesColour then .colour else .mono) false

/-- A release decision ends with its first attempt, or with the mono fallback where that is allowed (R45 to R48). -/
theorem decideSlot_cases (s : State) (i q : Nat) :
    let first := firstAttempt s i q
    let second := attempt first.state i q .mono true
    (first.failure = none
      ∧ decideSlot s i q = { state := first.state, result := .released, warning := first.warning })
    ∨ (∃ f, first.failure = some f ∧ fallbackAllowed first.state (job s i) = false
      ∧ decideSlot s i q = { state := first.state, result := f, warning := false })
    ∨ (∃ f, first.failure = some f ∧ fallbackAllowed first.state (job s i) = true ∧ second.failure = none
      ∧ decideSlot s i q = { state := second.state, result := .releasedMono, warning := second.warning })
    ∨ ∃ f g, first.failure = some f ∧ fallbackAllowed first.state (job s i) = true ∧ second.failure = some g
      ∧ decideSlot s i q = { state := second.state, result := g, warning := false } := by
  dsimp only
  have shape : decideSlot s i q =
      match (firstAttempt s i q).failure with
      | none => { state := (firstAttempt s i q).state, result := .released, warning := (firstAttempt s i q).warning }
      | some f =>
        if !fallbackAllowed (firstAttempt s i q).state (job s i) then
          { state := (firstAttempt s i q).state, result := f, warning := false }
        else
          match (attempt (firstAttempt s i q).state i q .mono true).failure with
          | none =>
            { state := (attempt (firstAttempt s i q).state i q .mono true).state, result := .releasedMono
              warning := (attempt (firstAttempt s i q).state i q .mono true).warning }
          | some g =>
            { state := (attempt (firstAttempt s i q).state i q .mono true).state, result := g, warning := false } := rfl
  rw [shape]
  generalize firstAttempt s i q = first
  cases hf : first.failure with
  | none => exact .inl ⟨rfl, rfl⟩
  | some f =>
    refine .inr ?_
    cases ha : fallbackAllowed first.state (job s i) with
    | false => exact .inl ⟨f, rfl, rfl, rfl⟩
    | true =>
      refine .inr ?_
      generalize attempt first.state i q .mono true = second
      cases hg : second.failure with
      | none => exact .inl ⟨f, rfl, rfl, rfl, rfl⟩
      | some g => exact .inr ⟨f, g, rfl, rfl, rfl, rfl⟩

theorem enrolled_of_candidate {r : Printer} {need : Need} (h : r.candidate need = true) : r.enrolled = true := by
  have usable := ((Printer.candidate_iff r need).1 h).1
  cases he : r.enrolled with
  | true => rfl
  | false =>
    rw [Printer.usable_iff, Printer.derived_of_not_enrolled he] at usable
    obtain ⟨h | h, -⟩ := usable <;> cases h

theorem touch_dispatch (s : State) (l : List Nat) (a : Nat) :
    touch { s with dispatch := l } a = { touch s a with dispatch := l } := by
  by_cases h : (account s a).state = .free
  · rw [touch_of_free h]
    exact touch_of_free h
  · unfold touch
    rw [if_neg h]
    exact if_neg h

/-- Return does not look at the Dispatch List. -/
theorem returnReservation_dispatch (s : State) (l : List Nat) (i : Nat) :
    returnReservation { s with dispatch := l } i = { returnReservation s i with dispatch := l } := by
  have hjob : job { s with dispatch := l } i = job s i := rfl
  unfold returnReservation
  rw [hjob]
  dsimp only
  rw [touch_dispatch]
  cases (job s i).chargedDept with
  | none => rfl
  | some d =>
    simp only [touchOpt]
    rw [touch_dispatch]
    rfl

theorem dispatch_returnReservation (s : State) (i : Nat) : (returnReservation s i).dispatch = s.dispatch :=
  (frame_returnReservation s i).same .dispatch (by decide)

/-- The job a revert writes (R33). -/
def reverted (s : State) (j : Job) : Job :=
  { j with
    printer := none, releasePool := none, resumeDeadline := none
    state := if j.expiresAt ≤ s.seconds then .expired else .held
    outcome := if j.expiresAt ≤ s.seconds then some .expiredUnreleased else j.outcome }

theorem revertJob_eq (s : State) (i : Nat) : revertJob s i = putJob s i (reverted s (job s i)) := by
  unfold revertJob reverted
  dsimp only
  split <;> rfl

theorem reverted_unrouted (s : State) (j : Job) : (reverted s j).state.routed = false := by
  unfold reverted
  dsimp only
  split <;> rfl

namespace Worked

variable {s t : State}

theorem ite {c : Prop} [Decidable c] {u : State} (ht : Worked s t) (hu : Worked s u) : Worked s (if c then t else u) := by
  split
  · exact ht
  · exact hu

variable (h : Worked s t)
include h

theorem touch (a : Nat) : Worked s (touch t a) := by
  unfold Machine.touch
  split
  · exact h
  · rename_i hfree
    exact h.account a _ (.of_state (rolledOver_state _ _) hfree (rolledOver_kind _ _) (rolledOver_department _ _)
      (rolledOver_badge _ _)) (rolledOver_reserved _ _)

theorem touchOpt (o : Option Nat) : Worked s (touchOpt t o) := by
  cases o with
  | none => exact h
  | some a => exact h.touch a

/-! ### Giving up a release -/

/-- Return, then out of the queue, off the Dispatch List and into a state that is not routed. -/
theorem giveUp {i : Nat} (hi : AtHand t i) {j : Job} {l : List Nat} (hnew : j.state.routed = false)
    (hnamed : ∀ u, (job (returnReservation t i) i).state ≠ .free → (job (returnReservation t i) i).Named u → j.Named u)
    (hl : Drops (returnReservation t i) i l) :
    Worked s (putJob (lowerQueue { returnReservation t i with dispatch := l } (job t i).printer) i j) := by
  have returned := (job_returnReservation t i i).trans (if_pos rfl)
  have hi' : AtHand (returnReservation t i) i := by
    refine ⟨hi.1, hi.2.imp (fun hr => ?_) fun ⟨x, l, hd, hx⟩ => ⟨x, l, (dispatch_returnReservation t i).trans hd, hx⟩⟩
    rw [returned]
    exact hr
  have left := (h.giveBack i hi).leave i j l hi' (by rw [returned]; exact Nat.zero_mul _) hnew (hnamed _) hl
  rwa [returned] at left

theorem cancelRouted {i : Nat} (hi : i < 2048) (hst : (job t i).state = .released ∨ (job t i).state = .interrupted) :
    Worked s (cancelRouted t i) := by
  have hr : (job t i).state.routed = true := by
    obtain hst | hst := hst <;> rw [hst] <;> rfl
  have returned := (job_returnReservation t i i).trans (if_pos rfl)
  have lowered : ∀ l, job (lowerQueue { returnReservation t i with dispatch := l } (job t i).printer) i
      = job (returnReservation t i) i := fun l => (frame_lowerQueue _ _).job i (by decide)
  have given := fun l hl => h.giveUp (j := { job (returnReservation t i) i with
      resumeDeadline := none, state := .cancelled, outcome := some .cancelledByUser }) (l := l) ⟨hi, .inl hr⟩ rfl
    (fun _ hne hn _ => hn hne) hl
  unfold Machine.cancelRouted
  dsimp only
  by_cases hrel : (job t i).state = .released
  · rw [if_pos hrel, returnReservation_dispatch, lowered]
    refine given _ (.off _ hi ?_)
    rw [dispatch_returnReservation, (wroteJob_returnReservation t i).handleOf]
  · rw [if_neg hrel]
    have := given _ (.absent (by rw [returned]; exact hrel))
    rwa [← lowered] at this

theorem cancelAtPrinter {i : Nat} (hi : i < 2048) (hst : (job t i).state = .printing ∨ (job t i).state = .interrupted) :
    Worked s (cancelAtPrinter t i) := by
  have hr : (job t i).state.routed = true := by
    obtain hst | hst := hst <;> rw [hst] <;> rfl
  have returned := (job_returnReservation t i i).trans (if_pos rfl)
  have lowered : job (lowerQueue (returnReservation t i) (job t i).printer) i = job (returnReservation t i) i :=
    (frame_lowerQueue _ _).job i (by decide)
  unfold Machine.cancelAtPrinter
  dsimp only
  rw [lowered]
  refine h.giveUp ⟨hi, .inl hr⟩ rfl (fun _ hne hn _ => hn hne) (.absent ?_)
  rw [returned]
  obtain hst | hst := hst <;> rw [hst] <;> nofun

/-- A release given up reverts the job (R101, R112). -/
theorem giveUpRelease {i : Nat} (hi : AtHand t i) {l : List Nat} (hl : Drops (returnReservation t i) i l) :
    Worked s (giveUpRelease { t with dispatch := l } i) := by
  have lowered : job (lowerQueue { returnReservation t i with dispatch := l } (job t i).printer) i
      = job (returnReservation t i) i := (frame_lowerQueue _ _).job i (by decide)
  unfold Machine.giveUpRelease
  rw [returnReservation_dispatch, revertJob_eq]
  rw [show (job { t with dispatch := l } i).printer = (job t i).printer from rfl, lowered]
  exact h.giveUp hi (reverted_unrouted _ _) (fun _ hne hn _ => hn hne) hl

theorem endWindow {i : Nat} (hi : i < 2048) : Worked s (endWindow t i) := by
  unfold Machine.endWindow
  split
  · rename_i hst
    have hr : (job t i).state.routed = true := by rw [hst.1]; rfl
    have returned := (job_returnReservation t i i).trans (if_pos rfl)
    refine h.giveUpRelease ⟨hi, .inl hr⟩ (l := t.dispatch) ?_
    rw [← dispatch_returnReservation t i]
    refine .absent ?_
    rw [returned, hst.1]
    nofun
  · exact h

/-! ### Copies -/

theorem consume (i k : Nat) : Worked s (consume t i k) := by
  unfold Machine.consume
  split
  · exact h
  · exact h.event _ _ fun _ => ⟨rfl, rfl⟩

theorem reportCopies {i k : Nat} (hi : i < 2048) (hr : (job t i).state.routed = true)
    (hk : k ≠ 0 → (job t i).copiesDone + k ≤ (job t i).copies) : Worked s (reportCopies t i k) := by
  unfold Machine.reportCopies
  split
  · exact h
  · exact (h.commit i k hi hr (hk ‹_›)).consume i k

end Worked

end Sys2Proof.Machine
end

