-- ==== Sys2Proof/Proofs/LedgerCommands.lean ====
section
/-! PROOFS. What each command does to the ledger; the Dispatch List, the queue counts, the books and the badge map through
every step (R7, R17, R27, R52, R90). -/

namespace Sys2Proof.Machine

namespace Worked

variable {s t : State} (h : Worked s t)
include h

/-! ### Releases -/

theorem attempt {i q : Nat} (hi : i < 2048) (hst : (job t i).state = .held) (need : Need) (mono : Bool) :
    Worked s (attempt t i q need mono).state := by
  obtain ⟨-, -, hs⟩ | ⟨-, -, -, -, hs⟩ | ⟨-, -, -, hok, -, hs⟩ | ⟨p, hroute, -, hok, -, hs, -⟩ := attempt_cases t i q need mono
  · rw [hs]
    exact h
  · rw [hs]
    exact h
  · rw [hs, reserve_of_unfit hok]
    exact ((h.touch _).touch _).touchOpt _
  · have touched := (onlyAccounts_touch t (job t i).owner).job i
    have enrolled : (printer (Machine.touch t (job t i).owner) p).enrolled = true := by
      rw [(frame_touch t _).printer p (by decide)]
      exact enrolled_of_candidate (route_some hroute).1
    have released := fun pc hok =>
      Worked.release i q p pc mono hi (touched.symm ▸ hst) enrolled hok (h.touch (job t i).owner)
    rw [touched] at released
    rw [hs]
    exact released _ hok

theorem decideSlot {i q : Nat} (hi : i < 2048) (hst : (job t i).state = .held) : Worked s (decideSlot t i q).state := by
  have first : Worked s (firstAttempt t i q).state := h.attempt hi hst _ _
  have second : ∀ f, (firstAttempt t i q).failure = some f →
      Worked s (Machine.attempt (firstAttempt t i q).state i q .mono true).state := fun f hf =>
    first.attempt hi (((onlyAccounts_attempt hf).job i).symm ▸ hst) _ _
  obtain ⟨-, hd⟩ | ⟨f, -, -, hd⟩ | ⟨f, hf, -, -, hd⟩ | ⟨f, g, hf, -, -, hd⟩ := decideSlot_cases t i q
  · rw [hd]
    exact first
  · rw [hd]
    exact first
  · rw [hd]
    exact second f hf
  · rw [hd]
    exact second f hf

theorem decideRelease (x a q : Nat) : Worked s (decideRelease t x a q).state := by
  unfold Machine.decideRelease
  split
  · exact h
  · rename_i i hres
    split
    · exact h.decideSlot (slot_lt_of_resolve hres) ((listed_iff _ _ _).1 ‹_›).1
    · exact h

theorem decideAll (a q : Nat) : Worked s (decideAll t a q).state := by
  have folded : ∀ (l : List Nat) (r : AllResult), Worked s r.state →
      Worked s (l.foldl (fun r x => r.add (Machine.decideRelease r.state x a q)) r).state := by
    intro l
    induction l with
    | nil => exact fun r hr => hr
    | cons x l ih => exact fun r hr => ih _ (hr.decideRelease x a q)
  exact folded _ _ h

/-! ### Taking work -/

theorem takeFrom (n : Nat) (l : List Nat) (hd : t.dispatch = l) : Worked s (takeFrom t n l).state := by
  induction l generalizing t n with
  | nil =>
    have : ({ t with dispatch := [] } : State) = t := by rw [← hd]
    exact this.symm ▸ h
  | cons x rest ih =>
    unfold Machine.takeFrom
    dsimp only
    split
    · rename_i hfits
      obtain ⟨p, hp⟩ : ∃ p, (job t (x % 2048)).printer = some p := by
        cases hp : (job t (x % 2048)).printer with
        | none =>
          simp [fits, hp] at hfits
        | some p => exact ⟨p, rfl⟩
      have dispatched := h.dispatch x p rest hd hp
      rwa [hp]
    · split
      · exact h.reroute x _ rest hd (enrolled_of_candidate (route_some ‹_›).1)
      · have hhead : (returnReservation t (x % 2048)).dispatch = x :: rest := (dispatch_returnReservation t _).trans hd
        exact ih (h.giveUpRelease ⟨Nat.mod_lt _ (by decide), .inr ⟨x, rest, hd, rfl⟩⟩ (.head x rest rfl hhead)) _
          ((frame_giveUpRelease _ _).same .dispatch (by decide))

/-! ### Loops and visits -/

theorem loopSide {u : State} (hf : Frame (.sent :: Field.loopSide) t u) (hw : Wrote t u) : Worked s u :=
  h.frame hf (by decide) hw

theorem showList (n : Nat) (v : Visit) (asked : Nat) : Worked s (showList t n v asked) :=
  ((h.touch v.account).loopSide ((frame_putVisit _ _ _).mono (by decide)) (.visit n _ .refl)).loopSide
    ((frame_pend _ _ _).mono (by decide)) (Wrote.refl.pend n _)

theorem showResult (n : Nat) (v : Visit) (r : ResultPart) : Worked s (showResult t n v r) :=
  ((h.touch v.account).loopSide ((frame_putVisit _ _ _).mono (by decide)) (.visit n _ .refl)).loopSide
    ((frame_pend _ _ _).mono (by decide)) (Wrote.refl.pend n _)

theorem endVisit (n : Nat) (d : Display) : Worked s (endVisit t n d) :=
  h.loopSide ((frame_endVisit t n d).mono (by decide)) (Wrote.refl.endVisit n d)

theorem takeBadge (n b : Nat) : Worked s (takeBadge t n b) := by
  have refused : ∀ {u : State} (d : Display), Worked s u → Worked s (pend (dropVisit u n) n d) := fun {u} d hu =>
    hu.loopSide ((frame_putVisit u n none).comp (frame_pend _ n d) (by decide)) ((Wrote.refl.visit n none).pend n d)
  unfold Machine.takeBadge
  split
  · exact refused _ h
  · exact refused _ (h.touch _)
  · rename_i a _
    have ended : Worked s (endOtherVisit (Machine.touch t a) a n) := by
      unfold endOtherVisit
      split
      · exact h.touch a
      · exact (h.touch a).ite ((h.touch a).endVisit _ _)
    exact (ended.loopSide ((frame_putVisit _ n none).mono (by decide)) (.visit n none .refl)).showList n _ 0

theorem pickEvery (n : Nat) (v : Visit) : Worked s (pickEvery t n v) := (h.decideAll _ _).showResult n v _

theorem takePick (n entry : Nat) : Worked s (takePick t n entry) := by
  unfold Machine.takePick
  split
  · exact h
  · refine ite (h.pickEvery n _) ?_
    unfold pickOne
    split
    · exact h.showResult n _ _
    · exact (h.decideRelease _ _ _).showResult n _ _

theorem takePickAll (n : Nat) : Worked s (takePickAll t n) := by
  unfold Machine.takePickAll
  split
  · exact h
  · exact h.pickEvery n _

theorem takeMore (n : Nat) : Worked s (takeMore t n) := by
  unfold Machine.takeMore
  split
  · exact h
  · exact h.showList n _ _

/-- A collected message works on the ledger as its effect does. -/
theorem fetch {effect : State → State} (he : ∀ {u}, Worked s u → Worked s (effect u)) (l a : Nat) (accept : Bool) :
    Worked s (fetch t l a accept effect) := by
  unfold Machine.fetch
  split
  · exact h
  · have asked : ∀ frames, Worked s (transmit t frames) := fun frames =>
      h.loopSide ((frame_transmit t frames).mono (by decide)) (Wrote.refl.transmit frames)
    refine loopSide (ite ?_ (asked _)) ((frame_setTurns _ _ _).mono (by decide)) (Wrote.refl.setTurns _ _)
    exact he ((asked _).loopSide ((frame_putTerminal _ _ _).mono (by decide)) (.terminal _ _ .refl))

/-! ### The Callout Controller and the survey -/

theorem orderDue (p : Nat) : Worked s (orderDue t p) := h.event p Printer.order fun _ => ⟨rfl, rfl⟩

theorem retireCallout (p : Nat) (k : CondKind) (c : Callout) : Worked s (retireCallout t p k c) := by
  have callouts : ∀ {u v : State}, Frame [.callouts, .desks, .classes] u v → Wrote u v → Worked s u → Worked s v :=
    fun hf hw hu => hu.frame hf (by decide) hw
  unfold Machine.retireCallout
  dsimp only
  have left : ∀ u, u = t ∨ (∃ d r, u = putDesk t d r) → Worked s (putCallout u p k none) := by
    rintro u (rfl | ⟨d, r, rfl⟩)
    · exact callouts ((frame_putCallout _ _ _ _).mono (by decide)) (.callout _ _ _ .refl) h
    · exact callouts ((frame_putDesk t d r).comp (frame_putCallout _ _ _ _) (by decide))
        (.callout _ _ _ (.desk _ _ .refl)) h
  have ordered : ∀ u, u = t ∨ (∃ d r, u = putDesk t d r) →
      Worked s (if k = .tonerReorder then Machine.orderDue (putCallout u p k none) p else putCallout u p k none) :=
    fun u hu => ite ((left u hu).orderDue p) (left u hu)
  have final : ∀ u, u = t ∨ (∃ d r, u = putDesk t d r) →
      let v := if k = .tonerReorder then Machine.orderDue (putCallout u p k none) p else putCallout u p k none
      Worked s (if reRaises v p k c = true then raiseCallout v p k else v) := fun u hu =>
    ite (callouts ((frame_putCallout _ p k _).mono (by decide)) (.callout _ _ _ .refl) (ordered u hu)) (ordered u hu)
  cases c.state with
  | pending => exact final t (.inl rfl)
  | inService => exact final _ (.inr ⟨_, _, rfl⟩)

theorem takeCallout (d p : Nat) (k : CondKind) (c : Callout) : Worked s (takeCallout t d p k c) := by
  have rotated : Worked s (rotateBase t c.cls p) := by
    unfold rotateBase
    split
    · exact h
    · exact h.frame (w := [.classes]) rfl (by decide) (.classRec _ _ .refl)
  unfold Machine.takeCallout
  dsimp only
  refine ite (rotated.retireCallout p k c) ?_
  have served : Worked s (putInService (rotateBase t c.cls p) d p k c) :=
    rotated.frame ((frame_putCallout _ p k _).comp (w := [.callouts, .desks]) (frame_putDesk _ d _) (by decide)) (by decide)
      (.desk _ _ (.callout _ _ _ .refl))
  exact ite (served.orderDue p) served

theorem surveyOnce : Worked s (surveyOnce t) := by
  have survey : ∀ {u : State} (v : Survey), Worked s u → Worked s { u with survey := v } := fun v hu =>
    hu.frame (frame_survey _ v) (by decide) (Wrote.refl.survey v)
  unfold Machine.surveyOnce
  split
  · exact h
  · split
    · exact survey _ h
    · rename_i p _
      have visited : Worked s (visitPrinter t p) := h.event p _ fun _ => ⟨rfl, rfl⟩
      dsimp only
      split
      · exact survey _ (survey _ visited)
      · exact survey _ visited

end Worked

end Sys2Proof.Machine
end

