-- ==== Sys2Proof/Proofs/LedgerInvariants.lean ====
section
/-! PROOFS. The Dispatch List, the queue counts, the slots, the books and the badge map through every step. -/

namespace Sys2Proof.Machine

/-! ## The four commands that open and close records of the ledger -/

/-- A command that loads or retires an account, or enrolls or retires a printer. -/
def opensRecords : Instr → Bool
  | .loadAccount .. | .retireAccount .. | .enrollPrinter .. | .retirePrinter .. => true
  | _ => false

theorem jobNames_iff {s : State} (hs : Canonical s = true) (a : Nat) :
    jobNames s a = true ↔ ∃ i, (job s i).state ≠ .free ∧ (a = (job s i).owner ∨ (job s i).chargedDept = some a) := by
  simp only [jobNames, List.any_eq_true, Bool.and_eq_true, bne_iff_ne, Bool.or_eq_true, beq_iff_eq, eq_comm (a := a)]
  constructor
  · rintro ⟨e, he, h⟩
    refine ⟨e.1, ?_⟩
    rwa [job_eq_of_mem hs he]
  · rintro ⟨i, hne, h⟩
    refine ⟨(i, slot s i), (mem_jobs_iff hs i _).2 ⟨rfl, fun hfree => hne ?_⟩, hne, h⟩
    rw [job, hfree]

theorem printerNamed_iff {s : State} (hs : Canonical s = true) (p : Nat) :
    printerNamed s p = true ↔ ∃ i, (job s i).state.routed = true ∧ (job s i).printer = some p := by
  simp only [printerNamed, List.any_eq_true, Bool.and_eq_true, beq_iff_eq]
  constructor
  · rintro ⟨e, he, h⟩
    refine ⟨e.1, ?_⟩
    rwa [job_eq_of_mem hs he]
  · rintro ⟨i, hr, hp⟩
    refine ⟨(i, slot s i), (mem_jobs_iff hs i _).2 ⟨rfl, fun hfree => ?_⟩, hr, hp⟩
    rw [job, hfree] at hr
    cases hr

namespace Sound

variable {s : State} (h : Sound s)
include h

/-- The queue count of a printer no routed job names is 0. -/
theorem queueCount_eq_zero {p : Nat} (hno : ∀ i, (job s i).state.routed = true → (job s i).printer ≠ some p) :
    (printer s p).queueCount = 0 := by
  rw [h.balanced.queue p]
  refine jobTotal_eq_zero (f := Job.queuedAt p) rfl h.canonical fun i => ?_
  cases hr : (job s i).state.routed with
  | false => exact Job.queuedAt_of_unrouted hr p
  | true => rw [Job.queuedAt_of_routed hr, if_neg (hno i hr)]

/-- The reserved of an account no job names is 0. -/
theorem reserved_eq_zero {a : Nat} (hno : jobNames s a = false) : (account s a).reserved = 0 := by
  rw [h.balanced.reserved a]
  refine jobTotal_eq_zero (f := Job.heldFor a) rfl h.canonical fun i => if_neg fun ⟨hr, ha⟩ => ?_
  rw [(jobNames_iff h.canonical a).2 ⟨i, ne_free_of_routed hr, ha⟩] at hno
  cases hno

/-- A printer record written whose enrolment no routed job depends on. -/
theorem writePrinter {p : Nat} (hno : ∀ i, (job s i).state.routed = true → (job s i).printer ≠ some p) {r : Printer}
    (hq : r.queueCount = 0) : Sound (Machine.putPrinter s p r) := by
  have ht := canonical_putPrinter h.canonical p r
  have printers : ∀ x, printer (Machine.putPrinter s p r) x = if x = p then r else printer s x := fun x => printer_putPrinter s p x r
  have jobs : ∀ i, job (Machine.putPrinter s p r) i = job s i := fun _ => rfl
  refine ⟨ht, h.slots, h.dispatch, ⟨fun i hr => ?_, fun x => ?_, h.balanced.reserved, h.balanced.named,
    h.balanced.departments, h.balanced.badges⟩⟩
  · obtain ⟨x, hx, he⟩ := h.balanced.placed i hr
    refine ⟨x, hx, ?_⟩
    rw [printers, if_neg fun heq => hno i hr (by rw [← heq]; exact hx)]
    exact he
  · have total : jobTotal (Job.queuedAt x) (Machine.putPrinter s p r) = jobTotal (Job.queuedAt x) s := rfl
    rw [printers, total, ← h.balanced.queue x]
    split
    · rename_i hx
      rw [hx, hq, h.queueCount_eq_zero hno]
    · rfl

theorem retirePrinterRule (p : Nat) : Sound (retirePrinterRule p s).state := by
  unfold Machine.retirePrinterRule
  split
  · exact h
  · split
    · exact h
    · rename_i hnamed
      have hno : ∀ i, (job s i).state.routed = true → (job s i).printer ≠ some p := fun i hr hp =>
        hnamed ((printerNamed_iff h.canonical p).2 ⟨i, hr, hp⟩)
      have left := (frame_leavePools s p).comp (w := [.pools, .callouts, .desks]) (frame_deleteCallouts _ p) (by decide)
      have cleared := h.of_frame (by decide) left (((Wrote.refl.leavePools p).deleteCallouts p).canonical h.canonical)
      refine cleared.writePrinter (fun i => ?_) rfl
      rw [left.job i (by decide)]
      exact hno i

theorem enrollPrinterRule (f : EnrollFields) : Sound (enrollPrinterRule f s).state := by
  unfold Machine.enrollPrinterRule
  split
  · split
    · exact h
    · split
      · exact h
      · split
        · unfold reEnroll
          dsimp only
          split
          · exact h
          · exact h.putPrinter _ rfl rfl
        · rename_i hnot
          refine h.writePrinter (fun i hr hp => hnot ?_) rfl
          obtain ⟨x, hx, he⟩ := h.balanced.placed i hr
          cases hp.symm.trans hx
          exact he
  · exact h

/-- An account record written, with its badge moved: what the rest of the ledger needs of the new record. -/
theorem writeAccount {a : Nat} {r : Account} (hres : r.reserved = (account s a).reserved)
    (hnames : jobNames s a = true → r.state ≠ .free)
    (husers : userNames s a = true → r.state ≠ .free ∧ r.kind = .department)
    (hdept : ∀ d, r.department = some d → d ≠ a ∧ r.state ≠ .free ∧ r.kind = .user
      ∧ (account s d).state ≠ .free ∧ (account s d).kind = .department)
    (hbadge : ∀ b, r.badge = some b → ∀ x, badgeHolder s b = some x → x = a) (hfree : r.state = .free → r = {}) :
    Sound (Machine.putAccount (moveBadge s a (account s a).badge r.badge) a r) := by
  have moved := canonical_moveBadge h.canonical a (account s a).badge r.badge
  have ht := canonical_putAccount moved a r
  obtain ⟨t, hteq⟩ : ∃ t, t = Machine.putAccount (moveBadge s a (account s a).badge r.badge) a r := ⟨_, rfl⟩
  rw [← hteq] at ht ⊢
  have accounts : ∀ x, account t x = if x = a then r else account s x := fun x => by
    rw [hteq, account_putAccount, account_moveBadge]
  have badges : ∀ b, badgeHolder t b =
      if r.badge = some b then some a else if (account s a).badge = some b then none else badgeHolder s b := fun b => by
    rw [hteq, badgeHolder_putAccount, badgeHolder_moveBadge]
  have books : Frame [.accounts, .badgeMap] s t := by
    rw [hteq]
    exact (frame_moveBadge s a _ _).comp (frame_putAccount _ a r) (by decide)
  have totals : ∀ f, jobTotal f t = jobTotal f s := fun f => jobTotal_of_jobs (books.same .jobs (by decide))
  obtain ⟨exact, free⟩ := h.balanced.badges
  refine ⟨ht, slotsBounded_of_jobs h.slots (books.same .jobs (by decide)),
    h.dispatch.of_released (books.same .dispatch (by decide)) (fun i => by rw [books.job i (by decide)])
      (fun i => by rw [books.slot i (by decide)]), ⟨fun i => ?_, fun p => ?_, fun x => ?_, fun i hne => ?_, fun x d hd => ?_, ?_⟩⟩
  · rw [books.job i (by decide)]
    exact (h.balanced.placed i).mono fun p => by rw [books.printer p (by decide)]
  · rw [books.printer p (by decide), totals]
    exact h.balanced.queue p
  · rw [accounts, totals, ← h.balanced.reserved x]
    split
    · rename_i hx
      rw [hx, hres]
    · rfl
  · rw [books.job i (by decide)] at hne ⊢
    obtain ⟨owner, done, dept⟩ := h.balanced.named i hne
    have standing : ∀ x, ((job s i).owner = x ∨ (job s i).chargedDept = some x) → (account s x).state ≠ .free →
        (account t x).state ≠ .free := by
      intro x hx hnf
      rw [accounts]
      split
      · rename_i heq
        exact hnames ((jobNames_iff h.canonical a).2 ⟨i, hne, heq ▸ hx.imp_left Eq.symm⟩)
      · exact hnf
    exact ⟨standing _ (.inl rfl) owner, done, fun d hd => ⟨(dept d hd).1, standing d (.inr hd) (dept d hd).2⟩⟩
  · rw [accounts] at hd
    have department : ∀ d, d ≠ a → account t d = account s d := fun d hda => (accounts d).trans (if_neg hda)
    split at hd
    · rename_i hx
      obtain ⟨hne, hnf, hkind, hdfree, hdkind⟩ := hdept d hd
      rw [hx, (accounts a).trans (if_pos rfl), department d hne]
      exact ⟨hne, hnf, hkind, hdfree, hdkind⟩
    · rename_i hx
      obtain ⟨hne, hnf, hkind, hdfree, hdkind⟩ := h.balanced.departments x d hd
      rw [department x hx]
      refine ⟨hne, hnf, hkind, ?_⟩
      by_cases hda : d = a
      · rw [hda, (accounts a).trans (if_pos rfl)]
        exact husers ((userNames_iff h.canonical a).2 ⟨x, hnf, hkind, hda ▸ hd⟩)
      · rw [department d hda]
        exact ⟨hdfree, hdkind⟩
  · refine ⟨fun b x => ?_, fun x hx => ?_⟩
    · rw [badges, accounts]
      by_cases hxa : x = a
      · rw [if_pos hxa]
        by_cases hb : r.badge = some b
        · rw [if_pos hb, hxa]
          exact ⟨fun _ => hb, fun _ => rfl⟩
        · rw [if_neg hb]
          refine ⟨fun hh => ?_, fun hh => absurd hh hb⟩
          split at hh
          · cases hh
          · rename_i hold
            exact absurd ((exact b a).1 (hxa ▸ hh)) hold
      · rw [if_neg hxa, ← exact b x]
        split
        · rename_i hb
          exact ⟨fun hh => absurd (Option.some.inj hh).symm hxa, fun hh => absurd (hbadge b hb x hh) hxa⟩
        · split
          · rename_i hold
            refine ⟨nofun, fun hh => ?_⟩
            have := ((exact b a).2 hold).symm.trans hh
            exact absurd (Option.some.inj this).symm hxa
          · exact .rfl
    · rw [accounts] at hx ⊢
      split at hx
      · rw [if_pos ‹_›]
        exact hfree hx
      · rw [if_neg ‹_›]
        exact free x hx

/-- The record a Load Account writes when its checks pass. -/
theorem loaded {f : LoadFields} {st : AccountState} {k : AccountKind} (hno : f.refusal s = none) (hk : f.kind = some k)
    (hst : st ≠ .free) :
    Sound (Machine.putAccount (moveBadge s f.number (account s f.number).badge f.badge) f.number (f.record s st k)) := by
  unfold LoadFields.refusal at hno
  split_ifs at hno with _ hdepartment _ hbad htaken _ husers
  refine h.writeAccount (r := f.record s st k) ?_ (fun _ => hst) (fun hn => ⟨hst, ?_⟩) (fun d hd => ?_) (fun b hb x hx => ?_)
    fun hfree => absurd hfree hst
  · show (if (account s f.number).state = .free then 0 else _) = _
    split
    · rw [h.balanced.badges.2 _ ‹_›]
    · rfl
  · obtain ⟨b, -, -, hdept⟩ := (userNames_iff h.canonical f.number).1 hn
    obtain ⟨-, -, -, hnf, hkind⟩ := h.balanced.departments b _ hdept
    by_contra hne
    refine husers ?_
    simp only [LoadFields.userHolds, hn, hkind, hk, Bool.and_true, Bool.and_eq_true, Bool.or_eq_true, bne_iff_ne]
    exact ⟨⟨hnf, rfl⟩, .inr fun heq => hne (Option.some.inj heq).symm⟩
  · have hd : f.department = some d := hd
    simp only [LoadFields.badDepartment, hd, Bool.or_eq_true, beq_iff_eq, bne_iff_ne, not_or] at hbad
    obtain ⟨⟨⟨hdfree, hduser⟩, -⟩, hdn⟩ := hbad
    refine ⟨hdn, hst, ?_, hdfree, ?_⟩
    · show k = .user
      cases k with
      | user => rfl
      | department => exact absurd ⟨hk, .inr (by rw [show f.department = some d from hd]; rfl)⟩ hdepartment
    · cases hdk : (account s d).kind with
      | user => exact absurd hdk hduser
      | department => rfl
  · have hb : f.badge = some b := hb
    simp only [LoadFields.badgeTaken, hb, hx, bne_iff_ne, not_not] at htaken
    exact htaken

theorem loadAccountRule (f : LoadFields) (hfree : f.state ≠ some .free) : Sound (loadAccountRule f s).state := by
  have ht : Sound (f.touched s) := (((Worked.refl.touch f.number).touchOpt f.department) : Worked s (f.touched s)).sound h
  cases hno : f.refusal (f.touched s) with
  | some c =>
    rw [loadAccountRule_of_refusal hno]
    exact ht
  | none =>
    have inRange : ¬ f.outOfRange = true := by
      intro hout
      rw [LoadFields.refusal, if_pos hout] at hno
      cases hno
    simp only [LoadFields.outOfRange, Bool.or_eq_true, not_or, Bool.not_eq_true, Option.isNone_eq_false_iff,
      Option.isSome_iff_exists] at inRange
    obtain ⟨⟨-, st, hst⟩, k, hk⟩ := inRange
    have written := ht.loaded hno hk fun hs => hfree (hs ▸ hst)
    rw [loadAccountRule_of_none hno hst hk]
    show Sound (if st = .suspended then endVisitOf _ f.number .suspended else _)
    split
    · exact written.of_frame (by decide) (frame_endVisitOf _ f.number .suspended)
        ((Wrote.refl.endVisitOf f.number .suspended).canonical written.canonical)
    · exact written

theorem retireAccountRule (a : Nat) : Sound (retireAccountRule a s).state := by
  have ht : Sound (touch s a) := (Worked.refl.touch a : Worked s (touch s a)).sound h
  unfold Machine.retireAccountRule
  split
  · exact h
  · dsimp only
    split
    · exact ht
    · split
      · exact ht
      · rename_i hjobs husers
        have ended := ht.of_frame (by decide) (frame_endVisitOf (touch s a) a .goodbye)
          ((Wrote.refl.endVisitOf a .goodbye).canonical ht.canonical)
        have same := frame_endVisitOf (touch s a) a .goodbye
        generalize endVisitOf (touch s a) a .goodbye = t at ended same
        have nojobs : jobNames t a = false := by
          rw [jobNames, show t.jobs = _ from same.same .jobs (by decide)]
          exact Bool.not_eq_true _ ▸ hjobs
        have nousers : userNames t a = false := by
          rw [userNames, show t.accounts = _ from same.same .accounts (by decide)]
          exact Bool.not_eq_true _ ▸ husers
        exact ended.writeAccount (r := {}) (ended.reserved_eq_zero nojobs).symm (fun hn => by rw [nojobs] at hn; cases hn)
          (fun hn => by rw [nousers] at hn; cases hn) nofun nofun fun _ => rfl

end Sound

/-! ## The commands that work on the ledger -/

/-- An event on a printer by a command writes neither its enrolment nor its queue count. -/
theorem worked_onSupply {s : State} {effect : Channel → Supply → Reply} (he : ∀ ch x, Worked s (effect ch x).state) (p : Nat)
    (channel : Option Channel) : Worked s (onSupply p channel effect s).state := by
  unfold onSupply
  repeat' split
  · exact .refl
  · exact .refl
  · exact .refl
  · exact he _ _

theorem worked_holdJobRule (s : State) (f : HoldFields) : Worked s (holdJobRule f s).state := by
  unfold holdJobRule
  split
  · exact .refl
  · rename_i size _
    split
    · exact .refl
    · split
      · exact .refl
      · rename_i howner
        have touched : Worked s (touch s f.owner) := Worked.refl.touch f.owner
        dsimp only
        split
        · exact touched
        · split
          · exact touched
          · split
            · exact touched
            · rename_i i hslot
              obtain ⟨hi, hfree, -⟩ := freeSlot_some_iff.1 hslot
              refine touched.slot i _ hi (by rw [hfree]; rfl) rfl fun _ _ => ⟨?_, Nat.zero_le _, nofun⟩
              show (account (touch s f.owner) f.owner).state ≠ .free
              rw [(account_touch_keeps s f.owner f.owner).1]
              exact fun hf => howner (.inr hf)

theorem worked_cancelJobRule (s : State) (h : Nat) : Worked s (cancelJobRule h s).state := by
  cases hres : resolve s h with
  | none =>
    rw [cancelJobRule_of_stale hres]
    exact .refl
  | some i =>
    have hi := slot_lt_of_resolve hres
    cases hst : (job s i).state with
    | held =>
      rw [cancelJobRule_of_held hres hst]
      exact Worked.refl.slot i _ hi (by rw [hst]; rfl) rfl fun hn _ => hn (by rw [hst]; nofun)
    | released =>
      rw [cancelJobRule_of_routed hres (.inl hst)]
      exact Worked.refl.cancelRouted hi (.inl hst)
    | interrupted =>
      rw [cancelJobRule_of_routed hres (.inr hst)]
      exact Worked.refl.cancelRouted hi (.inr hst)
    | printing =>
      rw [cancelJobRule_of_ended hres (.inl hst)]
      exact .refl
    | done =>
      rw [cancelJobRule_of_ended hres (.inr (by rw [hst]; rfl))]
      exact .refl
    | cancelled =>
      rw [cancelJobRule_of_ended hres (.inr (by rw [hst]; rfl))]
      exact .refl
    | expired =>
      rw [cancelJobRule_of_ended hres (.inr (by rw [hst]; rfl))]
      exact .refl
    | free =>
      obtain ⟨-, -, -, hne⟩ := (resolve_iff s h i).1 hres
      exact absurd hst hne

theorem worked_removeJobRule (s : State) (h : Nat) : Worked s (removeJobRule h s).state := by
  cases hres : resolve s h with
  | none =>
    rw [removeJobRule_of_stale hres]
    exact .refl
  | some i =>
    cases hst : (job s i).state.finished with
    | false =>
      rw [removeJobRule_of_unfinished hres hst]
      exact .refl
    | true =>
      rw [removeJobRule_of_finished hres hst]
      refine Worked.refl.slot i _ (slot_lt_of_resolve hres) ?_ rfl fun _ hne => absurd rfl hne
      cases hs : (job s i).state <;> rw [hs] at hst <;> first | rfl | cases hst

/-- An end report works on the ledger as its effect does on a PRINTING or INTERRUPTED job. -/
theorem worked_jobEndRule {effect : State → Nat → State} (s : State)
    (he : ∀ i < 2048, (job s i).state = .printing ∨ (job s i).state = .interrupted → Worked s (effect s i)) (h : Nat) :
    Worked s (jobEndRule effect h s).state := by
  cases hres : resolve s h with
  | none =>
    rw [jobEndRule_of_stale effect hres]
    exact .refl
  | some i =>
    cases hst : reportable (job s i) with
    | false =>
      rw [jobEndRule_of_unreportable hres effect hst]
      exact .refl
    | true =>
      rw [jobEndRule_of_reportable hres effect hst]
      exact he i (slot_lt_of_resolve hres) ((reportable_iff _).1 hst)

theorem routed_of_reportable {st : JobState} (h : st = .printing ∨ st = .interrupted) : st.routed = true := by
  obtain rfl | rfl := h <;> rfl

theorem worked_reportProgressRule (s : State) (h n : Nat) : Worked s (reportProgressRule h n s).state := by
  cases hres : resolve s h with
  | none =>
    rw [reportProgressRule_of_stale n hres]
    exact .refl
  | some i =>
    cases hst : reportable (job s i) with
    | false =>
      rw [reportProgressRule_of_unreportable hres n hst]
      exact .refl
    | true =>
      rw [reportProgressRule_of_reportable hres n hst]
      exact Worked.refl.reportCopies (slot_lt_of_resolve hres) (routed_of_reportable ((reportable_iff _).1 hst)) (by omega)

/-- Consumption keeps every toner that runs out run out, so it hands the jobs nothing. -/
theorem frame_consume_still (s : State) (i k : Nat) : Frame [.printers, .callouts] s (consume s i k) := by
  unfold consume
  split
  · exact Frame.refl _ s
  · rename_i p _
    refine frame_mapSupplies s p (g := fun ch x => x.consume (copyToner (job s i) ch * k)) fun ch x hx => ?_
    have : (x.consume (copyToner (job s i) ch * k)).level = x.level - copyToner (job s i) ch * k := rfl
    omega

/-- Reporting copies raises the count and leaves the rest of the job. -/
theorem job_reportCopies (s : State) (i k : Nat) :
    job (reportCopies s i k) i = { job s i with copiesDone := (job s i).copiesDone + k } := by
  unfold reportCopies
  split
  · subst_vars
    rfl
  · rw [(frame_consume_still _ i k).job i (by decide), job_commit, if_pos rfl]

theorem worked_completeJob (s : State) (i : Nat) (hi : i < 2048)
    (hst : (job s i).state = .printing ∨ (job s i).state = .interrupted) : Worked s (completeJob s i) := by
  have hr := routed_of_reportable hst
  have reported : Worked s (reportCopies s i ((job s i).copies - (job s i).copiesDone)) :=
    Worked.refl.reportCopies hi hr (by omega)
  have written := job_reportCopies s i ((job s i).copies - (job s i).copiesDone)
  unfold completeJob
  dsimp only
  generalize reportCopies s i ((job s i).copies - (job s i).copiesDone) = t at reported written
  have lowered : job (lowerQueue t (job s i).printer) i = job t i := (frame_lowerQueue _ _).job i (by decide)
  have left := reported.leave i { job t i with resumeDeadline := none, state := .done, outcome := some .complete } t.dispatch
    ⟨hi, .inl (by rw [written]; exact hr)⟩ ?_ rfl (fun hne hn _ => hn hne) (.absent ?_)
  · rw [lowered]
    rwa [show (job t i).printer = (job s i).printer by rw [written]] at left
  · rw [written]
    show _ * ((job s i).copies - ((job s i).copiesDone + ((job s i).copies - (job s i).copiesDone))) = 0
    rw [show (job s i).copies - ((job s i).copiesDone + ((job s i).copies - (job s i).copiesDone)) = 0 by omega]
    exact Nat.mul_zero _
  · rw [written]
    obtain hst | hst := hst <;> rw [hst] <;> nofun

theorem worked_rewrite {s : State} {a : Nat} (hno : ¬ noAccount s a = true) {r : Account} (hst : r.state ≠ .free)
    (hk : r.kind = (account (touch s a) a).kind) (hd : r.department = (account (touch s a) a).department)
    (hb : r.badge = (account (touch s a) a).badge) (hres : r.reserved = (account (touch s a) a).reserved) :
    Worked s (putAccount (touch s a) a r) := by
  have hfree : (account (touch s a) a).state ≠ .free := by
    rw [(account_touch_keeps s a a).1]
    exact fun hf => hno ((noAccount_iff s a).2 (.inr hf))
  exact (Worked.refl.touch a).account a r
    ⟨⟨fun h => absurd h hst, fun h => absurd h hfree⟩, hk, hd, hb, fun h => absurd h hfree⟩ hres

theorem worked_setLimitRule (s : State) (a : Nat) (limit : Option Nat) : Worked s (setLimitRule a limit s).state := by
  unfold setLimitRule
  split
  · exact .refl
  · rename_i hno
    refine worked_rewrite hno ?_ rfl rfl rfl rfl
    rw [(account_touch_keeps s a a).1]
    exact fun hf => hno ((noAccount_iff s a).2 (.inr hf))

theorem worked_resumeAccountRule (s : State) (a : Nat) : Worked s (resumeAccountRule a s).state := by
  unfold resumeAccountRule
  split
  · exact .refl
  · exact worked_rewrite ‹_› nofun rfl rfl rfl rfl

theorem worked_suspendAccountRule (s : State) (a : Nat) : Worked s (suspendAccountRule a s).state := by
  unfold suspendAccountRule
  split
  · exact .refl
  · rename_i hno
    dsimp only
    split
    · have written : Worked s (putAccount (touch s a) a { account (touch s a) a with state := .suspended }) :=
        worked_rewrite hno nofun rfl rfl rfl rfl
      exact written.loopSide ((frame_endVisitOf _ a .suspended).mono (by decide)) (Wrote.refl.endVisitOf a .suspended)
    · exact Worked.refl.touch a

/-- What every command but those that open or close records does to the ledger is a run of the operations. -/
theorem worked_recordsAfter {c : Instr} (hc : opensRecords c = false) (s : State) : Worked s (recordsAfter c s) := by
  cases hw : mayWrite Field.ledger c with
  | false => exact Worked.refl.frame (frame_recordsAfter c s) (by simpa [mayWrite] using hw) (wrote_recordsAfter s c)
  | true =>
    have event : ∀ (p : Nat) (f : Printer → Printer), (∀ r, (f r).enrolled = r.enrolled ∧ (f r).queueCount = r.queueCount) →
        Worked s (printerEvent s p f) := fun p f hf => Worked.refl.event p f hf
    have guarded : ∀ {b : Bool} {code : Code} {r : Reply}, Worked s r.state →
        Worked s (if b = true then refuse s code else r).state := fun {b} _ _ hr => by
      cases b
      · exact hr
      · exact .refl
    cases c
    case loadAccount => cases hc
    case retireAccount => cases hc
    case enrollPrinter => cases hc
    case retirePrinter => cases hc
    case setLimit => exact worked_setLimitRule s _ _
    case suspendAccount => exact worked_suspendAccountRule s _
    case resumeAccount => exact worked_resumeAccountRule s _
    case readAccount a =>
      unfold recordsAfter readAccountRule
      dsimp only
      split
      · exact .refl
      · exact Worked.refl.touch _
    case holdJob => exact worked_holdJobRule s _
    case cancelJob => exact worked_cancelJobRule s _
    case removeJob => exact worked_removeJobRule s _
    case takeDispatch => exact Worked.refl.takeFrom 0 _ rfl
    case reportProgress => exact worked_reportProgressRule s _ _
    case reportJobEndComplete => exact guarded (worked_jobEndRule s (worked_completeJob s) _)
    case reportJobEndCancelledAtPrinter =>
      exact worked_jobEndRule s (fun i hi hst => Worked.refl.cancelAtPrinter hi hst) _
    case reportJobEndDeliveryFailed =>
      refine worked_jobEndRule s (fun i hi _ => ?_) _
      unfold failDelivery
      split
      · exact Worked.refl.interrupt i hi ‹_›
      · exact .refl
    case holdExpiry i => 
      unfold recordsAfter expireHeld
      dsimp only
      split
      · rename_i hst
        exact Worked.refl.slot i.val _ i.isLt (by rw [hst.1]; rfl) rfl fun hn _ => hn (by rw [hst.1]; nofun)
      · exact .refl
    case resumeWindowExpiry i => exact Worked.refl.endWindow i.isLt
    case setService len p on => exact guarded (event _ (fun r => { r with service := flag on }) fun _ => ⟨rfl, rfl⟩)
    case printerStatus len p reported empty =>
      exact guarded (event _ (fun r => r.status s.seconds reported empty) fun _ => ⟨rfl, rfl⟩)
    case supplyReport => exact worked_onSupply (fun ch _ => event _ (fun r => r.mapSupply ch _) fun _ => ⟨rfl, rfl⟩) _ _
    case supplyReplaced => exact worked_onSupply (fun ch _ => event _ (fun r => r.mapSupply ch _) fun _ => ⟨rfl, rfl⟩) _ _
    case contactExpiry p =>
      unfold recordsAfter loseContact
      dsimp only
      split
      · exact .refl
      · exact (event _ (fun r => { r with noContact := true, contactDeadline := none }) fun _ => ⟨rfl, rfl⟩).ite .refl
    case acknowledgeCallout =>
      unfold recordsAfter acknowledgeRule
      dsimp only
      split
      · exact .refl
      · split
        · exact .refl
        · exact Worked.refl.takeCallout _ _ _ _
    case closeCalloutSpecific =>
      unfold recordsAfter closeSpecificRule
      dsimp only
      repeat' split
      all_goals first
        | exact .refl
        | exact Worked.refl.retireCallout _ _ _
    case closeCalloutNonSpecific =>
      unfold recordsAfter closeNonSpecificRule
      dsimp only
      repeat' split
      all_goals first
        | exact .refl
        | exact Worked.refl.retireCallout _ _ _
    case surveyStep => exact Worked.refl.surveyOnce
    case badge => exact Worked.refl.fetch (fun h => h.takeBadge _ _) _ _ _
    case pick => exact Worked.refl.fetch (fun h => h.takePick _ _) _ _ _
    case pickAll => exact Worked.refl.fetch (fun h => h.takePickAll _) _ _ _
    case more => exact Worked.refl.fetch (fun h => h.takeMore _) _ _ _
    all_goals exact absurd hw Bool.false_ne_true

/-! ## Every step -/

theorem sound_recordsAfter (c : Instr) {s : State} (h : Sound s) : Sound (recordsAfter c s) := by
  cases hc : opensRecords c with
  | false => exact (worked_recordsAfter hc s).sound h
  | true =>
    cases c
    case loadAccount =>
      refine h.loadAccountRule _ ?_
      dsimp only
      rw [loadStateOf_eq]
      split_ifs <;> nofun
    case retireAccount => exact h.retireAccountRule _
    case enrollPrinter => exact h.enrollPrinterRule _
    case retirePrinter => exact h.retirePrinterRule _
    all_goals exact absurd hc Bool.false_ne_true

theorem slotsBounded_recordsAfter (c : Instr) {s : State} (h : SlotsBounded s) : SlotsBounded (recordsAfter c s) := by
  cases hc : opensRecords c with
  | false => exact (worked_recordsAfter hc s).slots h
  | true =>
    refine slotsBounded_of_jobs h ((frame_recordsAfter c s).same .jobs ?_)
    cases c
    case loadAccount => exact (by decide : Field.jobs ∉ (.accounts :: .badgeMap :: Field.loopSide : List Field))
    case retireAccount => exact (by decide : Field.jobs ∉ (.accounts :: .badgeMap :: Field.loopSide : List Field))
    case enrollPrinter => exact (by decide : Field.jobs ∉ ([.printers] : List Field))
    case retirePrinter => exact (by decide : Field.jobs ∉ ([.printers, .pools, .callouts, .desks] : List Field))
    all_goals exact absurd hc Bool.false_ne_true

theorem looksAt_sound : LooksAt (Field.ledger ++ Field.tables) Sound := by
  intro s t h hs
  have fields := (sound_iff s).1 hs
  exact (sound_iff t).2 ⟨looksAt_canonical (fun f hf => h f (List.mem_append_right _ hf)) fields.1,
    looksAt_ledger (fun f hf => h f (List.mem_append_left _ hf)) fields.2⟩

theorem Consistent.sound {s : State} (h : Consistent s) : Sound s :=
  (sound_iff s).2 ⟨h.canonical, h.slots, h.dispatch, h.queues, h.books, h.badges⟩

/-- Every step keeps the ledger sound. -/
theorem step_keeps_sound {s t : State} (hs : Consistent s) (h : step s = .next t) : Sound t :=
  step_keeps looksAt_sound (by decide) (Consistent.sound resetIsConsistent.1) (fun c _ _ h => sound_recordsAfter c h) hs.sound h

/-- Settles O8: every operation on jobs keeps the Dispatch List and the queue counts in line with them. -/
theorem dispatchAndQueuesStayExact : Obligations.DispatchAndQueuesStayExact := by
  unfold Obligations.DispatchAndQueuesStayExact
  refine ⟨fun s t hs h => (step_keeps_sound hs h).dispatch, fun s t hs h => ?_, fun s t hs h => ?_⟩
  · exact ((sound_iff t).1 (step_keeps_sound hs h)).2.2.2.1
  · have looks : LooksAt [.jobs] SlotsBounded := fun h hs => slotsBounded_of_jobs hs (h .jobs (by decide))
    exact step_keeps looks (by decide) resetIsConsistent.1.slots (fun c _ _ h => slotsBounded_recordsAfter c h) hs h

/-- Settles O9: money moves on reserved with the term of the job it moves for. -/
theorem booksStayBalanced : Obligations.BooksStayBalanced := by
  unfold Obligations.BooksStayBalanced
  intro s t hs h
  exact ((sound_iff t).1 (step_keeps_sound hs h)).2.2.2.2.1

end Sys2Proof.Machine
end

