-- ==== Sys2Proof/Proofs/Visits.lean ====
section
/-! PROOFS. An account has at most one open visit (R69): a step ends visits, or renews them, or opens one with the
account's other ended; and the badge map through every step (R7). -/

namespace Sys2Proof.Machine

/-! ## Steps that open no visit -/

/-- Every visit of `t` is one of `s`, of the same account at the same terminal. -/
def Closes (s t : State) : Prop :=
  ∀ n v, visit t n = some v → ∃ w, visit s n = some w ∧ w.account = v.account

theorem Closes.visitsUnique {s t : State} (h : Closes s t) (hs : VisitsUnique s) : VisitsUnique t := by
  intro n m v w hv hw hvw
  obtain ⟨v', hv', hva⟩ := h n v hv
  obtain ⟨w', hw', hwa⟩ := h m w hw
  exact hs n m v' w' hv' hw' (hva.trans (hvw.trans hwa.symm))

namespace Closes

variable {s t u : State}

theorem refl (s : State) : Closes s s := fun _ v hv => ⟨v, hv, rfl⟩

theorem trans (h : Closes s t) (k : Closes t u) : Closes s u := fun n v hv =>
  have ⟨w, hw, hwv⟩ := k n v hv
  have ⟨x, hx, hxw⟩ := h n w hw
  ⟨x, hx, hxw.trans hwv⟩

theorem of_frame {w : List Field} (h : Frame w s t) (hw : .visits ∉ w) : Closes s t := fun n v hv =>
  ⟨v, (h.visit n hw).symm.trans hv, rfl⟩

theorem ite {c : Prop} [Decidable c] (ht : Closes s t) (hu : Closes s u) : Closes s (if c then t else u) := by
  split
  · exact ht
  · exact hu

theorem foldl {β : Type} {f : State → β → State} (step : ∀ s b, Closes s (f s b)) (l : List β) (s : State) :
    Closes s (l.foldl f s) :=
  foldl_rel (r := Closes) Closes.refl (fun _ _ _ => Closes.trans) step l s

end Closes

theorem closes_dropVisit (s : State) (n : Nat) : Closes s (dropVisit s n) := by
  intro m v hv
  rw [dropVisit, visit_putVisit] at hv
  split at hv
  · cases hv
  · exact ⟨v, hv, rfl⟩

/-- A visit written over one of the same account. -/
theorem closes_putVisit {s : State} {n : Nat} {v w : Visit} (hw : visit s n = some w) (ha : w.account = v.account) :
    Closes s (putVisit s n (some v)) := by
  intro m x hx
  rw [visit_putVisit] at hx
  split at hx
  · rename_i hm
    cases hx
    exact ⟨w, hm ▸ hw, ha⟩
  · exact ⟨x, hx, rfl⟩

theorem closes_endVisit (s : State) (n : Nat) (d : Display) : Closes s (endVisit s n d) := by
  unfold endVisit
  split
  · exact .refl s
  · exact (closes_dropVisit s n).trans (.of_frame (frame_pend _ n d) (by decide))

theorem closes_endVisitOf (s : State) (a : Nat) (d : Display) : Closes s (endVisitOf s a d) := by
  unfold endVisitOf
  split
  · exact .refl s
  · exact closes_endVisit s _ d

theorem closes_clearLoop (s : State) (l : Nat) (st : LoopState) : Closes s (clearLoop s l st) :=
  ((Closes.foldl (fun s a => closes_dropVisit s (terminalNo l a)) _ s).trans
    (.of_frame (frame_mapTerminals (dropVisits s l) l fun t => { t with pending := none, current := .goodbye }) (by decide))).trans
    (.of_frame (frame_putLoop _ l _) (by decide))

/-- What is shown of a visit keeps its account. -/
theorem closes_computeList {s : State} {n : Nat} {v w : Visit} (hw : visit s n = some w) (ha : w.account = v.account)
    (asked : Nat) : Closes s (computeList s n v asked).1 :=
  have touched := frame_touch s v.account
  (Closes.of_frame touched (by decide)).trans (closes_putVisit ((touched.visit n (by decide)).trans hw) ha)

theorem closes_showList {s : State} {n : Nat} {v w : Visit} (hw : visit s n = some w) (ha : w.account = v.account)
    (asked : Nat) : Closes s (showList s n v asked) :=
  (closes_computeList hw ha asked).trans (.of_frame (frame_pend _ n _) (by decide))

theorem closes_showResult {s : State} {n : Nat} {v w : Visit} (hw : visit s n = some w) (ha : w.account = v.account)
    (r : ResultPart) : Closes s (showResult s n v r) :=
  (closes_computeList hw ha v.page).trans (.of_frame (frame_pend _ n _) (by decide))

theorem closes_takeMore (s : State) (n : Nat) : Closes s (takeMore s n) := by
  unfold takeMore
  split
  · exact .refl s
  · rename_i w hw
    exact closes_showList (v := renewed s w) hw rfl _

theorem closes_takeRefresh (s : State) (n : Nat) : Closes s (takeRefresh s n) := by
  have shown : Frame [.loops, .terminals, .draws] s
      (if (terminal s n).pending = none then pend s n (terminal s n).current else s) :=
    (frame_pend s n _).ite (Frame.refl _ s)
  unfold takeRefresh
  dsimp only
  split
  · exact .of_frame shown (by decide)
  · rename_i w hw
    exact (Closes.of_frame shown (by decide)).trans
      (closes_putVisit (v := renewed s w) ((shown.visit n (by decide)).trans hw) rfl)

theorem closes_pickEvery {s : State} {n : Nat} {w : Visit} (hw : visit s n = some w) :
    Closes s (pickEvery s n (renewed s w)) := by
  have decided := frame_decideAll s w.account (terminal s n).pool
  exact (Closes.of_frame decided (by decide)).trans (closes_showResult (v := renewed s w) ((decided.visit n (by decide)).trans hw) rfl _)

theorem closes_takePick (s : State) (n entry : Nat) : Closes s (takePick s n entry) := by
  unfold takePick
  split
  · exact .refl s
  · rename_i w hw
    refine Closes.ite (closes_pickEvery hw) ?_
    unfold pickOne
    split
    · exact closes_showResult (v := renewed s w) hw rfl _
    · rename_i x _
      have decided := frame_decideRelease s x w.account (terminal s n).pool
      exact (Closes.of_frame decided (by decide)).trans (closes_showResult (v := renewed s w) ((decided.visit n (by decide)).trans hw) rfl _)

theorem closes_takePickAll (s : State) (n : Nat) : Closes s (takePickAll s n) := by
  unfold takePickAll
  split
  · exact .refl s
  · exact closes_pickEvery ‹_›

theorem closes_missAnswer (s : State) (n : Nat) : Closes s (missAnswer s n) := by
  unfold missAnswer
  dsimp only
  exact ((closes_dropVisit s n).trans (.of_frame (frame_putTerminal _ n _) (by decide))).ite
    ((Closes.of_frame (frame_putTerminal s n _) (by decide)).ite (.refl s))

theorem closes_idleOut (s : State) (n : Nat) : Closes s (idleOut s n) := by
  unfold idleOut
  split
  · exact .refl s
  · exact (closes_endVisit s n _).ite (.refl s)

theorem closes_rollSlot {effect : State → State} (he : ∀ s, Closes s (effect s)) (s : State) (l a : Nat) :
    Closes s (rollSlot s l a effect) := by
  unfold rollSlot
  refine (Closes.refl s).ite ?_
  exact ((Closes.of_frame (frame_transmit s _) (by decide)).trans (he _)).trans (.of_frame (frame_setTurns _ l _) (by decide))

/-! ## Requests that end visits -/

theorem closes_touch (s : State) (a : Nat) : Closes s (touch s a) := .of_frame (frame_touch s a) (by decide)

theorem closes_loadAccountRule (s : State) (f : LoadFields) : Closes s (loadAccountRule f s).state := by
  have touched : Closes s (f.touched s) := .of_frame (frame_loadFields_touched s f) (by decide)
  have written : ∀ st k, Closes s (f.write (f.touched s) st k) := fun st k => by
    rw [write_eq]
    have loaded : Closes s (f.loaded s st k) := .of_frame (frame_loaded f st k) (by decide)
    exact (loaded.trans (closes_endVisitOf _ _ _)).ite loaded
  unfold loadAccountRule
  dsimp only
  repeat' split
  all_goals first
    | exact touched
    | exact written _ _

theorem closes_suspendAccountRule (s : State) (a : Nat) : Closes s (suspendAccountRule a s).state := by
  unfold suspendAccountRule
  split
  · exact .refl s
  · dsimp only
    split
    · exact ((closes_touch s a).trans (.of_frame (frame_putAccount _ a _) (by decide))).trans (closes_endVisitOf _ _ _)
    · exact closes_touch s a

theorem closes_retireAccountRule (s : State) (a : Nat) : Closes s (retireAccountRule a s).state := by
  unfold retireAccountRule
  split
  · exact .refl s
  · dsimp only
    split
    · exact closes_touch s a
    · split
      · exact closes_touch s a
      · exact (((closes_touch s a).trans (closes_endVisitOf _ a .goodbye)).trans
          (.of_frame (frame_moveBadge _ a _ _) (by decide))).trans (.of_frame (frame_putAccount _ a _) (by decide))

theorem closes_retireTerminalRule (s : State) (l a : Nat) : Closes s (retireTerminalRule l a s).state := by
  unfold retireTerminalRule
  split
  · exact .refl s
  · dsimp only
    split
    · exact .refl s
    · exact ((closes_dropVisit s _).trans (.of_frame (frame_putTerminal _ _ _) (by decide))).trans
        (.of_frame (frame_leaveLoop _ l a) (by decide))

theorem closes_enrollTerminalRule (s : State) (l a q : Nat) : Closes s (enrollTerminalRule l a q s).state := by
  unfold enrollTerminalRule
  split
  · exact .refl s
  · dsimp only
    split
    · exact (Closes.of_frame (frame_putTerminal s _ _) (by decide)).trans (closes_endVisit _ _ _)
    · exact (Closes.of_frame (frame_putTerminal s _ _) (by decide)).trans (.of_frame (frame_joinLoop _ l) (by decide))

theorem closes_loopResetRule (s : State) (l : Nat) : Closes s (loopResetRule l s).state := by
  unfold loopResetRule
  split
  · exact .refl s
  · split
    · exact .refl s
    · exact (closes_clearLoop s l _).trans (.of_frame (frame_restartLoop _ l) (by decide))

/-! ## Messages -/

/-- A collected message keeps the visits unique where its effect does. -/
theorem visitsUnique_fetch {effect : State → State}
    (he : ∀ {s}, Canonical s = true → VisitsUnique s → VisitsUnique (effect s)) {s : State} (hs : Canonical s = true)
    (hv : VisitsUnique s) (l a : Nat) (accept : Bool) : VisitsUnique (fetch s l a accept effect) := by
  unfold fetch
  split
  · exact hv
  · have asked : ∀ frames, Canonical (transmit s frames) = true ∧ VisitsUnique (transmit s frames) := fun frames =>
      ⟨(Wrote.refl.transmit frames).canonical hs, (Closes.of_frame (frame_transmit s frames) (by decide)).visitsUnique hv⟩
    refine (Closes.of_frame (frame_setTurns _ l _) (by decide)).visitsUnique ?_
    dsimp only
    split
    · obtain ⟨ht, hu⟩ := asked ((l, fetchFrame a) :: if accept = true then [(l, acceptFrame a)] else [])
      exact he (canonical_putTerminal ht _ _) ((Closes.of_frame (frame_putTerminal _ _ _) (by decide)).visitsUnique hu)
    · exact (asked _).2

/-- No terminal but `n` has a visit of the account once its other visit is ended. -/
theorem visit_endOtherVisit {s : State} (hs : Canonical s = true) (hv : VisitsUnique s) {a n m : Nat} {v : Visit}
    (h : visit (endOtherVisit s a n) m = some v) : v.account = a → m = n := by
  intro ha
  unfold endOtherVisit at h
  split at h
  · exact absurd ha ((visitOf_none_iff hs a).1 ‹_› m v h)
  · rename_i u hu
    obtain ⟨w, hw, hwa⟩ := visit_of_visitOf hs hu
    split at h
    · rename_i hun
      exact (hv m u v w h hw (ha.trans hwa.symm)).trans hun
    · obtain ⟨w', hw', hwa'⟩ := closes_endVisit s u .goodbye m v h
      have hmu : m = u := hv m u w' w hw' hw (hwa'.trans (ha.trans hwa.symm))
      rw [hmu, endVisit_of_open _ hw, (frame_pend _ _ _).visit u (by decide), dropVisit, visit_putVisit, if_pos rfl] at h
      cases h

theorem visit_showList_ne (s : State) {n m : Nat} (v : Visit) (asked : Nat) (hm : m ≠ n) :
    visit (showList s n v asked) m = visit s m := by
  rw [showList, (frame_pend _ n _).visit m (by decide)]
  show visit (putVisit (touch s v.account) n _) m = _
  rw [visit_putVisit, if_neg hm, (frame_touch s _).visit m (by decide)]

/-- A visit opened where no other terminal has one of the account. -/
theorem visitsUnique_open {s : State} {n : Nat} (v : Visit) (hv : VisitsUnique s)
    (alone : ∀ m w, visit s m = some w → w.account = v.account → m = n) :
    VisitsUnique (showList (dropVisit s n) n v 0) := by
  have others : ∀ m, m ≠ n → visit (showList (dropVisit s n) n v 0) m = visit s m := fun m hm => by
    rw [visit_showList_ne _ v 0 hm, dropVisit, visit_putVisit, if_neg hm]
  have opened : ∀ w, visit (showList (dropVisit s n) n v 0) n = some w → w.account = v.account := by
    intro w hw
    rw [visit_showList] at hw
    cases hw
    rfl
  have other : ∀ {m k w x}, m = n → k ≠ n → visit (showList (dropVisit s n) n v 0) m = some w → visit s k = some x →
      w.account ≠ x.account := by
    rintro m k w x rfl hk hw hx hwx
    exact hk (alone k x hx (hwx.symm.trans (opened w hw)))
  intro m k w x hw hx hwx
  by_cases hm : m = n
  · by_cases hk : k = n
    · rw [hm, hk]
    · exact absurd hwx (other hm hk hw ((others k hk).symm.trans hx))
  · by_cases hk : k = n
    · exact absurd hwx.symm (other hk hm hx ((others m hm).symm.trans hw))
    · exact hv m k w x ((others m hm).symm.trans hw) ((others k hk).symm.trans hx) hwx

theorem visitsUnique_takeBadge {s : State} (hs : Canonical s = true) (hv : VisitsUnique s) (n b : Nat) :
    VisitsUnique (takeBadge s n b) := by
  have refused : ∀ {u : State} (d : Display), Closes s u → Closes s (pend (dropVisit u n) n d) := fun d hu =>
    (hu.trans (closes_dropVisit _ n)).trans (.of_frame (frame_pend _ n d) (by decide))
  have touched := closes_touch s
  unfold takeBadge
  split
  · exact (refused _ (.refl s)).visitsUnique hv
  · exact (refused _ (touched _)).visitsUnique hv
  · rename_i a _
    have hu := (touched a).visitsUnique hv
    have closed : Closes (touch s a) (endOtherVisit (touch s a) a n) := by
      unfold endOtherVisit
      split
      · exact .refl _
      · exact (Closes.refl _).ite (closes_endVisit _ _ _)
    exact visitsUnique_open _ (closed.visitsUnique hu) fun m w hw ha =>
      visit_endOtherVisit (canonical_touch hs a) hu hw ha

/-! ## Every step -/

theorem looksAt_visitsUnique : LooksAt [.visits] VisitsUnique := by
  intro s t h hs
  have visits : ∀ n, visit t n = visit s n := fun n => by rw [visit, show t.visits = _ from h .visits (by decide)]; rfl
  unfold VisitsUnique at *
  simpa only [visits] using hs

theorem visitsUnique_recordsAfter (c : Instr) {s : State} (hw : mayWrite [.visits] c = true) (hs : Canonical s = true)
    (hv : VisitsUnique s) : VisitsUnique (recordsAfter c s) := by
  have fetched : ∀ {effect : State → State}, (∀ s, Closes s (effect s)) → ∀ l a accept,
      VisitsUnique (fetch s l a accept effect) := fun he l a accept =>
    visitsUnique_fetch (fun _ hu => (he _).visitsUnique hu) hs hv l a accept
  have framed : ∀ {w : List Field} {a b : State}, Frame w a b → .visits ∉ w → Closes a b := fun hf hw => .of_frame hf hw
  cases c
  case loadAccount =>
    exact (closes_loadAccountRule s _).visitsUnique hv
  case retireAccount => exact (closes_retireAccountRule s _).visitsUnique hv
  case suspendAccount => exact (closes_suspendAccountRule s _).visitsUnique hv
  case retireTerminal => exact (closes_retireTerminalRule s _ _).visitsUnique hv
  case enrollTerminal => exact (closes_enrollTerminalRule s _ _ _).visitsUnique hv
  case loopReset => exact (closes_loopResetRule s _).visitsUnique hv
  case loopFault => exact ((Closes.refl s).ite (closes_clearLoop s _ _)).visitsUnique hv
  case visitIdleExpiry => exact (closes_idleOut s _).visitsUnique hv
  case answer =>
    exact (closes_rollSlot (fun s => framed (frame_takeAnswer s _ _) (by decide)) s _ _).visitsUnique hv
  case noAnswer => exact (closes_rollSlot (fun s => closes_missAnswer s _) s _ _).visitsUnique hv
  case fetchFailed => exact fetched Closes.refl _ _ _
  case unknownMessage => exact fetched Closes.refl _ _ _
  case done => exact fetched (fun s => closes_endVisit s _ _) _ _ _
  case refresh => exact fetched (fun s => closes_takeRefresh s _) _ _ _
  case more => exact fetched (fun s => closes_takeMore s _) _ _ _
  case pick => exact fetched (fun s => closes_takePick s _ _) _ _ _
  case pickAll => exact fetched (fun s => closes_takePickAll s _) _ _ _
  case badge => exact visitsUnique_fetch (fun hs hv => visitsUnique_takeBadge hs hv _ _) hs hv _ _ _
  all_goals exact absurd hw Bool.false_ne_true

/-- Settles O10: the badge map follows the records, and a BADGE that opens a visit ends the account's other one. -/
theorem badgesAndVisitsStayExact : Obligations.BadgesAndVisitsStayExact := by
  unfold Obligations.BadgesAndVisitsStayExact
  refine ⟨fun s t hs h => ((sound_iff t).1 (step_keeps_sound hs h)).2.2.2.2.2, fun s t hs h => ?_⟩
  refine (step_keeps looksAt_visitsUnique.withCanonical (by decide) ⟨canonical_reset, resetIsConsistent.1.visits⟩
    (fun c s _ h => ⟨canonical_recordsAfter c h.1, ?_⟩) ⟨hs.canonical, hs.visits⟩ h).2
  cases hw : mayWrite [.visits] c with
  | true => exact visitsUnique_recordsAfter c hw h.1 h.2
  | false => exact looksAt_visitsUnique.of_frame (frame_recordsAfter c s) (by simpa [mayWrite] using hw) h.2

end Sys2Proof.Machine
end

