-- ==== Sys2Proof/Proofs/Desks.lean ====
section
/-! PROOFS. The callout records and the desks' lists (R138, R147, R149): events hand changes that leave what is in service;
an acknowledge and a retirement move one record and one list together. -/

namespace Sys2Proof.Machine

/-! ## The records of the table -/

theorem canonical_callouts {s : State} (h : Canonical s = true) : Table.wf (fun _ => (none : Option Callout)) s.callouts = true := by
  simp only [Canonical, Bool.and_eq_true] at h
  simp only [h]

theorem calloutKey_kindOfKey (key : Nat) : calloutKey (key / 8) (kindOfKey key) = key := by
  have kinds : ∀ n < 8, (kindOfKey n).position = n + 1 := by decide
  have hk : kindOfKey key = kindOfKey (key % 8) := by unfold kindOfKey; rw [Nat.mod_mod]
  have := kinds (key % 8) (Nat.mod_lt _ (by decide))
  rw [calloutKey, hk, this]
  omega

theorem calloutKey_div (p : Nat) (k : CondKind) : calloutKey p k / 8 = p := by
  have := k.position_bounds
  unfold calloutKey
  omega

theorem mem_calloutList_iff {s : State} (hs : Canonical s = true) (p : Nat) (k : CondKind) (c : Callout) :
    (p, k, c) ∈ calloutList s ↔ callout s p k = some c := by
  have read : ∀ key, (key, some c) ∈ s.callouts ↔ Table.get none key s.callouts = some c := fun key => by
    rw [Table.mem_iff_get (fun _ => none) (canonical_callouts hs)]
    exact and_iff_left nofun
  unfold calloutList
  rw [List.mem_filterMap]
  constructor
  · rintro ⟨⟨key, r⟩, he, hr⟩
    obtain ⟨x, rfl, hx⟩ := Option.map_eq_some_iff.1 hr
    cases hx
    rw [callout, calloutKey_kindOfKey]
    exact (read key).1 he
  · intro hc
    refine ⟨(calloutKey p k, some c), (read _).2 hc, ?_⟩
    rw [Option.map_some, kindOfKey_calloutKey, calloutKey_div]

theorem mem_presentableList_iff {s : State} (hs : Canonical s = true) (d p : Nat) (k : CondKind) (c : Callout) :
    (p, k, c) ∈ presentableList s d ↔ callout s p k = some c ∧ presentableAt s d p c = true := by
  rw [presentableList, List.mem_filter, mem_calloutList_iff hs]

theorem presentableAt_iff (s : State) (d p : Nat) (c : Callout) :
    presentableAt s d p c = true ↔
      c.state = .pending ∧ c.desk = d ∧ (printer s p).service = false ∧ (desk s d).inService.length < 16
      ∧ ((desk s d).mode = .opened ∨ ∀ r ∈ (desk s d).inService, c.cls < inServiceClass s r) := by
  simp only [presentableAt, Bool.and_eq_true, Bool.or_eq_true, beq_iff_eq, Bool.not_eq_true', decide_eq_true_eq,
    List.all_eq_true, and_assoc]

/-! ## What is in service -/

/-- The desk a record is in service at. -/
def servedAt : Option Callout → Option Nat
  | none => none
  | some c => if c.state = .inService then some c.desk else none

theorem servedAt_some_iff (r : Option Callout) (d : Nat) :
    servedAt r = some d ↔ ∃ c, r = some c ∧ c.state = .inService ∧ c.desk = d := by
  cases r with
  | none => exact ⟨nofun, nofun⟩
  | some c =>
    unfold servedAt
    dsimp only
    split
    · rename_i hst
      rw [Option.some_inj]
      exact ⟨fun hd => ⟨c, rfl, hst, hd⟩, fun ⟨_, heq, _, hd⟩ => by cases heq; exact hd⟩
    · rename_i hst
      exact ⟨nofun, fun ⟨_, heq, hs, _⟩ => by cases heq; exact absurd hs hst⟩

theorem servedAt_pending {c : Callout} (h : c.state = .pending) : servedAt (some c) = none := by
  show (if c.state = .inService then some c.desk else none) = none
  rw [h]
  exact if_neg nofun

theorem servedAt_recordAfter {raised : Callout} (h : raised.state = .pending) (present : Bool) (r : Option Callout) :
    servedAt (recordAfter raised present r) = servedAt r := by
  cases r with
  | none =>
    cases present
    · rfl
    · exact servedAt_pending h
  | some c =>
    unfold recordAfter
    dsimp only
    split
    · rename_i hst
      exact (servedAt_pending hst.1).symm
    · split <;> rfl

theorem desk_recordAfter {raised : Callout} {present : Bool} {r : Option Callout} {c : Callout}
    (h : recordAfter raised present r = some c) : c.desk = raised.desk ∨ ∃ x, r = some x ∧ c.desk = x.desk := by
  cases r with
  | none =>
    cases present
    · cases h
    · cases h
      exact .inl rfl
  | some x =>
    unfold recordAfter at h
    dsimp only at h
    split at h
    · cases h
    · split at h
      · exact .inr ⟨x, rfl, by rw [← Option.some.inj h]⟩
      · exact .inr ⟨x, rfl, by rw [← Option.some.inj h]⟩

/-- Every record's desk is one of the eight (R138). -/
def DesksBounded (s : State) : Prop := ∀ p k c, callout s p k = some c → c.desk < 8

/-- The lists of the desks are the records in service (R147). -/
def ListsServed (s : State) : Prop := ∀ d p k, (p, k) ∈ (desk s d).inService ↔ servedAt (callout s p k) = some d

theorem desksExact_iff (s : State) :
    DesksExact s ↔ (∀ d, (desk s d).inService.Nodup ∧ (desk s d).inService.length ≤ 16) ∧ ListsServed s ∧ DesksBounded s := by
  simp only [DesksExact, ListsServed, DesksBounded, servedAt_some_iff]

/-- A step that leaves the lists, and what is in service where. -/
structure Serving (s t : State) : Prop where
  lists   : ∀ d, (desk t d).inService = (desk s d).inService
  served  : ∀ p k, servedAt (callout t p k) = servedAt (callout s p k)
  bounded : DesksBounded s → DesksBounded t

theorem Serving.exact {s t : State} (h : Serving s t) (hs : DesksExact s) : DesksExact t := by
  rw [desksExact_iff] at *
  obtain ⟨lists, served, bounded⟩ := hs
  exact ⟨fun d => by rw [h.lists]; exact lists d, fun d p k => by rw [h.lists, h.served]; exact served d p k, h.bounded bounded⟩

namespace Serving

variable {s t u : State}

theorem refl (s : State) : Serving s s := ⟨fun _ => rfl, fun _ _ => rfl, id⟩

theorem trans (h : Serving s t) (k : Serving t u) : Serving s u :=
  ⟨fun d => (k.lists d).trans (h.lists d), fun p x => (k.served p x).trans (h.served p x), k.bounded ∘ h.bounded⟩

theorem of_frame {w : List Field} (h : Frame w s t) (hd : .desks ∉ w) (hc : .callouts ∉ w) : Serving s t :=
  ⟨fun d => by rw [h.desk d hd], fun p k => by rw [h.callout p k hc], fun hb p k c hck => hb p k c (h.callout p k hc ▸ hck)⟩

theorem ite {c : Prop} [Decidable c] (ht : Serving s t) (hu : Serving s u) : Serving s (if c then t else u) := by
  split
  · exact ht
  · exact hu

end Serving

theorem serving_printerEvent (s : State) (p : Nat) (f : Printer → Printer) : Serving s (printerEvent s p f) := by
  refine ⟨fun d => by rw [(frame_printerEvent s p f).desk d (by decide)], fun x k => ?_, fun hb x k c hc => ?_⟩
  · by_cases hx : x = p
    · rw [hx, callout_printerEvent]
      split
      · rfl
      · exact servedAt_recordAfter rfl _ _
    · rw [callout_printerEvent_ne s p f hx]
  · by_cases hx : x = p
    · rw [hx, callout_printerEvent] at hc
      split at hc
      · exact hb p k c hc
      · obtain hd | ⟨y, hy, hd⟩ := desk_recordAfter hc
        · rw [hd]
          exact routeDesk_lt _ _
        · rw [hd]
          exact hb p k y hy
    · rw [callout_printerEvent_ne s p f hx] at hc
      exact hb x k c hc

/-- A record raised where none is in service. -/
theorem serving_raiseCallout {s : State} {p : Nat} {k : CondKind} (h : servedAt (callout s p k) = none) :
    Serving s (raiseCallout s p k) := by
  have written : ∀ x y, callout (raiseCallout s p k) x y = if x = p ∧ y = k then some (raisedRecord s p k) else callout s x y :=
    fun x y => callout_putCallout s p x k y _
  refine ⟨fun d => rfl, fun x y => ?_, fun hb x y c hc => ?_⟩
  · rw [written]
    split
    · rename_i hxy
      rw [hxy.1, hxy.2, h]
      exact servedAt_pending rfl
    · rfl
  · rw [written] at hc
    split at hc
    · cases hc
      exact routeDesk_lt _ _
    · exact hb x y c hc

/-! ## Operations that move a record and its list -/

/-- The list of desk `d` changed to `l`, and the record of printer `p` and kind `k` to `r`. -/
theorem desksExact_move {s t : State} (h : DesksExact s) {p : Nat} {k : CondKind} {r : Option Callout} {d : Nat}
    {l : List (Nat × CondKind)} (hc : ∀ x y, callout t x y = if x = p ∧ y = k then r else callout s x y)
    (hd : ∀ x, (desk t x).inService = if x = d then l else (desk s x).inService)
    (hnodup : l.Nodup) (hlen : l.length ≤ 16) (hl : ∀ e, e ∈ l ↔ if e = (p, k) then servedAt r = some d else e ∈ (desk s d).inService)
    (hother : ∀ x, x ≠ d → servedAt r ≠ some x ∧ servedAt (callout s p k) ≠ some x) (hb : ∀ c, r = some c → c.desk < 8) :
    DesksExact t := by
  rw [desksExact_iff] at *
  obtain ⟨lists, served, bounded⟩ := h
  refine ⟨fun x => ?_, fun x q y => ?_, fun q y c hqy => ?_⟩
  · rw [hd]
    split
    · exact ⟨hnodup, hlen⟩
    · exact lists x
  · rw [hd, hc]
    by_cases hx : x = d
    · rw [if_pos hx, hl, hx]
      by_cases he : q = p ∧ y = k
      · rw [if_pos he, if_pos (by rw [he.1, he.2])]
      · rw [if_neg he, if_neg fun heq => he ⟨congrArg Prod.fst heq, congrArg Prod.snd heq⟩]
        exact served d q y
    · rw [if_neg hx]
      by_cases he : q = p ∧ y = k
      · obtain ⟨rfl, rfl⟩ := he
        rw [if_pos ⟨rfl, rfl⟩, served x q y]
        exact ⟨fun hh => absurd hh (hother x hx).2, fun hh => absurd hh (hother x hx).1⟩
      · rw [if_neg he]
        exact served x q y
  · rw [hc] at hqy
    split at hqy
    · exact hb c hqy
    · exact bounded q y c hqy

theorem desksExact_retireCallout {s : State} (h : DesksExact s) {p : Nat} {k : CondKind} {c : Callout}
    (hc : callout s p k = some c) : DesksExact (retireCallout s p k c) := by
  have finish : ∀ {t : State}, DesksExact t → callout t p k = none →
      let v := if k = .tonerReorder then orderDue t p else t
      DesksExact (if reRaises v p k c = true then raiseCallout v p k else v) := by
    intro t ht hnone v
    have ordered : Serving t v := (serving_printerEvent t p Printer.order).ite (.refl t)
    have unserved : servedAt (callout v p k) = none := by rw [ordered.served, hnone]; rfl
    exact (ordered.trans ((serving_raiseCallout unserved).ite (.refl v))).exact ht
  have gone : ∀ t : State, callout (putCallout t p k none) p k = none := fun t => (callout_putCallout t p p k k _).trans (if_pos ⟨rfl, rfl⟩)
  unfold retireCallout
  dsimp only
  cases hst : c.state with
  | pending =>
    refine finish ?_ (gone s)
    refine Serving.exact (s := s) ⟨fun _ => rfl, fun x y => ?_, fun hb x y e he => ?_⟩ h
    · rw [callout_putCallout]
      split
      · rename_i hxy
        rw [hxy.1, hxy.2, hc]
        exact (servedAt_pending hst).symm
      · rfl
    · rw [callout_putCallout] at he
      split at he
      · cases he
      · exact hb x y e he
  | inService =>
    have served : servedAt (callout s p k) = some c.desk := by rw [hc]; exact if_pos hst
    obtain ⟨nodup, len⟩ := h.1 c.desk
    refine finish (desksExact_move h (p := p) (k := k) (r := none) (d := c.desk)
      (l := (desk s c.desk).inService.filter (· != (p, k))) (fun x y => callout_putCallout _ p x k y none) (fun x => ?_)
      (nodup.filter _) ((List.length_filter_le _ _).trans len) (fun e => ?_) (fun x hx => ⟨nofun, fun hh => ?_⟩) nofun) (gone _)
    · show (desk (putDesk s c.desk _) x).inService = _
      rw [desk_putDesk]
      split <;> rfl
    · rw [List.mem_filter, bne_iff_ne]
      split
      · rename_i he
        exact ⟨fun hh => absurd he hh.2, nofun⟩
      · exact and_iff_left ‹_›
    · rw [served] at hh
      exact hx (Option.some.inj hh).symm

theorem desksExact_putInService {s : State} (h : DesksExact s) {d p : Nat} {k : CondKind} {c : Callout}
    (hc : callout s p k = some c) (hp : presentableAt s d p c = true) : DesksExact (putInService s d p k c) := by
  obtain ⟨hst, hd, -, hlen, -⟩ := (presentableAt_iff s d p c).1 hp
  have unserved : servedAt (callout s p k) = none := by rw [hc]; exact servedAt_pending hst
  obtain ⟨nodup, -⟩ := h.1 d
  have absent : (p, k) ∉ (desk s d).inService := fun hm => by
    rw [((desksExact_iff s).1 h).2.1 d p k, unserved] at hm
    cases hm
  have served : servedAt (some { c with state := .inService, ackedAt := some s.seconds }) = some d := by
    rw [← hd, servedAt]
    exact if_pos rfl
  refine desksExact_move h (p := p) (k := k) (r := some { c with state := .inService, ackedAt := some s.seconds }) (d := d)
    (l := (desk s d).inService ++ [(p, k)]) (fun x y => callout_putCallout s p x k y
      (some { c with state := .inService, ackedAt := some s.seconds })) (fun x => ?_) ?_ ?_ (fun e => ?_)
    (fun x hx => ⟨fun hh => ?_, fun hh => ?_⟩) fun x hx => ?_
  · show (desk (putDesk (putCallout s p k _) d _) x).inService = _
    rw [desk_putDesk]
    split <;> rfl
  · exact nodup.append (List.nodup_singleton _) (List.disjoint_singleton.2 absent)
  · rw [List.length_append]
    exact hlen
  · rw [List.mem_append, List.mem_singleton]
    split
    · exact ⟨fun _ => served, fun _ => .inr ‹_›⟩
    · exact or_iff_left ‹_›
  · rw [served] at hh
    exact hx (Option.some.inj hh).symm
  · rw [unserved] at hh
    cases hh
  · cases hx
    exact ((desksExact_iff s).1 h).2.2 p k c hc

/-- Rotating a class's base moves no record and no list. -/
theorem frame_rotateBase (s : State) (c p : Nat) : Frame [.classes] s (rotateBase s c p) := by
  unfold rotateBase
  split
  · exact Frame.refl _ s
  · rfl

theorem presentableAt_congr {s t : State} {w : List Field} (h : Frame w s t)
    (hw : ∀ f ∈ [Field.printers, .desks, .callouts], f ∉ w) (d p : Nat) (c : Callout) :
    presentableAt t d p c = presentableAt s d p c := by
  have cls : inServiceClass t = inServiceClass s := funext fun r => by
    unfold inServiceClass
    rw [h.callout _ _ (hw _ (by decide))]
  unfold presentableAt
  rw [h.printer p (hw _ (by decide)), h.desk d (hw _ (by decide)), cls]

theorem desksExact_takeCallout {s : State} (h : DesksExact s) {d p : Nat} {k : CondKind} {c : Callout}
    (hc : callout s p k = some c) (hp : presentableAt s d p c = true) : DesksExact (takeCallout s d p k c) := by
  have rotate := frame_rotateBase s c.cls p
  have rotated : DesksExact (rotateBase s c.cls p) := (Serving.of_frame rotate (by decide) (by decide)).exact h
  have hc' := (rotate.callout p k (by decide)).trans hc
  have hp' := (presentableAt_congr rotate (by decide) d p c).trans hp
  unfold takeCallout
  dsimp only
  generalize rotateBase s c.cls p = t at rotated hc' hp'
  split
  · exact desksExact_retireCallout rotated hc'
  · have served := desksExact_putInService rotated hc' hp'
    split
    · exact (serving_printerEvent _ p Printer.order).exact served
    · exact served

/-! ## A printer's records deleted -/

theorem callout_foldl_delete (p : Nat) (l : List CondKind) (s : State) (x : Nat) (y : CondKind) :
    callout (l.foldl (fun s k => putCallout s p k none) s) x y = if x = p ∧ y ∈ l then none else callout s x y := by
  induction l generalizing s with
  | nil => exact (if_neg fun h => List.not_mem_nil h.2).symm
  | cons k l ih =>
    rw [List.foldl_cons, ih, callout_putCallout]
    by_cases hx : x = p
    · by_cases hy : y = k
      · simp [hx, hy]
      · simp [hx, hy]
    · simp [hx]

theorem desk_foldl_update (f : Desk → Desk) {l : List Nat} (hl : l.Nodup) (s : State) (x : Nat) :
    desk (l.foldl (fun s d => putDesk s d (f (desk s d))) s) x = if x ∈ l then f (desk s x) else desk s x := by
  induction l generalizing s with
  | nil => exact (if_neg List.not_mem_nil).symm
  | cons d l ih =>
    obtain ⟨hd, hl⟩ := List.nodup_cons.1 hl
    rw [List.foldl_cons, ih hl, desk_putDesk_update]
    by_cases hx : x = d
    · rw [hx, if_neg hd, if_pos rfl, if_pos List.mem_cons_self]
    · simp only [List.mem_cons, hx, false_or, if_false]

theorem condKind_mem_all (k : CondKind) : k ∈ CondKind.all := by cases k <;> decide

theorem callout_deleteCallouts (s : State) (p x : Nat) (k : CondKind) :
    callout (deleteCallouts s p) x k = if x = p then none else callout s x k := by
  have gone := callout_foldl_delete p CondKind.all s x k
  unfold deleteCallouts
  dsimp only
  rw [(Frame.foldl (w := [.desks]) (fun s d => frame_putDesk s d _) _ _).callout x k (by decide), gone]
  simp only [condKind_mem_all, and_true]

theorem desk_deleteCallouts (s : State) (p d : Nat) :
    desk (deleteCallouts s p) d =
      if d < 8 then { desk s d with inService := (desk s d).inService.filter fun r => r.1 != p } else desk s d := by
  have kept : desk (CondKind.all.foldl (fun s k => putCallout s p k none) s) d = desk s d :=
    (Frame.foldl (w := [.callouts]) (fun s k => frame_putCallout s p k none) _ _).desk d (by decide)
  unfold deleteCallouts
  dsimp only
  rw [desk_foldl_update (fun r => { r with inService := r.inService.filter fun e => e.1 != p }) List.nodup_range, kept]
  simp only [List.mem_range]

theorem desksExact_deleteCallouts {s : State} (h : DesksExact s) (p : Nat) : DesksExact (deleteCallouts s p) := by
  rw [desksExact_iff] at *
  obtain ⟨lists, served, bounded⟩ := h
  have list : ∀ d, (desk (deleteCallouts s p) d).inService = (desk s d).inService.filter fun r => r.1 != p := by
    intro d
    rw [desk_deleteCallouts]
    split
    · rfl
    · rename_i hd
      refine (List.filter_eq_self.2 fun e he => ?_).symm
      obtain ⟨c, hc, -, hcd⟩ := (servedAt_some_iff _ _).1 ((served d e.1 e.2).1 he)
      exact absurd (hcd ▸ bounded _ _ c hc) hd
  refine ⟨fun d => ?_, fun d q k => ?_, fun q k c hc => ?_⟩
  · rw [list]
    exact ⟨(lists d).1.filter _, (List.length_filter_le _ _).trans (lists d).2⟩
  · rw [list, List.mem_filter, served, callout_deleteCallouts, bne_iff_ne]
    split
    · rename_i hq
      exact ⟨fun hh => absurd hq hh.2, nofun⟩
    · exact and_iff_left ‹_›
  · rw [callout_deleteCallouts] at hc
    split at hc
    · cases hc
    · exact bounded q k c hc

/-! ## Every step -/

theorem serving_consume (s : State) (i k : Nat) : Serving s (consume s i k) := by
  unfold consume
  split
  · exact .refl s
  · exact serving_printerEvent s _ _

theorem serving_reportCopies (s : State) (i k : Nat) : Serving s (reportCopies s i k) := by
  unfold reportCopies
  exact (Serving.refl s).ite ((Serving.of_frame (frame_commit s i k) (by decide) (by decide)).trans (serving_consume _ i k))

theorem serving_completeJob (s : State) (i : Nat) : Serving s (completeJob s i) :=
  (serving_reportCopies s i _).trans
    (.of_frame ((frame_lowerQueue _ _).comp (w := [.printers, .jobs, .finished]) (frame_putJob _ _ _) (by decide))
      (by decide) (by decide))

theorem serving_surveyOnce (s : State) : Serving s (surveyOnce s) := by
  have survey : ∀ {u v : State}, Frame [.survey] u v → Serving u v := fun h => .of_frame h (by decide) (by decide)
  unfold surveyOnce
  split
  · exact .refl s
  · split
    · exact survey rfl
    · rename_i p _
      have seen := (serving_printerEvent s p _).trans
        (survey (v := { visitPrinter s p with survey := { (visitPrinter s p).survey with cursor := p + 1 } }) rfl)
      dsimp only
      split
      · exact seen.trans (survey rfl)
      · exact seen

theorem serving_onSupply {s : State} (p : Nat) (channel : Option Channel) {effect : Channel → Supply → Reply}
    (h : ∀ ch x, Serving s (effect ch x).state) : Serving s (onSupply p channel effect s).state := by
  unfold onSupply
  repeat' split
  · exact .refl s
  · exact .refl s
  · exact .refl s
  · exact h _ _

theorem desksExact_acknowledgeRule {s : State} (hs : Canonical s = true) (h : DesksExact s) (d : Nat) :
    DesksExact (acknowledgeRule d s).state := by
  unfold acknowledgeRule
  split
  · exact h
  · split
    · exact h
    · rename_i p k c hl
      obtain ⟨before, after, hsplit, -, -⟩ := leastByKey_some _ _ _ hl
      have hm : (p, k, c) ∈ presentableList s d := hsplit ▸ List.mem_append_right _ List.mem_cons_self
      obtain ⟨hc, hp⟩ := (mem_presentableList_iff hs d p k c).1 hm
      exact desksExact_takeCallout h hc hp

theorem desksExact_closeSpecificRule {s : State} (h : DesksExact s) (d p : Nat) (kind : Option CondKind) :
    DesksExact (closeSpecificRule d p kind s).state := by
  unfold closeSpecificRule
  split
  · exact h
  · split
    · exact h
    · split
      · exact h
      · split
        · exact desksExact_retireCallout h ‹_›
        · exact h

theorem desksExact_closeNonSpecificRule {s : State} (h : DesksExact s) (d : Nat) :
    DesksExact (closeNonSpecificRule d s).state := by
  unfold closeNonSpecificRule
  split
  · exact h
  · split
    · exact h
    · split
      · exact h
      · split
        · exact h
        · exact desksExact_retireCallout h ‹_›

theorem desksExact_retirePrinterRule {s : State} (h : DesksExact s) (p : Nat) :
    DesksExact (retirePrinterRule p s).state := by
  have framed : ∀ {w : List Field} {a b : State}, Frame w a b → .desks ∉ w → .callouts ∉ w → DesksExact a → DesksExact b :=
    fun hf hd hc => (Serving.of_frame hf hd hc).exact
  unfold retirePrinterRule
  split
  · exact h
  · split
    · exact h
    · exact framed (frame_putPrinter _ p _) (by decide) (by decide)
        (desksExact_deleteCallouts (framed (frame_leavePools s p) (by decide) (by decide) h) p)

theorem serving_setDeskModeRule (s : State) (d : Nat) (mode : Option DeskMode) :
    Serving s (setDeskModeRule d mode s).state := by
  unfold setDeskModeRule
  split
  · exact .refl s
  · split
    · exact .refl s
    · refine ⟨fun x => ?_, fun _ _ => rfl, id⟩
      show (desk (putDesk s d _) x).inService = _
      rw [desk_putDesk]
      split
      · rename_i hx
        rw [hx]
      · rfl

theorem looksAt_desksExact : LooksAt [.desks, .callouts] DesksExact := by
  intro s t h hs
  have desks : ∀ d, desk t d = desk s d := fun d => by rw [desk, show t.desks = _ from h .desks (by decide)]; rfl
  have callouts : ∀ p k, callout t p k = callout s p k := fun p k => by
    rw [callout, show t.callouts = _ from h .callouts (by decide)]; rfl
  unfold DesksExact at *
  simpa only [desks, callouts] using hs

theorem desksExact_recordsAfter (c : Instr) {s : State} (hw : mayWrite [.desks, .callouts] c = true)
    (hs : Canonical s = true) (h : DesksExact s) : DesksExact (recordsAfter c s) := by
  have guarded : ∀ {b : Bool} {r : Reply}, Serving s r.state → Serving s (if b then refuse s .noSuch else r).state := by
    intro b r hr
    cases b
    · exact hr
    · exact .refl s
  cases c
  case reportProgress handle count =>
    unfold recordsAfter reportProgressRule
    dsimp only
    split
    · exact h
    · split
      · exact h
      · exact (serving_reportCopies s _ _).exact h
  case reportJobEndComplete handle outcome =>
    unfold recordsAfter jobEndRule
    dsimp only
    split
    · exact h
    · split
      · exact h
      · split
        · exact h
        · exact (serving_completeJob s _).exact h
  case setService => exact (guarded (serving_printerEvent s _ fun _ => _)).exact h
  case printerStatus => exact (guarded (serving_printerEvent s _ fun _ => _)).exact h
  case supplyReport => exact (serving_onSupply _ _ fun _ _ => serving_printerEvent s _ fun _ => _).exact h
  case supplyReplaced => exact (serving_onSupply _ _ fun _ _ => serving_printerEvent s _ fun _ => _).exact h
  case contactExpiry p =>
    unfold recordsAfter loseContact
    dsimp only
    split
    · exact h
    · exact ((serving_printerEvent s _ _).ite (.refl s)).exact h
  case surveyStep => exact (serving_surveyOnce s).exact h
  case retirePrinter => exact desksExact_retirePrinterRule h _
  case setDeskMode => exact (serving_setDeskModeRule s _ _).exact h
  case acknowledgeCallout => exact desksExact_acknowledgeRule hs h _
  case closeCalloutSpecific => exact desksExact_closeSpecificRule h _ _ _
  case closeCalloutNonSpecific => exact desksExact_closeNonSpecificRule h _
  all_goals exact absurd hw Bool.false_ne_true

/-- Settles O11: an event on a printer leaves what is in service, and an acknowledge, a close and a retirement change the
record and the list of its desk together. -/
theorem inServiceListsStayExact : Obligations.InServiceListsStayExact := by
  unfold Obligations.InServiceListsStayExact
  intro s t hs h
  refine (step_keeps looksAt_desksExact.withCanonical (by decide) ⟨canonical_reset, resetIsConsistent.1.desks⟩
    (fun c s _ h => ⟨canonical_recordsAfter c h.1, ?_⟩) ⟨hs.canonical, hs.desks⟩ h).2
  cases hw : mayWrite [.desks, .callouts] c with
  | true => exact desksExact_recordsAfter c hw h.1 h.2
  | false => exact looksAt_desksExact.of_frame (frame_recordsAfter c s) (by simpa [mayWrite] using hw) h.2

end Sys2Proof.Machine
end

