-- ==== Sys2Proof/Proofs/CalloutLife.lean ====
section
/-! PROOFS. The end of a callout record: acknowledge, close and retirement (R152 to R158, R162), and the order that an
answered TONER_REORDER record places (R133, R134). -/

namespace Sys2Proof.Machine

/-! ## A record retired -/

/-- The desk lists once the record is out of its desk's list (R152 step 1). -/
def leftService (s : State) (p : Nat) (k : CondKind) (c : Callout) : State :=
  match c.state with
  | .pending => s
  | .inService => putDesk s c.desk { desk s c.desk with inService := (desk s c.desk).inService.filter (· != (p, k)) }

/-- The state in which the re-raise test of R152 runs: the record gone and the DUE supplies ordered. -/
def orderedAfter (s : State) (p : Nat) (k : CondKind) (c : Callout) : State :=
  let removed := putCallout (leftService s p k c) p k none
  if k = .tonerReorder then orderDue removed p else removed

/-- The condition of R152 step 3 in the state before the retirement. -/
@[reducible] def raisesAnew (s : State) (p : Nat) (k : CondKind) (c : Callout) : Prop :=
  (c.sense = .level ∧ k ≠ .tonerReorder ∧ (printer s p).condition k = true) ∨ (c.sense = .edge ∧ c.again = true)

section
variable (s : State) (p : Nat) (k : CondKind) (c : Callout)

theorem retireCallout_eq :
    retireCallout s p k c =
      if reRaises (orderedAfter s p k c) p k c then raiseCallout (orderedAfter s p k c) p k else orderedAfter s p k c := rfl

theorem frame_leftService : Frame [.desks] s (leftService s p k c) := by
  unfold leftService
  split
  · exact Frame.refl _ s
  · exact frame_putDesk _ _ _

theorem printer_orderedAfter (x : Nat) :
    printer (orderedAfter s p k c) x = if x = p ∧ k = .tonerReorder then (printer s p).order else printer s x := by
  have kept : ∀ y, printer (putCallout (leftService s p k c) p k none) y = printer s y := fun y =>
    (frame_leftService s p k c).printer y (by decide)
  unfold orderedAfter
  dsimp only
  split
  · rename_i hk
    rw [orderDue, printer_printerEvent, kept, kept]
    simp only [hk, and_true]
  · rename_i hk
    rw [kept, if_neg fun h => hk h.2]

theorem frame_orderedAfter : Frame [.desks, .callouts, .printers] s (orderedAfter s p k c) :=
  ((frame_leftService s p k c).comp (w := [.desks, .callouts]) (frame_putCallout _ p k none) (by decide)).comp
    (w₂ := [.printers, .callouts]) (.ite (frame_orderDue _ p) (Frame.refl _ _)) (by decide)

theorem callout_orderedAfter (x : Nat) (y : CondKind) :
    callout (orderedAfter s p k c) x y = if x = p ∧ y = k then none else callout s x y := by
  have removed : ∀ x y, callout (putCallout (leftService s p k c) p k none) x y = if x = p ∧ y = k then none else callout s x y :=
    fun x y => by rw [callout_putCallout, (frame_leftService s p k c).callout x y (by decide)]
  unfold orderedAfter
  dsimp only
  split
  · rename_i hk
    rw [callout_orderDue (fun e he => ?_), removed]
    rw [removed, if_pos ⟨rfl, hk.symm⟩] at he
    cases he
  · exact removed x y

theorem desk_orderedAfter (d : Nat) : desk (orderedAfter s p k c) d = desk (leftService s p k c) d := by
  have ordered : ∀ t, Frame [.printers, .callouts] t (if k = .tonerReorder then orderDue t p else t) := fun t =>
    .ite (frame_orderDue t p) (Frame.refl _ t)
  exact ((frame_putCallout (leftService s p k c) p k none).comp (w := [.printers, .callouts]) (ordered _) (by decide)).desk d
    (by decide)

/-- Ordering takes the presence of TONER_REORDER and no other, so the re-raise test reads the conditions as they stood. -/
theorem reRaises_iff : reRaises (orderedAfter s p k c) p k c = true ↔ raisesAnew s p k c := by
  have condition : (printer (orderedAfter s p k c) p).condition k = true ↔
      k ≠ .tonerReorder ∧ (printer s p).condition k = true := by
    rw [printer_orderedAfter]
    by_cases hk : k = .tonerReorder
    · rw [if_pos ⟨rfl, hk⟩, hk, condition_order_tonerReorder]
      exact ⟨nofun, fun h => absurd rfl h.1⟩
    · rw [if_neg fun h => hk h.2]
      exact (and_iff_right hk).symm
  unfold reRaises raisesAnew
  cases c.sense with
  | level => simp [condition]
  | edge => simp

theorem raiseCallout_eq : raiseCallout s p k = putCallout s p k (some (raisedRecord s p k)) := rfl

/-- The record raised anew is the one an appearance would raise with the desks' lists as they are then (R140, R152). -/
theorem raisedRecord_orderedAfter :
    raisedRecord (orderedAfter s p k c) p k = raisedRecord (leftService s p k c) p k := by
  have routing : ∀ {q : Printer}, q = (printer s p).order ∨ q = printer s p →
      q.deskGroup = (printer s p).deskGroup ∧ q.routeMode = (printer s p).routeMode := by
    rintro q (rfl | rfl)
    · exact ⟨rfl, rfl⟩
    · exact ⟨rfl, rfl⟩
  have left := (frame_leftService s p k c).printer p (by decide)
  have ordered : Frame [.callouts, .printers] (leftService s p k c) (orderedAfter s p k c) :=
    (frame_putCallout _ p k none).comp (.ite (frame_orderDue _ p) (Frame.refl _ _)) (by decide)
  have kept : printer (orderedAfter s p k c) p = (printer s p).order ∨ printer (orderedAfter s p k c) p = printer s p := by
    rw [printer_orderedAfter]
    split
    · exact .inl rfl
    · exact .inr rfl
  exact raisedRecord_congr ordered (by rw [left, (routing kept).1]) (by rw [left, (routing kept).2]) (by decide) k

theorem frame_raised (t : State) : Frame [.callouts] t (if reRaises t p k c then raiseCallout t p k else t) :=
  .ite (frame_putCallout _ _ _ _) (Frame.refl _ t)

theorem frame_retireCallout_records : Frame [.desks, .callouts, .printers] s (retireCallout s p k c) :=
  (frame_orderedAfter s p k c).comp (frame_raised p k c _) (by decide)

theorem desk_retireCallout (d : Nat) : desk (retireCallout s p k c) d = desk (leftService s p k c) d := by
  rw [retireCallout_eq, (frame_raised p k c _).desk d (by decide), desk_orderedAfter]

theorem printer_retireCallout (x : Nat) :
    printer (retireCallout s p k c) x = if x = p ∧ k = .tonerReorder then (printer s p).order else printer s x := by
  rw [retireCallout_eq, (frame_raised p k c _).printer x (by decide), printer_orderedAfter]

theorem printers_retireCallout (hk : k ≠ .tonerReorder) : (retireCallout s p k c).printers = s.printers := by
  have unordered : (orderedAfter s p k c).printers = s.printers := by
    unfold orderedAfter
    rw [if_neg hk]
    exact (frame_leftService s p k c).same .printers (by decide)
  exact ((frame_raised p k c _).same .printers (by decide)).trans unordered

theorem callout_retireCallout (x : Nat) (y : CondKind) :
    callout (retireCallout s p k c) x y =
      if x = p ∧ y = k then (if raisesAnew s p k c then some (raisedRecord (leftService s p k c) p k) else none)
      else callout s x y := by
  rw [retireCallout_eq, ← raisedRecord_orderedAfter]
  simp only [← reRaises_iff]
  split
  · rw [raiseCallout_eq, callout_putCallout, callout_orderedAfter]
    split <;> rfl
  · rw [callout_orderedAfter]

end

/-- What an appearance of the condition raises once the record is gone (R140). -/
theorem callout_handChange_removed (s : State) (p : Nat) (k : CondKind) :
    callout (handChange (putCallout s p k none) p k true) p k = some (raisedRecord s p k) := by
  have removed : callout (putCallout s p k none) p k = none := (callout_putCallout s p p k k none).trans (if_pos ⟨rfl, rfl⟩)
  rw [callout_handChange, removed]
  rfl

theorem leftService_pending (s : State) (p : Nat) (k : CondKind) {c : Callout} (h : c.state = .pending) :
    leftService s p k c = s := by
  unfold leftService
  rw [h]

theorem leftService_inService (s : State) (p : Nat) (k : CondKind) {c : Callout} (h : c.state = .inService) :
    leftService s p k c =
      putDesk s c.desk { desk s c.desk with inService := (desk s c.desk).inService.filter (· != (p, k)) } := by
  unfold leftService
  rw [h]

/-! ## The order an answer places -/

/-- Settles O47: the event of ordering makes every DUE supply ORDERED, and neither the class's base nor a record raised anew
touches a supply. -/
theorem answeredReorderIsOrdered : Obligations.AnsweredReorderIsOrdered := by
  unfold Obligations.AnsweredReorderIsOrdered
  intro s d p c ordered
  have of_record : ∀ t, printer t p = (printer s p).order → ordered t := fun t ht =>
    ⟨by rw [ht, order_supplies], by rw [ht, condition_order_tonerReorder]⟩
  have retired : ∀ t, printer t p = printer s p → ordered (retireCallout t p .tonerReorder c) := fun t ht =>
    of_record _ (by rw [printer_retireCallout, if_pos ⟨rfl, rfl⟩, ht])
  have rotated := (frame_rotateBase s c.cls p).printer p (by decide)
  refine ⟨?_, retired s rfl⟩
  unfold takeCallout
  dsimp only
  split
  · exact retired _ rotated
  · refine of_record _ ?_
    rw [if_pos rfl, orderDue, printer_printerEvent, if_pos rfl]
    exact congrArg Printer.order rotated

/-! ## Acknowledge -/

theorem exec_acknowledgeCallout (len : BitVec 16) (d : Byte) (s : State) :
    exec (.acknowledgeCallout len d) s = request 0x76 (len == 1) true (acknowledgeRule d.toNat) s := rfl

theorem rank_lt (s : State) (c p : Nat) : rank s c p < 256 := Nat.mod_lt _ (by decide)

/-- The record that goes before every other presentable one is the one acknowledged (R145, R153). -/
theorem acknowledgeRule_of_first {s : State} (hs : Canonical s = true) {d p : Nat} {k : CondKind} {c : Callout} (hd : d ≤ 7)
    (hc : callout s p k = some c) (hp : presentableAt s d p c = true)
    (hfirst : ∀ x y e, callout s x y = some e → presentableAt s d x e = true →
      c.cls < e.cls ∨ c.cls = e.cls ∧ (rank s c.cls p < rank s c.cls x
        ∨ rank s c.cls p = rank s c.cls x ∧ (k.position < y.position ∨ x = p ∧ y = k))) :
    acknowledgeRule d s = { state := takeCallout s d p k c, code := .ok, body := noticeBody s d p k c } := by
  have hm : (p, k, c) ∈ presentableList s d := (mem_presentableList_iff hs d p k c).2 ⟨hc, hp⟩
  have chosen : leastByKey (priority s) (presentableList s d) = some (p, k, c) := by
    cases hl : leastByKey (priority s) (presentableList s d) with
    | none =>
      rw [(leastByKey_none _ _).1 hl] at hm
      cases hm
    | some m =>
      obtain ⟨x, y, e⟩ := m
      obtain ⟨before, after, hsplit, hbefore, hafter⟩ := leastByKey_some _ _ _ hl
      have hle : priority s (x, y, e) ≤ priority s (p, k, c) := by
        rw [hsplit, List.mem_append, List.mem_cons] at hm
        obtain hm | hm | hm := hm
        · exact (hbefore _ hm).le
        · rw [hm]
        · exact hafter _ hm
      have hx : (x, y, e) ∈ presentableList s d := hsplit ▸ List.mem_append_right _ List.mem_cons_self
      obtain ⟨he, hpe⟩ := (mem_presentableList_iff hs d x y e).1 hx
      have hk := k.position_bounds
      have hy := y.position_bounds
      have hr := rank_lt s c.cls p
      have hrx := rank_lt s e.cls x
      unfold priority at hle
      dsimp only at hle
      obtain hcls | ⟨hcls, hrank⟩ := hfirst x y e he hpe
      · omega
      · rw [← hcls] at hle
        obtain hrank | ⟨hrank, hpos | ⟨rfl, rfl⟩⟩ := hrank
        · omega
        · omega
        · cases hc.symm.trans he
          rfl
  unfold acknowledgeRule
  rw [if_neg (Nat.not_lt.2 hd), chosen]

theorem acknowledgeRule_of_nothing {s : State} (hs : Canonical s = true) {d : Nat} (hd : d ≤ 7)
    (h : ∀ p k c, callout s p k = some c → presentableAt s d p c = false) :
    acknowledgeRule d s = refuse s .none := by
  have empty : presentableList s d = [] := by
    refine List.eq_nil_iff_forall_not_mem.2 fun ⟨p, k, c⟩ hm => ?_
    obtain ⟨hc, hp⟩ := (mem_presentableList_iff hs d p k c).1 hm
    rw [h p k c hc] at hp
    cases hp
  unfold acknowledgeRule
  rw [if_neg (Nat.not_lt.2 hd), empty]
  rfl

theorem noticeBody_length (s : State) (d p : Nat) (k : CondKind) (c : Callout) : (noticeBody s d p k c).length = 22 := by
  simp [noticeBody, stampBytes, num_length, optNum_length]

section
variable (s : State) (d p : Nat) (k : CondKind) (c : Callout)

theorem classRec_rotateBase (x : Nat) :
    classRec (rotateBase s c.cls p) x =
      if x = c.cls ∧ (classRec s x).mode = .rotating then { classRec s x with base := p } else classRec s x := by
  unfold rotateBase
  split
  · rename_i hm
    split
    · rename_i hx
      rw [hx.1, hm] at hx
      cases hx.2
    · rfl
  · rename_i hm
    rw [classRec_putClass]
    by_cases hx : x = c.cls
    · rw [hx, if_pos rfl, if_pos ⟨rfl, hm⟩]
    · rw [if_neg hx, if_neg fun h => hx h.1]

theorem frame_putInService : Frame [.callouts, .desks] s (putInService s d p k c) := rfl

theorem callout_putInService (x : Nat) (y : CondKind) :
    callout (putInService s d p k c) x y =
      if x = p ∧ y = k then some { c with state := .inService, ackedAt := some s.seconds } else callout s x y :=
  callout_putCallout s p x k y (some { c with state := .inService, ackedAt := some s.seconds })

theorem desk_putInService (x : Nat) :
    desk (putInService s d p k c) x =
      if x = d then { desk s x with inService := (desk s x).inService ++ [(p, k)] } else desk s x :=
  desk_putDesk_update (putCallout s p k _) d x fun r => { r with inService := r.inService ++ [(p, k)] }

/-- The acknowledge of a record that is not retired at once. -/
def servedCallout (s : State) (d p : Nat) (k : CondKind) (c : Callout) : State :=
  let served := putInService (rotateBase s c.cls p) d p k c
  if k = .tonerReorder then orderDue served p else served

theorem takeCallout_eq :
    takeCallout s d p k c =
      if c.autoClose = true then retireCallout (rotateBase s c.cls p) p k c else servedCallout s d p k c := rfl

theorem frame_ordered (t : State) : Frame [.printers, .callouts] t (if k = .tonerReorder then orderDue t p else t) :=
  .ite (frame_orderDue t p) (Frame.refl _ t)

theorem frame_servedCallout : Frame [.classes, .desks, .callouts, .printers] s (servedCallout s d p k c) :=
  ((frame_rotateBase s c.cls p).comp (w := [.classes, .desks, .callouts]) (frame_putInService _ d p k c) (by decide)).comp
    (frame_ordered p k _) (by decide)

theorem frame_takeCallout_records : Frame [.classes, .desks, .callouts, .printers] s (takeCallout s d p k c) :=
  .ite ((frame_rotateBase s c.cls p).comp (frame_retireCallout_records _ p k c) (by decide)) (frame_servedCallout s d p k c)

theorem classRec_takeCallout (x : Nat) : classRec (takeCallout s d p k c) x = classRec (rotateBase s c.cls p) x := by
  rw [takeCallout_eq]
  split
  · exact (frame_retireCallout_records _ p k c).classRec x (by decide)
  · exact ((frame_putInService _ d p k c).comp (w := [.desks, .callouts, .printers]) (frame_ordered p k _)
      (by decide)).classRec x (by decide)

theorem printer_takeCallout (x : Nat) :
    printer (takeCallout s d p k c) x = if x = p ∧ k = .tonerReorder then (printer s p).order else printer s x := by
  have rotated := fun y => (frame_rotateBase s c.cls p).printer y (by decide)
  rw [takeCallout_eq]
  split
  · rw [printer_retireCallout, rotated, rotated]
  · have served : ∀ y, printer (putInService (rotateBase s c.cls p) d p k c) y = printer s y := rotated
    unfold servedCallout
    dsimp only
    split
    · rename_i hk
      rw [orderDue, printer_printerEvent, served, served]
      simp only [hk, and_true]
    · rename_i hk
      rw [served, if_neg fun h => hk h.2]

theorem printers_takeCallout (hk : k ≠ .tonerReorder) : (takeCallout s d p k c).printers = s.printers := by
  have rotated := (frame_rotateBase s c.cls p).same .printers (by decide)
  rw [takeCallout_eq]
  split
  · exact (printers_retireCallout _ p k c hk).trans rotated
  · unfold servedCallout
    rw [if_neg hk]
    exact rotated

theorem callout_servedCallout (x : Nat) (y : CondKind) :
    callout (servedCallout s d p k c) x y =
      if x = p ∧ y = k then some { c with state := .inService, ackedAt := some s.seconds } else callout s x y := by
  have rotate := frame_rotateBase s c.cls p
  have served : ∀ x y, callout (putInService (rotateBase s c.cls p) d p k c) x y =
      if x = p ∧ y = k then some { c with state := .inService, ackedAt := some s.seconds } else callout s x y := fun x y => by
    rw [callout_putInService, rotate.callout x y (by decide), show (rotateBase s c.cls p).seconds = s.seconds from
      rotate.same .seconds (by decide)]
  unfold servedCallout
  dsimp only
  split
  · rename_i hk
    rw [callout_orderDue fun e he => ?_, served]
    rw [served, if_pos ⟨rfl, hk.symm⟩] at he
    cases he
    rfl
  · exact served x y

theorem desk_servedCallout (x : Nat) :
    desk (servedCallout s d p k c) x =
      if x = d then { desk s x with inService := (desk s x).inService ++ [(p, k)] } else desk s x := by
  rw [servedCallout, (frame_ordered p k _).desk x (by decide), desk_putInService,
    (frame_rotateBase s c.cls p).desk x (by decide)]

/-- A PENDING record acknowledged with auto_close is gone, or raised anew (R155). -/
theorem callout_retire_rotated (hst : c.state = .pending) (x : Nat) (y : CondKind) :
    callout (retireCallout (rotateBase s c.cls p) p k c) x y =
      if x = p ∧ y = k then (if raisesAnew s p k c then some (raisedRecord s p k) else none) else callout s x y := by
  have rotate := frame_rotateBase s c.cls p
  have rotated := rotate.printer p (by decide)
  rw [callout_retireCallout, leftService_pending _ p k hst, rotate.callout x y (by decide),
    raisedRecord_congr rotate (by rw [rotated]) (by rw [rotated]) (by decide) k]
  simp only [raisesAnew, rotated]

theorem desk_retire_rotated (hst : c.state = .pending) (x : Nat) :
    desk (retireCallout (rotateBase s c.cls p) p k c) x = desk s x := by
  rw [desk_retireCallout, leftService_pending _ p k hst, (frame_rotateBase s c.cls p).desk x (by decide)]

end

/-- Settles O45: the record of least priority is the first presentable one, and its acknowledge writes the record and the
list, or retires it. -/
theorem acknowledgeTakesTheFirstPresentable : Obligations.AcknowledgeTakesTheFirstPresentable := by
  unfold Obligations.AcknowledgeTakesTheFirstPresentable
  intro s d hs hr
  simp only [exec_acknowledgeCallout]
  refine ⟨fun hd => request_answers_refusal hr rfl rfl (if_pos hd), fun hd h =>
    request_answers_refusal hr rfl rfl (acknowledgeRule_of_nothing hs hd h), fun p k c hd hc hp hfirst => ?_⟩
  obtain ⟨hst, -⟩ := (presentableAt_iff s d.toNat p c).1 hp
  have frame := frame_takeCallout_records s d.toNat p k c
  have others : ∀ x y, ¬ (x = p ∧ y = k) → callout (takeCallout s d.toNat p k c) x y = callout s x y := fun x y hxy => by
    rw [takeCallout_eq]
    split
    · rw [callout_retire_rotated s p k c hst, if_neg hxy]
    · rw [callout_servedCallout, if_neg hxy]
  refine request_answers hr rfl rfl (acknowledgeRule_of_first hs hd hc hp hfirst) (frame.same .response (by decide)) ?_
  refine ⟨noticeBody_length .., fun hauto => ?_, fun hauto => ?_, others, fun x => ?_, fun hk => ?_,
    fun hk => ⟨?_, fun x hx => ?_⟩, frame.answered⟩
  · simp only [callout_answered, desk_answered, takeCallout_eq, hauto, Bool.false_eq_true, if_false]
    refine ⟨?_, desk_servedCallout s d.toNat p k c⟩
    rw [callout_servedCallout, if_pos ⟨rfl, rfl⟩, hauto]
  · simp only [callout_answered, desk_answered, takeCallout_eq, hauto, if_true]
    refine ⟨desk_retire_rotated s p k c hst, ?_⟩
    rw [callout_retire_rotated s p k c hst, if_pos ⟨rfl, rfl⟩, callout_handChange_removed]
  · rw [classRec_answered, classRec_takeCallout, classRec_rotateBase]
  · exact printers_takeCallout s d.toNat p k c hk
  · rw [printer_answered, printer_takeCallout, if_pos ⟨rfl, hk⟩, order_record]
  · rw [printer_answered, printer_takeCallout, if_neg fun h => hx h.1]

/-! ## Close -/

theorem exec_closeCalloutSpecific (len : BitVec 16) (d : Byte) (p : BitVec 16) (kind : Byte) (s : State) :
    exec (.closeCalloutSpecific len d p kind) s =
      request 0x77 (len == 4) true (closeSpecificRule d.toNat p.toNat (condKindOf kind.toNat)) s := rfl

theorem exec_closeCalloutNonSpecific (len : BitVec 16) (d : Byte) (s : State) :
    exec (.closeCalloutNonSpecific len d) s = request 0x77 (len == 1) true (closeNonSpecificRule d.toNat) s := rfl

/-- The first of lowest key, given where it stands in the list. -/
theorem leastByKey_of_split {α : Type} {key : α → Nat} {before after : List α} {x : α} (hbefore : ∀ y ∈ before, key x < key y)
    (hafter : ∀ y ∈ after, key x ≤ key y) : leastByKey key (before ++ x :: after) = some x := by
  have last : leastByKey key (x :: after) = some x := by
    unfold leastByKey
    cases hl : leastByKey key after with
    | none => rfl
    | some z =>
      obtain ⟨b, a, hsplit, -, -⟩ := leastByKey_some _ _ _ hl
      exact if_neg (Nat.not_lt.2 (hafter z (hsplit ▸ List.mem_append_right _ List.mem_cons_self)))
  induction before with
  | nil => exact last
  | cons y ys ih =>
    rw [List.cons_append, leastByKey, ih fun z hz => hbefore z (List.mem_cons_of_mem _ hz)]
    exact if_pos (hbefore y List.mem_cons_self)

theorem inServiceClass_of_callout {s : State} {p : Nat} {k : CondKind} {c : Callout} (h : callout s p k = some c) :
    inServiceClass s (p, k) = c.cls := by
  unfold inServiceClass
  rw [h]

section
variable {s : State} {d p : Nat} {k : CondKind} {c : Callout}

theorem closeSpecificRule_of_served (hd : d ≤ 7) (hp : p ≤ 255) (hc : callout s p k = some c) (hst : c.state = .inService)
    (hcd : c.desk = d) : closeSpecificRule d p (some k) s = { state := retireCallout s p k c, code := .ok } := by
  unfold closeSpecificRule
  dsimp only
  rw [if_neg (by omega), hc]
  exact if_pos ⟨hst, hcd⟩

theorem closeSpecificRule_of_unserved (hd : d ≤ 7) (hp : p ≤ 255)
    (h : ∀ c, callout s p k = some c → ¬ (c.state = .inService ∧ c.desk = d)) :
    closeSpecificRule d p (some k) s = refuse s .noSuch := by
  unfold closeSpecificRule
  dsimp only
  rw [if_neg (by omega)]
  cases hc : callout s p k with
  | none => rfl
  | some c => exact if_neg (h c hc)

theorem closeSpecificRule_of_badField {kind : Option CondKind} (h : 7 < d ∨ 255 < p ∨ kind = none) :
    closeSpecificRule d p kind s = refuse s .badField := by
  cases kind with
  | none => rfl
  | some k => exact if_pos (by simpa using h)

theorem closeNonSpecificRule_of_open (hd : d ≤ 7) (h : (desk s d).mode = .opened) :
    closeNonSpecificRule d s = refuse s .needsSpecific := by
  rw [closeNonSpecificRule, if_neg (Nat.not_lt.2 hd), if_pos h]

theorem closeNonSpecificRule_of_none (hd : d ≤ 7) (h : (desk s d).mode = .nested) (hl : (desk s d).inService = []) :
    closeNonSpecificRule d s = refuse s .noSuch := by
  have choice : closeChoice s d = none := by
    unfold closeChoice
    rw [hl]
    rfl
  unfold closeNonSpecificRule
  rw [if_neg (Nat.not_lt.2 hd), h, if_neg nofun, choice]

/-- The latest record of the lowest class is the one a non-specific close retires (R158). -/
theorem closeNonSpecificRule_of_latest {before after : List (Nat × CondKind)} (hd : d ≤ 7) (h : (desk s d).mode = .nested)
    (hl : (desk s d).inService = before ++ (p, k) :: after) (hc : callout s p k = some c)
    (hbefore : ∀ r ∈ before, c.cls ≤ inServiceClass s r) (hafter : ∀ r ∈ after, c.cls < inServiceClass s r) :
    closeNonSpecificRule d s = { state := retireCallout s p k c, code := .ok, body := num 2 p ++ [k.byte] } := by
  have cls := inServiceClass_of_callout hc
  have choice : closeChoice s d = some (p, k) := by
    rw [closeChoice, hl, List.reverse_append, List.reverse_cons, List.append_assoc]
    exact leastByKey_of_split (fun r hr => cls ▸ hafter r (List.mem_reverse.1 hr))
      fun r hr => cls ▸ hbefore r (List.mem_reverse.1 hr)
  unfold closeNonSpecificRule
  rw [if_neg (Nat.not_lt.2 hd), h, if_neg nofun, choice]
  dsimp only
  rw [hc]

end

/-- What a refused request leaves. -/
theorem answered_refusal {rule : State → Reply} {s : State} {code : Code} (kind : Byte) (h : rule s = refuse s code) :
    Answers s (answered kind (rule s)) kind code [] ∧ answered kind (rule s) = linked s (answered kind (rule s)) := by
  rw [h]
  exact ⟨answers_answered rfl, refused_frame s kind code⟩

theorem CondKind.byte_eq (k : CondKind) : k.byte = BitVec.ofNat 8 k.position := by cases k <;> rfl

/-- The record raised anew at a retirement is the one of an appearance with the lists as the retirement leaves them. -/
theorem raisedRecord_leftService (s : State) (p : Nat) (k : CondKind) (c : Callout) :
    callout (handChange (putCallout { s with desks := (retireCallout s p k c).desks } p k none) p k true) p k =
      some (raisedRecord (leftService s p k c) p k) := by
  have ordered : Frame [.callouts, .printers] (leftService s p k c) (orderedAfter s p k c) :=
    (frame_putCallout _ p k none).comp (frame_ordered p k _) (by decide)
  have desks : (retireCallout s p k c).desks = (leftService s p k c).desks :=
    (ordered.comp (w := [.callouts, .printers]) (frame_raised p k c _) (by decide)).same .desks (by decide)
  have lists : leftService s p k c = { s with desks := (leftService s p k c).desks } := frame_leftService s p k c
  rw [callout_handChange_removed, desks, ← lists]

/-- Settles O46: both forms retire a record in service, and a retirement is described field by field. -/
theorem closeRetiresTheRecord : Obligations.CloseRetiresTheRecord := by
  unfold Obligations.CloseRetiresTheRecord
  refine ⟨fun s d p kind hr => ⟨fun h => ?_, fun hd => request_answers_refusal hr rfl rfl (if_pos hd)⟩, ?_⟩
  · rw [exec_closeCalloutSpecific]
    refine request_answers_refusal hr rfl rfl (closeSpecificRule_of_badField ?_)
    obtain hd | hp | hkind := h
    · exact .inl hd
    · exact .inr (.inl hp)
    · exact .inr (.inr (condKindOf_eq_none (by omega)))
  · intro s d p kind k hr hd hp hk retired
    have retires : ∀ (c : Callout) (code : Code) (body : List Byte), c.state = .inService → c.desk = d.toNat →
        retired (answered 0x77 { state := retireCallout s p.toNat k c, code := code, body := body }) p.toNat k c := by
      intro c code body hst hcd
      refine ⟨fun x => ?_, fun x y hxy => ?_, ?_, fun hne => printers_retireCallout s p.toNat k c hne, fun heq => ⟨?_, fun x hx => ?_⟩,
        (frame_retireCallout_records s p.toNat k c).answered⟩
      · rw [desk_answered, desk_retireCallout, leftService_inService s p.toNat k hst, desk_putDesk_update s c.desk x
          fun r => { r with inService := r.inService.filter (· != (p.toNat, k)) }, hcd]
        simp only [ne_eq, bne, beq_eq_decide, decide_not]
      · rw [callout_answered, callout_retireCallout, if_neg hxy]
      · have record : callout (retireCallout s p.toNat k c) p.toNat k =
            if raisesAnew s p.toNat k c then some (raisedRecord (leftService s p.toNat k c) p.toNat k) else none := by
          rw [callout_retireCallout, if_pos ⟨rfl, rfl⟩]
        have left := frame_leftService s p.toNat k c
        split
        · rename_i hraise
          refine ⟨_, record.trans (if_pos hraise), rfl, ?_, ?_, ?_, rfl, rfl, raisedRecord_leftService s p.toNat k c⟩
          · exact congrArg CondEntry.cls (left.condEntry k (by decide))
          · exact congrArg CondEntry.sense (left.condEntry k (by decide))
          · exact congrArg Calendar.stamp (left.same .calendar (by decide))
        · rename_i hraise
          exact record.trans (if_neg hraise)
      · rw [printer_answered, printer_retireCallout, if_pos ⟨rfl, heq⟩, order_record]
      · rw [printer_answered, printer_retireCallout, if_neg fun h => hx h.1]
    have kept := fun c => (frame_retireCallout_records s p.toNat k c).same .response (by decide)
    rw [exec_closeCalloutSpecific, exec_closeCalloutNonSpecific, hk]
    refine ⟨⟨_, request_taken hr rfl rfl, fun h => ?_, fun c hc hst hcd => ?_⟩,
      ⟨_, request_taken hr rfl rfl, fun h => ?_, fun h hl => ?_, fun before after c h hl hc hst hcd hbefore hafter => ?_⟩⟩
    · exact answered_refusal 0x77 (closeSpecificRule_of_unserved hd hp h)
    · rw [closeSpecificRule_of_served hd hp hc hst hcd]
      exact ⟨answers_answered (kept c), retires c _ _ hst hcd⟩
    · exact answered_refusal 0x77 (closeNonSpecificRule_of_open hd h)
    · exact answered_refusal 0x77 (closeNonSpecificRule_of_none hd h hl)
    · rw [closeNonSpecificRule_of_latest hd h hl hc hbefore hafter, ← CondKind.byte_eq]
      exact ⟨answers_answered (kept c), retires c _ _ hst hcd⟩

/-! ## A printer retired -/

theorem pool_foldl_update (f : List Nat → List Nat) {l : List Nat} (hl : l.Nodup) (s : State) (x : Nat) :
    pool (l.foldl (fun s q => putPool s q (f (pool s q))) s) x = if x ∈ l then f (pool s x) else pool s x := by
  induction l generalizing s with
  | nil => exact (if_neg List.not_mem_nil).symm
  | cons q l ih =>
    obtain ⟨hq, hl⟩ := List.nodup_cons.1 hl
    rw [List.foldl_cons, ih hl, pool_putPool]
    by_cases hx : x = q
    · rw [hx, if_neg hq, if_pos rfl, if_pos List.mem_cons_self]
    · simp only [List.mem_cons, hx, false_or, if_false]

theorem pool_leavePools (s : State) (p : Nat) {q : Nat} (hq : q < 64) :
    pool (leavePools s p) q = (pool s q).filter (· != p) := by
  rw [leavePools, pool_foldl_update (fun l => l.filter (· != p)) List.nodup_range, if_pos (List.mem_range.2 hq)]

theorem exec_retirePrinter (len p : BitVec 16) (s : State) :
    exec (.retirePrinter len p) s = request 0x51 (len == 2) true (retirePrinterRule p.toNat) s := rfl

theorem noPrinter_of_enrolled {s : State} {p : Nat} (hp : p ≤ 255) (he : (printer s p).enrolled = true) :
    noPrinter s p = false := noPrinter_eq_false ⟨p, Nat.lt_succ_of_le hp⟩ he

/-- The printer out of every pool and of every desk (R83, R162). -/
theorem deleteCallouts_leavePools (s : State) (p : Nat) :
    ∃ u, deleteCallouts (leavePools s p) p = u ∧ Frame [.pools, .callouts, .desks] s u
      ∧ (∀ q < 64, pool u q = (pool s q).filter (· ≠ p)) ∧ (∀ x k, callout u x k = if x = p then none else callout s x k)
      ∧ ∀ d < 8, (desk u d).mode = (desk s d).mode ∧ (desk u d).inService = (desk s d).inService.filter fun r => r.1 ≠ p := by
  have left := frame_leavePools s p
  have deleted := frame_deleteCallouts (leavePools s p) p
  refine ⟨_, rfl, left.comp deleted (by decide), fun q hq => ?_, fun x k => ?_, fun d hd => ?_⟩
  · rw [deleted.pool q (by decide), pool_leavePools s _ hq]
    simp only [ne_eq, bne, beq_eq_decide, decide_not]
  · rw [callout_deleteCallouts, left.callout x k (by decide)]
  · rw [desk_deleteCallouts, if_pos hd, left.desk d (by decide)]
    refine ⟨rfl, ?_⟩
    simp only [ne_eq, bne, beq_eq_decide, decide_not]

/-- Settles O36: the pools are filtered, the records of the printer deleted and its record reset, in that order. -/
theorem retirePrinterLeavesNothing : Obligations.RetirePrinterLeavesNothing := by
  unfold Obligations.RetirePrinterLeavesNothing
  intro s p hr hp he
  have hno := noPrinter_of_enrolled hp he
  rw [exec_retirePrinter]
  refine ⟨fun hnamed => request_answers_refusal hr rfl rfl (by simp [retirePrinterRule, hno, hnamed]), fun hnamed => ?_⟩
  obtain ⟨u, hu, cleared, pools, callouts, desks⟩ := deleteCallouts_leavePools s p.toNat
  have rule : retirePrinterRule p.toNat s = { state := putPrinter u p.toNat {}, code := .ok } := by
    simp [retirePrinterRule, hno, hnamed, hu]
  have emptied := frame_putPrinter u p.toNat {}
  have written := cleared.comp (w := [.printers, .pools, .callouts, .desks]) emptied (by decide)
  have record : ∀ x, printer (putPrinter u p.toNat {}) x = if x = p.toNat then {} else printer s x := fun x => by
    rw [printer_putPrinter, cleared.printer x (by decide)]
  refine request_answers hr rfl rfl rule (written.same .response (by decide)) ?_
  exact ⟨written.answered, (record _).trans (if_pos rfl), fun x hx => (record x).trans (if_neg hx), pools, callouts, desks⟩

end Sys2Proof.Machine
end

