-- ==== Sys2Proof/Proofs/PrinterTable.lean ====
section
/-! PROOFS. Enroll Printer (R81, R82, R116), Set Pool (R93) and the requests that name no enrolled printer. -/

namespace Sys2Proof.Machine

/-! ## Enroll Printer -/

section
variable {s : State} {f : EnrollFields} {cap : Capability} {mode : RouteMode}

theorem enrollPrinterRule_of_fields (hcap : f.capability = some cap) (hmode : f.routeMode = some mode)
    (hp : f.printer ≤ 255) (hm : ∀ e ∈ f.models cap, e.2 ≤ 31) :
    enrollPrinterRule f s =
      if (printer s f.printer).enrolled = true then reEnroll f s cap mode
      else { state := putPrinter s f.printer (f.record s cap mode), code := .ok } := by
  have known : ((f.models cap).any fun e => decide (31 < e.2)) = false := by
    simpa only [List.any_eq_false, decide_eq_true_eq, Nat.not_lt] using hm
  unfold enrollPrinterRule
  rw [hcap, hmode]
  dsimp only
  rw [if_neg (Nat.not_lt.2 hp), known, if_neg Bool.false_ne_true]

theorem enrollPrinterRule_of_badField
    (h : f.capability = none ∨ f.routeMode = none ∨ 255 < f.printer
      ∨ ∀ cap, f.capability = some cap → ∃ e ∈ f.models cap, 31 < e.2) :
    enrollPrinterRule f s = refuse s .badField := by
  unfold enrollPrinterRule
  split
  · rename_i cap mode hcap hmode
    rw [hcap, hmode] at h
    obtain h | h | h | h := h
    · cases h
    · cases h
    · exact if_pos h
    · have named : ((f.models cap).any fun e => decide (31 < e.2)) = true := by
        simpa only [List.any_eq_true, decide_eq_true_eq] using h cap rfl
      rw [named]
      exact ite_self _
  · rfl

/-- A re-enrolment as the request asks for it (R82). -/
theorem reEnroll_eq :
    reEnroll f s cap mode =
      if (printer s f.printer).capability = cap ∧ (printer s f.printer).supplies.map (fun e => (e.1, e.2.model)) = f.models cap
      then { state := putPrinter s f.printer { printer s f.printer with
               deskGroup := f.deskGroup, routeMode := mode, contactMinutes := max 1 (min 60 f.contact), surveyed := f.surveyed }
             code := .ok }
      else refuse s .inUse := by
  unfold reEnroll
  rw [← clamp_eq (by decide)]
  by_cases h : (printer s f.printer).capability = cap ∧ (printer s f.printer).supplies.map (fun e => (e.1, e.2.model)) = f.models cap
  · rw [if_pos h]
    exact if_neg (by rw [not_or, not_not, not_not]; exact h)
  · rw [if_neg h]
    exact if_pos (by rw [not_and_or] at h; exact h)

end

/-- The fields of a request frame (R195). -/
def enrollFields (p : BitVec 16) (cap : Byte) (mk mc mm my : BitVec 16) (group mode contact surveyed : Byte) : EnrollFields :=
  { printer := p.toNat, capability := capabilityOf cap, modelK := mk.toNat, modelC := mc.toNat, modelM := mm.toNat
    modelY := my.toNat, deskGroup := group, routeMode := routeModeOf mode, contact := contact.toNat, surveyed := flag surveyed }

section
variable (p : BitVec 16) (cap : Byte) (mk mc mm my : BitVec 16) (group mode contact surveyed : Byte)

theorem exec_enrollPrinter (len : BitVec 16) (s : State) :
    exec (.enrollPrinter len p cap mk mc mm my group mode contact surveyed) s =
      request 0x50 (len == 15) true (enrollPrinterRule (enrollFields p cap mk mc mm my group mode contact surveyed)) s := rfl

theorem capabilityOf_eq (b : Byte) : capabilityOf b = if b.toNat ≤ 1 then some (if b = 0 then .mono else .colour) else none :=
  two_codes_eq b ..

theorem routeModeOf_eq (b : Byte) :
    routeModeOf b = if b.toNat ≤ 1 then some (if b = 0 then .fixed else .leastBusy) else none := two_codes_eq b ..

theorem enrollFields_capability (h : cap.toNat ≤ 1) :
    (enrollFields p cap mk mc mm my group mode contact surveyed).capability = some (if cap = 0 then .mono else .colour) :=
  (capabilityOf_eq cap).trans (if_pos h)

theorem enrollFields_routeMode (h : mode.toNat ≤ 1) :
    (enrollFields p cap mk mc mm my group mode contact surveyed).routeMode =
      some (if mode = 0 then .fixed else .leastBusy) := (routeModeOf_eq mode).trans (if_pos h)

theorem enrollFields_models :
    (enrollFields p cap mk mc mm my group mode contact surveyed).models (if cap = 0 then .mono else .colour) =
      if cap = 0 then [(.k, mk.toNat)] else [(.k, mk.toNat), (.c, mc.toNat), (.m, mm.toNat), (.y, my.toNat)] := by
  split <;> rfl

/-- The models asked for that no model record has (R81). -/
theorem models_le_iff (h : cap.toNat ≤ 1) :
    (∀ e ∈ (enrollFields p cap mk mc mm my group mode contact surveyed).models (if cap = 0 then .mono else .colour), e.2 ≤ 31) ↔
      ¬ (31 < mk.toNat ∨ cap = 1 ∧ (31 < mc.toNat ∨ 31 < mm.toNat ∨ 31 < my.toNat)) := by
  rw [enrollFields_models]
  by_cases hcap : cap = 0
  · subst hcap
    simp
  · have one : cap = 1 := by bv_omega
    subst one
    simp

variable {p cap mk mc mm my mode} in
/-- What an Enroll Printer with good fields runs. -/
theorem enrollPrinterRule_of_request (s : State) (hp : p.toNat ≤ 255) (hcap : cap.toNat ≤ 1) (hmode : mode.toNat ≤ 1)
    (hm : ¬ (31 < mk.toNat ∨ cap = 1 ∧ (31 < mc.toNat ∨ 31 < mm.toNat ∨ 31 < my.toNat))) :
    let f := enrollFields p cap mk mc mm my group mode contact surveyed
    let capability := if cap = 0 then .mono else .colour
    let route := if mode = 0 then .fixed else .leastBusy
    enrollPrinterRule f s =
      if (printer s p.toNat).enrolled = true then reEnroll f s capability route
      else { state := putPrinter s p.toNat (f.record s capability route), code := .ok } :=
  enrollPrinterRule_of_fields (enrollFields_capability p cap mk mc mm my group mode contact surveyed hcap)
    (enrollFields_routeMode p cap mk mc mm my group mode contact surveyed hmode) hp
    ((models_le_iff p cap mk mc mm my group mode contact surveyed hcap).2 hm)

/-- A bad field is one of the refusals of R81. -/
theorem enrollPrinterRule_of_badRequest (s : State)
    (h : 255 < p.toNat ∨ 1 < cap.toNat ∨ 1 < mode.toNat ∨ 31 < mk.toNat
      ∨ cap = 1 ∧ (31 < mc.toNat ∨ 31 < mm.toNat ∨ 31 < my.toNat)) :
    enrollPrinterRule (enrollFields p cap mk mc mm my group mode contact surveyed) s = refuse s .badField := by
  refine enrollPrinterRule_of_badField ?_
  by_cases hcap : cap.toNat ≤ 1
  · obtain h | h | h | h := h
    · exact .inr (.inr (.inl h))
    · exact absurd hcap (Nat.not_le.2 h)
    · exact .inr (.inl ((routeModeOf_eq mode).trans (if_neg (Nat.not_le.2 h))))
    · refine .inr (.inr (.inr fun c hc => ?_))
      cases (enrollFields_capability p cap mk mc mm my group mode contact surveyed hcap).symm.trans hc
      by_contra hnone
      refine (models_le_iff p cap mk mc mm my group mode contact surveyed hcap).1 (fun e he => ?_) h
      exact Nat.not_lt.1 fun hlt => hnone ⟨e, he, hlt⟩
  · exact .inl ((capabilityOf_eq cap).trans (if_neg hcap))

end

/-- Settles O35: with good fields the rule enrols or re-enrols, and each bad field is one of its refusals. -/
theorem enrollPrinter : Obligations.EnrollPrinter := by
  unfold Obligations.EnrollPrinter
  refine ⟨?_, ?_⟩
  · intro s p cap mk mc mm my group mode contact surveyed hr hp hnew hmode hcap full
    have known : cap.toNat ≤ 1 := by
      obtain ⟨rfl, -⟩ | ⟨rfl, -⟩ := hcap <;> decide
    have models : ¬ (31 < mk.toNat ∨ cap = 1 ∧ (31 < mc.toNat ∨ 31 < mm.toNat ∨ 31 < my.toNat)) := by
      obtain ⟨rfl, hk⟩ | ⟨-, hk, hc, hm, hy⟩ := hcap
      · simpa using hk
      · omega
    rw [exec_enrollPrinter]
    have rule := enrollPrinterRule_of_request group contact surveyed s hp known hmode models
    dsimp only at rule
    rw [hnew, if_neg Bool.false_ne_true] at rule
    have frame := frame_putPrinter s p.toNat
      ((enrollFields p cap mk mc mm my group mode contact surveyed).record s (if cap = 0 then .mono else .colour)
        (if mode = 0 then .fixed else .leastBusy))
    refine request_answers hr rfl rfl rule rfl ⟨frame.answered, ?_, fun x hx => ?_⟩
    · rw [printer_answered, printer_putPrinter, if_pos rfl, EnrollFields.record, enrollFields_models, clamp_eq (by decide)]
      by_cases hk : cap = 0
      · simp only [if_pos hk]
        rfl
      · simp only [if_neg hk]
        rfl
    · rw [printer_answered, printer_putPrinter, if_neg hx]
  · intro s p mk mc mm my cap group mode contact surveyed hr bad asked
    rw [exec_enrollPrinter]
    refine ⟨fun hbad => request_answers_refusal hr rfl rfl
      (enrollPrinterRule_of_badRequest p cap mk mc mm my group mode contact surveyed s hbad), fun hgood he => ?_⟩
    obtain ⟨hp, hcap, hmode, hm⟩ : p.toNat ≤ 255 ∧ cap.toNat ≤ 1 ∧ mode.toNat ≤ 1
        ∧ ¬ (31 < mk.toNat ∨ cap = 1 ∧ (31 < mc.toNat ∨ 31 < mm.toNat ∨ 31 < my.toNat)) := by
      simpa only [bad, not_or, Nat.not_lt] using hgood
    have rule := enrollPrinterRule_of_request group contact surveyed s hp hcap hmode hm
    dsimp only at rule
    rw [he, if_pos rfl, reEnroll_eq, enrollFields_models] at rule
    by_cases same : (printer s p.toNat).capability = (if cap = 0 then .mono else .colour)
        ∧ (printer s p.toNat).supplies.map (fun e => (e.1, e.2.model)) = asked
    · simp only [if_pos same]
      refine request_answers hr rfl rfl (rule.trans (if_pos same)) rfl
        ⟨(frame_putPrinter s p.toNat _).answered, ?_, fun x hx => ?_⟩
      · exact (printer_putPrinter s p.toNat p.toNat _).trans (if_pos rfl)
      · exact (printer_putPrinter s p.toNat x _).trans (if_neg hx)
    · simp only [if_neg same]
      exact request_answers_refusal hr rfl rfl (rule.trans (if_neg same))

/-! ## Set Pool -/

theorem exec_setPool (len q : BitVec 16) (l : List (BitVec 16)) (s : State) :
    exec (.setPool len q l) s = request 0x55 (setPoolLength len) true (setPoolRule q.toNat (l.map BitVec.toNat)) s := rfl

theorem exec_readSupplies (len p : BitVec 16) (s : State) :
    exec (.readSupplies len p) s = request 0x62 (len == 2) true (readSuppliesRule p.toNat) s := rfl

theorem badPoolList_eq_false_iff (s : State) (q : Nat) (l : List Nat) :
    badPoolList s q l = false ↔
      q ≤ 63 ∧ l.length ≤ 8 ∧ l.Nodup ∧ ∀ p ∈ l, p ≤ 255 ∧ (printer s p).enrolled = true := by
  have known : ∀ p, noPrinter s p = false ↔ p ≤ 255 ∧ (printer s p).enrolled = true := fun p => by simp [noPrinter]
  simp only [badPoolList, Bool.or_eq_false_iff, decide_eq_false_iff_not, Nat.not_lt, List.any_eq_false, Bool.not_eq_true,
    Bool.not_eq_false', decide_eq_true_eq, known, and_assoc]
  exact ⟨fun ⟨hq, hl, hall, hnodup⟩ => ⟨hq, hl, hnodup, hall⟩, fun ⟨hq, hl, hnodup, hall⟩ => ⟨hq, hl, hall, hnodup⟩⟩

/-- Settles O38: the list is refused for exactly the faults of R93, and every other request tests the printer first. -/
theorem setPoolAndUnknownPrinters : Obligations.SetPoolAndUnknownPrinters := by
  unfold Obligations.SetPoolAndUnknownPrinters
  refine ⟨?_, fun s p a b hr hp => ?_⟩
  · intro s q len l hr hlow hhigh heven numbers
    have hl : setPoolLength len = true := by simp [setPoolLength, hlow, hhigh, heven]
    rw [exec_setPool, ← badPoolList_eq_false_iff]
    refine ⟨_, request_taken hr hl rfl, fun hgood => ?_, fun hbad => answered_refusal 0x55 (if_pos ?_)⟩
    · have rule : setPoolRule q.toNat numbers s = { state := putPool s q.toNat numbers, code := .ok } := by
        rw [setPoolRule, hgood]
        rfl
      rw [rule]
      refine ⟨answers_answered rfl, (frame_putPool s q.toNat numbers).answered, ?_, fun x hx => ?_⟩
      · rw [pool_answered, pool_putPool, if_pos rfl]
      · rw [pool_answered, pool_putPool, if_neg hx]
    · simpa using hbad
  · have hno : noPrinter s p.toNat = true := (noPrinter_iff s p.toNat).2 hp
    rw [exec_retirePrinter, exec_setService, exec_printerStatus, exec_readSupplies, exec_supplyReport, exec_supplyReplaced]
    have refused : ∀ {kind : Byte} {l : Bool} {r : State → Reply}, l = true → r s = refuse s .noSuch →
        ∃ t, request kind l true r s = .next t ∧ Answers s t kind .noSuch [] ∧ t = linked s t :=
      fun hl h => request_answers_refusal hr hl rfl h
    exact ⟨refused rfl (if_pos hno), refused rfl (if_pos hno), refused rfl (if_pos hno), refused rfl (if_pos hno),
      refused rfl (if_pos hno), refused rfl (if_pos hno)⟩

end Sys2Proof.Machine
end

