-- ==== Sys2Proof/Proofs/ClockCommands.lean ====
section
/-! PROOFS. The seconds event, the minute boundary, Set Clock and the dates (R5, R164 to R175). -/

namespace Sys2Proof.Machine

/-! ## The seconds event -/

theorem exec_secondsEvent (s : State) : exec .secondsEvent s = event takeSecond s := rfl

theorem exec_minuteBoundary (s : State) : exec .minuteBoundary s = event takeBoundary s := rfl

theorem frame_takeSecond_clocks (s : State) : Frame [.seconds, .calendar, .boundaries] s (takeSecond s) := rfl

section
variable {c : Calendar}

theorem advance_second (h : c.second < 59) : c.advance = { c with second := c.second + 1 } := if_pos (by omega)

theorem advance_minute (hs : c.second = 59) (hm : c.minute < 59) : c.advance = { c with second := 0, minute := c.minute + 1 } :=
  (if_neg (by omega)).trans (if_pos (by omega))

theorem advance_hour (hs : c.second = 59) (hm : c.minute = 59) (hh : c.hour < 23) :
    c.advance = { c with second := 0, minute := 0, hour := c.hour + 1 } :=
  (if_neg (by omega)).trans ((if_neg (by omega)).trans (if_pos (by omega)))

theorem advance_day (hs : c.second = 59) (hm : c.minute = 59) (hh : c.hour = 23) :
    c.advance = Calendar.nextDay { c with second := 0, minute := 0, hour := 0 } :=
  (if_neg (by omega)).trans ((if_neg (by omega)).trans (if_neg (by omega)))

theorem nextDay_of_day (h : c.day < monthLength c.year c.month) :
    c.nextDay = Calendar.withWeekday { c with day := c.day + 1 } := congrArg Calendar.withWeekday (if_pos h)

theorem nextDay_of_month (hd : c.day = monthLength c.year c.month) (hm : c.month < 12) :
    c.nextDay = Calendar.withWeekday { c with day := 1, month := c.month + 1 } :=
  congrArg Calendar.withWeekday ((if_neg (by omega)).trans (if_pos (by omega)))

theorem nextDay_of_year (hd : c.day = monthLength c.year c.month) (hm : c.month = 12) :
    c.nextDay =
      Calendar.withWeekday { c with day := 1, month := 1, year := if c.year + 1 < 100 then c.year + 1 else 0 } :=
  congrArg Calendar.withWeekday ((if_neg (by omega)).trans (if_neg (by omega)))

/-- The carries leave the lower fields at 0, so second is 0 after 59 alone. -/
theorem advance_second_eq_zero (h : c.second = 59) : c.advance.second = 0 := by
  have day : ∀ d : Calendar, d.nextDay.second = d.second := fun d => by
    unfold Calendar.nextDay Calendar.withWeekday
    split
    · rfl
    · split <;> rfl
  unfold Calendar.advance
  rw [if_neg (by omega)]
  split
  · rfl
  · split
    · rfl
    · exact day _

theorem nextDay_weekday (d : Calendar) : d.nextDay.weekday = weekdayOf d.nextDay.year d.nextDay.month d.nextDay.day := rfl

theorem nextDay_minute (d : Calendar) : d.nextDay.minute = d.minute := by
  unfold Calendar.nextDay Calendar.withWeekday
  split
  · rfl
  · split <;> rfl

theorem nextDay_hour (d : Calendar) : d.nextDay.hour = d.hour := by
  unfold Calendar.nextDay Calendar.withWeekday
  split
  · rfl
  · split <;> rfl

end

/-! ## The minute boundary -/

theorem agrees_iff (field : Option Nat) (v : Nat) : agrees field v = true ↔ ∀ x, field = some x → x = v := by
  cases field <;> simp [agrees]

theorem matches_iff (p : Pattern) (c : Calendar) :
    p.matches c = true ↔
      (∀ v, p.minute = some v → v = c.minute) ∧ (∀ v, p.hour = some v → v = c.hour)
      ∧ (∀ v, p.weekday = some v → v = c.weekday) ∧ (∀ v, p.day = some v → v = c.day)
      ∧ ∀ v, p.month = some v → v = c.month := by
  simp only [Pattern.matches, Bool.and_eq_true, agrees_iff, and_assoc]

theorem tenantRec_testRollover (c : Calendar) (s : State) (n x : Nat) :
    tenantRec (testRollover c s n) x =
      if x = n ∧ (rollover s x).matches c = true then
        { tenantRec s x with period := ((tenantRec s x).period + 1) % 4294967296 }
      else tenantRec s x := by
  unfold testRollover
  by_cases hm : (rollover s n).matches c = true
  · rw [if_pos hm, advancePeriod, tenantRec_putTenant]
    by_cases hx : x = n
    · rw [hx, if_pos rfl, if_pos ⟨rfl, hm⟩]
    · rw [if_neg hx, if_neg fun h => hx h.1]
  · rw [if_neg hm, if_neg fun (h : x = n ∧ _) => hm (h.1 ▸ h.2)]

theorem tenantRec_foldl_testRollover (c : Calendar) {l : List Nat} (hl : l.Nodup) (s : State) (x : Nat) :
    tenantRec (l.foldl (testRollover c) s) x =
      if x ∈ l ∧ (rollover s x).matches c = true then
        { tenantRec s x with period := ((tenantRec s x).period + 1) % 4294967296 }
      else tenantRec s x := by
  induction l generalizing s with
  | nil => exact (if_neg fun h => List.not_mem_nil h.1).symm
  | cons n l ih =>
    obtain ⟨hn, hl⟩ := List.nodup_cons.1 hl
    rw [List.foldl_cons, ih hl, (frame_testRollover s c n).rollover x (by decide), tenantRec_testRollover]
    by_cases hx : x = n
    · subst hx
      simp [hn]
    · simp [hx]

theorem frame_rollovers (c : Calendar) (s : State) : Frame [.tenants] s ((List.range 32).foldl (testRollover c) s) :=
  Frame.foldl (fun s n => frame_testRollover s c n) _ s

/-- The tests of a boundary are those of the 32 tenants, then that of the survey (R174, R175). -/
theorem testPatterns_eq (s : State) (c : Calendar) :
    ∃ t, Frame [.tenants] s t
      ∧ (∀ x, tenantRec t x =
          if x < 32 ∧ (rollover s x).matches c = true then
            { tenantRec s x with period := ((tenantRec s x).period + 1) % 4294967296 }
          else tenantRec s x)
      ∧ testPatterns s c = if t.surveyPattern.matches c = true then surveyMatch t else t := by
  refine ⟨_, frame_rollovers c s, fun x => ?_, rfl⟩
  rw [tenantRec_foldl_testRollover c List.nodup_range]
  simp only [List.mem_range]

theorem tenantRec_testPatterns (s : State) (c : Calendar) (x : Nat) :
    tenantRec (testPatterns s c) x =
      if x < 32 ∧ (rollover s x).matches c = true then
        { tenantRec s x with period := ((tenantRec s x).period + 1) % 4294967296 }
      else tenantRec s x := by
  obtain ⟨t, -, tenants, htest⟩ := testPatterns_eq s c
  have survey : Frame [.survey] t (if t.surveyPattern.matches c = true then surveyMatch t else t) :=
    .ite (frame_surveyMatch t) (Frame.refl _ t)
  rw [htest, survey.tenantRec x (by decide), tenants]

theorem survey_testPatterns (s : State) (c : Calendar) :
    (testPatterns s c).survey =
      if s.surveyPattern.matches c = true ∧ s.survey.scope = none then
        { scope := some .all, cursor := 0, done := s.survey.done }
      else s.survey := by
  obtain ⟨t, frame, -, htest⟩ := testPatterns_eq s c
  have survey : t.survey = s.survey := frame.same .survey (by decide)
  have pattern : t.surveyPattern = s.surveyPattern := frame.same .surveyPattern (by decide)
  rw [htest, pattern]
  by_cases hm : s.surveyPattern.matches c = true
  · rw [if_pos hm, surveyMatch, startSurvey]
    cases hs : s.survey.scope <;> simp [survey, hs, hm]
  · rw [if_neg hm, if_neg fun h => hm h.1, survey]

theorem takeBoundary_cons {s : State} {c : Calendar} {rest : List Calendar} (h : s.boundaries = c :: rest) :
    takeBoundary s = testPatterns { s with boundaries := rest } c := by
  unfold takeBoundary
  rw [h]

/-- Settles O48: the carries of an advance and the 33 tests of a boundary, case by case. -/
theorem secondsAndMinuteBoundaries : Obligations.SecondsAndMinuteBoundaries := by
  unfold Obligations.SecondsAndMinuteBoundaries
  refine ⟨?_, fun s hr => ⟨fun h => ?_, ?_⟩⟩
  · intro s hr hlegal c
    obtain ⟨hy, hm, hm', hd, hd', hh, hmin, hs, hw⟩ := (Calendar.legal_iff _).1 hlegal
    rw [exec_secondsEvent]
    have boundaries : (takeSecond s).boundaries = if c.advance.second = 0 then s.boundaries ++ [c.advance] else s.boundaries := rfl
    refine event_settles hr rfl ⟨(frame_takeSecond_clocks s).settled, rfl, fun h => ⟨advance_second h, ?_⟩,
      fun h => ⟨advance_second_eq_zero h, ?_⟩, advance_minute, advance_hour, fun h1 h2 h3 => ?_⟩
    · exact boundaries.trans (if_neg (by rw [advance_second h]; exact Nat.succ_ne_zero _))
    · exact boundaries.trans (if_pos (advance_second_eq_zero h))
    · have day : (settle (takeSecond s)).calendar = Calendar.nextDay { c with second := 0, minute := 0, hour := 0 } :=
        advance_day h1 h2 h3
      rw [day]
      refine ⟨nextDay_minute _, nextDay_hour _, nextDay_weekday _, fun h => ?_, fun h hlast => ?_, fun h hlast => ?_⟩
      · rw [nextDay_of_day (c := { c with second := 0, minute := 0, hour := 0 }) h]
        exact ⟨rfl, rfl, rfl⟩
      · rw [nextDay_of_month (c := { c with second := 0, minute := 0, hour := 0 }) h hlast]
        exact ⟨rfl, rfl, rfl⟩
      · rw [nextDay_of_year (c := { c with second := 0, minute := 0, hour := 0 }) h hlast]
        refine ⟨rfl, rfl, ?_⟩
        show (if c.year + 1 < 100 then c.year + 1 else 0) = (c.year + 1) % 100
        have : c.year ≤ 99 := hy
        split <;> omega
  · rw [exec_minuteBoundary, event_taken hr, takeBoundary, h]
  · intro c rest h hit
    have tenants := tenantRec_testPatterns { s with boundaries := rest } c
    have survey := survey_testPatterns { s with boundaries := rest } c
    have frame := frame_testPatterns { s with boundaries := rest } c
    have taken := takeBoundary_cons h
    have hit_iff : ∀ p, hit p ↔ p.matches c = true := fun p => (matches_iff p c).symm
    simp only [hit_iff]
    rw [exec_minuteBoundary]
    generalize testPatterns { s with boundaries := rest } c = u at tenants survey frame taken
    refine event_settles hr taken ⟨frame.settled, fun n hn hm => ?_, fun n hn => ?_, fun hm hscope => ?_, fun hor => ?_⟩
    · exact (tenants n).trans (if_pos ⟨hn, hm⟩)
    · exact (tenants n).trans (if_neg fun h => hn.elim (Nat.not_le.2 h.1) fun hne => hne h.2)
    · exact survey.trans (if_pos ⟨hm, hscope⟩)
    · exact survey.trans (if_neg fun h => hor.elim (fun hne => hne h.1) fun hne => hne h.2)

/-! ## Dates -/

theorem monthLength_eq (y : Nat) {m : Nat} (hlow : 1 ≤ m) (hhigh : m ≤ 12) :
    monthLength y m =
      if m = 2 then (if y % 4 = 0 then 29 else 28) else if m = 4 ∨ m = 6 ∨ m = 9 ∨ m = 11 then 30 else 31 := by
  interval_cases m <;> simp [monthLength, leapYear]

/-- The months of a year add up to its days (R167). -/
theorem daysBeforeMonth_twelve (y : Nat) : daysBeforeMonth y 11 + 31 = if leapYear y then 366 else 365 := by
  simp only [daysBeforeMonth, monthLength]
  split <;> rfl

theorem weekdayOf_succ {n m : Nat} (h : n = m + 1) : (n + 5) % 7 + 1 = if (m + 5) % 7 + 1 = 7 then 1 else (m + 5) % 7 + 1 + 1 := by
  split <;> omega

/-- The next date within the century is the next day number (R168). -/
theorem dayNumber_nextDay {c : Calendar} (h : c.legal = true) (hin : c.year < 99 ∨ c.month < 12 ∨ c.day < 31) :
    dayNumber c.nextDay.year c.nextDay.month c.nextDay.day = dayNumber c.year c.month c.day + 1 := by
  obtain ⟨hy, hm, hm', hd, hd', -, -, -, -⟩ := (Calendar.legal_iff _).1 h
  obtain hlt | heq := Nat.lt_or_eq_of_le hd'
  · rw [nextDay_of_day hlt]
    show daysBeforeYear c.year + daysBeforeMonth c.year (c.month - 1) + (c.day + 1 - 1) =
      daysBeforeYear c.year + daysBeforeMonth c.year (c.month - 1) + (c.day - 1) + 1
    omega
  · obtain hmonth | hmonth := Nat.lt_or_eq_of_le hm'
    · rw [nextDay_of_month heq hmonth]
      have month : daysBeforeMonth c.year (c.month - 1 + 1) =
          daysBeforeMonth c.year (c.month - 1) + monthLength c.year (c.month - 1 + 1) := rfl
      rw [Nat.sub_add_cancel hm] at month
      show daysBeforeYear c.year + daysBeforeMonth c.year (c.month + 1 - 1) + (1 - 1) =
        daysBeforeYear c.year + daysBeforeMonth c.year (c.month - 1) + (c.day - 1) + 1
      rw [Nat.add_sub_cancel, month]
      omega
    · have december : c.day = 31 := by rw [heq, hmonth]; rfl
      have year : c.year < 99 := by omega
      have months := daysBeforeMonth_twelve c.year
      rw [nextDay_of_year heq hmonth, hmonth, december]
      show daysBeforeYear (if c.year + 1 < 100 then c.year + 1 else 0) + 0 + 0 =
        daysBeforeYear c.year + daysBeforeMonth c.year 11 + 30 + 1
      rw [if_pos (by omega), daysBeforeYear, ← months]
      omega

theorem clampedCalendar_eq (year month day hour minute second : Nat) :
    let y := min 99 year
    let m := max 1 (min 12 month)
    let d := max 1 (min (monthLength y m) day)
    clampedCalendar year month day hour minute second =
      { year := y, month := m, day := d, hour := min 23 hour, minute := min 59 minute, second := min 59 second
        weekday := weekdayOf y m d } := by
  simp only [clampedCalendar, Calendar.withWeekday, clamp_zero, clamp_eq (by decide : 1 ≤ 12), clamp_eq (one_le_monthLength _ _)]

theorem exec_setClock (len : BitVec 16) (year month day hour minute second : Byte) (s : State) :
    exec (.setClock len year month day hour minute second) s =
      request 0x80 (len == 6) true
        (setClockRule (clampedCalendar year.toNat month.toNat day.toNat hour.toNat minute.toNat second.toNat)) s := rfl

theorem exec_setSurveyPattern (len : BitVec 16) (p : PatternFields) (s : State) :
    exec (.setSurveyPattern len p) s =
      request 0x82 (len == 10) (patternPresenceOk p)
        (fun s => { state := { s with surveyPattern := clampPattern p }, code := .ok
                    body := patternBytes (clampPattern p) }) s := rfl

theorem patternBytes_length (p : Pattern) : (patternBytes p).length = 10 := by simp [patternBytes]

/-- Settles O49: the clamps of Set Clock and of a pattern, and the day count under the weekday. -/
theorem setClockPatternsAndDates : Obligations.SetClockPatternsAndDates := by
  unfold Obligations.SetClockPatternsAndDates
  refine ⟨⟨?_, fun s p hr hp => ?_⟩, fun y m hlow hhigh => monthLength_eq y hlow hhigh, by decide, fun c hc hin => ?_,
    fun c hy hm hd => ?_⟩
  · intro s year month day hour minute second hr y m d
    have clamped := clampedCalendar_eq year.toNat month.toNat day.toNat hour.toNat minute.toNat second.toNat
    rw [exec_setClock, clamped]
    exact ⟨_, request_taken hr rfl rfl, rfl, rfl, answers_answered rfl⟩
  · rw [exec_setSurveyPattern, clampPattern_eq]
    exact ⟨_, request_taken hr rfl hp, answers_answered rfl, patternBytes_length _, rfl, rfl⟩
  · rw [nextDay_weekday, ((Calendar.legal_iff _).1 hc).2.2.2.2.2.2.2.2]
    exact weekdayOf_succ (dayNumber_nextDay hc hin)
  · have last : c.day = monthLength c.year c.month := by rw [hy, hm, hd]; rfl
    rw [nextDay_of_year last hm, hy]
    exact (by decide : weekdayOf 0 1 1 = 6)

end Sys2Proof.Machine
end

