-- ==== Sys2Proof/Proofs/Reads.lean ====
section
/-! PROOFS. The reads: the lengths of their bodies, their refusals, what Find Jobs lists, Read Attention and Read Survey
(R38, R131, R186, R194 to R197). -/

namespace Sys2Proof.Machine

/-! ## Lengths of bodies -/

/-- Bodies of `n` entries of one length. -/
theorem length_flatMap_const {α : Type} {f : α → List Byte} {n : Nat} {l : List α} (h : ∀ x ∈ l, (f x).length = n) :
    (l.flatMap f).length = n * l.length := by
  induction l with
  | nil => rfl
  | cons x l ih =>
    rw [List.flatMap_cons, List.length_append, h x List.mem_cons_self, ih fun y hy => h y (List.mem_cons_of_mem _ hy),
      List.length_cons]
    ring

@[simp] theorem stampBytes_length (t : Stamp) : (stampBytes t).length = 6 := by simp [stampBytes]

section
variable (s : State)

theorem tenantBody_length (t : Nat) : (tenantBody s t).length = 30 := by simp [tenantBody, patternBytes_length]

theorem jobBody_length (h : Nat) (j : Job) : (jobBody h j).length = 60 := by
  unfold jobBody
  simp only [List.length_append, num_length, optNum_length, List.length_cons, List.length_nil]

theorem findBody_length (more : Bool) (hs : List Nat) : (findBody more hs).length = 2 + 2 * hs.length := by
  have handles : (handlesBytes hs).length = 2 * hs.length := length_flatMap_const fun h _ => num_length 2 h
  simp only [findBody, List.length_append, List.length_cons, num_length, handles]

theorem dispatchBody_length : (dispatchBody s).length = 3 + 5 * min 16 s.dispatch.length := by
  unfold dispatchBody
  rw [List.length_append, length_flatMap_const (n := 5) fun h _ => by simp]
  simp

theorem terminalBytes_length (t : Nat) : (terminalBytes s t).length = 12 := by
  unfold terminalBytes
  cases visit s t <;> simp

theorem loopBody_length (l : Nat) : (loopBody s l).length = 197 := by
  unfold loopBody
  rw [List.length_append, length_flatMap_const (n := 12) fun a _ => terminalBytes_length s _]
  simp

theorem printerBody_length (p : Nat) : (printerBody s p).length = 26 := by simp [printerBody]

theorem poolBody_length (q : Nat) : (poolBody s q).length = 3 + 6 * (pool s q).length := by
  unfold poolBody
  rw [List.length_append, length_flatMap_const (n := 6) fun p _ => by simp]
  simp

theorem modelBody_length (m : Nat) : (modelBody s m).length = 9 := by simp [modelBody]

theorem suppliesBody_length (p : Nat) : (suppliesBody s p).length = 3 + 32 * (printer s p).supplies.length := by
  unfold suppliesBody
  rw [List.length_append, length_flatMap_const (n := 32) fun e _ => by simp [supplyBytes]]
  simp

theorem conditionTableBody_length : (conditionTableBody s).length = 32 := by
  rw [conditionTableBody, length_flatMap_const (n := 4) fun k _ => by simp]
  rfl

theorem classesBody_length : (classesBody s).length = 12 := by
  rw [classesBody, length_flatMap_const (n := 3) fun c _ => by simp]
  rfl

theorem deskBody_length {d : Nat} (h : ∀ r ∈ (desk s d).inService, callout s r.1 r.2 ≠ none) :
    (deskBody s d).length = 6 + 17 * (desk s d).inService.length := by
  have entry : ∀ r ∈ (desk s d).inService, (inServiceBytes s r).length = 17 := fun r hr => by
    unfold inServiceBytes
    cases hc : callout s r.1 r.2 with
    | none => exact absurd hc (h r hr)
    | some c => simp
  rw [deskBody, List.length_append, length_flatMap_const entry]
  simp

theorem calloutsBody_length (p : Nat) : (calloutsBody s p).length = 3 + 19 * (calloutsOf s p).length := by
  unfold calloutsBody
  rw [List.length_append, length_flatMap_const (n := 19) fun e _ => by simp]
  simp

theorem calendarBytes_length (c : Calendar) : (calendarBytes c).length = 7 := by simp [calendarBytes]

end

/-! ## Find Jobs -/

theorem Table.pairwise_keys {α : Type} [DecidableEq α] (d : Nat → α) {t : Table α} (h : Table.wf d t = true) :
    (t.map (·.1)).Pairwise (· < ·) := by
  induction t with
  | nil => exact List.Pairwise.nil
  | cons e t ih =>
    obtain ⟨i, v⟩ := e
    simp only [Table.wf, Bool.and_eq_true] at h
    obtain ⟨⟨-, habove⟩, hwf⟩ := h
    refine List.pairwise_cons.2 ⟨fun k hk => ?_, ih hwf⟩
    obtain ⟨e, he, rfl⟩ := List.mem_map.1 hk
    exact (Table.above_iff i t).1 habove e he

theorem jobStateOf_eq_some {n : Nat} {st : JobState} : jobStateOf n = some st ↔ jobStateCode st = n := by
  constructor
  · intro h
    unfold jobStateOf at h
    split at h <;> cases h <;> rfl
  · rintro rfl
    cases st <;> rfl

theorem jobStateOf_known {n : Nat} (h : 1 ≤ n ∧ n ≤ 7) : ∃ st, jobStateOf n = some st ∧ st ≠ .free := by
  obtain ⟨hlow, hhigh⟩ := h
  interval_cases n <;> exact ⟨_, rfl, nofun⟩

/-- A filter of Find Jobs. -/
theorem filter_iff {α : Type} [DecidableEq α] (o : Option α) (a : α) :
    (o == none || o == some a) = true ↔ ∀ b, o = some b → a = b := by
  cases o with
  | none => simp
  | some b =>
    simp only [Option.some_inj, forall_eq', reduceCtorEq, Bool.or_eq_true, beq_iff_eq, false_or]
    exact eq_comm

/-- The slots Find Jobs lists. -/
theorem mem_foundSlots_iff {s : State} (hs : Canonical s = true) (start : Nat) (owner : Option Nat) (st : Option JobState)
    (i : Nat) :
    i ∈ foundSlots s start owner st ↔
      start ≤ i ∧ (job s i).state ≠ .free ∧ (∀ a, owner = some a → (job s i).owner = a)
      ∧ ∀ v, st = some v → (job s i).state = v := by
  have found : ∀ j : Job, findMatches owner st j = true ↔
      j.state ≠ .free ∧ (∀ a, owner = some a → j.owner = a) ∧ ∀ v, st = some v → j.state = v := fun j => by
    simp only [findMatches, Bool.and_eq_true, bne_iff_ne, filter_iff, and_assoc]
  unfold foundSlots
  rw [List.mem_map]
  constructor
  · rintro ⟨⟨k, v⟩, he, rfl⟩
    rw [List.mem_filter, Bool.and_eq_true, decide_eq_true_eq, found] at he
    obtain ⟨hmem, hle, hmatch⟩ := he
    rw [job, ((mem_jobs_iff hs k v).1 hmem).1]
    exact ⟨hle, hmatch⟩
  · rintro ⟨hle, hne, hmatch⟩
    refine ⟨(i, slot s i), List.mem_filter.2 ⟨(mem_jobs_iff hs i _).2 ⟨rfl, fun hfree => hne ?_⟩, ?_⟩, rfl⟩
    · rw [job, hfree]
    · rw [Bool.and_eq_true, decide_eq_true_eq, found]
      exact ⟨hle, hne, hmatch⟩

theorem pairwise_foundSlots {s : State} (hs : Canonical s = true) (start : Nat) (owner : Option Nat) (st : Option JobState) :
    (foundSlots s start owner st).Pairwise (· < ·) :=
  (Table.pairwise_keys _ (canonical_jobs hs)).sublist (List.filter_sublist.map _)

/-- The first 16 of a rising list. -/
theorem mem_take_or_above {l : List Nat} (h : l.Pairwise (· < ·)) {i : Nat} (hi : i ∈ l) (n : Nat) :
    i ∈ l.take n ∨ n < l.length ∧ ∀ k ∈ l.take n, k < i := by
  have split := hi
  rw [← List.take_append_drop n l, List.mem_append] at split
  refine split.imp_right fun hdrop => ⟨?_, fun k hk => ?_⟩
  · by_contra hle
    rw [List.drop_eq_nil_of_le (Nat.not_lt.1 hle)] at hdrop
    cases hdrop
  · rw [← List.take_append_drop n l] at h
    exact (List.pairwise_append.1 h).2.2 k hk i hdrop

/-- More than `n` of a rising list: the next of them is not among the first. -/
theorem exists_not_mem_take {l : List Nat} (h : l.Pairwise (· < ·)) {n : Nat} (hn : n < l.length) :
    ∃ i ∈ l, i ∉ l.take n := by
  refine ⟨l[n], List.getElem_mem hn, fun hmem => ?_⟩
  have drop : l[n] ∈ l.drop n := List.mem_drop_iff_getElem.2 ⟨0, by omega, by simp⟩
  rw [← List.take_append_drop n l] at h
  exact absurd ((List.pairwise_append.1 h).2.2 _ hmem _ drop) (Nat.lt_irrefl _)

theorem badFilter_iff (owner state : Option Nat) :
    badFilter owner state = true ↔ (∃ a, owner = some a ∧ 4095 < a) ∨ ∃ v, state = some v ∧ (v = 0 ∨ 7 < v) := by
  have codes : ∀ v, (jobStateOf v == none || jobStateOf v == some .free) = true ↔ v = 0 ∨ 7 < v := fun v => by
    rw [Bool.or_eq_true, beq_iff_eq, beq_iff_eq]
    constructor
    · intro h
      by_contra hv
      obtain ⟨st, hst, hne⟩ := jobStateOf_known (n := v) (by omega)
      rw [hst] at h
      obtain h | h := h
      · cases h
      · exact hne (Option.some.inj h)
    · rintro (rfl | hv)
      · exact .inr rfl
      · refine .inl (Option.eq_none_iff_forall_ne_some.2 fun st hst => ?_)
        have := jobStateOf_eq_some.1 hst
        cases st <;> simp [jobStateCode] at this <;> omega
  cases owner <;> cases state <;> simp [badFilter, ← codes]

theorem findJobsRule_of_good {s : State} {start : Nat} {owner state : Option Nat} (hstart : start ≤ 32767)
    (ho : ∀ a, owner = some a → a ≤ 4095) (hst : ∀ v, state = some v → 1 ≤ v ∧ v ≤ 7) :
    findJobsRule start owner state s =
      let found := foundSlots s (start % 2048) owner (state.bind jobStateOf)
      { state := s, code := .ok, body := findBody (decide (16 < found.length)) ((found.take 16).map (handleOf s)) } := by
  refine if_neg ?_
  rw [badFilter_iff]
  rintro (h | ⟨a, ha, hlt⟩ | ⟨v, hv, h⟩)
  · omega
  · have := ho a ha
    omega
  · have := hst v hv
    omega

/-- What a state filter asks for, in codes (R195). -/
theorem bind_jobStateOf_iff {state : Option Nat} (hst : ∀ v, state = some v → 1 ≤ v ∧ v ≤ 7) (x : JobState) :
    (∀ v, state.bind jobStateOf = some v → x = v) ↔ ∀ v, state = some v → jobStateCode x = v := by
  cases state with
  | none => exact ⟨fun _ => nofun, fun _ => nofun⟩
  | some n =>
    obtain ⟨y, hy, -⟩ := jobStateOf_known (hst n rfl)
    have hn := jobStateOf_eq_some.1 hy
    constructor
    · rintro h v ⟨⟩
      rw [h y hy]
      exact hn
    · intro h v hv
      have hx := jobStateOf_eq_some.2 (h n rfl)
      exact Option.some.inj (hx.symm.trans hv)

/-! ## The requests -/

section
variable (len : BitVec 16) (s : State)

theorem exec_readDispatch :
    exec (.readDispatch len) s =
      request 0x36 (len == 0) true (fun s => { state := s, code := .ok, body := dispatchBody s }) s := rfl

theorem exec_readConditionTable :
    exec (.readConditionTable len) s =
      request 0x71 (len == 0) true (fun s => { state := s, code := .ok, body := conditionTableBody s }) s := rfl

theorem exec_readClasses :
    exec (.readClasses len) s =
      request 0x74 (len == 0) true (fun s => { state := s, code := .ok, body := classesBody s }) s := rfl

theorem exec_readClock :
    exec (.readClock len) s =
      request 0x81 (len == 0) true
        (fun s => { state := s, code := .ok, body := calendarBytes s.calendar ++ num 4 s.seconds }) s := rfl

end

/-- A read that is answered leaves the records. -/
theorem read_answers {s : State} {rule : State → Reply} {kind : Byte} {lengthOk presence : Bool} {body : List Byte} {n : Nat}
    (hr : running s = true) (hl : lengthOk = true) (hp : presence = true)
    (hrule : rule s = { state := s, code := .ok, body := body }) (hn : body.length = n) :
    ∃ t, request kind lengthOk presence rule s = .next t ∧ Answers s t kind .ok body ∧ t = linked s t ∧ body.length = n :=
  request_answers hr hl hp hrule rfl ⟨(Frame.refl [] s).answered, hn⟩

/-- What Find Jobs answers (R38). -/
theorem findJobs_lists {s : State} (hs : Canonical s = true) (start : Nat) (owner : Option Nat) {state : Option Nat}
    (hst : ∀ v, state = some v → 1 ≤ v ∧ v ≤ 7) :
    let found := foundSlots s start owner (state.bind jobStateOf)
    let wanted := fun i => start ≤ i ∧ (job s i).state ≠ .free ∧ (∀ a, owner = some a → (job s i).owner = a)
      ∧ ∀ v, state = some v → jobStateCode (job s i).state = v
    (found.take 16).Pairwise (· < ·) ∧ (∀ i ∈ found.take 16, wanted i)
    ∧ (∀ i, wanted i → i ∈ found.take 16 ∨ decide (16 < found.length) = true ∧ ∀ k ∈ found.take 16, k < i)
    ∧ (decide (16 < found.length) = true → ∃ i, wanted i ∧ i ∉ found.take 16) := by
  intro found wanted
  have wanted_iff : ∀ i, i ∈ found ↔ wanted i := fun i => by
    rw [mem_foundSlots_iff hs, bind_jobStateOf_iff hst]
  have rising := pairwise_foundSlots hs start owner (state.bind jobStateOf)
  refine ⟨rising.sublist (List.take_sublist _ _), fun i hi => (wanted_iff i).1 (List.mem_of_mem_take hi), fun i hi => ?_,
    fun hmore => ?_⟩
  · rw [decide_eq_true_eq]
    exact mem_take_or_above rising ((wanted_iff i).2 hi) 16
  · obtain ⟨i, hi, hnot⟩ := exists_not_mem_take rising (of_decide_eq_true hmore)
    exact ⟨i, (wanted_iff i).1 hi, hnot⟩

/-- Settles O50: each read's rule gives the records back with its body, and tests its number first. -/
theorem readsAnswerAndChangeNothing : Obligations.ReadsAnswerAndChangeNothing := by
  unfold Obligations.ReadsAnswerAndChangeNothing
  refine ⟨fun s hr => ?_, fun s hr => ?_⟩
  · have within : ∀ {n m : Nat} {r : Reply}, n ≤ m → (if m < n then refuse s .badField else r) = r := fun h =>
      if_neg (Nat.not_lt.2 h)
    intro read
    refine ⟨fun n hn => ?_, fun h i hi => ?_, fun h o st hh ho hst howner hstate => ?_, ?_, fun l hl => ?_, fun p hp => ?_,
      fun q hq => ?_, fun m hm => ?_, fun p hp he => ?_, ?_, ?_, fun d hd => ⟨_, ?_, deskBody_length s⟩, fun p hp => ?_, ?_,
      fun n hn => ?_⟩
    · exact read_answers hr rfl rfl (within hn) (tenantBody_length s _)
    · refine read_answers hr rfl rfl ?_ (jobBody_length _ _)
      rw [readJobRule, hi]
    · refine ⟨_, _, read_answers hr rfl (by rw [ho, hst]; rfl) (findJobsRule_of_good hh howner hstate) ?_,
        List.length_take_le _ _, fun hmore => ?_, fun hs => findJobs_lists hs (h.toNat % 2048) (optional o) hstate⟩
      · rw [findBody_length, List.length_map]
      · exact List.length_take_of_le (of_decide_eq_true hmore).le
    · show ∃ t, _
      rw [exec_readDispatch]
      exact read_answers hr rfl rfl rfl (dispatchBody_length s)
    · exact read_answers hr rfl rfl (within hl) (loopBody_length s _)
    · exact read_answers hr rfl rfl (if_neg (Nat.not_lt.2 hp)) (printerBody_length s _)
    · exact read_answers hr rfl rfl (within hq) (poolBody_length s _)
    · exact read_answers hr rfl rfl (within hm) (modelBody_length s _)
    · refine read_answers hr rfl rfl ?_ (suppliesBody_length s _)
      rw [readSuppliesRule, noPrinter_of_enrolled hp he]
      rfl
    · show ∃ t, _
      rw [exec_readConditionTable]
      exact read_answers hr rfl rfl rfl (conditionTableBody_length s)
    · show ∃ t, _
      rw [exec_readClasses]
      exact read_answers hr rfl rfl rfl (classesBody_length s)
    · exact read_answers (n := (deskBody s d.toNat).length) hr rfl rfl (within hd) rfl
    · exact read_answers hr rfl rfl (within hp) (calloutsBody_length s _)
    · show ∃ t, _
      rw [exec_readClock]
      refine read_answers hr rfl rfl rfl ?_
      rw [List.length_append, calendarBytes_length, num_length]
    · exact read_answers hr rfl rfl (within hn) (patternBytes_length _)
  · intro refused
    refine ⟨fun n => ⟨fun h => ⟨?_, ?_⟩, fun h => ?_, fun h => ⟨?_, ?_⟩⟩, fun n => ⟨fun h => ⟨?_, ?_⟩, fun h => ?_, fun h => ?_⟩,
      fun h o st ho hst hbad => ?_⟩
    · exact request_answers_refusal hr rfl rfl (if_pos h)
    · exact request_answers_refusal hr rfl rfl (if_pos h)
    · exact request_answers_refusal hr rfl rfl (if_pos h)
    · exact request_answers_refusal hr rfl rfl (if_pos h)
    · exact request_answers_refusal hr rfl rfl (if_pos h)
    · exact request_answers_refusal hr rfl rfl (if_pos h)
    · exact request_answers_refusal hr rfl rfl (if_pos h)
    · exact request_answers_refusal hr rfl rfl (if_pos h)
    · exact request_answers_refusal hr rfl rfl (if_pos h)
    · refine request_answers_refusal hr rfl (by rw [ho, hst]; rfl) (if_pos ?_)
      rw [badFilter_iff]
      exact hbad

/-! ## Read Attention and Read Survey -/

theorem exec_readAttention (len : BitVec 16) (s : State) :
    exec (.readAttention len) s = request 0x90 (len == 0) true readAttentionRule s := rfl

theorem exec_readSurvey (len : BitVec 16) (s : State) :
    exec (.readSurvey len) s = request 0x66 (len == 0) true readSurveyRule s := rfl

theorem attentionBody_length (s : State) : (attentionBody s).length = 12 := by simp [attentionBody]

/-- The desks with a presentable callout are those the desk set has (R151). -/
theorem presentableSet_getLsbD (s : State) {d : Nat} (hd : d < 8) :
    (presentableSet s).getLsbD d = true ↔ ∃ e ∈ calloutList s, presentableAt s d e.1 e.2.2 = true := by
  rw [presentableSet, maskOf_getLsbD _ le_rfl, decide_eq_true hd, Bool.true_and, Bool.not_eq_true', List.isEmpty_eq_false_iff,
    presentableList, Ne, List.filter_eq_nil_iff]
  simp only [not_forall, not_not, exists_prop]

theorem faultSet_getLsbD (s : State) {l : Nat} (hl : l < 4) :
    (faultSet s).getLsbD l = true ↔ (loopRec s l).state = .fault := by
  rw [faultSet, maskOf_getLsbD _ (by decide), decide_eq_true hl, Bool.true_and, beq_iff_eq]

/-- The code of a survey's scope (R197). -/
def scopeByte : Option Scope → Byte
  | none => 0
  | some .all => 1
  | some (.one _) => 2

/-- The bytes of a scope printer are free where the scope is not one printer (log 21). -/
theorem surveyBody_eq (s : State) :
    ∃ a b : Byte, (∀ p, s.survey.scope = some (.one p) → [a, b] = num 2 p)
      ∧ surveyBody s =
          [if s.survey.scope.isSome then 1 else 0, scopeByte s.survey.scope, a, b] ++ num 2 s.survey.cursor
          ++ [if s.survey.done then 1 else 0] := by
  unfold surveyBody
  dsimp only
  cases s.survey.scope with
  | none => exact ⟨_, _, (fun _ h => nomatch h), rfl⟩
  | some scope =>
    cases scope with
    | all => exact ⟨_, _, (fun _ h => nomatch h), rfl⟩
    | one p => exact ⟨_, _, fun q hq => by cases hq; rfl, rfl⟩

/-- Settles O51: the summary's items stand in the records, and the survey's record is answered byte by byte. -/
theorem readAttentionAndReadSurvey : Obligations.ReadAttentionAndReadSurvey := by
  unfold Obligations.ReadAttentionAndReadSurvey
  refine ⟨fun s hr => ?_, fun s hr => ?_⟩
  · rw [exec_readAttention]
    have cleared : Frame [.survey] s (readAttentionRule s).state := rfl
    exact ⟨_, request_taken hr rfl rfl, answers_answered rfl, attentionBody_length s, rfl,
      fun d hd => presentableSet_getLsbD s hd, fun l hl => faultSet_getLsbD s hl⟩
  · obtain ⟨a, b, hone, hbody⟩ := surveyBody_eq s
    rw [exec_readSurvey]
    refine ⟨_, surveyBody s, request_taken hr rfl rfl, answers_answered rfl, ?_, rfl, ?_⟩
    · rw [hbody]
      rfl
    · rw [hbody]
      refine ⟨rfl, ?_, hone, rfl, rfl⟩
      cases s.survey.scope with
      | none => rfl
      | some scope => cases scope <;> rfl

end Sys2Proof.Machine
end

