-- ==== Sys2Proof/Proofs/ReleasesEnded.lean ====
section
/-! PROOFS. A release given back: Cancel Job and CANCELLED_AT_PRINTER of a routed job, DELIVERY_FAILED, and the end of a
resume window (R33, R36, R106 to R108, R112). -/

namespace Sys2Proof.Machine

theorem oneIf_true : oneIf true = 1 := rfl
theorem oneIf_false : oneIf false = 0 := rfl

/-- What a release given back leaves: Return's accounts, one copy less in the printer's queue and the job `j` in the slot. -/
structure GaveBack (s : State) (i p : Nat) (j : Job) (t : State) : Prop where
  frame    : Frame [.accounts, .jobs, .finished, .printers] s t
  job      : job t i = j
  others   : ∀ k, k ≠ i → slot t k = slot s k
  printer  : ∀ x, printer t x =
    if x = p then { Machine.printer s p with queueCount := (Machine.printer s p).queueCount - 1 } else Machine.printer s x
  accounts : t.accounts = (returnReservation s i).accounts
  finished : t.finished = s.finished + oneIf j.state.finished

section
variable {s : State} {i p : Nat}

/-- The job once Return has run for it (R26). -/
def returnedJob (j : Job) : Job := { j with perCopyApplied := none, chargedDept := none, forcedMono := false }

/-- The state in which a release given back writes its job. -/
def givenBack (s : State) (i : Nat) : State := lowerQueue (returnReservation s i) (job s i).printer

theorem frame_givenBack (s : State) (i : Nat) : Frame [.accounts, .jobs, .finished, .printers] s (givenBack s i) :=
  (frame_returnReservation s i).comp (frame_lowerQueue _ _) (by decide)

theorem job_givenBack (s : State) (i : Nat) : job (givenBack s i) i = returnedJob (job s i) := by
  rw [givenBack, (frame_lowerQueue _ _).job i (by decide), job_returnReservation, if_pos rfl]
  rfl

theorem not_finished_of_routed {st : JobState} (h : st.routed = true) : st.finished = false := by
  cases st <;> first | rfl | cases h

theorem finished_returnReservation (s : State) (i : Nat) : (returnReservation s i).finished = s.finished := by
  have moved := fun amount => (((onlyAccounts_touch s (job s i).owner).trans
    (onlyAccounts_touchOpt _ (job s i).chargedDept)).trans (onlyAccounts_subReserved _ (job s i).owner amount)).trans
    (onlyAccounts_onAccount onlyAccounts_subReserved _ amount (job s i).chargedDept)
  have kept : ∀ {t : State}, OnlyAccounts s t → t.finished = s.finished := fun h => by rw [h]
  exact (finished_putJob_of_same rfl).trans (kept (moved _))

theorem gaveBack (hp : (job s i).printer = some p) (hr : (job s i).state.routed = true) (j : Job) :
    GaveBack s i p j (putJob (givenBack s i) i j) := by
  have frame := frame_givenBack s i
  have lowered : ∀ x, printer (givenBack s i) x =
      if x = p then { printer s p with queueCount := (printer s p).queueCount - 1 } else printer s x := fun x => by
    have kept := fun y => (frame_returnReservation s i).printer y (by decide)
    rw [givenBack, hp, printer_lowerQueue, kept, kept]
  refine ⟨frame.comp (frame_putJob _ i j) (by decide), (job_putJob _ i i j).trans (if_pos rfl), fun k hk => ?_, fun x => ?_,
    ?_, ?_⟩
  · rw [slot_putJob, if_neg hk, givenBack, (frame_lowerQueue _ _).slot k (by decide),
      (wroteJob_returnReservation s i).others k hk]
  · rw [(frame_putJob _ i j).printer x (by decide), lowered]
  · exact (frame_lowerQueue (returnReservation s i) (job s i).printer).same .accounts (by decide)
  · have routed : (job (givenBack s i) i).state.finished = false := by
      rw [job_givenBack]
      exact not_finished_of_routed hr
    have count : (givenBack s i).finished = s.finished := by
      rw [givenBack, (frame_lowerQueue _ _).same .finished (by decide)]
      exact finished_returnReservation s i
    show (givenBack s i).finished + oneIf j.state.finished - oneIf (job (givenBack s i) i).state.finished = _
    rw [routed, count]
    rfl

end

/-! ## Cancel Job and CANCELLED_AT_PRINTER -/

/-- The job a cancellation of a release leaves (R36, R107). -/
def cancelledJob (j : Job) (o : JobOutcome) : Job :=
  { j with
    state := .cancelled, outcome := some o, resumeDeadline := none, perCopyApplied := none, chargedDept := none
    forcedMono := false }

theorem cancelAtPrinter_eq (s : State) (i : Nat) :
    cancelAtPrinter s i = putJob (givenBack s i) i (cancelledJob (job s i) .cancelledAtPrinter) := by
  unfold cancelAtPrinter
  dsimp only
  rw [show lowerQueue (returnReservation s i) (job s i).printer = givenBack s i from rfl, job_givenBack]
  rfl

/-- Cancel Job takes a RELEASED job off the Dispatch List, and else gives back as CANCELLED_AT_PRINTER does. -/
theorem cancelRouted_eq (s : State) (i : Nat) :
    cancelRouted s i =
      { putJob (givenBack s i) i (cancelledJob (job s i) .cancelledByUser) with
        dispatch := if (job s i).state = .released then s.dispatch.filter (· != handleOf s i) else s.dispatch } := by
  have given : ∀ l, lowerQueue (returnReservation { s with dispatch := l } i) (job s i).printer = { givenBack s i with dispatch := l } := by
    intro l
    rw [returnReservation_dispatch, givenBack]
    cases (job s i).printer <;> rfl
  have cancelled : ∀ l, putJob { givenBack s i with dispatch := l } i
      { job { givenBack s i with dispatch := l } i with
        resumeDeadline := none, state := .cancelled, outcome := some .cancelledByUser } =
      { putJob (givenBack s i) i (cancelledJob (job s i) .cancelledByUser) with dispatch := l } := by
    intro l
    rw [show job { givenBack s i with dispatch := l } i = returnedJob (job s i) from job_givenBack s i]
    rfl
  unfold cancelRouted
  dsimp only
  split
  · rw [given, cancelled]
  · rw [show lowerQueue (returnReservation s i) (job s i).printer = { givenBack s i with dispatch := s.dispatch } from given s.dispatch,
      cancelled]

theorem exec_cancelJob (len h : BitVec 16) (s : State) :
    exec (.cancelJob len h) s = request 0x33 (len == 2) true (cancelJobRule h.toNat) s := rfl

theorem exec_reportJobEndCancelledAtPrinter (len h : BitVec 16) (s : State) :
    exec (.reportJobEndCancelledAtPrinter len h) s =
      request 0x38 (len == 3) true (jobEndRule cancelAtPrinter h.toNat) s := rfl

theorem routed_iff (st : JobState) : st.routed = true ↔ st = .released ∨ st = .printing ∨ st = .interrupted := by
  cases st <;> simp [JobState.routed]

/-- Settles O26: both requests give the release back, and Cancel Job takes a RELEASED job's handle off the list. -/
theorem cancellingARoutedJob : Obligations.CancellingARoutedJob := by
  unfold Obligations.CancellingARoutedJob
  intro s h i p hr hres hp hrouted ended outcome
  have described : ∀ {o t}, GaveBack s i p (ended o) t → outcome t o := by
    intro o t back
    have queue := back.printer p
    rw [if_pos rfl] at queue
    exact ⟨back.job, back.others, by rw [queue], by rw [queue], by rw [queue], fun x hx => (back.printer x).trans (if_neg hx),
      back.accounts, back.finished⟩
  refine ⟨fun hne => ?_, fun hne => ?_⟩
  · have hst : (job s i).state = .released ∨ (job s i).state = .interrupted := by
      obtain hst | hst | hst := (routed_iff _).1 hrouted
      · exact .inl hst
      · exact absurd hst hne
      · exact .inr hst
    have rule := cancelJobRule_of_routed hres hst
    rw [cancelRouted_eq, handleOf_resolve hres] at rule
    have back : GaveBack s i p (ended .cancelledByUser)
      (putJob (givenBack s i) i (cancelledJob (job s i) .cancelledByUser)) := gaveBack hp hrouted _
    generalize putJob (givenBack s i) i (cancelledJob (job s i) .cancelledByUser) = u at rule back
    have frame : ∀ l, Frame [.accounts, .jobs, .finished, .dispatch, .printers] s { u with dispatch := l } := fun l =>
      back.frame.comp (w₂ := [.dispatch]) rfl (by decide)
    have leaves := described back
    rw [exec_cancelJob]
    refine request_answers hr rfl rfl rule ((frame _).same .response (by decide)) ⟨leaves, ?_, (frame _).answered⟩
    simp only [answered_dispatch, ne_eq, bne, beq_eq_decide, decide_not]
  · have hst : reportable (job s i) = true := by
      rw [reportable_iff]
      obtain hst | hst | hst := (routed_iff _).1 hrouted
      · exact absurd hst hne
      · exact .inl hst
      · exact .inr hst
    have rule := jobEndRule_of_reportable hres cancelAtPrinter hst
    rw [cancelAtPrinter_eq] at rule
    have back : GaveBack s i p (ended .cancelledAtPrinter)
      (putJob (givenBack s i) i (cancelledJob (job s i) .cancelledAtPrinter)) := gaveBack hp hrouted _
    have leaves := described back
    rw [exec_reportJobEndCancelledAtPrinter]
    exact request_answers hr rfl rfl rule (back.frame.same .response (by decide)) ⟨leaves, back.frame.answered⟩

/-! ## DELIVERY_FAILED and the resume window -/

theorem exec_reportJobEndDeliveryFailed (len h : BitVec 16) (s : State) :
    exec (.reportJobEndDeliveryFailed len h) s =
      request 0x38 (len == 3) true (jobEndRule failDelivery h.toNat) s := rfl

theorem exec_reportJobEndComplete_of_unknown {outcome : Byte} (h : endOutcomeKnown outcome = false) (len handle : BitVec 16)
    (s : State) :
    exec (.reportJobEndComplete len handle outcome) s = request 0x38 (len == 3) true (fun s => refuse s .badField) s := by
  show request 0x38 (len == 3) true
    (fun s => if !endOutcomeKnown outcome then refuse s .badField else jobEndRule completeJob handle.toNat s) s = _
  rw [h]
  rfl

theorem exec_resumeWindowExpiry (i : Fin 2048) (s : State) :
    exec (.resumeWindowExpiry i) s = event (fun s => endWindow s i.val) s := rfl

/-- A job that ends or comes back into a counted state moves the finished count; any other write leaves it. -/
theorem frame_putJob_of_same {s : State} {i : Nat} {j : Job} (h : j.state.finished = (job s i).state.finished) :
    Frame [.jobs] s (putJob s i j) := by
  have written : putJob s i j = { s with jobs := (putJob s i j).jobs, finished := (putJob s i j).finished } := rfl
  rw [finished_putJob_of_same h] at written
  exact written

theorem failDelivery_of_printing {s : State} {i : Nat} (h : (job s i).state = .printing) :
    failDelivery s i = interruptJob s i := if_pos h

theorem failDelivery_of_interrupted {s : State} {i : Nat} (h : (job s i).state = .interrupted) : failDelivery s i = s :=
  if_neg (by rw [h]; exact nofun)

theorem windowOver_iff (s : State) (j : Job) : windowOver s j = true ↔ ∃ d, j.resumeDeadline = some d ∧ d ≤ s.seconds := by
  unfold windowOver
  cases j.resumeDeadline <;> simp

/-- The job left when a release is given up: what Return clears, and then what a revert writes (R26, R33). -/
theorem giveUpRelease_eq (s : State) (i : Nat) :
    giveUpRelease s i = putJob (givenBack s i) i (reverted s (returnedJob (job s i))) := by
  have seconds : (givenBack s i).seconds = s.seconds := (frame_givenBack s i).same .seconds (by decide)
  show revertJob (givenBack s i) i = _
  rw [revertJob_eq, job_givenBack, reverted, seconds]
  rfl

theorem finished_reverted (s : State) (j : Job) :
    oneIf (reverted s j).state.finished = if j.expiresAt ≤ s.seconds then 1 else 0 := by
  show oneIf (if j.expiresAt ≤ s.seconds then JobState.expired else .held).finished = _
  split <;> rfl

/-- Settles O33: DELIVERY_FAILED interrupts, and the end of a window gives the release up. -/
theorem deliveryFailedAndTheResumeWindow : Obligations.DeliveryFailedAndTheResumeWindow := by
  unfold Obligations.DeliveryFailedAndTheResumeWindow
  refine ⟨fun s h i hr hres => ⟨fun hst => ?_, fun hst => ?_, fun outcome h1 h3 h5 => ?_⟩, ?_⟩
  · have rule := jobEndRule_of_reportable hres failDelivery ((reportable_iff _).2 (.inl hst))
    rw [failDelivery_of_printing hst, interruptJob] at rule
    have frame := frame_putJob_of_same (s := s) (i := i) (j := { job s i with
      state := .interrupted, resumeDeadline := some (resumeDeadlineOf s (job s i)) }) (by rw [hst]; rfl)
    rw [exec_reportJobEndDeliveryFailed]
    refine request_answers hr rfl rfl rule rfl ⟨frame.answered, ?_, fun x hx => ?_⟩
    · rw [job_answered, job_putJob, if_pos rfl, resumeDeadlineOf, deadline_eq_min]
    · rw [slot_answered, slot_putJob, if_neg hx]
  · have rule := jobEndRule_of_reportable hres failDelivery ((reportable_iff _).2 (.inr hst))
    rw [failDelivery_of_interrupted hst] at rule
    rw [exec_reportJobEndDeliveryFailed]
    exact request_answers hr rfl rfl rule rfl (Frame.refl [] s).answered
  · rw [exec_reportJobEndComplete_of_unknown (by simpa [endOutcomeKnown, and_assoc] using ⟨h1, h3, h5⟩)]
    exact request_answers_refusal hr rfl rfl rfl
  · intro s i hr j
    rw [exec_resumeWindowExpiry]
    refine ⟨fun p d hst hp hd hle => ?_, fun hor => ?_⟩
    · have back := gaveBack hp (by rw [hst]; rfl) (reverted s (returnedJob (job s i.val)))
      have ends : endWindow s i.val = giveUpRelease s i.val := if_pos ⟨hst, (windowOver_iff _ _).2 ⟨d, hd, hle⟩⟩
      rw [giveUpRelease_eq] at ends
      generalize putJob (givenBack s i.val) i.val (reverted s (returnedJob (job s i.val))) = u at ends back
      have queue := back.printer p
      rw [if_pos rfl] at queue
      refine event_settles hr ends ⟨back.job, back.others, back.accounts, ?_, fun x hx => ?_, ?_, back.frame.settled⟩
      · rw [printer_settle, queue]
      · exact (back.printer x).trans (if_neg hx)
      · exact back.finished.trans (congrArg (s.finished + ·) (finished_reverted s _))
    · refine event_idle hr (if_neg fun ⟨hst, hover⟩ => ?_)
      obtain ⟨d, hd, hle⟩ := (windowOver_iff _ _).1 hover
      obtain h | h | ⟨e, he, hlt⟩ := hor
      · exact h hst
      · cases h.symm.trans hd
      · cases he.symm.trans hd
        omega

end Sys2Proof.Machine
end

