-- ==== Sys2Proof/Proofs/Dispatching.lean ====
section
/-! PROOFS. Take Dispatch: the head that fits, the head re-routed and the head reverted (R98 to R101). -/

namespace Sys2Proof.Machine

/-! ## One head -/

section
variable {s : State} {h : Nat} {rest : List Nat} (n : Nat)

theorem takeFrom_of_fit (hfit : fits s (job s (h % 2048)) = true) :
    takeFrom s n (h :: rest) =
      { state := dispatchJob { s with dispatch := rest } (h % 2048) ((job s (h % 2048)).printer.getD 0), code := .ok
        body := takenBody h ((job s (h % 2048)).printer.getD 0) (job s (h % 2048)) false n } := by
  rw [takeFrom]
  exact if_pos hfit

theorem takeFrom_of_route {q p : Nat} (hfit : fits s (job s (h % 2048)) = false) (hq : (job s (h % 2048)).releasePool = some q)
    (hroute : route s q (printNeed (job s (h % 2048))) = some p) :
    takeFrom s n (h :: rest) =
      { state := rerouteJob { s with dispatch := rest } (h % 2048) p, code := .ok
        body := takenBody h p (job s (h % 2048)) true n } := by
  rw [takeFrom, hq, Option.getD_some, hroute]
  exact if_neg (by rw [hfit]; exact Bool.false_ne_true)

theorem takeFrom_of_none {q : Nat} (hfit : fits s (job s (h % 2048)) = false) (hq : (job s (h % 2048)).releasePool = some q)
    (hroute : route s q (printNeed (job s (h % 2048))) = none) :
    takeFrom s n (h :: rest) = takeFrom (giveUpRelease { s with dispatch := rest } (h % 2048)) (n + 1) rest := by
  rw [takeFrom, hq, Option.getD_some, hroute]
  exact if_neg (by rw [hfit]; exact Bool.false_ne_true)

end

/-- What is taken does not depend on the jobs reverted before, which the answer alone counts (R101). -/
theorem takeFrom_counts (l : List Nat) (s : State) :
    ∃ t code front k, k ≤ l.length
      ∧ ∀ n, takeFrom s n l = { state := t, code := code, body := front ++ num 2 (k + n) } := by
  induction l generalizing s with
  | nil => exact ⟨_, _, [], 0, Nat.le_refl 0, fun n => by rw [Nat.zero_add]; rfl⟩
  | cons h rest ih =>
    have taken : ∀ (j : Job) (p : Nat) (rerouted : Bool) (n : Nat),
        takenBody h p j rerouted n = (num 2 h ++ num 2 p ++ [flagByte j.forcedMono] ++ num 2 (j.copies - j.copiesDone)
          ++ [flagByte rerouted]) ++ num 2 (0 + n) := fun j p rerouted n => by
      rw [Nat.zero_add]
      rfl
    unfold takeFrom
    dsimp only
    split
    · exact ⟨_, _, _, 0, Nat.zero_le _, fun n => by rw [taken]⟩
    · split
      · exact ⟨_, _, _, 0, Nat.zero_le _, fun n => by rw [taken]⟩
      · obtain ⟨t, code, front, k, hk, all⟩ := ih (giveUpRelease { s with dispatch := rest } (h % 2048))
        exact ⟨t, code, front, k + 1, Nat.succ_le_succ hk, fun n => by rw [all, Nat.add_assoc, Nat.add_comm 1 n]⟩

/-! ## The fit -/

theorem fits_of_printer {s : State} {j : Job} {p : Nat} (hp : j.printer = some p) :
    fits s j = (printer s p).candidate (printNeed j) := by
  unfold fits
  rw [hp]

/-- A usable printer fits a job that prints mono, and a colour printer with its three toners fits any (R98). -/
theorem candidate_of_usable {r : Printer} {j : Job} (hu : r.usable = true)
    (hneed : j.sidesColour = 0 ∨ j.forcedMono = true
      ∨ (r.capability = .colour ∧ r.hasToner .c = true ∧ r.hasToner .m = true ∧ r.hasToner .y = true)) :
    r.candidate (printNeed j) = true := by
  have colour : r.capability = .colour ∧ r.hasToner .c = true ∧ r.hasToner .m = true ∧ r.hasToner .y = true →
      r.candidate .colour = true := fun ⟨hc, h1, h2, h3⟩ => by
    simp [Printer.candidate, hu, hc, h1, h2, h3]
  unfold printNeed
  split
  · rename_i h
    obtain h0 | hmono | hcolour := hneed
    · omega
    · rw [h.2] at hmono
      cases hmono
    · exact colour hcolour
  · exact hu

/-! ## What each head leaves -/

theorem frame_dispatchJob_head {s : State} {i : Nat} (p : Nat) (rest : List Nat) (hst : (job s i).state = .released) :
    Frame [.jobs, .dispatch] s (dispatchJob { s with dispatch := rest } i p) := by
  have off : Frame [.dispatch] s { s with dispatch := rest } := rfl
  refine off.comp (frame_putJob_of_same (s := { s with dispatch := rest }) ?_) (by decide)
  show _ = (job s i).state.finished
  rw [hst]
  rfl

theorem givenBack_dispatch (s : State) (l : List Nat) (i : Nat) :
    givenBack { s with dispatch := l } i = { givenBack s i with dispatch := l } := by
  show lowerQueue (returnReservation { s with dispatch := l } i) (job s i).printer = _
  rw [returnReservation_dispatch, givenBack]
  cases (job s i).printer <;> rfl

theorem giveUpRelease_dispatch (s : State) (l : List Nat) (i : Nat) :
    giveUpRelease { s with dispatch := l } i =
      { putJob (givenBack s i) i (reverted s (returnedJob (job s i))) with dispatch := l } := by
  rw [giveUpRelease_eq, givenBack_dispatch]
  rfl

/-- The queue counts of a re-route (R100). -/
theorem printer_rerouteJob {s : State} {i old new : Nat} (hold : (job s i).printer = some old) (hne : new ≠ old) (x : Nat) :
    printer (rerouteJob s i new) x =
      if x = old then { printer s old with queueCount := (printer s old).queueCount - 1 }
      else if x = new then { printer s new with queueCount := (printer s new).queueCount + 1 } else printer s x := by
  rw [rerouteJob, hold, dispatchJob, (frame_putJob _ i _).printer x (by decide), raiseQueue, printer_putPrinter,
    printer_lowerQueue, printer_lowerQueue, if_neg hne]
  by_cases hx : x = new
  · rw [if_pos hx, hx, if_neg hne, if_pos rfl]
  · rw [if_neg hx, if_neg hx]

/-- The re-route writes the head's job and the two printers. -/
theorem frame_rerouteJob_released {s : State} {i : Nat} (p : Nat) (hst : (job s i).state = .released) :
    Frame [.jobs, .printers] s (rerouteJob s i p) := by
  have moved : Frame [.printers] s (raiseQueue (lowerQueue s (job s i).printer) p) :=
    (frame_lowerQueue s _).comp (frame_raiseQueue _ p) (by decide)
  refine moved.comp (frame_putJob_of_same ?_) (by decide)
  rw [moved.job i (by decide), hst]
  rfl

theorem job_rerouteJob (s : State) (i p : Nat) : job (rerouteJob s i p) i = { job s i with state := .printing, printer := some p } := by
  have moved : Frame [.printers] s (raiseQueue (lowerQueue s (job s i).printer) p) :=
    (frame_lowerQueue s _).comp (frame_raiseQueue _ p) (by decide)
  rw [rerouteJob, dispatchJob, job_putJob, if_pos rfl, moved.job i (by decide)]

theorem slot_rerouteJob (s : State) {i k : Nat} (p : Nat) (hk : k ≠ i) : slot (rerouteJob s i p) k = slot s k := by
  have moved : Frame [.printers] s (raiseQueue (lowerQueue s (job s i).printer) p) :=
    (frame_lowerQueue s _).comp (frame_raiseQueue _ p) (by decide)
  rw [rerouteJob, dispatchJob, slot_putJob, if_neg hk, moved.slot k (by decide)]

theorem exec_takeDispatch (len : BitVec 16) (s : State) :
    exec (.takeDispatch len) s = request 0x35 (len == 0) true (fun s => takeFrom s 0 s.dispatch) s := rfl

theorem takeDispatch_answers {s : State} {r : Reply} {P : State → Prop} (hr : running s = true)
    (hrule : takeFrom s 0 s.dispatch = r) (hresponse : r.state.response = s.response) (hP : P (answered 0x35 r)) :
    ∃ t, exec (.takeDispatch 0) s = .next t ∧ Answers s t 0x35 r.code r.body ∧ P t :=
  request_answers (rule := fun s => takeFrom s 0 s.dispatch) hr rfl rfl hrule hresponse hP

/-- The answer to a take whose head was reverted counts one job more than a take from the state the revert leaves. -/
theorem takeDispatch_counts_revert {s r : State} {rest : List Nat} (hr : running s = true) (hrest : r.dispatch = rest)
    (hport : r.port = s.port) (htake : takeFrom s 0 s.dispatch = takeFrom r 1 rest) :
    ∃ t u front n, exec (.takeDispatch 0) s = .next t ∧ exec (.takeDispatch 0) r = .next u ∧ n ≤ rest.length
      ∧ u.response.body = front ++ num 2 n ∧ t.response.body = front ++ num 2 (n + 1)
      ∧ t = { u with response := { u.response with body := t.response.body } } := by
  have hrun : running r = true := by
    rw [running, hport]
    exact hr
  obtain ⟨v, code, front, k, hk, all⟩ := takeFrom_counts rest r
  have first : takeFrom s 0 s.dispatch = { state := v, code := code, body := front ++ num 2 (k + 1) } := htake.trans (all 1)
  have second : takeFrom r 0 r.dispatch = { state := v, code := code, body := front ++ num 2 k } :=
    (congrArg (takeFrom r 0) hrest).trans (all 0)
  refine ⟨_, _, front, k, request_taken (rule := fun _ => takeFrom s 0 s.dispatch) hr rfl rfl,
    request_taken (rule := fun _ => takeFrom r 0 r.dispatch) hrun rfl rfl, hk, ?_⟩
  dsimp only
  rw [first, second]
  exact ⟨rfl, rfl, rfl⟩

/-- Settles O30: the head is dispatched, re-routed or reverted, and the rest is taken from as a Take Dispatch of its own. -/
theorem takeDispatch : Obligations.TakeDispatch := by
  unfold Obligations.TakeDispatch
  refine ⟨⟨fun s h p rest hr hd hp hst hu hneed => ?_, fun s hr hd => ?_⟩, ?_⟩
  · have hfit : fits s (job s (h % 2048)) = true := by
      rw [fits_of_printer hp]
      exact candidate_of_usable hu hneed
    have frame := frame_dispatchJob_head p rest hst
    have rule : takeFrom s 0 s.dispatch = _ := (congrArg (takeFrom s 0) hd).trans (takeFrom_of_fit 0 hfit)
    rw [hp, Option.getD_some] at rule
    refine takeDispatch_answers hr rule (frame.same .response (by decide)) ⟨frame.answered, ?_, fun k hk => ?_⟩
    · rw [job_answered, dispatchJob, job_putJob, if_pos rfl, ← hp]
      rfl
    · rw [slot_answered, dispatchJob, slot_putJob, if_neg hk]
      rfl
  · have rule : takeFrom s 0 s.dispatch = { state := { s with dispatch := [] }, code := .empty, body := num 2 0 } := by
      rw [hd]
      rfl
    refine takeDispatch_answers hr rule rfl ?_
    have same : { s with dispatch := [] } = s := by rw [← hd]
    rw [same]
    exact (Frame.refl [] s).answered
  · intro s h old q rest hr hd i j hp hq hst hfit
    have off : ∀ x, job { s with dispatch := rest } x = job s x := fun _ => rfl
    refine ⟨fun new hroute => ?_, fun hroute => ?_⟩
    · have frame := frame_rerouteJob_released (s := { s with dispatch := rest }) (i := i) new hst
      have rule : takeFrom s 0 s.dispatch = _ := (congrArg (takeFrom s 0) hd).trans (takeFrom_of_route 0 hfit hq hroute)
      have hne : new ≠ old := by
        rintro rfl
        rw [fits_of_printer hp, (route_some hroute).1] at hfit
        cases hfit
      have record := printer_rerouteJob (s := { s with dispatch := rest }) (i := i) hp hne
      have written := job_rerouteJob { s with dispatch := rest } i new
      have others := fun k => slot_rerouteJob { s with dispatch := rest } (i := i) (k := k) new
      refine takeDispatch_answers hr rule (frame.same .response (by decide)) ⟨hne, written, ?_, ?_, fun x hold hnew => ?_, others,
        frame.answered⟩
      · rw [printer_answered, record, if_pos rfl]
        rfl
      · rw [printer_answered, record, if_neg hne, if_pos rfl]
        rfl
      · rw [printer_answered, record, if_neg hold, if_neg hnew]
        rfl
    · have back : GaveBack s i old (reverted s (returnedJob j)) (putJob (givenBack s i) i (reverted s (returnedJob j))) :=
        gaveBack hp (by rw [hst]; rfl) _
      have rule : takeFrom s 0 s.dispatch = _ := (congrArg (takeFrom s 0) hd).trans (takeFrom_of_none 0 hfit hq hroute)
      rw [giveUpRelease_dispatch] at rule
      generalize putJob (givenBack s i) i (reverted s (returnedJob j)) = u at back rule
      have queue := back.printer old
      rw [if_pos rfl] at queue
      have frame : Frame [.accounts, .jobs, .finished, .printers] { s with dispatch := rest } { u with dispatch := rest } := by
        have written := congrArg (fun v : State => { v with dispatch := rest }) back.frame
        exact written
      refine ⟨{ u with dispatch := rest }, back.job, back.accounts, congrArg Printer.queueCount queue,
        fun x hx => (back.printer x).trans (if_neg hx), back.others,
        back.finished.trans (congrArg (s.finished + ·) (finished_reverted s _)), frame, fun hnil => ?_,
        takeDispatch_counts_revert hr rfl (frame.same .port (by decide)) rule⟩
      subst hnil
      have emptied : takeFrom s 0 s.dispatch = { state := { u with dispatch := [] }, code := .empty, body := num 2 1 } := rule
      exact takeDispatch_answers hr emptied (frame.same .response (by decide)) (Frame.refl [] _).answered

end Sys2Proof.Machine
end

