-- ==== Sys2Proof/Proofs/CopiesReported.lean ====
section
/-! PROOFS. Copies committed and consumed: Report Progress and COMPLETE (R104 to R106, R119, R120). -/

namespace Sys2Proof.Machine

/-! ## What an event on a printer reads -/

/-- The two states hold the same of all that a condition change reads and writes. -/
structure SameCallouts (s t : State) : Prop where
  callouts   : t.callouts = s.callouts
  conditions : t.conditions = s.conditions
  calendar   : t.calendar = s.calendar
  desks      : t.desks = s.desks
  printers   : t.printers = s.printers

namespace SameCallouts

variable {s t u : State}

theorem of_frame {w : List Field} (h : Frame w s t) (hw : ∀ f ∈ [Field.callouts, .conditions, .calendar, .desks, .printers], f ∉ w) :
    SameCallouts s t :=
  ⟨h.same .callouts (hw _ (by decide)), h.same .conditions (hw _ (by decide)), h.same .calendar (hw _ (by decide)),
    h.same .desks (hw _ (by decide)), h.same .printers (hw _ (by decide))⟩

theorem trans (h : SameCallouts s t) (k : SameCallouts t u) : SameCallouts s u :=
  ⟨k.callouts.trans h.callouts, k.conditions.trans h.conditions, k.calendar.trans h.calendar, k.desks.trans h.desks,
    k.printers.trans h.printers⟩

theorem symm (h : SameCallouts s t) : SameCallouts t s :=
  ⟨h.callouts.symm, h.conditions.symm, h.calendar.symm, h.desks.symm, h.printers.symm⟩

variable (h : SameCallouts s t)
include h

theorem callout (p : Nat) (k : CondKind) : callout t p k = callout s p k := by
  rw [Machine.callout, h.callouts]
  rfl

theorem printer (p : Nat) : printer t p = printer s p := by
  rw [Machine.printer, h.printers]
  rfl

theorem raisedRecord (p : Nat) (k : CondKind) : raisedRecord t p k = raisedRecord s p k := by
  have desk : ∀ d, Machine.desk t d = Machine.desk s d := fun d => by
    rw [Machine.desk, h.desks]
    rfl
  have entry : condEntry t k = condEntry s k := by
    rw [condEntry, h.conditions]
    rfl
  rw [Machine.raisedRecord, Machine.raisedRecord, h.printer, h.calendar, entry, routeDesk_congr rfl rfl desk]

theorem putCallout (p : Nat) (k : CondKind) (r : Option Callout) : SameCallouts (putCallout s p k r) (putCallout t p k r) := by
  refine ⟨?_, h.conditions, h.calendar, h.desks, h.printers⟩
  unfold Machine.putCallout
  rw [h.callouts]

theorem putPrinter (p : Nat) (r : Printer) : SameCallouts (putPrinter s p r) (putPrinter t p r) := by
  refine ⟨h.callouts, h.conditions, h.calendar, h.desks, ?_⟩
  unfold Machine.putPrinter
  rw [h.printers]

theorem handChange (p : Nat) (k : CondKind) (present : Bool) :
    SameCallouts (handChange s p k present) (handChange t p k present) := by
  have raised : SameCallouts (raiseCallout s p k) (raiseCallout t p k) := by
    rw [raiseCallout_eq, raiseCallout_eq, h.raisedRecord]
    exact h.putCallout p k _
  unfold Machine.handChange
  rw [h.callout]
  split
  · split
    · exact raised
    · exact h
  · split
    · exact h.putCallout p k _
    · exact h.putCallout p k _
    · exact h

theorem handChanges (p : Nat) (before after : CondKind → Bool) :
    SameCallouts (handChanges s p before after) (handChanges t p before after) := by
  rw [handChanges_eq, handChanges_eq]
  generalize CondKind.handing = l
  induction l generalizing s t with
  | nil => exact h
  | cons k l ih =>
    refine ih ?_
    unfold handKind
    split
    · exact h
    · exact h.handChange p k _

theorem printerEvent (p : Nat) (f : Printer → Printer) : SameCallouts (printerEvent s p f) (printerEvent t p f) := by
  have handed : ∀ u old new, SameCallouts u (handToJobs u p old new) := fun u old new =>
    .of_frame (frame_handToJobs u p old new) (by decide)
  unfold Machine.printerEvent
  dsimp only
  rw [h.printer]
  exact (((handed _ _ _).symm.trans (h.putPrinter p _)).trans (handed _ _ _)).handChanges p _ _

end SameCallouts

/-- An event that keeps the record hands no change to the callouts. -/
theorem callouts_printerEvent_of_same {s : State} {p : Nat} {f : Printer → Printer} (h : f (printer s p) = printer s p) :
    (printerEvent s p f).callouts = s.callouts := by
  have still : ∀ (l : List CondKind) (t : State) (g : CondKind → Bool), l.foldl (handKind p g g) t = t := by
    intro l t g
    induction l with
    | nil => rfl
    | cons k l ih => exact (congrArg (l.foldl (handKind p g g)) (if_pos rfl)).trans ih
  unfold printerEvent
  dsimp only
  rw [h, handChanges_eq, still]
  exact (frame_handToJobs _ p _ _).same .callouts (by decide)

theorem printerEvent_congr {s : State} {p : Nat} {f g : Printer → Printer} (h : f (printer s p) = g (printer s p)) :
    printerEvent s p f = printerEvent s p g := by
  unfold printerEvent
  dsimp only
  rw [h]

/-! ## Copies reported -/

theorem frame_commit_money (s : State) (i k : Nat) : Frame [.accounts, .jobs] s (commit s i k) := by
  have moved := fun amount => (((onlyAccounts_touch s (job s i).owner).trans
    (onlyAccounts_touchOpt _ (job s i).chargedDept)).trans (onlyAccounts_moveToUsed _ (job s i).owner amount)).trans
    (onlyAccounts_onAccount onlyAccounts_moveToUsed _ amount (job s i).chargedDept)
  have accounts : ∀ {t : State}, OnlyAccounts s t → Frame [.accounts] s t := fun h => h
  exact (accounts (moved _)).comp (frame_putJob_of_same rfl) (by decide)

section
variable {s : State} {i p : Nat}

theorem reportCopies_of_pos (hp : (job s i).printer = some p) {k : Nat} (hk : k ≠ 0) :
    reportCopies s i k = printerEvent (commit s i k) p fun r => r.consume (job s i) k := by
  have written : job (commit s i k) i = { job s i with copiesDone := (job s i).copiesDone + k } := by
    rw [job_commit, if_pos rfl]
  rw [reportCopies, if_neg hk, consume, written]
  dsimp only
  rw [hp]
  rfl

theorem frame_reportCopies_still (s : State) (i k : Nat) : Frame [.accounts, .jobs, .printers, .callouts] s (reportCopies s i k) :=
  .ite (Frame.refl _ s) ((frame_commit_money s i k).comp (frame_consume_still _ i k) (by decide))

theorem slot_reportCopies_ne (s : State) {i x : Nat} (k : Nat) (hx : x ≠ i) : slot (reportCopies s i k) x = slot s x := by
  unfold reportCopies
  split
  · rfl
  · rw [(frame_consume_still _ i k).slot x (by decide), (wroteJob_commit s i k).others x hx]

theorem accounts_reportCopies (s : State) (i k : Nat) :
    (reportCopies s i k).accounts = if k = 0 then s.accounts else (commit s i k).accounts := by
  unfold reportCopies
  split
  · rfl
  · exact (frame_consume_still _ i k).same .accounts (by decide)

theorem printer_reportCopies (hp : (job s i).printer = some p) {k : Nat} (hk : k ≠ 0) (x : Nat) :
    printer (reportCopies s i k) x = if x = p then (printer s p).consume (job s i) k else printer s x := by
  have kept := fun y => (frame_commit s i k).printer y (by decide)
  rw [reportCopies_of_pos hp hk, printer_printerEvent, kept, kept]

/-- The callouts move as in the event that consumes, the accounts committed before it having no part in it. -/
theorem callouts_reportCopies (hp : (job s i).printer = some p) {k : Nat} (hk : k ≠ 0) :
    (reportCopies s i k).callouts = (printerEvent s p fun r => r.consume (job s i) k).callouts := by
  rw [reportCopies_of_pos hp hk]
  exact ((SameCallouts.of_frame (frame_commit s i k) (by decide)).printerEvent p _).callouts

/-- One supply of a printer that has copies consumed from it (R119, R120). -/
theorem supply_consume {r : Printer} (j : Job) (k : Nat) {ch : Channel} {x : Supply} (h : r.supply ch = some x) :
    ∃ y, (r.consume j k).supply ch = some y ∧ y.level = x.level - copyToner j ch * k
      ∧ y.accumulator = min 4294967295 (x.accumulator + copyToner j ch * k)
      ∧ y.model = x.model ∧ y.usage = x.usage ∧ y.forecast = x.forecast ∧ y.low = x.low
      ∧ y.reorder = if 0 < x.level ∧ y.level = 0 ∧ x.reorder = .none then .due else x.reorder := by
  refine ⟨x.consume (copyToner j ch * k), ?_, rfl, ?_, rfl, rfl, rfl, rfl, rfl⟩
  · rw [consume_eq, supply_mapSupplies, h]
    rfl
  · show (if 4294967295 < _ then 4294967295 else x.accumulator + copyToner j ch * k) = _
    split <;> omega

theorem consume_derived (r : Printer) (j : Job) (k : Nat) : (r.consume j k).derived = r.derived := rfl

end

/-- What any number of copies leaves of the printers. -/
theorem printer_reportCopies_any {s : State} {i p : Nat} (hp : (job s i).printer = some p) (k : Nat) :
    (∀ x, x ≠ p → printer (reportCopies s i k) x = printer s x)
    ∧ (printer (reportCopies s i k) p).queueCount = (printer s p).queueCount
    ∧ ∀ ch x, (printer s p).supply ch = some x →
        ∃ y, (printer (reportCopies s i k) p).supply ch = some y ∧ y.level = x.level - copyToner (job s i) ch * k := by
  by_cases hk : k = 0
  · subst hk
    exact ⟨fun _ _ => rfl, rfl, fun ch x hx => ⟨x, hx, by rw [Nat.mul_zero, Nat.sub_zero]⟩⟩
  · have record := printer_reportCopies hp hk
    have self := (record p).trans (if_pos rfl)
    rw [self]
    refine ⟨fun x hx => (record x).trans (if_neg hx), rfl, fun ch x hx => ?_⟩
    obtain ⟨y, hy, hlevel, -⟩ := supply_consume (job s i) k hx
    exact ⟨y, hy, hlevel⟩

theorem exec_reportProgress (len h n : BitVec 16) (s : State) :
    exec (.reportProgress len h n) s = request 0x37 (len == 4) true (reportProgressRule h.toNat n.toNat) s := rfl

/-- Settles O31: the copies added are committed, and consumed in one event on the printer. -/
theorem reportProgressCommitsCopies : Obligations.ReportProgressCommitsCopies := by
  unfold Obligations.ReportProgressCommitsCopies
  intro s h n i p hr hres hst hp j k
  have rule := reportProgressRule_of_reportable hres n.toNat ((reportable_iff _).2 hst)
  have frame := frame_reportCopies_still s i k
  rw [exec_reportProgress]
  refine request_answers hr rfl rfl rule (frame.same .response (by decide)) ⟨fun hk => ?_, fun hk => ?_⟩
  · rw [show min n.toNat (job s i).copies - (job s i).copiesDone = 0 from hk]
    exact (Frame.refl [] s).answered
  · have hne : k ≠ 0 := Nat.pos_iff_ne_zero.1 hk
    have record := printer_reportCopies hp hne
    have self : printer (reportCopies s i k) p = (printer s p).consume j k := (record p).trans (if_pos rfl)
    have queue : (printer (reportCopies s i k) p).queueCount = (printer s p).queueCount := by
      rw [self]
      rfl
    have derived : (printer (reportCopies s i k) p).derived = (printer s p).derived := by
      rw [self, consume_derived]
    refine ⟨job_reportCopies s i k, by omega, fun x hx => slot_reportCopies_ne s k hx,
      (accounts_reportCopies s i k).trans (if_neg hne), queue, derived, fun ch x hx => ?_,
      fun x hx => (record x).trans (if_neg hx), ?_, frame.answered⟩
    · obtain ⟨y, hy, rest⟩ := supply_consume j k hx
      exact ⟨y, (congrArg (Printer.supply · ch) self).trans hy, rest⟩
    · exact (callouts_reportCopies hp hne).trans (congrArg State.callouts (printerEvent_of_record s p _ self).symm)

/-! ## COMPLETE -/

/-- The job a COMPLETE leaves (R106). -/
def completedJob (j : Job) : Job :=
  { j with state := .done, outcome := some .complete, resumeDeadline := none, copiesDone := j.copies }

section
variable {s : State} {i p : Nat} (hp : (job s i).printer = some p) (hle : (job s i).copiesDone ≤ (job s i).copies)
include hp hle

theorem completeJob_eq :
    completeJob s i =
      putJob (lowerQueue (reportCopies s i ((job s i).copies - (job s i).copiesDone)) (some p)) i (completedJob (job s i)) := by
  have written := job_reportCopies s i ((job s i).copies - (job s i).copiesDone)
  rw [Nat.add_sub_cancel' hle] at written
  unfold completeJob
  dsimp only
  rw [hp, (frame_lowerQueue _ _).job i (by decide), written]
  rfl

theorem printer_completeJob (x : Nat) :
    printer (completeJob s i) x =
      let record := printer (reportCopies s i ((job s i).copies - (job s i).copiesDone)) x
      if x = p then { record with queueCount := record.queueCount - 1 } else record := by
  rw [completeJob_eq hp hle, (frame_putJob _ i _).printer x (by decide), printer_lowerQueue]
  by_cases hx : x = p
  · rw [hx]
  · rw [if_neg hx, if_neg hx]

theorem finished_completeJob (hst : (job s i).state = .printing ∨ (job s i).state = .interrupted) :
    (completeJob s i).finished = s.finished + 1 := by
  have reported := frame_reportCopies_still s i ((job s i).copies - (job s i).copiesDone)
  have lowered := frame_lowerQueue (reportCopies s i ((job s i).copies - (job s i).copiesDone)) (some p)
  rw [completeJob_eq hp hle, finished_putJob_ended rfl, lowered.same .finished (by decide)]
  · exact congrArg (· + 1) (reported.same .finished (by decide))
  · rw [lowered.job i (by decide), job_reportCopies]
    obtain hst | hst := hst <;> rw [hst] <;> rfl

/-- The record of the printer before its queue count falls is the one the consumption leaves. -/
theorem callouts_completeJob :
    (completeJob s i).callouts =
      (printerEvent s p fun r => { printer (completeJob s i) p with queueCount := r.queueCount }).callouts := by
  have kept : (completeJob s i).callouts = (reportCopies s i ((job s i).copies - (job s i).copiesDone)).callouts := by
    rw [completeJob_eq hp hle]
    rfl
  have record := printer_completeJob hp hle p
  dsimp only at record
  rw [if_pos rfl] at record
  rw [kept, record]
  by_cases hk : (job s i).copies - (job s i).copiesDone = 0
  · rw [hk]
    exact (callouts_printerEvent_of_same rfl).symm
  · have self := (printer_reportCopies hp hk p).trans (if_pos rfl)
    rw [callouts_reportCopies hp hk, self]
    exact congrArg State.callouts (printerEvent_congr rfl)

end

/-- Settles O32: the copies left are reported, then the queue count falls and the job is DONE. -/
theorem completeFinishesTheJob : Obligations.CompleteFinishesTheJob := by
  unfold Obligations.CompleteFinishesTheJob
  intro s h i p hr hres hst hp hle j k
  have rule := jobEndRule_of_reportable hres completeJob ((reportable_iff _).2 hst)
  have reported := frame_reportCopies_still s i k
  have lowered := reported.comp (w := [.accounts, .jobs, .printers, .callouts]) (frame_lowerQueue _ (some p)) (by decide)
  have frame : Frame [.accounts, .jobs, .finished, .printers, .callouts] s (completeJob s i) := by
    rw [completeJob_eq hp hle]
    exact lowered.comp (frame_putJob _ i _) (by decide)
  have record := printer_completeJob hp hle
  obtain ⟨others, queue, supplies⟩ := printer_reportCopies_any hp k
  rw [exec_reportJobEndComplete_of_known (.inl rfl)]
  refine request_answers hr rfl rfl rule (frame.same .response (by decide)) ⟨?_, fun x hx => ?_, ?_, ?_, fun ch x hx => ?_,
    fun x hx => ?_, callouts_completeJob hp hle, finished_completeJob hp hle hst, frame.answered⟩
  · rw [job_answered, completeJob_eq hp hle, job_putJob, if_pos rfl]
    rfl
  · rw [slot_answered, completeJob_eq hp hle, slot_putJob, if_neg hx, (frame_lowerQueue _ _).slot x (by decide),
      slot_reportCopies_ne s _ hx]
  · have paid : (completeJob s i).accounts = (reportCopies s i k).accounts := by
      rw [completeJob_eq hp hle]
      exact (frame_lowerQueue (reportCopies s i k) (some p)).same .accounts (by decide)
    exact paid.trans (accounts_reportCopies s i k)
  · rw [printer_answered, record]
    dsimp only
    rw [if_pos rfl, queue]
  · obtain ⟨y, hy, hlevel⟩ := supplies ch x hx
    refine ⟨y, ?_, hlevel⟩
    rw [printer_answered, record]
    dsimp only
    rw [if_pos rfl]
    exact hy
  · rw [printer_answered, record]
    dsimp only
    rw [if_neg hx, others x hx]

end Sys2Proof.Machine
end

