-- ==== Sys2Proof/Proofs/ReleaseDecisions.lean ====
section
/-! PROOFS. The release decision (R44 to R48): what an attempt does, whichever of the charged accounts were touched before it,
and which attempt decides. -/

namespace Sys2Proof.Machine

/-! ## Touches before an attempt -/

/-- The accounts a release of a job of account `a` charges (R23). -/
def Charged (s : State) (a x : Nat) : Prop := x = a ∨ (account s a).department = some x

/-- `u` is `s` with some of the charged accounts touched. -/
structure Touching (s : State) (a : Nat) (u : State) : Prop where
  only     : OnlyAccounts s u
  accounts : ∀ x, account u x = account s x ∨ (Charged s a x ∧ account u x = account (touch s x) x)

namespace Touching

variable {s u : State} {a : Nat}

theorem refl (s : State) (a : Nat) : Touching s a s := ⟨.refl s, fun _ => .inl rfl⟩

theorem touch_self (h : Touching s a u) (x : Nat) : account (touch u x) x = account (touch s x) x := by
  obtain hx | ⟨-, hx⟩ := h.accounts x
  · exact account_touch_congr hx h.only.tenantRec
  · have tenants : ∀ y, tenantRec u y = tenantRec (touch s x) y := fun y => by
      rw [h.only.tenantRec, (onlyAccounts_touch s x).tenantRec]
    rw [account_touch_congr hx tenants, account_touch_touch]

theorem touch (h : Touching s a u) {x : Nat} (hx : Charged s a x) : Touching s a (touch u x) := by
  refine ⟨h.only.trans (onlyAccounts_touch u x), fun y => ?_⟩
  by_cases hy : y = x
  · subst hy
    exact .inr ⟨hx, h.touch_self y⟩
  · rw [account_touch_ne u hy]
    exact h.accounts y

theorem both (h : Touching s a u) : Touching s a (touchOpt (Machine.touch u a) (account s a).department) := by
  have owner := h.touch (.inl rfl)
  cases hdept : (account s a).department with
  | none => exact owner
  | some d => exact owner.touch (.inr hdept)

/-- A touch keeps all that a decision reads of an account beside used and warned. -/
theorem keeps (h : Touching s a u) (x : Nat) :
    (account u x).tenant = (account s x).tenant ∧ (account u x).department = (account s x).department
    ∧ (account u x).reserved = (account s x).reserved := by
  obtain hx | ⟨-, hx⟩ := h.accounts x
  · rw [hx]
    exact ⟨rfl, rfl, rfl⟩
  · obtain ⟨-, -, htenant, -, hdept, -, hreserved⟩ := account_touch_keeps s x x
    rw [hx]
    exact ⟨htenant, hdept, hreserved⟩

/-- Both charged accounts touched, from whichever state of touches. -/
theorem account_both (h : Touching s a u) {x : Nat} (hx : Charged s a x) :
    account (touchOpt (Machine.touch u a) (account s a).department) x = account (Machine.touch s x) x := by
  exact (account_touchOpt_touch u a _ x).trans ((if_pos hx).trans (h.touch_self x))

theorem account_of_uncharged (h : Touching s a u) {x : Nat} (hx : ¬ Charged s a x) : account u x = account s x := by
  obtain h | ⟨hc, -⟩ := h.accounts x
  · exact h
  · exact absurd hc hx

end Touching

/-! ## What an attempt is decided by -/

section
variable (s : State) (a i q : Nat) (mono : Bool)

/-- The price of one copy (R20, R45). -/
def price : Nat := perCopy (tenantRec s (account s a).tenant) (job s i) mono

/-- The amount an attempt has to reserve (R21). -/
def priceDue : Nat := price s a i mono * ((job s i).copies - (job s i).copiesDone)

/-- What the Router gives an attempt (R45). -/
def routeGiven : Option Nat := route s q (if mono ∨ (job s i).sidesColour = 0 then .mono else .colour)

/-- The amount fits within the limits of owner and department (R22). -/
def FitsLimits : Prop :=
  ∀ x l, Charged s a x → (account (touchOpt (touch s a) (account s a).department) x).limit = some l →
    (account (touchOpt (touch s a) (account s a).department) x).used
      + (account (touchOpt (touch s a) (account s a).department) x).reserved + priceDue s a i mono ≤ l

/-- The attempt releases the job (R45). -/
def Succeeds : Prop :=
  routeGiven s i q mono ≠ none ∧ price s a i mono * (job s i).copies ≤ 1000000000 ∧ FitsLimits s a i mono

/-- The attempt fails with a result (R45). -/
def Fails (f : PickResult) : Prop :=
  f = .noPrinter ∧ routeGiven s i q mono = none
  ∨ f = .tooLarge ∧ routeGiven s i q mono ≠ none ∧ 1000000000 < price s a i mono * (job s i).copies
  ∨ f = .overQuota ∧ routeGiven s i q mono ≠ none ∧ price s a i mono * (job s i).copies ≤ 1000000000
    ∧ ¬ FitsLimits s a i mono

/-- The amount due newly takes the account to its warning level (R24). -/
def Crosses (x : Nat) : Prop :=
  (account (touchOpt (touch s a) (account s a).department) x).warned = false
  ∧ ∃ l, (account (touchOpt (touch s a) (account s a).department) x).limit = some l
    ∧ 0 < (tenantRec s (account s x).tenant).warnPermille
    ∧ l * (tenantRec s (account s x).tenant).warnPermille
        ≤ ((account (touchOpt (touch s a) (account s a).department) x).used
          + (account (touchOpt (touch s a) (account s a).department) x).reserved + priceDue s a i mono) * 1000

/-- What a decision that releases leaves (R24, R46). -/
def Releases (t : State) (warning : Bool) : Prop :=
  ∃ p, routeGiven s i q mono = some p
    ∧ job t i =
        { job s i with
          state := .released, releasePool := some q, printer := some p, perCopyApplied := some (price s a i mono)
          chargedDept := (account s a).department, forcedMono := mono, releaseSeq := s.releaseCounter }
    ∧ t.dispatch = s.dispatch ++ [handleOf s i]
    ∧ t.releaseCounter = (s.releaseCounter + 1) % 4294967296
    ∧ (printer t p).queueCount = (printer s p).queueCount + 1
    ∧ (∀ x, x ≠ p → printer t x = printer s x)
    ∧ (∀ x, Charged s a x → (account t x).reserved = (account s x).reserved + priceDue s a i mono
        ∧ ((account t x).warned = true ↔
            (account (touchOpt (touch s a) (account s a).department) x).warned = true ∨ Crosses s a i mono x))
    ∧ (∀ x, ¬ Charged s a x → account t x = account s x)
    ∧ (warning = true ↔ ∃ x, Charged s a x ∧ Crosses s a i mono x)

variable {s a i q mono}

theorem Fails.not_succeeds {f : PickResult} (h : Fails s a i q mono f) : ¬ Succeeds s a i q mono := by
  rintro ⟨hroute, hceiling, hfits⟩
  obtain ⟨-, hnone⟩ | ⟨-, -, hlarge⟩ | ⟨-, -, -, hover⟩ := h
  · exact hroute hnone
  · exact absurd hceiling (Nat.not_le.2 hlarge)
  · exact hover hfits

theorem Fails.unique {f g : PickResult} (hf : Fails s a i q mono f) (hg : Fails s a i q mono g) : f = g := by
  obtain ⟨rfl, h⟩ | ⟨rfl, h, hl⟩ | ⟨rfl, h, hl, -⟩ := hf <;> obtain ⟨rfl, k⟩ | ⟨rfl, k, kl⟩ | ⟨rfl, k, kl, -⟩ := hg
  · rfl
  · exact absurd h k
  · exact absurd h k
  · exact absurd k h
  · rfl
  · omega
  · exact absurd k h
  · omega
  · rfl

end

/-! ## One attempt -/

section
variable {s u : State} {a i : Nat} (hu : Touching s a u)
include hu

theorem price_of_touching (mono : Bool) :
    perCopy (tenantRec (touch u a) (account (touch u a) a).tenant) (job u i) mono = price s a i mono := by
  have owner := hu.touch (x := a) (.inl rfl)
  rw [owner.only.tenantRec, (owner.keeps a).1, hu.only.job]
  rfl

theorem charged_iff (x : Nat) : (x = a ∨ (account u a).department = some x) ↔ Charged s a x := by
  rw [(hu.keeps a).2.1]
  exact Iff.rfl

/-- The warning test of an account charged by the Reserve of an attempt (R24). -/
theorem reaches_iff_crosses (mono : Bool) {x : Nat} (hx : Charged s a x) :
    (chargedRecord u x (priceDue s a i mono)).reaches (tenantRec u (account u x).tenant).warnPermille = true ↔
      Crosses s a i mono x := by
  have record : account (touch u x) x = account (touchOpt (touch s a) (account s a).department) x := by
    rw [(Touching.refl s a).account_both hx, hu.touch_self]
  rw [Account.reaches_iff, hu.only.tenantRec, (hu.keeps x).1]
  unfold chargedRecord Crosses
  dsimp only
  rw [record]
  constructor
  · rintro ⟨l, hl, hw, hle, hwarned⟩
    exact ⟨hwarned, l, hl, hw, by rwa [Nat.add_assoc]⟩
  · rintro ⟨hwarned, l, hl, hw, hle⟩
    exact ⟨l, hl, hw, by rwa [Nat.add_assoc] at hle, hwarned⟩

variable (ho : (job s i).owner = a)
include ho

theorem owner_of_touching : (job u i).owner = a := by rw [hu.only.job, ho]

theorem reserve_ok_iff (pc due : Nat) (mono : Bool) :
    (reserve u i pc due mono).ok = true ↔
      ∀ x l, Charged s a x → (account (touchOpt (touch s a) (account s a).department) x).limit = some l →
        (account (touchOpt (touch s a) (account s a).department) x).used
          + (account (touchOpt (touch s a) (account s a).department) x).reserved + due ≤ l := by
  have record : ∀ x, Charged s a x → account (touchOpt (touch u a) (account s a).department) x =
      account (touchOpt (touch s a) (account s a).department) x := fun x hx => by
    rw [hu.account_both hx, (Touching.refl s a).account_both hx]
  have eq := reserve_eq u i pc due mono
  dsimp only at eq
  have passed : ∀ {c : Prop} [Decidable c] {x y : Reserved}, x.ok = true → y.ok = false → ((if c then x else y).ok = true ↔ c) := by
    intro c _ x y hx hy
    split
    · exact ⟨fun _ => ‹_›, fun _ => hx⟩
    · exact ⟨fun h => absurd (hy.symm.trans h) Bool.false_ne_true, fun h => absurd h ‹_›⟩
  rw [eq, passed rfl rfl, owner_of_touching hu ho, reserveTouched_eq, (hu.keeps a).2.1, record a (.inl rfl)]
  have fitting : (accountFits (account (touchOpt (touch s a) (account s a).department) a) due = true
      ∧ ∀ x, (account s a).department = some x →
        accountFits (account (touchOpt (touch u a) (account s a).department) x) due = true) ↔
      ∀ x, Charged s a x → accountFits (account (touchOpt (touch s a) (account s a).department) x) due = true := by
    constructor
    · rintro ⟨howner, hdept⟩ x (rfl | hx)
      · exact howner
      · rw [← record x (.inr hx)]
        exact hdept x hx
    · exact fun h => ⟨h a (.inl rfl), fun x hx => by rw [record x (.inr hx)]; exact h x (.inr hx)⟩
  rw [fitting]
  exact forall_congr' fun x => by rw [accountFits_iff, forall_comm]

/-- An attempt that releases, from whichever state of touches. -/
theorem releases_of_ok (hd : ∀ x, (account s a).department = some x → x ≠ a) {q p : Nat} {mono : Bool}
    (hmono : mono = true → 0 < (job s i).sidesColour) (hroute : routeGiven s i q mono = some p)
    (hok : (reserve u i (price s a i mono) (priceDue s a i mono) mono).ok = true) :
    Releases s a i q mono (releaseJob (reserve u i (price s a i mono) (priceDue s a i mono) mono).state i q p)
      (reserve u i (price s a i mono) (priceDue s a i mono) mono).warning := by
  have hdu : ∀ x, (account u (job u i).owner).department = some x → x ≠ (job u i).owner := by
    rw [owner_of_touching hu ho, (hu.keeps a).2.1]
    exact hd
  have reserved := job_reserve_of_ok hok
  have accounts := account_reserve_of_ok hdu hok
  have warning := reserve_warning_of_ok hdu hok
  have books : Frame Field.books u (reserve u i (price s a i mono) (priceDue s a i mono) mono).state := onlyBooks_reserve ..
  have only : Frame [.accounts] s u := hu.only
  have frame := only.comp (w := Field.books) books (by decide)
  have generations := (wroteJob_reserve hok).generation
  rw [owner_of_touching hu ho] at accounts warning
  simp only [charged_iff hu] at warning
  generalize reserve u i (price s a i mono) (priceDue s a i mono) mono = r at *
  have handle : handleOf r.state i = handleOf s i := by
    rw [handleOf, generations i, handleOf, only.slot i (by decide)]
  have printers : ∀ x, printer (releaseJob r.state i q p) x =
      if x = p then { printer s p with queueCount := (printer s p).queueCount + 1 } else printer s x := fun x => by
    have same := fun y => frame.printer y (by decide)
    rw [← same, ← same]
    exact printer_raiseQueue _ p x
  refine ⟨p, hroute, ?_, ?_, ?_, ?_, fun x hx => ?_, fun x hx => ?_, fun x hx => ?_, ?_⟩
  · have written : job (releaseJob r.state i q p) i = { job r.state i with
        state := .released, releasePool := some q, printer := some p, releaseSeq := r.state.releaseCounter } :=
      (job_putJob r.state i i _).trans (if_pos rfl)
    have counter : r.state.releaseCounter = s.releaseCounter := frame.same .releaseCounter (by decide)
    have forced : (mono && decide (0 < (job s i).sidesColour)) = mono := by
      cases mono with
      | false => rfl
      | true => rw [decide_eq_true (hmono rfl)]; rfl
    rw [written, reserved, if_pos rfl, counter, hu.only.job, ho, (hu.keeps a).2.1, forced]
  · show r.state.dispatch ++ [handleOf r.state i] = _
    rw [handle, show r.state.dispatch = s.dispatch from frame.same .dispatch (by decide)]
  · show (r.state.releaseCounter + 1) % 4294967296 = _
    rw [show r.state.releaseCounter = s.releaseCounter from frame.same .releaseCounter (by decide)]
  · rw [printers, if_pos rfl]
  · rw [printers, if_neg hx]
  · have moved : account (releaseJob r.state i q p) x = _ := (accounts x).trans (if_pos ((charged_iff hu x).2 hx))
    have record : account (touch u x) x = account (touchOpt (touch s a) (account s a).department) x := by
      rw [(Touching.refl s a).account_both hx, hu.touch_self]
    rw [moved]
    refine ⟨?_, ?_⟩
    · show (account (touch u x) x).reserved + _ = _
      rw [((hu.touch hx).keeps x).2.2]
    · rw [← reaches_iff_crosses hu mono hx, ← record]
      show ((account (touch u x) x).warned || _) = true ↔ _
      rw [Bool.or_eq_true]
  · have kept : account (releaseJob r.state i q p) x = _ := (accounts x).trans (if_neg (fun h => hx ((charged_iff hu x).1 h)))
    rw [kept, hu.account_of_uncharged hx]
  · rw [warning]
    exact exists_congr fun x => and_congr_right fun hx => reaches_iff_crosses hu mono hx

end

section
variable {s u : State} {a i q : Nat} (hu : Touching s a u) (ho : (job s i).owner = a)
  (hd : ∀ x, (account s a).department = some x → x ≠ a) {mono : Bool}
include hu ho hd

/-- An attempt succeeds or fails as R45 has it, and one that fails leaves touches alone. -/
theorem attempt_decides (hmono : mono = true → 0 < (job s i).sidesColour) :
    let o := attempt u i q (if mono ∨ (job s i).sidesColour = 0 then .mono else .colour) mono
    (o.failure = none ∧ Succeeds s a i q mono ∧ Releases s a i q mono o.state o.warning)
    ∨ ∃ f, o.failure = some f ∧ Fails s a i q mono f ∧ Touching s a o.state := by
  have routed : route u q (if mono ∨ (job s i).sidesColour = 0 then .mono else .colour) = routeGiven s i q mono := by
    have only : u = { s with accounts := u.accounts } := hu.only
    rw [only]
    rfl
  have due : amountDue (price s a i mono) (job u i) = priceDue s a i mono := by
    rw [amountDue, hu.only.job]
    rfl
  have ceiling : underCeiling (price s a i mono) (job u i) = decide (price s a i mono * (job s i).copies ≤ 1000000000) := by
    rw [underCeiling, hu.only.job]
  have touched := hu.touch (x := a) (.inl rfl)
  have fits := reserve_ok_iff touched ho (price s a i mono) (priceDue s a i mono) mono
  have cases := attempt_cases u i q (if mono ∨ (job s i).sidesColour = 0 then .mono else .colour) mono
  dsimp only at cases ⊢
  rw [owner_of_touching hu ho, price_of_touching hu mono, routed, due, ceiling] at cases
  generalize attempt u i q (if mono ∨ (job s i).sidesColour = 0 then .mono else .colour) mono = o at *
  obtain ⟨hnone, hf, hstate⟩ | ⟨p, hp, hc, hf, hstate⟩ | ⟨p, hp, hc, hok, hf, hstate⟩ | ⟨p, hp, hc, hok, hf, hstate, hw⟩ := cases
  · exact .inr ⟨_, hf, .inl ⟨rfl, hnone⟩, hstate ▸ hu⟩
  · refine .inr ⟨_, hf, .inr (.inl ⟨rfl, by rw [hp]; exact nofun, ?_⟩), hstate ▸ hu⟩
    exact Nat.not_le.1 (of_decide_eq_false hc)
  · refine .inr ⟨_, hf, .inr (.inr ⟨rfl, by rw [hp]; exact nofun, of_decide_eq_true hc, fun h => ?_⟩), ?_⟩
    · rw [fits.2 h] at hok
      cases hok
    · rw [hstate, reserve_of_unfit hok, owner_of_touching touched ho, (touched.keeps a).2.1]
      exact touched.both
  · refine .inl ⟨hf, ⟨by rw [hp]; exact nofun, of_decide_eq_true hc, fits.1 hok⟩, ?_⟩
    rw [hstate, hw]
    exact releases_of_ok touched ho hd hmono hp hok

end

/-! ## The decision -/

/-- The mono fallback of R47. -/
def MonoFallback (s : State) (a i : Nat) : Prop :=
  0 < (job s i).sidesColour ∧ (tenantRec s (account s a).tenant).policy = .monoFallback

theorem fallbackAllowed_iff {s u : State} {a i : Nat} (hu : Touching s a u) (ho : (job s i).owner = a) :
    fallbackAllowed u (job s i) = true ↔ MonoFallback s a i := by
  rw [fallbackAllowed, Bool.and_eq_true, decide_eq_true_eq, beq_iff_eq, ho, hu.only.tenantRec, (hu.keeps a).1]
  exact Iff.rfl

/-- What decides, and what it leaves: the first attempt, or the mono fallback where R47 allows it. -/
theorem decideSlot_decides {s : State} {a i : Nat} (q : Nat) (ho : (job s i).owner = a)
    (hd : ∀ x, (account s a).department = some x → x ≠ a) :
    let d := decideSlot s i q
    (d.result = .released ∧ Succeeds s a i q false ∧ Releases s a i q false d.state d.warning)
    ∨ (d.result = .releasedMono ∧ ¬ Succeeds s a i q false ∧ MonoFallback s a i ∧ Succeeds s a i q true
        ∧ Releases s a i q true d.state d.warning)
    ∨ (Fails s a i q false d.result ∧ ¬ MonoFallback s a i ∧ Touching s a d.state ∧ d.warning = false)
    ∨ (Fails s a i q true d.result ∧ ¬ Succeeds s a i q false ∧ MonoFallback s a i ∧ Touching s a d.state
        ∧ d.warning = false) := by
  have first := attempt_decides (q := q) (mono := false) (Touching.refl s a) ho hd nofun
  have need : (if 0 < (job s i).sidesColour then Need.colour else .mono) =
      if false = true ∨ (job s i).sidesColour = 0 then .mono else .colour := by
    by_cases h : (job s i).sidesColour = 0 <;> simp [h, Nat.pos_iff_ne_zero]
  have same : firstAttempt s i q = attempt s i q (if false = true ∨ (job s i).sidesColour = 0 then .mono else .colour) false := by
    rw [firstAttempt, need]
  dsimp only at first ⊢
  rw [← same] at first
  obtain ⟨hf, hd'⟩ | ⟨f, hf, hallowed, hd'⟩ | ⟨f, hf, hallowed, hg, hd'⟩ | ⟨f, g, hf, hallowed, hg, hd'⟩ := decideSlot_cases s i q
  · obtain ⟨-, hs, hrel⟩ | ⟨f, hf', -⟩ := first
    · rw [hd']
      exact .inl ⟨rfl, hs, hrel⟩
    · cases hf.symm.trans hf'
  all_goals
    obtain ⟨hnone, -⟩ | ⟨f', hf', hfails, touching⟩ := first
    · cases hnone.symm.trans hf
    cases hf.symm.trans hf'
  · rw [hd']
    refine .inr (.inr (.inl ⟨hfails, fun h => ?_, touching, rfl⟩))
    rw [(fallbackAllowed_iff touching ho).2 h] at hallowed
    cases hallowed
  all_goals
    have fallback := (fallbackAllowed_iff touching ho).1 hallowed
    have second := attempt_decides (q := q) (mono := true) touching ho hd fun _ => fallback.1
    rw [if_pos (.inl rfl)] at second
    dsimp only at second
    rw [hd']
  · obtain ⟨-, hs, hrel⟩ | ⟨g, hg', -⟩ := second
    · exact .inr (.inl ⟨rfl, hfails.not_succeeds, fallback, hs, hrel⟩)
    · cases hg.symm.trans hg'
  · obtain ⟨hnone, -⟩ | ⟨g', hg', hfails', touching'⟩ := second
    · cases hnone.symm.trans hg
    · cases hg.symm.trans hg'
      exact .inr (.inr (.inr ⟨hfails', hfails.not_succeeds, fallback, touching', rfl⟩))

theorem decideRelease_of_listed {s : State} {h a q i : Nat} (hres : resolve s h = some i) (hl : listed (job s i) a q = true) :
    decideRelease s h a q = decideSlot s i q := by
  rw [decideRelease, hres]
  exact if_pos hl

theorem decideRelease_gone {s : State} {h a q : Nat}
    (hno : ∀ i, resolve s h = some i → ¬ ((job s i).state = .held ∧ (job s i).owner = a
      ∧ ((job s i).pool = none ∨ (job s i).pool = some q))) :
    decideRelease s h a q = { state := s, result := .gone, warning := false } := by
  unfold decideRelease
  split
  · rfl
  · rename_i i hres
    exact if_neg fun hl => hno i hres ((listed_iff _ a q).1 hl)

/-- A failure is none of the two results of a release. -/
theorem Fails.result {s : State} {a i q : Nat} {mono : Bool} {f : PickResult} (h : Fails s a i q mono f) :
    f ≠ .released ∧ f ≠ .releasedMono ∧ f ≠ .gone := by
  obtain ⟨rfl, -⟩ | ⟨rfl, -⟩ | ⟨rfl, -⟩ := h <;> exact ⟨nofun, nofun, nofun⟩

/-- Settles O29: the deciding attempt is the first or the fallback, and each gives the result R45 has for it. -/
theorem releaseDecision : Obligations.ReleaseDecision := by
  unfold Obligations.ReleaseDecision
  intro s h a q hd d
  refine ⟨fun hno => ?_, fun i hres hst ho hpool => ?_⟩
  · have gone : d = _ := decideRelease_gone hno
    rw [gone]
    exact ⟨rfl, rfl, rfl⟩
  · have slot : d = decideSlot s i q := decideRelease_of_listed hres ((listed_iff _ a q).2 ⟨hst, ho, hpool⟩)
    have decides := decideSlot_decides q ho (hd a)
    dsimp only at decides
    rw [← slot] at decides
    clear_value d
    have unmoved : Touching s a d.state → d.warning = false →
        d.state = { s with accounts := d.state.accounts } ∧ (∀ x, (account d.state x).reserved = (account s x).reserved)
        ∧ d.warning = false := fun ht hw => ⟨ht.only, fun x => (ht.keeps x).2.2, hw⟩
    have failure : ∀ {f : PickResult}, f = .noPrinter ∨ f = .tooLarge ∨ f = .overQuota → f ≠ .released ∧ f ≠ .releasedMono := by
      rintro f (rfl | rfl | rfl) <;> exact ⟨nofun, nofun⟩
    intro charged touched price due given fits succeeds fails fallback mono crosses
    have release : ∀ {m}, (d.result == .releasedMono) = m → Releases s a i q m d.state d.warning →
        Releases s a i q mono d.state d.warning := fun hm h => by
      rw [show mono = _ from hm]
      exact h
    obtain ⟨hresult, hs, hrel⟩ | ⟨hresult, hnot, hfall, hs, hrel⟩ | ⟨hfails, hfall, ht, hw⟩ | ⟨hfails, hnot, hfall, ht, hw⟩ := decides
    · refine ⟨⟨fun _ => hs, fun _ => hresult⟩, ⟨fun h => ?_, fun h => absurd hs h.1⟩, fun f hf => ⟨fun h => ?_, ?_⟩, fun _ => ?_,
        fun h => ?_, ?_⟩
      · cases hresult.symm.trans h
      · exact absurd (h.symm.trans hresult) (failure hf).1
      · rintro (⟨-, hfails⟩ | ⟨-, hnot, -⟩)
        · exact absurd hs (Fails.not_succeeds hfails)
        · exact absurd hs hnot
      · exact release (by rw [hresult]; rfl) hrel
      · exact absurd hresult (failure h).1
      · rw [hresult]
        exact nofun
    · refine ⟨⟨fun h => ?_, fun h => absurd h hnot⟩, ⟨fun _ => ⟨hnot, hfall, hs⟩, fun _ => hresult⟩, fun f hf => ⟨fun h => ?_, ?_⟩,
        fun _ => ?_, fun h => ?_, ?_⟩
      · cases hresult.symm.trans h
      · exact absurd (h.symm.trans hresult) (failure hf).2
      · rintro (⟨hno, -⟩ | ⟨-, -, hfails⟩)
        · exact absurd hfall hno
        · exact absurd hs (Fails.not_succeeds hfails)
      · exact release (by rw [hresult]; rfl) hrel
      · exact absurd hresult (failure h).2
      · rw [hresult]
        exact nofun
    · obtain ⟨hne, hneMono, hneGone⟩ := Fails.result hfails
      refine ⟨⟨fun h => absurd h hne, fun h => absurd h (Fails.not_succeeds hfails)⟩,
        ⟨fun h => absurd h hneMono, fun h => absurd h.2.1 hfall⟩, fun f hf => ⟨?_, ?_⟩, fun h => ?_, fun _ => unmoved ht hw, hneGone⟩
      · rintro rfl
        exact .inl ⟨hfall, hfails⟩
      · rintro (⟨-, hf'⟩ | ⟨hyes, -⟩)
        · exact Fails.unique hfails hf'
        · exact absurd hyes hfall
      · exact h.elim (absurd · hne) (absurd · hneMono)
    · obtain ⟨hne, hneMono, hneGone⟩ := Fails.result hfails
      refine ⟨⟨fun h => absurd h hne, fun h => absurd h hnot⟩,
        ⟨fun h => absurd h hneMono, fun h => absurd h.2.2 (Fails.not_succeeds hfails)⟩, fun f hf => ⟨?_, ?_⟩, fun h => ?_,
        fun _ => unmoved ht hw, hneGone⟩
      · rintro rfl
        exact .inr ⟨hfall, hnot, hfails⟩
      · rintro (⟨hno, -⟩ | ⟨-, -, hf'⟩)
        · exact absurd hfall hno
        · exact Fails.unique hfails hf'
      · exact h.elim (absurd · hne) (absurd · hneMono)

end Sys2Proof.Machine
end

