-- ==== Sys2Proof/Proofs/RollCalls.lean ====
section
/-! PROOFS. What starts a roll call and what a start leaves (R59, R63, R64). -/

namespace Sys2Proof.Machine

/-! ## The terminals of a loop -/

theorem terminalNo_div_of_lt (l : Nat) {a : Nat} (ha : a < 16) : terminalNo l a / 16 = l :=
  terminalNo_div l ⟨a, ha⟩

theorem terminalNo_addr_inj {l a b : Nat} (h : terminalNo l a = terminalNo l b) : a = b := by
  unfold terminalNo at h
  omega

theorem mem_addressesOf {s : State} {l a : Nat} {p : Terminal → Bool} :
    a ∈ addressesOf s l p ↔ a < 16 ∧ p (terminal s (terminalNo l a)) = true := by
  simp [addressesOf]

theorem addressesOf_sorted (s : State) (l : Nat) (p : Terminal → Bool) : (addressesOf s l p).Pairwise (· < ·) :=
  List.pairwise_lt_range.filter _

theorem inFlight_eq_false {s : State} {l : Nat} : inFlight s l = false ↔ (loopRec s l).phase = none := by
  simp [inFlight]

/-! ## A start -/

/-- In `t` loop `l` is in `mode` with a roll call just started over the addresses enrolled in `s`; the other loops and their
terminals stand. -/
def Called (s t : State) (l : Nat) (mode : LoopState) : Prop :=
  (loopRec t l).state = mode ∧ (loopRec t l).phase = some .rollCall ∧ (loopRec t l).lastStart ≠ none
  ∧ (∀ a, a ∈ (loopRec t l).turns ↔ a < 16 ∧ (terminal s (terminalNo l a)).enrolled = true)
  ∧ (loopRec t l).turns.Pairwise (· < ·)
  ∧ (∀ n, n / 16 ≠ l → terminal t n = terminal s n) ∧ (∀ x, x ≠ l → loopRec t x = loopRec s x)

/-- A start on a state that has the enrolments of `s`, and its loops and terminals but those of `l`. -/
theorem called_startRollCall {s u : State} {l : Nat} {mode : LoopState} (hmode : (loopRec u l).state = mode)
    (enrolled : ∀ n, (terminal u n).enrolled = (terminal s n).enrolled)
    (terminals : ∀ n, n / 16 ≠ l → terminal u n = terminal s n) (loops : ∀ x, x ≠ l → loopRec u x = loopRec s x) :
    Called s (startRollCall u l) l mode := by
  unfold Called
  rw [loopRec_startRollCall, if_pos rfl]
  refine ⟨hmode, rfl, Option.some_ne_none _, fun a => ?_, addressesOf_sorted u l _, fun n hn => ?_, fun x hx => ?_⟩
  · exact mem_addressesOf.trans (by rw [enrolled])
  · rw [terminal_startRollCall, if_neg hn, terminals n hn]
  · rw [loopRec_startRollCall, if_neg hx, loops x hx]

/-- The event left `t`, which differs from `s` by a roll call started on loop `l` alone. -/
def Started (s t : State) (l : Nat) (mode : LoopState) : Prop :=
  Settled t ∧ Called s t l mode
  ∧ (∀ a < 16, terminal t (terminalNo l a) = { terminal s (terminalNo l a) with answered := false, flagged := false })
  ∧ t = { signalled s t with loops := t.loops, terminals := t.terminals, draws := t.draws }

/-- An event whose effect starts a roll call on `l`, its record written before or not. -/
theorem event_starts {effect : State → State} {s u : State} {l : Nat} {mode : LoopState} (hr : running s = true)
    (heffect : effect s = startRollCall u l) (hu : Frame [.loops] s u) (hmode : (loopRec u l).state = mode)
    (loops : ∀ x, x ≠ l → loopRec u x = loopRec s x) : ∃ t, event effect s = .next t ∧ Started s t l mode := by
  have terminals : ∀ n, terminal u n = terminal s n := fun n => hu.terminal n (by decide)
  have written : Frame [.loops, .terminals, .draws] s (startRollCall u l) :=
    hu.comp (frame_startRollCall u l) (by decide)
  have called : Called s (startRollCall u l) l mode :=
    called_startRollCall hmode (fun n => by rw [terminals]) (fun n _ => terminals n) loops
  have cleared : ∀ a < 16, terminal (startRollCall u l) (terminalNo l a) =
      { terminal s (terminalNo l a) with answered := false, flagged := false } := fun a ha => by
    rw [terminal_startRollCall, if_pos (terminalNo_div_of_lt l ha), terminals]
  generalize startRollCall u l = t at *
  exact event_settles hr heffect ⟨called, cleared, written.settled⟩

theorem event_starts_as_is {effect : State → State} {s : State} {l : Nat} {mode : LoopState} (hr : running s = true)
    (heffect : effect s = startRollCall s l) (hmode : (loopRec s l).state = mode) :
    ∃ t, event effect s = .next t ∧ Started s t l mode :=
  event_starts hr heffect (Frame.refl _ s) hmode fun _ _ => rfl

theorem startIfIdle_of_idle {s : State} {l : Nat} (h : (loopRec s l).phase = none) :
    startIfIdle s l = startRollCall s l := by
  rw [startIfIdle, inFlight_eq_false.2 h]
  rfl

/-! ## The start causes -/

theorem exec_wake (l : Fin 4) (s : State) : exec (.wake l) s = event (fun s => wakeLoop s l.val) s := rfl

theorem exec_rollCallIntervalExpiry (l : Fin 4) (s : State) :
    exec (.rollCallIntervalExpiry l) s = event (fun s => rollCallInterval s l.val) s := rfl

theorem exec_presenceIntervalExpiry (l : Fin 4) (s : State) :
    exec (.presenceIntervalExpiry l) s = event (fun s => presenceInterval s l.val) s := rfl

theorem exec_rollCallClose (l : Fin 4) (s : State) :
    exec (.rollCallClose l) s = event (fun s => closeRollCall s l.val) s := rfl

section
variable {s : State} {l : Nat}

theorem wakeLoop_of_quiet (hq : (loopRec s l).state = .quiet) (hp : (loopRec s l).phase = none) :
    wakeLoop s l = startRollCall s l := by
  rw [wakeLoop, if_pos hq, startIfIdle_of_idle hp]

theorem wakeLoop_of_not (h : (loopRec s l).state ≠ .quiet ∨ (loopRec s l).phase ≠ none) : wakeLoop s l = s := by
  unfold wakeLoop startIfIdle
  obtain hq | hp := h
  · rw [if_neg hq]
  · rw [if_pos (show inFlight s l = true from Option.isSome_iff_ne_none.2 hp), ite_self]

theorem polled_eq_false (h : (loopRec s l).state = .off ∨ (loopRec s l).state = .fault) : polled s l = false := by
  obtain h | h := h <;> simp [polled, h]

theorem rollCallInterval_of_continuous (hc : (loopRec s l).state = .continuous) (hp : (loopRec s l).phase = none) :
    rollCallInterval s l = startRollCall s l := by
  simp [rollCallInterval, (polled_iff s l).2 (.inr hc), hc, inFlight_eq_false.2 hp]

theorem presenceInterval_of_quiet (hq : (loopRec s l).state = .quiet) (hp : (loopRec s l).phase = none) :
    presenceInterval s l = startRollCall s l := by
  simp [presenceInterval, (polled_iff s l).2 (.inl hq), hq, inFlight_eq_false.2 hp]

theorem rollCallInterval_of_stopped (h : (loopRec s l).state = .off ∨ (loopRec s l).state = .fault) :
    rollCallInterval s l = s := by
  rw [rollCallInterval, polled_eq_false h]
  rfl

theorem presenceInterval_of_stopped (h : (loopRec s l).state = .off ∨ (loopRec s l).state = .fault) :
    presenceInterval s l = s := by
  rw [presenceInterval, polled_eq_false h]
  rfl

/-! ### A display that becomes pending -/

theorem pend_of_quiet {n : Nat} (d : Display) (hl : n / 16 = l) (hq : (loopRec s l).state = .quiet)
    (hp : (loopRec s l).phase = none) :
    pend s n d = startRollCall (putTerminal s n { terminal s n with pending := some d }) l := by
  subst hl
  rw [← startIfIdle_of_idle (s := putTerminal s n { terminal s n with pending := some d }) hp]
  simp [pend, hq]

theorem called_pend {n : Nat} (d : Display) (hl : n / 16 = l) (hq : (loopRec s l).state = .quiet)
    (hp : (loopRec s l).phase = none) :
    Called s (pend s n d) l .quiet
    ∧ terminal (pend s n d) n = { terminal s n with pending := some d, answered := false, flagged := false } := by
  rw [pend_of_quiet d hl hq hp]
  refine ⟨called_startRollCall hq (fun x => ?_) (fun x hx => ?_) fun _ _ => rfl, ?_⟩
  · rw [terminal_putTerminal]
    split
    · subst_vars; rfl
    · rfl
  · rw [terminal_putTerminal, if_neg (by rintro rfl; exact hx hl)]
  · rw [terminal_startRollCall, if_pos hl, terminal_putTerminal, if_pos rfl]

/-! ### CLOSE -/

/-- A visit is open, a display pending or a message uncollected on loop `l` (R63). -/
def Busy (s : State) (l : Nat) : Prop :=
  ∃ a < 16, visit s (terminalNo l a) ≠ none ∨ (terminal s (terminalNo l a)).pending ≠ none
    ∨ (terminal s (terminalNo l a)).flagged = true

theorem busyLoop_iff : busyLoop s l = true ↔ Busy s l := by
  simp [busyLoop, Busy, Option.isSome_iff_ne_none, or_assoc]

theorem busyLoop_eq_false (h : ¬ Busy s l) : busyLoop s l = false := by
  rwa [← busyLoop_iff, Bool.not_eq_true] at h

/-- The loop record a CLOSE that ends the roll call leaves, in the mode chosen (R63). -/
def closedLoop (s : State) (l : Nat) (mode : LoopState) : State :=
  putLoop s l { loopRec s l with state := mode, phase := none, turns := [] }

theorem closeRollCall_of_busy (hp : (loopRec s l).phase = some .close) (h : Busy s l) :
    closeRollCall s l =
      if (loopRec s l).rollDue = true then startRollCall (closedLoop s l .continuous) l else closedLoop s l .continuous := by
  unfold closeRollCall
  dsimp only
  rw [if_neg (not_not_intro hp), busyLoop_iff.2 h]
  rfl

theorem closeRollCall_of_idle (hp : (loopRec s l).phase = some .close) (h : ¬ Busy s l) :
    closeRollCall s l =
      if (loopRec s l).presenceDue = true then startRollCall (closedLoop s l .quiet) l else closedLoop s l .quiet := by
  unfold closeRollCall
  dsimp only
  rw [if_neg (not_not_intro hp), busyLoop_eq_false h]
  rfl

/-- A CLOSE that finds the interval of its mode expired starts the next roll call in that mode. -/
theorem close_starts {l : Fin 4} {mode : LoopState} (hr : running s = true)
    (hclose : closeRollCall s l.val = startRollCall (closedLoop s l.val mode) l.val) :
    ∃ t, exec (.rollCallClose l) s = .next t ∧ Started s t l.val mode := by
  rw [exec_rollCallClose]
  refine event_starts (u := closedLoop s l.val mode) hr hclose (frame_putLoop s _ _) ?_ fun x hx => ?_
  · rw [closedLoop, loopRec_putLoop, if_pos rfl]
  · rw [closedLoop, loopRec_putLoop, if_neg hx]

end

/-- A visit whose idle time is over ends with GOODBYE, and that display starts a roll call on a QUIET loop (R64, R78). -/
theorem idleExpiry_calls {s : State} {l : Fin 4} {a : Fin 16} {v : Visit} (hr : running s = true)
    (hq : (loopRec s l.val).state = .quiet) (hp : (loopRec s l.val).phase = none)
    (hv : visit s (terminalNo l.val a.val) = some v) (hle : v.idleDeadline ≤ s.seconds) :
    ∃ t, exec (.visitIdleExpiry l a) s = .next t ∧ Settled t ∧ Called s t l.val .quiet
      ∧ (terminal t (terminalNo l.val a.val)).pending = some .goodbye := by
  have shown := called_pend (s := dropVisit s (terminalNo l.val a.val)) .goodbye (terminalNo_div l.val a) hq hp
  have ended : idleOut s (terminalNo l.val a.val) = pend (dropVisit s (terminalNo l.val a.val)) (terminalNo l.val a.val) .goodbye :=
    (idleOut_of_reached hv hle).trans (endVisit_of_open .goodbye hv)
  obtain ⟨t, hnext, hsettled, hcalled, hpending⟩ := event_settles
    (P := fun t => Called s t l.val .quiet ∧ (terminal t (terminalNo l.val a.val)).pending = some .goodbye)
    (effect := fun s => idleOut s (terminalNo l.val a.val)) hr ended ⟨shown.1, by rw [terminal_settle, shown.2]⟩
  exact ⟨t, hnext, hsettled, hcalled, hpending⟩

/-- Settles O54: every start cause runs the one start, on the loop's record as it stands or as CLOSE leaves it. -/
theorem rollCallsStart : Obligations.RollCallsStart := by
  unfold Obligations.RollCallsStart
  intro s l hr r called started busy
  refine ⟨fun hq hp => ⟨?_, ?_, fun a ha d => ?_, fun a v hv hle => idleExpiry_calls hr hq hp hv hle⟩, fun hc hp => ?_,
    fun hp hb hd => ?_, fun hp hb hd => ?_, fun h => ?_, fun h => ⟨?_, ?_⟩⟩
  · rw [exec_wake]
    exact event_starts_as_is hr (wakeLoop_of_quiet hq hp) hq
  · rw [exec_presenceIntervalExpiry]
    exact event_starts_as_is hr (presenceInterval_of_quiet hq hp) hq
  · exact called_pend d (terminalNo_div_of_lt _ ha) hq hp
  · rw [exec_rollCallIntervalExpiry]
    exact event_starts_as_is hr (rollCallInterval_of_continuous hc hp) hc
  · exact close_starts hr ((closeRollCall_of_busy hp hb).trans (if_pos hd))
  · exact close_starts hr ((closeRollCall_of_idle hp hb).trans (if_pos hd))
  · rw [exec_wake]
    exact event_idle hr (wakeLoop_of_not h)
  · rw [exec_rollCallIntervalExpiry]
    exact event_idle hr (rollCallInterval_of_stopped h)
  · rw [exec_presenceIntervalExpiry]
    exact event_idle hr (presenceInterval_of_stopped h)

end Sys2Proof.Machine
end

