-- ==== Sys2Proof/Proofs/LoopLife.lean ====
section
/-! PROOFS. Faults and resets of a loop (R65 to R67), and the terminals that join and leave it (R57, R58). -/

namespace Sys2Proof.Machine

/-! ## A loop cleared -/

theorem visit_foldl_dropVisit (l : Nat) (addrs : List Nat) (s : State) (n : Nat) :
    visit (addrs.foldl (fun s a => dropVisit s (terminalNo l a)) s) n =
      if ∃ a ∈ addrs, n = terminalNo l a then none else visit s n := by
  induction addrs generalizing s with
  | nil => simp
  | cons b rest ih =>
    rw [List.foldl_cons, ih, dropVisit, visit_putVisit]
    by_cases hb : n = terminalNo l b <;> simp [hb]

/-- The number of a terminal is on a loop exactly when it is that of one of the 16 addresses there. -/
theorem exists_address_iff (l n : Nat) : (∃ a ∈ List.range 16, n = terminalNo l a) ↔ n / 16 = l := by
  constructor
  · rintro ⟨a, ha, rfl⟩
    exact terminalNo_div_of_lt l (List.mem_range.1 ha)
  · intro h
    exact ⟨n % 16, List.mem_range.2 (Nat.mod_lt _ (by decide)), by unfold terminalNo; omega⟩

theorem visit_dropVisits (s : State) (l n : Nat) : visit (dropVisits s l) n = if n / 16 = l then none else visit s n := by
  rw [dropVisits, visit_foldl_dropVisit]
  simp only [exists_address_iff]

section
variable (s : State) (l : Nat) (st : LoopState) (n : Nat)

theorem visit_clearLoop : visit (clearLoop s l st) n = if n / 16 = l then none else visit s n := by
  unfold clearLoop
  dsimp only
  rw [visit_putLoop, (frame_mapTerminals _ l _).visit n (by decide), visit_dropVisits]

theorem terminal_clearLoop :
    terminal (clearLoop s l st) n =
      if n / 16 = l then { terminal s n with pending := none, current := .goodbye } else terminal s n := by
  unfold clearLoop
  dsimp only
  rw [terminal_putLoop, terminal_mapTerminals, (frame_dropVisits s l).terminal n (by decide)]

/-! ## A loop restarted -/

theorem terminal_restartLoop :
    terminal (restartLoop s l) n =
      if n / 16 = l then { terminal s n with presence := .unknown, missed := 0, answered := false, flagged := false }
      else terminal s n := by
  unfold restartLoop
  rw [terminal_startRollCall, terminal_putLoop, terminal_mapTerminals]
  split <;> rfl

theorem loopRec_restartLoop_ne {x : Nat} (hx : x ≠ l) : loopRec (restartLoop s l) x = loopRec s x := by
  unfold restartLoop
  rw [loopRec_startRollCall, if_neg hx, loopRec_putLoop, if_neg hx, (frame_mapTerminals s l _).loopRec x (by decide)]

end

/-- The loop is QUIET with a roll call started, its terminals UNKNOWN and not missed, answered or flagged (R66). -/
def Fresh (t : State) (l : Nat) : Prop :=
  (∀ a < 16, (terminal t (terminalNo l a)).presence = .unknown ∧ (terminal t (terminalNo l a)).missed = 0
    ∧ (terminal t (terminalNo l a)).answered = false ∧ (terminal t (terminalNo l a)).flagged = false)
  ∧ (loopRec t l).state = .quiet ∧ (loopRec t l).phase = some .rollCall ∧ (loopRec t l).lastStart ≠ none

/-- Every visit on the loop has ended, with GOODBYE current and nothing pending; the visits elsewhere stand (R65). -/
def Emptied (s t : State) (l : Nat) : Prop :=
  (∀ a < 16, visit t (terminalNo l a) = none ∧ (terminal t (terminalNo l a)).pending = none
    ∧ (terminal t (terminalNo l a)).current = .goodbye)
  ∧ ∀ n, n / 16 ≠ l → visit t n = visit s n

/-- The other loops and their terminals stand, and every terminal keeps its enrolment and its pool. -/
def OthersStand (s t : State) (l : Nat) : Prop :=
  (∀ x, x ≠ l → loopRec t x = loopRec s x) ∧ (∀ n, n / 16 ≠ l → terminal t n = terminal s n)
  ∧ ∀ n, (terminal t n).enrolled = (terminal s n).enrolled ∧ (terminal t n).pool = (terminal s n).pool

theorem OthersStand.trans {s t u : State} {l : Nat} (h : OthersStand s t l) (k : OthersStand t u l) : OthersStand s u l := by
  obtain ⟨loops, terminals, enrolled⟩ := h
  obtain ⟨loops', terminals', enrolled'⟩ := k
  exact ⟨fun x hx => (loops' x hx).trans (loops x hx), fun n hn => (terminals' n hn).trans (terminals n hn), fun n =>
    ⟨(enrolled' n).1.trans (enrolled n).1, (enrolled' n).2.trans (enrolled n).2⟩⟩

section
variable (s : State) (l : Nat)

theorem emptied_clearLoop (st : LoopState) : Emptied s (clearLoop s l st) l := by
  refine ⟨fun a ha => ?_, fun n hn => ?_⟩
  · rw [visit_clearLoop, terminal_clearLoop, if_pos (terminalNo_div_of_lt l ha), if_pos (terminalNo_div_of_lt l ha)]
    exact ⟨rfl, rfl, rfl⟩
  · rw [visit_clearLoop, if_neg hn]

theorem others_clearLoop (st : LoopState) : OthersStand s (clearLoop s l st) l := by
  refine ⟨fun x hx => ?_, fun n hn => ?_, fun n => ?_⟩
  · rw [loopRec_clearLoop, if_neg hx]
  · rw [terminal_clearLoop, if_neg hn]
  · rw [terminal_clearLoop]
    split <;> exact ⟨rfl, rfl⟩

theorem fresh_restartLoop : Fresh (restartLoop s l) l := by
  refine ⟨fun a ha => ?_, ?_⟩
  · rw [terminal_restartLoop, if_pos (terminalNo_div_of_lt l ha)]
    exact ⟨rfl, rfl, rfl, rfl⟩
  · unfold restartLoop
    rw [loopRec_startRollCall, if_pos rfl, loopRec_putLoop, if_pos rfl]
    exact ⟨rfl, rfl, Option.some_ne_none _⟩

theorem others_restartLoop : OthersStand s (restartLoop s l) l := by
  refine ⟨fun x hx => loopRec_restartLoop_ne s l hx, fun n hn => ?_, fun n => ?_⟩
  · rw [terminal_restartLoop, if_neg hn]
  · rw [terminal_restartLoop]
    split <;> exact ⟨rfl, rfl⟩

/-- A restart shows nothing: it leaves every display, pending and current (R66). -/
theorem displays_restartLoop (n : Nat) :
    (terminal (restartLoop s l) n).current = (terminal s n).current
    ∧ (terminal (restartLoop s l) n).pending = (terminal s n).pending := by
  rw [terminal_restartLoop]
  split <;> exact ⟨rfl, rfl⟩

theorem emptied_reset (st : LoopState) : Emptied s (restartLoop (clearLoop s l st) l) l := by
  obtain ⟨own, others⟩ := emptied_clearLoop s l st
  have visits : ∀ n, visit (restartLoop (clearLoop s l st) l) n = visit (clearLoop s l st) n := fun n =>
    (frame_restartLoop _ l).visit n (by decide)
  refine ⟨fun a ha => ?_, fun n hn => (visits n).trans (others n hn)⟩
  rw [visits, (displays_restartLoop _ l _).1, (displays_restartLoop _ l _).2]
  exact own a ha

end

/-! ## Faults and Loop Reset -/

theorem exec_loopFault (l : Fin 4) (s : State) : exec (.loopFault l) s = event (fun s => faultLoop s l.val) s := rfl

theorem exec_faultEnd (l : Fin 4) (s : State) : exec (.faultEnd l) s = event (fun s => endFault s l.val) s := rfl

theorem toNat_byte_of_fin {n : Nat} (hn : n ≤ 256) (x : Fin n) : (BitVec.ofNat 8 x.val).toNat = x.val := by
  rw [BitVec.toNat_ofNat, Nat.mod_eq_of_lt]
  have := x.isLt
  omega

theorem exec_loopReset (l : Fin 4) (s : State) :
    exec (.loopReset 1 (BitVec.ofNat 8 l.val)) s = request 0x42 true true (loopResetRule l.val) s := by
  rw [← toNat_byte_of_fin (by decide) l, BitVec.ofNat_toNat]
  rfl

theorem loopResetRule_of_off {s : State} {l : Fin 4} (h : (loopRec s l.val).state = .off) :
    loopResetRule l.val s = { state := s, code := .ok } := by
  rw [loopResetRule, if_neg (by omega), if_pos h]

theorem loopResetRule_of_on {s : State} {l : Fin 4} (h : (loopRec s l.val).state ≠ .off) :
    loopResetRule l.val s = { state := restartLoop (clearLoop s l.val .quiet) l.val, code := .ok } := by
  rw [loopResetRule, if_neg (by omega), if_neg h]

/-- A line in break clears the loop into FAULT; presences and missed counts stand until the break ends (R65). -/
theorem loopFault_clears {s : State} {l : Fin 4} (hr : running s = true) (h : (loopRec s l.val).state ≠ .off) :
    ∃ t, exec (.loopFault l) s = .next t ∧ Settled t ∧ Emptied s t l.val ∧ OthersStand s t l.val
      ∧ (loopRec t l.val).state = .fault ∧ (loopRec t l.val).phase = none
      ∧ (loopRec t l.val).lastStart = (loopRec s l.val).lastStart
      ∧ (∀ n, (terminal t n).presence = (terminal s n).presence ∧ (terminal t n).missed = (terminal s n).missed)
      ∧ Frame [.deskSet, .attn, .loops, .terminals, .visits] s t := by
  have presence : ∀ n, (terminal (clearLoop s l.val .fault) n).presence = (terminal s n).presence
      ∧ (terminal (clearLoop s l.val .fault) n).missed = (terminal s n).missed := fun n => by
    rw [terminal_clearLoop]
    split <;> exact ⟨rfl, rfl⟩
  have record := loopRec_clearLoop s l.val .fault l.val
  have emptied := emptied_clearLoop s l.val .fault
  have others := others_clearLoop s l.val .fault
  have frame := frame_clearLoop s l.val .fault
  rw [if_pos rfl] at record
  have effect : faultLoop s l.val = clearLoop s l.val .fault := if_neg h
  generalize clearLoop s l.val .fault = t at *
  rw [exec_loopFault]
  refine event_settles hr effect ⟨emptied, others, ?_, ?_, ?_, presence, frame.settled⟩ <;> rw [loopRec_settle, record]

/-- The line's return starts the loop anew and leaves its displays (R66). -/
theorem faultEnd_restarts {s : State} {l : Fin 4} (hr : running s = true) (h : (loopRec s l.val).state = .fault) :
    ∃ t, exec (.faultEnd l) s = .next t ∧ Settled t ∧ Fresh t l.val ∧ OthersStand s t l.val
      ∧ (∀ n, (terminal t n).current = (terminal s n).current ∧ (terminal t n).pending = (terminal s n).pending)
      ∧ Frame [.deskSet, .attn, .loops, .terminals, .draws] s t := by
  have fresh := fresh_restartLoop s l.val
  have others := others_restartLoop s l.val
  have displays := displays_restartLoop s l.val
  have frame := frame_restartLoop s l.val
  have effect : endFault s l.val = restartLoop s l.val := if_pos h
  generalize restartLoop s l.val = t at *
  rw [exec_faultEnd]
  exact event_settles hr effect ⟨fresh, others, displays, frame.settled⟩

/-- Loop Reset of a loop in use clears it and starts it anew (R67). -/
theorem loopReset_restarts {s : State} {l : Fin 4} (hr : running s = true) (h : (loopRec s l.val).state ≠ .off) :
    ∃ t, exec (.loopReset 1 (BitVec.ofNat 8 l.val)) s = .next t ∧ Answers s t 0x42 .ok []
      ∧ Emptied s t l.val ∧ Fresh t l.val ∧ OthersStand s t l.val ∧ Frame (Field.link ++ Field.loopSide) s t := by
  have emptied := emptied_reset s l.val .quiet
  have fresh := fresh_restartLoop (clearLoop s l.val .quiet) l.val
  have others := (others_clearLoop s l.val .quiet).trans (others_restartLoop _ l.val)
  have frame : Frame Field.loopSide s (restartLoop (clearLoop s l.val .quiet) l.val) :=
    (frame_clearLoop s l.val .quiet).comp (frame_restartLoop _ l.val) (by decide)
  have rule := loopResetRule_of_on h
  generalize restartLoop (clearLoop s l.val .quiet) l.val = t at *
  rw [exec_loopReset]
  exact request_answers hr rfl rfl rule (frame.same .response (by decide)) ⟨emptied, fresh, others, frame.answered⟩

/-- Settles O53: a break clears the loop, its end restarts it, and Loop Reset does the one after the other. -/
theorem loopFaultsAndResets : Obligations.LoopFaultsAndResets := by
  unfold Obligations.LoopFaultsAndResets
  intro s l hr r emptied fresh others
  refine ⟨fun hoff => ⟨?_, ?_⟩, fun hon => ⟨loopFault_clears hr hon, loopReset_restarts hr hon⟩, faultEnd_restarts hr,
    fun hno => ?_⟩
  · rw [exec_loopFault]
    exact event_idle hr (if_pos hoff)
  · rw [exec_loopReset]
    exact request_answers hr rfl rfl (loopResetRule_of_off hoff) rfl rfl
  · rw [exec_faultEnd]
    exact event_idle hr (if_neg hno)

/-! ## Terminals that join -/

section
variable (s : State) (l n : Nat)

/-- A start of a roll call, or none, writes of a terminal answered and flagged alone (R59). -/
def SameBeside (r r' : Terminal) : Prop := r' = r ∨ r' = { r with answered := false, flagged := false }

theorem sameBeside_startRollCall : SameBeside (terminal s n) (terminal (startRollCall s l) n) := by
  rw [terminal_startRollCall]
  split
  · exact .inr rfl
  · exact .inl rfl

theorem sameBeside_startIfIdle : SameBeside (terminal s n) (terminal (startIfIdle s l) n) := by
  unfold startIfIdle
  split
  · exact .inl rfl
  · exact sameBeside_startRollCall s l n

theorem sameBeside_joinLoop : SameBeside (terminal s n) (terminal (joinLoop s l) n) := by
  unfold joinLoop
  split
  · exact sameBeside_startRollCall (putLoop s l _) l n
  · exact sameBeside_startIfIdle s l n
  · exact sameBeside_startIfIdle s l n
  · exact .inl rfl

theorem startIfIdle_record :
    (loopRec (startIfIdle s l) l).state = (loopRec s l).state ∧ (loopRec (startIfIdle s l) l).phase ≠ none := by
  unfold startIfIdle
  split
  · exact ⟨rfl, Option.isSome_iff_ne_none.1 ‹_›⟩
  · rw [loopRec_startRollCall, if_pos rfl]
    exact ⟨rfl, Option.some_ne_none _⟩

/-- The loop of a newly enrolled terminal leaves OFF for QUIET and has a roll call in flight unless it is in FAULT (R57). -/
theorem joinLoop_record :
    (loopRec (joinLoop s l) l).state = (if (loopRec s l).state = .off then .quiet else (loopRec s l).state)
    ∧ ((loopRec s l).state ≠ .fault → (loopRec (joinLoop s l) l).phase ≠ none)
    ∧ ((loopRec s l).state = .fault → loopRec (joinLoop s l) l = loopRec s l) := by
  obtain ⟨idleState, idlePhase⟩ := startIfIdle_record s l
  unfold joinLoop
  cases hst : (loopRec s l).state with
  | off =>
    dsimp only
    rw [loopRec_startRollCall, if_pos rfl, loopRec_putLoop, if_pos rfl, if_pos rfl]
    exact ⟨rfl, fun _ => Option.some_ne_none _, nofun⟩
  | quiet => exact ⟨idleState.trans hst, fun _ => idlePhase, nofun⟩
  | continuous => exact ⟨idleState.trans hst, fun _ => idlePhase, nofun⟩
  | fault => exact ⟨hst, fun h => absurd rfl h, fun _ => rfl⟩

/-- A display made pending keeps what enrolment and the answer slots wrote of every terminal (R64). -/
theorem pend_keeps (d : Display) :
    (terminal (pend s n d) n).pool = (terminal s n).pool ∧ (terminal (pend s n d) n).enrolled = (terminal s n).enrolled
    ∧ (terminal (pend s n d) n).presence = (terminal s n).presence
    ∧ (terminal (pend s n d) n).missed = (terminal s n).missed := by
  unfold pend
  split
  · rw [terminal_putTerminal, if_pos rfl]
    exact ⟨rfl, rfl, rfl, rfl⟩
  · rw [terminal_putTerminal, if_pos rfl]
    exact ⟨rfl, rfl, rfl, rfl⟩
  · obtain h | h := sameBeside_startIfIdle (putTerminal s n { terminal s n with pending := some d }) (n / 16) n <;>
      rw [h, terminal_putTerminal, if_pos rfl] <;> exact ⟨rfl, rfl, rfl, rfl⟩
  · rw [terminal_putTerminal, if_pos rfl]
    exact ⟨rfl, rfl, rfl, rfl⟩

theorem endVisit_keeps (d : Display) :
    (terminal (endVisit s n d) n).pool = (terminal s n).pool
    ∧ (terminal (endVisit s n d) n).enrolled = (terminal s n).enrolled
    ∧ (terminal (endVisit s n d) n).presence = (terminal s n).presence
    ∧ (terminal (endVisit s n d) n).missed = (terminal s n).missed := by
  cases hv : visit s n with
  | none =>
    rw [endVisit_of_closed d hv]
    exact ⟨rfl, rfl, rfl, rfl⟩
  | some v =>
    rw [endVisit_of_open d hv]
    exact pend_keeps (dropVisit s n) n d

theorem shown_endVisit {v : Visit} (d : Display) (hv : visit s n = some v) :
    (terminal (endVisit s n d) n).pending = some d ∨ (terminal (endVisit s n d) n).current = d := by
  rw [endVisit_of_open d hv]
  exact (terminal_pend _ _ _).imp_right fun h => h.2.1

end

theorem exec_enrollTerminal (l a : Byte) (q : BitVec 16) (s : State) :
    exec (.enrollTerminal 4 l a q) s = request 0x40 true true (enrollTerminalRule l.toNat a.toNat q.toNat) s := rfl

section
variable {s : State} {l a q : Nat}

theorem enrollTerminalRule_of_new (hl : l ≤ 3) (ha : a ≤ 15) (hq : q ≤ 63)
    (h : (terminal s (terminalNo l a)).enrolled = false) :
    enrollTerminalRule l a q s =
      { state := joinLoop (putTerminal s (terminalNo l a) { enrolled := true, pool := q }) l, code := .ok } := by
  unfold enrollTerminalRule
  dsimp only
  rw [if_neg (by omega), h]
  rfl

/-- The terminal with the pool of a re-enrolment (R57). -/
def repooled (s : State) (n q : Nat) : State := putTerminal s n { terminal s n with pool := q }

theorem enrollTerminalRule_of_enrolled (hl : l ≤ 3) (ha : a ≤ 15) (hq : q ≤ 63)
    (h : (terminal s (terminalNo l a)).enrolled = true) :
    enrollTerminalRule l a q s =
      { state := endVisit (repooled s (terminalNo l a) q) (terminalNo l a) .goodbye, code := .ok } := by
  unfold enrollTerminalRule
  dsimp only
  rw [if_neg (by omega), if_pos h]
  rfl

end

/-- A new terminal takes its reset values with the pool, and its loop takes it in (R57). -/
theorem joined_records (s : State) (l a q : Nat) :
    let n := terminalNo l a
    let t := joinLoop (putTerminal s n { enrolled := true, pool := q }) l
    terminal t n =
        { enrolled := true, pool := q, presence := .unknown, missed := 0, pending := none, current := .goodbye
          answered := false, flagged := false }
      ∧ (∀ x, x ≠ n → terminal t x = terminal s x
          ∨ terminal t x = { terminal s x with answered := false, flagged := false })
      ∧ (loopRec t l).state = (if (loopRec s l).state = .off then .quiet else (loopRec s l).state)
      ∧ ((loopRec s l).state ≠ .fault → (loopRec t l).phase ≠ none)
      ∧ ((loopRec s l).state = .fault → loopRec t l = loopRec s l) ∧ ∀ x, x ≠ l → loopRec t x = loopRec s x := by
  intro n t
  obtain ⟨hstate, hphase, hfault⟩ := joinLoop_record (putTerminal s n { enrolled := true, pool := q }) l
  refine ⟨?_, fun x hx => ?_, hstate, hphase, hfault,
    (joinLoop_keeps (putTerminal s n { enrolled := true, pool := q }) l).2.1⟩
  · obtain h | h := sameBeside_joinLoop (putTerminal s n { enrolled := true, pool := q }) l n <;>
      rw [h, terminal_putTerminal, if_pos rfl]
  · have beside := sameBeside_joinLoop (putTerminal s n { enrolled := true, pool := q }) l x
    rwa [terminal_putTerminal, if_neg hx] at beside

/-- A re-enrolment writes the pool and ends the visit with GOODBYE (R57, R79). -/
theorem rejoined_records (s : State) (n q : Nat) :
    let t := endVisit (repooled s n q) n .goodbye
    ((terminal t n).pool = q ∧ (terminal t n).enrolled = (terminal s n).enrolled
        ∧ (terminal t n).presence = (terminal s n).presence ∧ (terminal t n).missed = (terminal s n).missed)
      ∧ visit t n = none ∧ (visit s n = none → t = repooled s n q)
      ∧ (visit s n ≠ none → (terminal t n).pending = some .goodbye ∨ (terminal t n).current = .goodbye)
      ∧ ∀ x, x ≠ n → visit t x = visit s x := by
  intro t
  have written : terminal (repooled s n q) n = { terminal s n with pool := q } := by
    rw [repooled, terminal_putTerminal, if_pos rfl]
  have kept := endVisit_keeps (repooled s n q) n .goodbye
  rw [written] at kept
  refine ⟨kept, ?_, fun hv => endVisit_of_closed .goodbye hv, fun hv => ?_, fun x hx => ?_⟩
  · rw [visit_endVisit, if_pos rfl]
  · obtain ⟨v, hv⟩ := Option.ne_none_iff_exists'.1 hv
    exact shown_endVisit (repooled s n q) n .goodbye hv
  · rw [visit_endVisit, if_neg hx]
    rfl

/-! ## Terminals that leave -/

/-- Turns written leave of the loop's record all but the phase and the turns. -/
theorem loopRec_setTurns_beside (s : State) (l : Nat) (turns : List Nat) :
    loopRec (setTurns s l turns) l =
      { loopRec s l with
        phase := (loopRec (setTurns s l turns) l).phase, turns := (loopRec (setTurns s l turns) l).turns } := by
  have passed : ∀ u : State, loopRec (passPhases u l) l =
      { loopRec u l with phase := (loopRec (passPhases u l) l).phase, turns := (loopRec (passPhases u l) l).turns } := by
    intro u
    unfold passPhases
    dsimp only
    split
    · rfl
    · split
      · rw [loopRec_putLoop, if_pos rfl]
        split_ifs <;> rfl
      · rw [loopRec_putLoop, if_pos rfl]
        split_ifs <;> rfl
      · rw [loopRec_putLoop, if_pos rfl]
      · rfl
  rw [setTurns, passed, loopRec_putLoop, if_pos rfl]

theorem exec_retireTerminal (l a : Byte) (s : State) :
    exec (.retireTerminal 2 l a) s = request 0x41 true true (retireTerminalRule l.toNat a.toNat) s := rfl

/-- The terminal's record and visit gone, its loop not yet told (R58). -/
def departed (s : State) (n : Nat) : State := putTerminal (dropVisit s n) n {}

section
variable {s : State} {l a : Nat}

theorem retireTerminalRule_of_absent (hl : l ≤ 3) (ha : a ≤ 15) (h : (terminal s (terminalNo l a)).enrolled = false) :
    retireTerminalRule l a s = refuse s .noSuch := by
  unfold retireTerminalRule
  dsimp only
  rw [if_neg (by omega), h]
  rfl

theorem retireTerminalRule_of_enrolled (hl : l ≤ 3) (ha : a ≤ 15) (h : (terminal s (terminalNo l a)).enrolled = true) :
    retireTerminalRule l a s = { state := leaveLoop (departed s (terminalNo l a)) l a, code := .ok } := by
  unfold retireTerminalRule
  dsimp only
  rw [if_neg (by omega), h]
  rfl

theorem leaveLoop_of_remaining (h : anyEnrolled s l = true) :
    (loopRec (leaveLoop s l a) l).state = (loopRec s l).state
    ∧ (loopRec (leaveLoop s l a) l).lastStart = (loopRec s l).lastStart
    ∧ ((loopRec s l).phase = none → loopRec (leaveLoop s l a) l = loopRec s l) := by
  unfold leaveLoop
  rw [h]
  by_cases hp : (loopRec s l).phase = none
  · simp [inFlight_eq_false.2 hp]
  · have flying : inFlight s l = true := Option.isSome_iff_ne_none.2 hp
    simp only [flying, Bool.not_true, Bool.false_eq_true, if_false, if_true]
    rw [loopRec_setTurns_beside]
    exact ⟨rfl, rfl, fun h => absurd h hp⟩

theorem enrolled_departed (b : Nat) :
    (terminal (departed s (terminalNo l a)) (terminalNo l b)).enrolled = true
      ↔ b ≠ a ∧ (terminal s (terminalNo l b)).enrolled = true := by
  rw [departed, terminal_putTerminal]
  by_cases hab : b = a
  · simp [hab]
  · rw [if_neg fun h => hab (terminalNo_addr_inj h)]
    exact ⟨fun h => ⟨hab, h⟩, fun h => h.2⟩

theorem anyEnrolled_departed :
    anyEnrolled (departed s (terminalNo l a)) l = true
      ↔ ∃ b < 16, b ≠ a ∧ (terminal s (terminalNo l b)).enrolled = true := by
  rw [anyEnrolled_iff]
  exact exists_congr fun b => and_congr_right fun _ => enrolled_departed b

/-- The records a retirement leaves (R58). -/
theorem departed_records (s : State) (l a : Nat) :
    let n := terminalNo l a
    let t := leaveLoop (departed s n) l a
    terminal t n = {} ∧ visit t n = none ∧ (∀ x, x ≠ n → terminal t x = terminal s x ∧ visit t x = visit s x)
      ∧ ((∀ b < 16, b ≠ a → (terminal s (terminalNo l b)).enrolled = false) →
          (loopRec t l).state = .off ∧ (loopRec t l).phase = none ∧ (loopRec t l).lastStart = none)
      ∧ ((∃ b < 16, b ≠ a ∧ (terminal s (terminalNo l b)).enrolled = true) →
          (loopRec t l).state = (loopRec s l).state ∧ (loopRec t l).lastStart = (loopRec s l).lastStart
          ∧ ((loopRec s l).phase = none → loopRec t l = loopRec s l))
      ∧ ∀ x, x ≠ l → loopRec t x = loopRec s x := by
  intro n t
  have frame : Frame [.loops] (departed s n) t := frame_leaveLoop _ l a
  have terminals : ∀ x, terminal t x = if x = n then {} else terminal s x := fun x => by
    rw [frame.terminal x (by decide), departed, terminal_putTerminal]
    rfl
  have visits : ∀ x, visit t x = if x = n then none else visit s x := fun x => by
    rw [frame.visit x (by decide)]
    exact visit_putVisit s n x none
  obtain ⟨-, others, emptied, -⟩ := leaveLoop_keeps (departed s n) l a
  refine ⟨(terminals n).trans (if_pos rfl), (visits n).trans (if_pos rfl), fun x hx => ?_, fun h => ?_, fun h => ?_, others⟩
  · rw [terminals, visits, if_neg hx, if_neg hx]
    exact ⟨rfl, rfl⟩
  · have none : anyEnrolled (departed s n) l = false := by
      rw [← Bool.not_eq_true, anyEnrolled_departed]
      rintro ⟨b, hb, hne, he⟩
      rw [h b hb hne] at he
      cases he
    rw [emptied none]
    exact ⟨rfl, rfl, rfl⟩
  · exact leaveLoop_of_remaining (anyEnrolled_departed.2 h)

end

/-- Settles O52: an enrolment writes the terminal and hands it to its loop, a retirement takes it back, and the loop follows
the terminals that are there. -/
theorem terminalsJoinAndLeave : Obligations.TerminalsJoinAndLeave := by
  unfold Obligations.TerminalsJoinAndLeave
  refine ⟨fun s l a q hr => ⟨fun bad => ?_, fun hl ha hq => ?_⟩, fun s l a hr bad => ?_, fun s l a hr => ?_⟩
  · rw [exec_enrollTerminal]
    exact request_answers_refusal hr rfl rfl (if_pos bad)
  · intro n
    rw [exec_enrollTerminal]
    cases he : (terminal s n).enrolled with
    | false =>
      have rule := enrollTerminalRule_of_new hl ha hq he
      have records := joined_records s l.toNat a.toNat q.toNat
      have frame : Frame [.loops, .terminals, .draws] s
          (joinLoop (putTerminal s n { enrolled := true, pool := q.toNat }) l.toNat) :=
        (frame_putTerminal s n _).comp (frame_joinLoop _ _) (by decide)
      dsimp only at records
      generalize joinLoop (putTerminal s n { enrolled := true, pool := q.toNat }) l.toNat = t at *
      exact request_answers hr rfl rfl rule (frame.same .response (by decide)) ⟨fun _ => ⟨frame.answered, records⟩, nofun⟩
    | true =>
      have rule := enrollTerminalRule_of_enrolled hl ha hq he
      obtain ⟨⟨hpool, henrolled, hpresence, hmissed⟩, hclosed, hsame, hshown, hothers⟩ := rejoined_records s n q.toNat
      have frame : Frame Field.loopSide s (endVisit (repooled s n q.toNat) n .goodbye) :=
        (frame_putTerminal s n _).comp (frame_endVisit _ _ _) (by decide)
      generalize endVisit (repooled s n q.toNat) n .goodbye = t at *
      refine request_answers hr rfl rfl rule (frame.same .response (by decide)) ⟨nofun, fun _ => ?_⟩
      refine ⟨hpool, henrolled.trans he, hpresence, hmissed, hclosed, fun hv => ?_, hshown, hothers⟩
      rw [hsame hv]
      refine ⟨(frame_putTerminal s n _).answered, ?_⟩
      rw [terminal_answered, repooled, terminal_putTerminal, if_pos rfl]
  · rw [exec_retireTerminal]
    exact request_answers_refusal hr rfl rfl (if_pos bad)
  · intro n
    have hl : l.val ≤ 3 := by omega
    have ha : a.val ≤ 15 := by omega
    rw [exec_retireTerminal, toNat_byte_of_fin (by decide), toNat_byte_of_fin (by decide)]
    cases he : (terminal s n).enrolled with
    | false =>
      obtain ⟨t, hnext, hanswers, ht⟩ := request_answers_refusal (kind := 0x41) (lengthOk := true) (presence := true) hr
        rfl rfl (retireTerminalRule_of_absent hl ha he)
      exact ⟨t, hnext, fun _ => ⟨hanswers, ht⟩, nofun⟩
    | true =>
      have rule := retireTerminalRule_of_enrolled hl ha he
      have records := departed_records s l.val a.val
      have frame : Frame [.terminals, .visits, .loops] s (leaveLoop (departed s n) l.val a.val) :=
        Frame.comp (w₁ := [.terminals, .visits]) (t := departed s n) rfl (frame_leaveLoop _ _ _) (by decide)
      dsimp only at records
      generalize leaveLoop (departed s n) l.val a.val = t at *
      refine ⟨answered 0x41 { state := t, code := .ok }, ?_, nofun, fun _ => ?_⟩
      · rw [request_taken hr rfl rfl, rule]
      · exact ⟨answers_answered (frame.same .response (by decide)), frame.answered, records⟩

end Sys2Proof.Machine
end

