-- ==== Sys2Proof/Proofs/Phases.lean ====
section
/-! PROOFS. The phases of a roll call: the answer slots, the displays sent, the messages collected and CLOSE (R60 to R63). -/

namespace Sys2Proof.Machine

/-! ## Who is to be sent a display, who is to be asked -/

/-- The terminal at address `b` answered and has a display to be sent. -/
def Ready (s : State) (l b : Nat) : Prop :=
  b < 16 ∧ (terminal s (terminalNo l b)).enrolled = true ∧ (terminal s (terminalNo l b)).answered = true
    ∧ (terminal s (terminalNo l b)).pending ≠ none

/-- The terminal at address `b` has a message to be collected. -/
def Asked (s : State) (l b : Nat) : Prop :=
  b < 16 ∧ (terminal s (terminalNo l b)).enrolled = true ∧ (terminal s (terminalNo l b)).flagged = true

/-- The addresses of the FETCH phase (R62). -/
def askedOnes (s : State) (l : Nat) : List Nat := addressesOf s l fun t => t.enrolled && t.flagged

/-- The addresses of the DISPLAY phase still to come as it begins (R61). -/
def readyOnes (s : State) (l : Nat) : List Nat :=
  displayTurns s l (addressesOf s l fun t => t.enrolled && t.answered)

section
variable (s : State) (l : Nat)

theorem mem_askedOnes {b : Nat} : b ∈ askedOnes s l ↔ Asked s l b := by
  rw [askedOnes, mem_addressesOf, Bool.and_eq_true]
  rfl

theorem askedOnes_eq_nil_iff : askedOnes s l = [] ↔ ¬ ∃ b, Asked s l b := by
  simp only [List.eq_nil_iff_forall_not_mem, mem_askedOnes, not_exists]

theorem mem_displayTurns_of_pending {turns : List Nat} {b : Nat} (hb : b ∈ turns)
    (hp : (terminal s (terminalNo l b)).pending ≠ none) : b ∈ displayTurns s l turns := by
  obtain ⟨passed, hsplit, hnone⟩ := displayTurns_split s l turns
  rw [hsplit] at hb
  exact (List.mem_append.1 hb).resolve_left fun h => hp (hnone b h)

theorem displayTurns_sublist (turns : List Nat) : (displayTurns s l turns).Sublist turns := List.dropWhile_sublist _

theorem mem_readyOnes {b : Nat} (h : b ∈ readyOnes s l) :
    b < 16 ∧ (terminal s (terminalNo l b)).enrolled = true ∧ (terminal s (terminalNo l b)).answered = true := by
  obtain ⟨hb, hp⟩ := mem_addressesOf.1 ((displayTurns_sublist s l _).subset h)
  exact ⟨hb, Bool.and_eq_true _ _ ▸ hp⟩

theorem mem_readyOnes_of_ready {b : Nat} (h : Ready s l b) : b ∈ readyOnes s l := by
  obtain ⟨hb, henrolled, hanswered, hpending⟩ := h
  exact mem_displayTurns_of_pending s l (mem_addressesOf.2 ⟨hb, by rw [henrolled, hanswered]; rfl⟩) hpending

theorem ready_of_head {b : Nat} {later : List Nat} (h : readyOnes s l = b :: later) : Ready s l b := by
  obtain ⟨hb, henrolled, hanswered⟩ := mem_readyOnes s l (h ▸ List.mem_cons_self)
  exact ⟨hb, henrolled, hanswered, displayTurns_head s l b _ later h⟩

theorem readyOnes_eq_nil_iff : readyOnes s l = [] ↔ ¬ ∃ b, Ready s l b := by
  constructor
  · rintro h ⟨b, hb⟩
    have := mem_readyOnes_of_ready s l hb
    rw [h] at this
    cases this
  · intro h
    cases hr : readyOnes s l with
    | nil => rfl
    | cons b later => exact absurd ⟨b, ready_of_head s l hr⟩ h

end

/-- The addresses in front with nothing to send are passed up to the first that has a display pending (R61). -/
theorem displayTurns_append {s : State} {l b : Nat} {passed later : List Nat}
    (hpassed : ∀ x ∈ passed, (terminal s (terminalNo l x)).pending = none)
    (hb : (terminal s (terminalNo l b)).pending ≠ none) : displayTurns s l (passed ++ b :: later) = b :: later := by
  unfold displayTurns
  rw [List.dropWhile_append_of_pos fun x hx => by rw [hpassed x hx]; rfl, List.dropWhile_cons_of_neg]
  simpa using hb

theorem displayTurns_eq_nil {s : State} {l : Nat} {turns : List Nat}
    (h : ∀ b ∈ turns, (terminal s (terminalNo l b)).pending = none) : displayTurns s l turns = [] :=
  List.dropWhile_eq_nil_iff.2 fun b hb => by rw [h b hb]; rfl

/-! ## Where the turn passes -/

/-- The loop once no display is left to send: FETCH over the flagged terminals, or CLOSE (R61, R62). -/
def fetchOrClose (s : State) (l : Nat) : Loop :=
  if askedOnes s l = [] then { loopRec s l with phase := some .close, turns := [] }
  else { loopRec s l with phase := some .fetch, turns := askedOnes s l }

/-- The loop once every answer slot is past: DISPLAY where a display is to be sent, else on to the next phase (R60). -/
def afterRollCall (s : State) (l : Nat) : Loop :=
  if readyOnes s l = [] then fetchOrClose s l
  else { loopRec s l with phase := some .display, turns := readyOnes s l }

section
variable {s : State} {l : Nat} {turns : List Nat}

theorem loopRec_setTurns_more (hphase : (loopRec s l).phase ≠ some .display) (h : turns ≠ []) :
    loopRec (setTurns s l turns) l = { loopRec s l with turns := turns } := by
  obtain ⟨b, rest, rfl⟩ := List.exists_cons_of_ne_nil h
  rw [setTurns_cons s l b _ rest (if_neg hphase), loopRec_putLoop, if_pos rfl]

theorem loopRec_setTurns_display {b : Nat} {later : List Nat} (hphase : (loopRec s l).phase = some .display)
    (h : displayTurns s l turns = b :: later) :
    loopRec (setTurns s l turns) l = { loopRec s l with turns := b :: later } := by
  rw [setTurns_cons s l b turns later ((if_pos hphase).trans h), loopRec_putLoop, if_pos rfl]

theorem loopRec_setTurns_fetch (hphase : (loopRec s l).phase = some .fetch) :
    loopRec (setTurns s l []) l = { loopRec s l with phase := some .close, turns := [] } := by
  unfold setTurns passPhases
  simp [loopRec_putLoop, hphase]

theorem loopRec_setTurns_last_display (hphase : (loopRec s l).phase = some .display) (h : displayTurns s l turns = []) :
    loopRec (setTurns s l turns) l = fetchOrClose s l := by
  have asked : ∀ r, addressesOf (putLoop s l r) l (fun t => t.enrolled && t.flagged) = askedOnes s l := fun _ => rfl
  unfold setTurns passPhases fetchOrClose
  simp [loopRec_putLoop, hphase, h, asked]

theorem loopRec_setTurns_last_answer (hphase : (loopRec s l).phase = some .rollCall) :
    loopRec (setTurns s l []) l = afterRollCall s l := by
  have asked : ∀ r, addressesOf (putLoop s l r) l (fun t => t.enrolled && t.flagged) = askedOnes s l := fun _ => rfl
  have ready : ∀ r, displayTurns (putLoop s l r) l (addressesOf (putLoop s l r) l fun t => t.enrolled && t.answered)
      = readyOnes s l := fun _ => rfl
  unfold setTurns passPhases afterRollCall fetchOrClose
  simp [loopRec_putLoop, hphase, asked, ready]

/-- What `fetchOrClose` decides, by the terminals flagged (R62). -/
theorem fetchOrClose_decides (s : State) (l : Nat) :
    (fetchOrClose s l).turns.Pairwise (· < ·)
    ∧ ((∃ b, Asked s l b) →
        (fetchOrClose s l).phase = some .fetch ∧ ∀ b, b ∈ (fetchOrClose s l).turns ↔ Asked s l b)
    ∧ ((¬ ∃ b, Asked s l b) → (fetchOrClose s l).phase = some .close ∧ (fetchOrClose s l).turns = []) := by
  unfold fetchOrClose
  by_cases h : askedOnes s l = []
  · rw [if_pos h]
    exact ⟨List.Pairwise.nil, fun hex => absurd hex ((askedOnes_eq_nil_iff s l).1 h), fun _ => ⟨rfl, rfl⟩⟩
  · rw [if_neg h]
    have sorted : (askedOnes s l).Pairwise (· < ·) := addressesOf_sorted s l _
    exact ⟨sorted, fun _ => ⟨rfl, fun _ => mem_askedOnes s l⟩, fun hno =>
      absurd ((askedOnes_eq_nil_iff s l).2 hno) h⟩

/-- What `afterRollCall` decides, by the terminals that answered with a display to be sent (R60). -/
theorem afterRollCall_decides (s : State) (l : Nat) :
    (afterRollCall s l).turns.Pairwise (· < ·)
    ∧ ((∃ b, Ready s l b) →
        (afterRollCall s l).phase = some .display
        ∧ (∃ b later, (afterRollCall s l).turns = b :: later ∧ Ready s l b)
        ∧ (∀ b, Ready s l b → b ∈ (afterRollCall s l).turns)
        ∧ ∀ b ∈ (afterRollCall s l).turns,
            b < 16 ∧ (terminal s (terminalNo l b)).enrolled = true ∧ (terminal s (terminalNo l b)).answered = true)
    ∧ ((¬ ∃ b, Ready s l b) → afterRollCall s l = fetchOrClose s l) := by
  unfold afterRollCall
  by_cases h : readyOnes s l = []
  · rw [if_pos h]
    exact ⟨(fetchOrClose_decides s l).1, fun hex => absurd hex ((readyOnes_eq_nil_iff s l).1 h), fun _ => rfl⟩
  · obtain ⟨b, later, hb⟩ := List.exists_cons_of_ne_nil h
    rw [if_neg h]
    exact ⟨(addressesOf_sorted s l _).sublist (displayTurns_sublist s l _), fun _ =>
      ⟨rfl, ⟨b, later, hb, ready_of_head s l hb⟩, fun _ => mem_readyOnes_of_ready s l, fun _ => mem_readyOnes s l⟩,
      fun hno => absurd ((readyOnes_eq_nil_iff s l).2 hno) h⟩

end

/-! ## The answer slots -/

/-- The part's CALL to an address, its check byte worked out (R198). -/
theorem callFrame_eq (a : Fin 16) : callFrame a.val = [BitVec.ofNat 8 a.val, 0x01, 0x00, 0xFF - BitVec.ofNat 8 a.val] := by
  revert a
  decide

/-- A slot of loop `l` is past: the CALL went out, the turn passed to the rest of the addresses or to the next phase, and
the other loops stand (R60). -/
def SlotPast (s t : State) (l a : Nat) (rest : List Nat) : Prop :=
  t.sent = [(l, lineBits [BitVec.ofNat 8 a, 0x01, 0x00, 0xFF - BitVec.ofNat 8 a])]
  ∧ (rest ≠ [] → loopRec t l = { loopRec s l with turns := rest })
  ∧ (rest = [] →
      loopRec t l = { loopRec s l with phase := (loopRec t l).phase, turns := (loopRec t l).turns }
      ∧ (loopRec t l).turns.Pairwise (· < ·)
      ∧ ((∃ b, Ready t l b) →
          (loopRec t l).phase = some .display ∧ (∃ b later, (loopRec t l).turns = b :: later ∧ Ready t l b)
          ∧ (∀ b, Ready t l b → b ∈ (loopRec t l).turns)
          ∧ ∀ b ∈ (loopRec t l).turns,
              b < 16 ∧ (terminal t (terminalNo l b)).enrolled = true ∧ (terminal t (terminalNo l b)).answered = true)
      ∧ ((¬ ∃ b, Ready t l b) → (∃ b, Asked t l b) →
          (loopRec t l).phase = some .fetch ∧ ∀ b, b ∈ (loopRec t l).turns ↔ Asked t l b)
      ∧ ((¬ ∃ b, Ready t l b) → (¬ ∃ b, Asked t l b) → (loopRec t l).phase = some .close ∧ (loopRec t l).turns = []))
  ∧ (∀ x, x ≠ l → loopRec t x = loopRec s x) ∧ ∀ x, x ≠ terminalNo l a → terminal t x = terminal s x

/-- The turn passes from a slot whose effect left `u`: only the loops are written beside it. -/
theorem slotPast_setTurns {s u : State} {l : Nat} {a : Fin 16} {rest : List Nat}
    (hphase : (loopRec s l).phase = some .rollCall) (loops : ∀ x, loopRec u x = loopRec s x)
    (sent : u.sent = [(l, lineBits (callFrame a.val))])
    (terminals : ∀ x, x ≠ terminalNo l a.val → terminal u x = terminal s x) :
    SlotPast s (setTurns u l rest) l a.val rest := by
  have hphase' : (loopRec u l).phase = some .rollCall := by rw [loops, hphase]
  have frame : Frame [.loops] u (setTurns u l rest) := frame_setTurns u l rest
  have same : ∀ x, terminal (setTurns u l rest) x = terminal u x := fun x => frame.terminal x (by decide)
  have hready : ∀ b, Ready (setTurns u l rest) l b ↔ Ready u l b := fun b => by unfold Ready; rw [same]
  have hasked : ∀ b, Asked (setTurns u l rest) l b ↔ Asked u l b := fun b => by unfold Asked; rw [same]
  refine ⟨?_, fun hrest => ?_, fun hrest => ?_, fun x hx => ?_, fun x hx => ?_⟩
  · rw [frame.same .sent (by decide), sent, callFrame_eq]
  · rw [loopRec_setTurns_more (by rw [hphase']; nofun) hrest, loops]
  · have beside := loopRec_setTurns_beside u l rest
    obtain ⟨sorted, shows, skips⟩ := afterRollCall_decides u l
    obtain ⟨-, asks, closes⟩ := fetchOrClose_decides u l
    rw [loops] at beside
    simp only [hready, hasked, same]
    subst hrest
    rw [loopRec_setTurns_last_answer hphase'] at beside ⊢
    refine ⟨beside, sorted, shows, fun hno => ?_, fun hno => ?_⟩
    · rw [skips hno]
      exact asks
    · rw [skips hno]
      exact closes
  · rw [loopRec_setTurns_ne u rest hx, loops]
  · rw [same, terminals x hx]

theorem answerTurn_of_turn {s : State} {l a : Nat} {rest : List Nat} (hphase : (loopRec s l).phase = some .rollCall)
    (hturns : (loopRec s l).turns = a :: rest) : answerTurn s l a = true := by
  simp [answerTurn, hphase, hturns]

theorem answerTurn_of_not {s : State} {l a : Nat}
    (h : (loopRec s l).phase ≠ some .rollCall ∨ (loopRec s l).turns.head? ≠ some a) : answerTurn s l a = false := by
  obtain h | h := h <;> simp [answerTurn, h]

/-- A slot taken in its turn: its effect on the state the CALL left, and the turn passed (R60). -/
theorem rollSlot_taken {s u : State} {l a : Nat} {rest : List Nat} {effect : State → State}
    (hphase : (loopRec s l).phase = some .rollCall) (hturns : (loopRec s l).turns = a :: rest)
    (hu : effect (transmit s [(l, callFrame a)]) = u) (loops : ∀ x, loopRec u x = loopRec s x) :
    rollSlot s l a effect = setTurns u l rest := by
  unfold rollSlot
  dsimp only
  rw [answerTurn_of_turn hphase hturns, hu, loops, hturns]
  rfl

theorem rollSlot_ignored {s : State} {l a : Nat} (effect : State → State)
    (h : (loopRec s l).phase ≠ some .rollCall ∨ (loopRec s l).turns.head? ≠ some a) : rollSlot s l a effect = s := by
  unfold rollSlot
  rw [answerTurn_of_not h]
  rfl

/-- The terminal a good answer leaves: brought back to its current display where it regains presence (R60). -/
def heardFrom (r : Terminal) (flagged : Bool) : Terminal :=
  { r with
    answered := true, flagged := flagged, missed := 0, presence := .present
    pending := if r.presence ≠ .present ∧ r.pending = none then some r.current else r.pending }

/-- With a roll call in flight a good answer writes the terminal alone. -/
theorem takeAnswer_inFlight {s : State} {n : Nat} (flagged : Bool) (hpolled : polled s (n / 16) = true)
    (hflight : inFlight s (n / 16) = true) :
    Frame [.terminals] s (takeAnswer s n flagged)
    ∧ terminal (takeAnswer s n flagged) n = heardFrom (terminal s n) flagged
    ∧ ∀ x, x ≠ n → terminal (takeAnswer s n flagged) x = terminal s x := by
  unfold takeAnswer heardFrom
  dsimp only
  generalize hh : putTerminal s n { terminal s n with answered := true, flagged := flagged, missed := 0, presence := .present }
    = heard
  have frame : Frame [.terminals] s heard := hh ▸ frame_putTerminal s n _
  have own : terminal heard n =
      { terminal s n with answered := true, flagged := flagged, missed := 0, presence := .present } := by
    rw [← hh, terminal_putTerminal, if_pos rfl]
  have others : ∀ x, x ≠ n → terminal heard x = terminal s x := fun x hx => by
    rw [← hh, terminal_putTerminal, if_neg hx]
  split
  · rw [pend_inFlight (s := heard) _ (by rwa [polled, frame.loopRec _ (by decide)])
      (by rwa [inFlight, frame.loopRec _ (by decide)])]
    refine ⟨frame.trans (frame_putTerminal heard n _), ?_, fun x hx => ?_⟩
    · rw [terminal_putTerminal, if_pos rfl, own]
    · rw [terminal_putTerminal, if_neg hx, others x hx]
  · exact ⟨frame, own, others⟩

/-- What a missed slot makes of the terminal: missed counts to 3, at which the terminal is ABSENT (R60). -/
def missedBy (r : Terminal) : Terminal :=
  if r.missed = 2 then { r with missed := 3, presence := .absent, pending := none, current := .goodbye }
  else if r.missed < 2 then { r with missed := r.missed + 1 } else r

theorem missAnswer_writes (s : State) (n : Nat) :
    (∀ x, terminal (missAnswer s n) x = if x = n then missedBy (terminal s n) else terminal s x)
    ∧ (∀ x, visit (missAnswer s n) x = if x = n ∧ (terminal s n).missed = 2 then none else visit s x) := by
  unfold missAnswer missedBy
  dsimp only
  split_ifs with h2 hlt
  · refine ⟨fun x => terminal_putTerminal _ n x _, fun x => ?_⟩
    simp [dropVisit, visit_putVisit, h2]
  · exact ⟨fun x => terminal_putTerminal s n x _, fun x => by simp [h2]⟩
  · refine ⟨fun x => ?_, fun x => by simp [h2]⟩
    split
    · subst_vars; rfl
    · rfl

theorem exec_answer (l : Fin 4) (a : Fin 16) (flagged : Bool) (s : State) :
    exec (.answer l a flagged) s =
      event (fun s => rollSlot s l.val a.val fun s => takeAnswer s (terminalNo l.val a.val) flagged) s := rfl

theorem exec_noAnswer (l : Fin 4) (a : Fin 16) (s : State) :
    exec (.noAnswer l a) s =
      event (fun s => rollSlot s l.val a.val fun s => missAnswer s (terminalNo l.val a.val)) s := rfl

section
variable {s : State} {l : Fin 4} {a : Fin 16} {rest : List Nat}

theorem answer_in_slot (flagged : Bool) (hr : running s = true) (hphase : (loopRec s l.val).phase = some .rollCall)
    (hturns : (loopRec s l.val).turns = a.val :: rest)
    (hstate : (loopRec s l.val).state = .quiet ∨ (loopRec s l.val).state = .continuous) :
    ∃ t, exec (.answer l a flagged) s = .next t ∧ Settled t ∧ SlotPast s t l.val a.val rest
      ∧ terminal t (terminalNo l.val a.val) = heardFrom (terminal s (terminalNo l.val a.val)) flagged
      ∧ Frame [.deskSet, .attn, .loops, .terminals, .sent] s t := by
  have flight : inFlight s l.val = true := by rw [inFlight, hphase]; rfl
  have on : terminalNo l.val a.val / 16 = l.val := terminalNo_div l.val a
  obtain ⟨frame, own, others⟩ := takeAnswer_inFlight (s := transmit s [(l.val, callFrame a.val)])
    (n := terminalNo l.val a.val) flagged (by rw [on]; exact (polled_iff s l.val).2 hstate) (by rw [on]; exact flight)
  generalize hu : takeAnswer (transmit s [(l.val, callFrame a.val)]) (terminalNo l.val a.val) flagged = u at *
  have loops : ∀ x, loopRec u x = loopRec s x := fun x => frame.loopRec x (by decide)
  have taken := rollSlot_taken (effect := fun s => takeAnswer s (terminalNo l.val a.val) flagged) hphase hturns hu loops
  have past : SlotPast s (setTurns u l.val rest) l.val a.val rest :=
    slotPast_setTurns hphase loops (frame.same .sent (by decide)) others
  have turned := frame_setTurns u l.val rest
  have written : Frame [.loops, .terminals, .sent] s (setTurns u l.val rest) :=
    ((frame_transmit s _).comp (w := [.terminals, .sent]) frame (by decide)).comp turned (by decide)
  have shown : terminal (setTurns u l.val rest) (terminalNo l.val a.val) =
      heardFrom (terminal s (terminalNo l.val a.val)) flagged := (turned.terminal _ (by decide)).trans own
  generalize setTurns u l.val rest = t at *
  rw [exec_answer]
  exact event_settles hr taken ⟨past, shown, written.settled⟩

theorem noAnswer_in_slot (hr : running s = true) (hphase : (loopRec s l.val).phase = some .rollCall)
    (hturns : (loopRec s l.val).turns = a.val :: rest) :
    let n := terminalNo l.val a.val
    ∃ t, exec (.noAnswer l a) s = .next t ∧ Settled t ∧ SlotPast s t l.val a.val rest
      ∧ terminal t n = missedBy (terminal s n) ∧ visit t n = (if (terminal s n).missed = 2 then none else visit s n)
      ∧ (∀ x, x ≠ n → visit t x = visit s x) ∧ Frame [.deskSet, .attn, .loops, .terminals, .sent, .visits] s t := by
  intro n
  have frame := frame_missAnswer (transmit s [(l.val, callFrame a.val)]) n
  obtain ⟨terminals, visits⟩ := missAnswer_writes (transmit s [(l.val, callFrame a.val)]) n
  generalize hu : missAnswer (transmit s [(l.val, callFrame a.val)]) n = u at *
  have loops : ∀ x, loopRec u x = loopRec s x := fun x => frame.loopRec x (by decide)
  have taken := rollSlot_taken (effect := fun s => missAnswer s n) hphase hturns hu loops
  have past : SlotPast s (setTurns u l.val rest) l.val a.val rest :=
    slotPast_setTurns hphase loops (frame.same .sent (by decide)) fun x hx => (terminals x).trans (if_neg hx)
  have turned := frame_setTurns u l.val rest
  have written : Frame [.loops, .terminals, .sent, .visits] s (setTurns u l.val rest) :=
    ((frame_transmit s _).comp (w := [.terminals, .sent, .visits]) frame (by decide)).comp turned (by decide)
  have shown : terminal (setTurns u l.val rest) n = missedBy (terminal s n) :=
    (turned.terminal _ (by decide)).trans ((terminals n).trans (if_pos rfl))
  have own : visit (setTurns u l.val rest) n = if (terminal s n).missed = 2 then none else visit s n := by
    rw [turned.visit n (by decide), visits]
    simp only [true_and]
    rfl
  have others : ∀ x, x ≠ n → visit (setTurns u l.val rest) x = visit s x := fun x hx => by
    rw [turned.visit x (by decide), visits, if_neg fun h => hx h.1]
    rfl
  generalize setTurns u l.val rest = t at *
  rw [exec_noAnswer]
  exact event_settles hr taken ⟨past, shown, own, others, written.settled⟩

end

/-- Settles O55: a slot in its turn has its effect on the terminal and passes the turn; outside it nothing happens. -/
theorem answerSlotsDecidePresence : Obligations.AnswerSlotsDecidePresence := by
  unfold Obligations.AnswerSlotsDecidePresence
  intro s l a rest flagged hr n r q at_ ready asked passed
  refine ⟨fun hphase hturns hstate => ⟨?_, ?_⟩, fun h => ⟨?_, ?_⟩⟩
  · exact answer_in_slot flagged hr hphase hturns hstate
  · exact noAnswer_in_slot hr hphase hturns
  · rw [exec_answer]
    exact event_idle hr (rollSlot_ignored _ h)
  · rw [exec_noAnswer]
    exact event_idle hr (rollSlot_ignored _ h)

end Sys2Proof.Machine
end

