-- ==== Sys2Proof/Proofs/DisplaysAndFetches.lean ====
section
/-! PROOFS. The displays sent, the messages collected and CLOSE (R61 to R63). -/

namespace Sys2Proof.Machine

/-! ## DISPLAY -/

theorem exec_displaySend (l : Fin 4) (s : State) : exec (.displaySend l) s = event (fun s => sendDisplay s l.val) s := rfl

/-- The state with a terminal sent its pending display, which becomes current (R61). -/
def displayed (s : State) (l a : Nat) (d : Display) : State :=
  putTerminal (transmit s [(l, displayFrame a d)]) (terminalNo l a)
    { terminal s (terminalNo l a) with current := d, pending := none }

section
variable {s : State} {l a : Nat} {d : Display} {rest : List Nat}

theorem sendDisplay_of_turn (hphase : (loopRec s l).phase = some .display)
    (hturns : displayTurns s l (loopRec s l).turns = a :: rest)
    (hd : (terminal s (terminalNo l a)).pending = some d) :
    sendDisplay s l = setTurns (displayed s l a d) l rest := by
  unfold sendDisplay
  rw [if_neg (not_not_intro hphase), hturns]
  dsimp only
  rw [hd]
  rfl

theorem sendDisplay_ignored
    (h : (loopRec s l).phase ≠ some .display ∨ ∀ b ∈ (loopRec s l).turns, (terminal s (terminalNo l b)).pending = none) :
    sendDisplay s l = s := by
  unfold sendDisplay
  obtain h | h := h
  · rw [if_pos h]
  · rw [displayTurns_eq_nil h, ite_self]

theorem terminal_displayed (s : State) (l a : Nat) (d : Display) (x : Nat) :
    terminal (displayed s l a d) x =
      if x = terminalNo l a then { terminal s (terminalNo l a) with current := d, pending := none } else terminal s x :=
  terminal_putTerminal _ _ _ _

theorem frame_displayed (s : State) (l a : Nat) (d : Display) : Frame [.terminals, .sent] s (displayed s l a d) := rfl

end

/-- A display goes out on loop `l`: the terminal shows it, and the turn passes to the next display or the next phase. -/
theorem displaySend_shows {s : State} {l : Fin 4} {before rest : List Nat} {a : Nat} {d : Display} (hr : running s = true)
    (hphase : (loopRec s l.val).phase = some .display) (hturns : (loopRec s l.val).turns = before ++ a :: rest)
    (hbefore : ∀ b ∈ before, (terminal s (terminalNo l.val b)).pending = none)
    (hd : (terminal s (terminalNo l.val a)).pending = some d) :
    ∃ t, exec (.displaySend l) s = .next t ∧ Settled t
      ∧ terminal t (terminalNo l.val a) = { terminal s (terminalNo l.val a) with current := d, pending := none }
      ∧ (∀ x, x ≠ terminalNo l.val a → terminal t x = terminal s x)
      ∧ t.sent = [(l.val, lineBits (loopFrame a 0x03 (displayBytes d)))]
      ∧ (∀ passed b later, rest = passed ++ b :: later → (∀ x ∈ passed, (terminal t (terminalNo l.val x)).pending = none) →
          (terminal t (terminalNo l.val b)).pending ≠ none →
          loopRec t l.val = { loopRec s l.val with turns := b :: later })
      ∧ ((∀ b ∈ rest, (terminal t (terminalNo l.val b)).pending = none) →
          loopRec t l.val =
              { loopRec s l.val with phase := (loopRec t l.val).phase, turns := (loopRec t l.val).turns }
          ∧ ((∃ b, Asked t l.val b) → (loopRec t l.val).phase = some .fetch
              ∧ (loopRec t l.val).turns.Pairwise (· < ·) ∧ ∀ b, b ∈ (loopRec t l.val).turns ↔ Asked t l.val b)
          ∧ ((¬ ∃ b, Asked t l.val b) → (loopRec t l.val).phase = some .close ∧ (loopRec t l.val).turns = []))
      ∧ Frame [.deskSet, .attn, .loops, .terminals, .sent] s t := by
  have sent := sendDisplay_of_turn hphase
    (hturns ▸ displayTurns_append hbefore (by rw [hd]; exact Option.some_ne_none d)) hd
  have terminals := terminal_displayed s l.val a d
  have shown := frame_displayed s l.val a d
  have bits : (displayed s l.val a d).sent = [(l.val, lineBits (loopFrame a 0x03 (displayBytes d)))] := rfl
  generalize displayed s l.val a d = u at *
  have hphase' : (loopRec u l.val).phase = some .display := by rw [shown.loopRec _ (by decide), hphase]
  have loops : loopRec u l.val = loopRec s l.val := shown.loopRec _ (by decide)
  have turned := frame_setTurns u l.val rest
  have same : ∀ x, terminal (setTurns u l.val rest) x = terminal u x := fun x => turned.terminal x (by decide)
  have written : Frame [.loops, .terminals, .sent] s (setTurns u l.val rest) := shown.comp turned (by decide)
  have asked : ∀ t : State, (∀ x, terminal t x = terminal u x) → ∀ b, Asked t l.val b ↔ Asked u l.val b := fun t h b => by
    unfold Asked
    rw [h]
  have next : ∀ b later, displayTurns u l.val rest = b :: later →
      loopRec (setTurns u l.val rest) l.val = { loopRec s l.val with turns := b :: later } := fun b later h => by
    rw [loopRec_setTurns_display hphase' h, loops]
  have last : displayTurns u l.val rest = [] → loopRec (setTurns u l.val rest) l.val = fetchOrClose u l.val :=
    loopRec_setTurns_last_display hphase'
  have beside := loopRec_setTurns_beside u l.val rest
  obtain ⟨sorted, asks, closes⟩ := fetchOrClose_decides u l.val
  have hsent : (setTurns u l.val rest).sent = _ := (turned.same .sent (by decide)).trans bits
  generalize setTurns u l.val rest = t at *
  rw [exec_displaySend]
  refine event_settles hr sent ⟨?_, fun x hx => ?_, hsent, fun passed b later hrest hpassed hb => ?_, fun hnone => ?_,
    written.settled⟩
  · rw [terminal_settle, same, terminals, if_pos rfl]
  · rw [terminal_settle, same, terminals, if_neg hx]
  · simp only [terminal_settle, same] at hpassed hb
    exact next b later (hrest ▸ displayTurns_append hpassed hb)
  · simp only [terminal_settle, same] at hnone
    have done := last (displayTurns_eq_nil hnone)
    simp only [loopRec_settle, asked (settle t) same]
    rw [loops] at beside
    refine ⟨beside, fun hex => ?_, fun hno => ?_⟩
    · rw [done]
      exact ⟨(asks hex).1, sorted, (asks hex).2⟩
    · rw [done]
      exact closes hno

/-! ## CLOSE -/

/-- A CLOSE that finds no interval expired ends the roll call in the mode chosen (R63). -/
theorem close_ends {s : State} {l : Fin 4} (hr : running s = true) (hphase : (loopRec s l.val).phase = some .close)
    (hroll : Busy s l.val → (loopRec s l.val).rollDue = false)
    (hpresence : ¬ Busy s l.val → (loopRec s l.val).presenceDue = false) :
    ∃ t, exec (.rollCallClose l) s = .next t ∧ Settled t
      ∧ (Busy s l.val → loopRec t l.val = { loopRec s l.val with state := .continuous, phase := none, turns := [] })
      ∧ (¬ Busy s l.val → loopRec t l.val = { loopRec s l.val with state := .quiet, phase := none, turns := [] })
      ∧ (∀ x, x ≠ l.val → loopRec t x = loopRec s x) ∧ Frame [.deskSet, .attn, .loops] s t := by
  have closed : ∀ mode x, loopRec (closedLoop s l.val mode) x =
      if x = l.val then { loopRec s l.val with state := mode, phase := none, turns := [] } else loopRec s x := fun mode x =>
    loopRec_putLoop s _ _ _
  rw [exec_rollCallClose]
  by_cases hbusy : Busy s l.val
  · have effect := closeRollCall_of_busy hphase hbusy
    rw [hroll hbusy, if_neg Bool.false_ne_true] at effect
    exact event_settles hr effect ⟨fun _ => (closed .continuous _).trans (if_pos rfl), fun h => absurd hbusy h,
      fun x hx => (closed .continuous x).trans (if_neg hx), (frame_putLoop s _ _).settled⟩
  · have effect := closeRollCall_of_idle hphase hbusy
    rw [hpresence hbusy, if_neg Bool.false_ne_true] at effect
    exact event_settles hr effect ⟨fun h => absurd h hbusy, fun _ => (closed .quiet _).trans (if_pos rfl),
      fun x hx => (closed .quiet x).trans (if_neg hx), (frame_putLoop s _ _).settled⟩

/-! ## FETCH -/

/-- The turn passed from a terminal of the FETCH phase: to the next flagged one, or to CLOSE (R62). -/
def FetchPast (s t : State) (l : Nat) (rest : List Nat) : Prop :=
  (rest ≠ [] → loopRec t l = { loopRec s l with turns := rest })
  ∧ (rest = [] → loopRec t l = { loopRec s l with phase := some .close, turns := [] })
  ∧ ∀ x, x ≠ l → loopRec t x = loopRec s x

theorem fetchPast_setTurns {s u : State} {l : Nat} {rest : List Nat} (hphase : (loopRec s l).phase = some .fetch)
    (loops : ∀ x, loopRec u x = loopRec s x) : FetchPast s (setTurns u l rest) l rest := by
  have hphase' : (loopRec u l).phase = some .fetch := by rw [loops, hphase]
  refine ⟨fun hrest => ?_, fun hrest => ?_, fun x hx => ?_⟩
  · rw [loopRec_setTurns_more (by rw [hphase']; nofun) hrest, loops]
  · rw [hrest, loopRec_setTurns_fetch hphase', loops]
  · rw [loopRec_setTurns_ne u rest hx, loops]

theorem exec_fetchFailed (l : Fin 4) (a : Fin 16) (s : State) :
    exec (.fetchFailed l a) s = event (fun s => fetch s l.val a.val false id) s := rfl

theorem exec_unknownMessage (l : Fin 4) (a : Fin 16) (s : State) :
    exec (.unknownMessage l a) s = event (fun s => fetch s l.val a.val true id) s := rfl

theorem fetchTurn_of_not {s : State} {l a : Nat}
    (h : (loopRec s l).phase ≠ some .fetch ∨ (loopRec s l).turns.head? ≠ some a) : fetchTurn s l a = false := by
  obtain h | h := h <;> simp [fetchTurn, h]

/-- A message outside its terminal's turn does nothing, whatever it carries (R62). -/
theorem message_ignored {s : State} {l a : Nat} (hr : running s = true)
    (h : (loopRec s l).phase ≠ some .fetch ∨ (loopRec s l).turns.head? ≠ some a) (accept : Bool)
    (effect : State → State) : event (fun s => fetch s l a accept effect) s = .next (settle s) := by
  refine event_idle hr ?_
  rw [fetch, fetchTurn_of_not h]
  rfl

section
variable {s : State} {l a : Nat} {rest : List Nat}

theorem fetch_refused (hphase : (loopRec s l).phase = some .fetch) (hturns : (loopRec s l).turns = a :: rest)
    (effect : State → State) :
    fetch s l a false effect = setTurns (transmit s [(l, fetchFrame a)]) l rest := by
  have turn := fetchTurn_of_phase hphase hturns
  have tail : (loopRec (transmit s [(l, fetchFrame a)]) l).turns.tail = rest := congrArg List.tail hturns
  unfold fetch
  rw [turn, ← tail]
  rfl

theorem fetch_accepted {effect : State → State} {u : State} (hphase : (loopRec s l).phase = some .fetch)
    (hturns : (loopRec s l).turns = a :: rest) (hu : effect (accepted s l a) = u)
    (loops : loopRec u l = loopRec s l) : fetch s l a true effect = setTurns u l rest := by
  have turn := fetchTurn_of_phase hphase hturns
  have tail : (loopRec u l).turns.tail = rest := by rw [loops, hturns]; rfl
  unfold fetch
  rw [turn, ← tail, ← hu]
  rfl

end

section
variable {s : State} {l : Fin 4} {a : Fin 16} {rest : List Nat}

/-- A failed fetch sends FETCH alone and passes the turn (R62). -/
theorem fetchFailed_in_turn (hr : running s = true) (hphase : (loopRec s l.val).phase = some .fetch)
    (hturns : (loopRec s l.val).turns = a.val :: rest) :
    ∃ t, exec (.fetchFailed l a) s = .next t ∧ Settled t ∧ FetchPast s t l.val rest
      ∧ t.sent = [(l.val, lineBits (loopFrame a.val 0x04 []))] ∧ Frame [.deskSet, .attn, .loops, .sent] s t := by
  have effect := fetch_refused hphase hturns id
  have past : FetchPast s (setTurns (transmit s [(l.val, fetchFrame a.val)]) l.val rest) l.val rest :=
    fetchPast_setTurns hphase fun _ => rfl
  have turned := frame_setTurns (transmit s [(l.val, fetchFrame a.val)]) l.val rest
  have written : Frame [.loops, .sent] s (setTurns (transmit s [(l.val, fetchFrame a.val)]) l.val rest) :=
    (frame_transmit s _).comp turned (by decide)
  have sent := turned.same .sent (by decide)
  generalize setTurns (transmit s [(l.val, fetchFrame a.val)]) l.val rest = t at *
  rw [exec_fetchFailed]
  exact event_settles hr effect ⟨past, sent, written.settled⟩

/-- A message of unknown kind is accepted, which clears flagged, and passes the turn (R62). -/
theorem unknownMessage_in_turn (hr : running s = true) (hphase : (loopRec s l.val).phase = some .fetch)
    (hturns : (loopRec s l.val).turns = a.val :: rest) :
    let n := terminalNo l.val a.val
    ∃ t, exec (.unknownMessage l a) s = .next t ∧ Settled t ∧ FetchPast s t l.val rest
      ∧ t.sent = [(l.val, lineBits (loopFrame a.val 0x04 [])), (l.val, lineBits (loopFrame a.val 0x06 []))]
      ∧ terminal t n = { terminal s n with flagged := false } ∧ (∀ x, x ≠ n → terminal t x = terminal s x)
      ∧ Frame [.deskSet, .attn, .loops, .terminals, .sent] s t := by
  intro n
  have effect := fetch_accepted (effect := id) hphase hturns rfl rfl
  have taken : Frame [.terminals, .sent] s (accepted s l.val a.val) := accepted_frame s l.val a.val
  have own : terminal (accepted s l.val a.val) n = _ := terminal_accepted s l.val a.val
  have others : ∀ x, x ≠ n → terminal (accepted s l.val a.val) x = terminal s x := fun x hx =>
    (terminal_putTerminal _ _ _ _).trans (if_neg hx)
  have bits : (accepted s l.val a.val).sent =
    [(l.val, lineBits (loopFrame a.val 0x04 [])), (l.val, lineBits (loopFrame a.val 0x06 []))] := rfl
  have loops : ∀ x, loopRec (accepted s l.val a.val) x = loopRec s x := fun _ => rfl
  rw [id] at effect
  generalize accepted s l.val a.val = u at *
  have past : FetchPast s (setTurns u l.val rest) l.val rest := fetchPast_setTurns hphase loops
  have turned := frame_setTurns u l.val rest
  have written : Frame [.loops, .terminals, .sent] s (setTurns u l.val rest) := taken.comp turned (by decide)
  have sent : (setTurns u l.val rest).sent = _ := (turned.same .sent (by decide)).trans bits
  have terminals : ∀ x, terminal (setTurns u l.val rest) x = terminal u x := fun x => turned.terminal x (by decide)
  generalize setTurns u l.val rest = t at *
  rw [exec_unknownMessage]
  exact event_settles hr effect ⟨past, sent, (terminals n).trans own, fun x hx => (terminals x).trans (others x hx),
    written.settled⟩

end

/-- Settles O56: each phase has its effect and passes the turn as `setTurns` decides; a message out of turn meets a fetch
that is not its own. -/
theorem displaysFetchesAndClose : Obligations.DisplaysFetchesAndClose := by
  unfold Obligations.DisplaysFetchesAndClose
  refine ⟨fun s l hr => ?_, fun s l a rest hr => ?_⟩
  · intro q at_ asked busy
    refine ⟨fun before a rest d hphase hturns hbefore hd => displaySend_shows hr hphase hturns hbefore hd, fun h => ?_,
      fun hphase hroll hpresence => close_ends hr hphase hroll hpresence, fun h => ?_⟩
    · rw [exec_displaySend]
      exact event_idle hr (sendDisplay_ignored h)
    · rw [exec_rollCallClose]
      exact event_idle hr (if_pos h)
  · intro n q passed
    refine ⟨fun hphase hturns => ⟨fetchFailed_in_turn hr hphase hturns, unknownMessage_in_turn hr hphase hturns⟩,
      fun h number entry c hc => ?_⟩
    simp only [List.mem_cons, List.not_mem_nil, or_false] at hc
    obtain rfl | rfl | rfl | rfl | rfl | rfl | rfl | rfl := hc <;> exact message_ignored hr h _ _

end Sys2Proof.Machine
end

