-- ==== Sys2Proof/Proofs/LoopLines.lean ====
section
/-! PROOFS. Loop frames as bytes and as bits, what the part reads of a line, and the lengths of displays (R198, R200). -/

namespace Sys2Proof.Machine

/-! ## Characters -/

/-- A byte received with its stop bit. -/
def wholeCharacter (b : Byte) : Character := { data := b, stop := true }

theorem toNat_getLsbD (b : Byte) (i : Nat) : (b.getLsbD i).toNat = b.toNat / 2 ^ i % 2 := Nat.toNat_testBit _ _

/-- A number below 256 is made of its eight binary digits. -/
theorem octet_digits {n : Nat} (h : n < 256) :
    ((((((n / 2 ^ 7 % 2 * 2 + n / 2 ^ 6 % 2) * 2 + n / 2 ^ 5 % 2) * 2 + n / 2 ^ 4 % 2) * 2 + n / 2 ^ 3 % 2) * 2
      + n / 2 ^ 2 % 2) * 2 + n / 2 ^ 1 % 2) * 2 + n / 2 ^ 0 % 2 = n := by
  omega

/-- The data bits of a byte, least significant first, read back as the byte (R198). -/
theorem dataByte_bits (b : Byte) :
    dataByte [b.getLsbD 0, b.getLsbD 1, b.getLsbD 2, b.getLsbD 3, b.getLsbD 4, b.getLsbD 5, b.getLsbD 6, b.getLsbD 7] = b := by
  have digits := octet_digits b.isLt
  simp only [← toNat_getLsbD] at digits
  unfold dataByte byteOf
  simp only [List.reverse_cons, List.reverse_nil, List.nil_append, List.cons_append, List.foldl_cons, List.foldl_nil,
    Nat.zero_mul, Nat.zero_add, digits]
  exact BitVec.ofNat_toNat ..

theorem charBits_eq (b : Byte) :
    charBits b =
      [false, b.getLsbD 0, b.getLsbD 1, b.getLsbD 2, b.getLsbD 3, b.getLsbD 4, b.getLsbD 5, b.getLsbD 6, b.getLsbD 7, true] :=
  rfl

theorem lineBits_cons (b : Byte) (bytes : List Byte) : lineBits (b :: bytes) = charBits b ++ lineBits bytes :=
  List.flatMap_cons

/-! ## Breaks -/

/-- A run at the start-bit level ends at the first bit at the other level. -/
theorem not_inBreak_of_short {run : List Bool} (h : run.length ≤ 680) (rest : List Bool) :
    inBreak (run ++ true :: rest) = false := by
  have short : ((run ++ true :: rest).takeWhile (!·)).length ≤ run.length := by
    rw [List.takeWhile_append]
    split
    · simp
    · exact (List.takeWhile_sublist _).length_le
  unfold inBreak fullFrameBits
  exact decide_eq_false (by omega)

theorem inBreak_of_long {n : Nat} (h : 680 < n) (rest : List Bool) : inBreak (List.replicate n false ++ rest) = true := by
  have long : n ≤ ((List.replicate n false ++ rest).takeWhile (!·)).length := by
    rw [List.takeWhile_append_of_pos (by simp)]
    simp
  unfold inBreak fullFrameBits
  exact decide_eq_true (by omega)

theorem decodeBreak_append (l : Fin 4) {run : List Bool} (h : run.length ≤ 680) (rest : List Bool) :
    decodeBreak l (run ++ true :: rest) = decodeBreak l rest := by
  induction run with
  | nil =>
    exact if_neg (ne_true_of_eq_false (not_inBreak_of_short (run := []) (by decide) rest))
  | cons b run ih =>
    have short := not_inBreak_of_short h rest
    rw [List.length_cons] at h
    exact (if_neg (ne_true_of_eq_false short)).trans (ih (by omega))

theorem decodeBreak_lineBits (l : Fin 4) (bytes : List Byte) : decodeBreak l (lineBits bytes) = none := by
  induction bytes with
  | nil => rfl
  | cons b bytes ih =>
    have ended := decodeBreak_append l
      (run := [false, b.getLsbD 0, b.getLsbD 1, b.getLsbD 2, b.getLsbD 3, b.getLsbD 4, b.getLsbD 5, b.getLsbD 6,
        b.getLsbD 7]) (by simp) (lineBits bytes)
    exact ended.trans ih

theorem decodeBreak_idle (l : Fin 4) (n : Nat) (rest : List Bool) :
    decodeBreak l (List.replicate n true ++ rest) = decodeBreak l rest := by
  induction n with
  | zero => rfl
  | succ n ih => exact (decodeBreak_append l (run := []) (by simp) _).trans ih

/-! ## What is received -/

theorem receive_high (held : Bool) (rest : List Bool) : receive held (true :: rest) = receive false rest := by
  rw [receive]

theorem receive_waiting {held : Bool} {rest : List Bool} (h : (held || inBreak (false :: rest)) = true) :
    receive held (false :: rest) = receive true rest := by
  rw [receive.eq_def]
  exact if_pos h

theorem receive_character {b0 b1 b2 b3 b4 b5 b6 b7 stop : Bool} {later : List Bool}
    (h : inBreak (false :: b0 :: b1 :: b2 :: b3 :: b4 :: b5 :: b6 :: b7 :: stop :: later) = false) :
    receive false (false :: b0 :: b1 :: b2 :: b3 :: b4 :: b5 :: b6 :: b7 :: stop :: later) =
      { data := dataByte [b0, b1, b2, b3, b4, b5, b6, b7], stop := stop } :: receive (!stop) later := by
  rw [receive.eq_def]
  exact if_neg (ne_true_of_eq_false h)

theorem receive_idle (n : Nat) (rest : List Bool) : receive false (List.replicate n true ++ rest) = receive false rest := by
  induction n with
  | zero => rfl
  | succ n ih =>
    rw [List.replicate_succ, List.cons_append, receive_high]
    exact ih

/-- Reception that waits for the idle level takes nothing until it comes (R198). -/
theorem receive_held (n : Nat) (rest : List Bool) :
    receive true (List.replicate n false ++ true :: rest) = receive false rest := by
  induction n with
  | zero => rw [List.replicate_zero, List.nil_append, receive_high]
  | succ n ih =>
    rw [List.replicate_succ, List.cons_append, receive_waiting (Bool.true_or _)]
    exact ih

theorem receive_charBits (b : Byte) (rest : List Bool) :
    receive false (charBits b ++ rest) = wholeCharacter b :: receive false rest := by
  have start := not_inBreak_of_short
    (run := [false, b.getLsbD 0, b.getLsbD 1, b.getLsbD 2, b.getLsbD 3, b.getLsbD 4, b.getLsbD 5, b.getLsbD 6,
      b.getLsbD 7]) (by simp) rest
  exact (receive_character start).trans (by rw [dataByte_bits]; rfl)

theorem charsOf_lineBits (bytes : List Byte) : charsOf (lineBits bytes) = bytes.map wholeCharacter := by
  unfold charsOf
  induction bytes with
  | nil => rfl
  | cons b bytes ih => rw [lineBits_cons, receive_charBits, ih, List.map_cons]

theorem wakes_of_whole (l : Fin 4) (bytes : List Byte) :
    (bytes.map wholeCharacter).filterMap (decodeWake l) = List.replicate bytes.length (.wake l) := by
  induction bytes with
  | nil => rfl
  | cons b bytes ih =>
    have woken : decodeWake l (wholeCharacter b) = some (.wake l) := rfl
    rw [List.map_cons, List.filterMap_cons_some woken, ih, List.length_cons, List.replicate_succ]

/-- A line held low `n` bit times, idle, and then a run of characters. -/
def heldLine (n idle : Nat) (bytes : List Byte) : List Bool :=
  List.replicate n false ++ List.replicate (idle + 1) true ++ lineBits bytes

theorem heldLine_eq (n idle : Nat) (bytes : List Byte) :
    heldLine n idle bytes = List.replicate n false ++ true :: (List.replicate idle true ++ lineBits bytes) := by
  rw [heldLine, List.append_assoc, List.replicate_succ, List.cons_append]

/-- A break is no character: it is passed with the idle time after it (R198). -/
theorem charsOf_break {n : Nat} (h : 680 < n) (idle : Nat) (bytes : List Byte) :
    charsOf (heldLine n idle bytes) = charsOf (lineBits bytes) := by
  have low := inBreak_of_long h (true :: (List.replicate idle true ++ lineBits bytes))
  obtain ⟨m, rfl⟩ : ∃ m, n = m + 1 := ⟨n - 1, by omega⟩
  unfold charsOf
  rw [heldLine_eq]
  rw [List.replicate_succ, List.cons_append] at low ⊢
  rw [receive_waiting (by rw [low]; rfl), receive_held, receive_idle]

/-- A line held low for less than a break is one character without a stop bit (R198). -/
theorem charsOf_low {n : Nat} (h10 : 10 ≤ n) (h680 : n ≤ 680) (idle : Nat) (bytes : List Byte) :
    charsOf (heldLine n idle bytes) = { data := 0, stop := false } :: charsOf (lineBits bytes) := by
  have short := not_inBreak_of_short (run := List.replicate n false) (by simpa using h680)
    (List.replicate idle true ++ lineBits bytes)
  obtain ⟨m, rfl⟩ : ∃ m, n = m + 10 := ⟨n - 10, by omega⟩
  rw [heldLine_eq]
  simp only [List.replicate_succ, List.cons_append] at short ⊢
  unfold charsOf
  rw [receive_character short, Bool.not_false, receive_held, receive_idle]
  rfl

/-! ## Bits of a line by position -/

theorem lineBits_length (bytes : List Byte) : (lineBits bytes).length = 10 * bytes.length := by
  induction bytes with
  | nil => rfl
  | cons b bytes ih =>
    rw [lineBits_cons, List.length_append, ih, charBits_eq, List.length_cons]
    simp only [List.length_cons, List.length_nil]
    omega

theorem lineBits_getElem? {bytes : List Byte} {k : Nat} {b : Byte} (h : bytes[k]? = some b) {j : Nat} (hj : j < 10) :
    (lineBits bytes)[10 * k + j]? = (charBits b)[j]? := by
  induction bytes generalizing k with
  | nil => simp at h
  | cons c bytes ih =>
    have ten : (charBits c).length = 10 := by simp [charBits_eq]
    rw [lineBits_cons]
    cases k with
    | zero =>
      rw [List.getElem?_cons_zero, Option.some_inj] at h
      rw [h, List.getElem?_append_left (by rw [← h, ten]; omega)]
      congr 1
      omega
    | succ k =>
      rw [List.getElem?_append_right (by rw [ten]; omega), ten, ← ih (by simpa using h)]
      congr 1
      omega

theorem charBits_data (b : Byte) {i : Nat} (hi : i < 8) : (charBits b)[1 + i]? = some (b.getLsbD i) := by
  have bits : ((List.range 8).map b.getLsbD).length = 8 := by simp
  rw [charBits, Nat.add_comm, List.cons_append, List.getElem?_cons_succ, List.getElem?_append_left (by omega)]
  simp [hi]

/-! ## Frames -/

/-- The check byte of a frame (R198). -/
def checkByte (a : Nat) (type : Byte) (content : List Byte) : Byte :=
  0 - byteSum (BitVec.ofNat 8 a :: type :: BitVec.ofNat 8 content.length :: content)

theorem loopFrame_eq (a : Nat) (type : Byte) (content : List Byte) :
    loopFrame a type content =
      BitVec.ofNat 8 a :: type :: BitVec.ofNat 8 content.length :: (content ++ [checkByte a type content]) := rfl

theorem data_whole (bytes : List Byte) : (bytes.map wholeCharacter).map Character.data = bytes := by
  rw [List.map_map]
  exact List.map_id bytes

theorem stop_whole (bytes : List Byte) : (bytes.map wholeCharacter).any (fun c => !c.stop) = false := by
  rw [List.any_map]
  simp [wholeCharacter]

/-- The part reads a frame back as what it was made from (R198). -/
theorem loopParts_loopFrame {a : Nat} (type : Byte) {content : List Byte} (ha : a < 256) (hc : content.length ≤ 64) :
    loopParts (charsOf (lineBits (loopFrame a type content))) = some (a, type.toNat, content) := by
  have sum : (loopFrame a type content).foldl (· + ·) 0 = 0 := byteSum_loopFrame a type content
  have length : (BitVec.ofNat 8 content.length).toNat = content.length := by
    rw [BitVec.toNat_ofNat, Nat.mod_eq_of_lt (by omega)]
  have address : (BitVec.ofNat 8 a).toNat = a := by rw [BitVec.toNat_ofNat, Nat.mod_eq_of_lt ha]
  rw [charsOf_lineBits]
  unfold loopParts
  simp only [data_whole, stop_whole]
  rw [loopFrame_eq] at sum ⊢
  simp only [sum, length, address]
  simp [hc]

/-- A frame fails with a character that has no stop bit, and with bytes that do not sum to 0 (R198). -/
theorem loopParts_of_bad {frame : List Character}
    (h : (∃ c ∈ frame, c.stop = false) ∨ byteSum (frame.map Character.data) ≠ 0) : loopParts frame = none := by
  unfold loopParts
  split
  · rw [if_pos]
    obtain ⟨c, hc, hstop⟩ | hsum := h
    · have unstopped : frame.any (fun c => !c.stop) = true := List.any_eq_true.2 ⟨c, hc, by rw [hstop]; rfl⟩
      simp only [unstopped, Bool.true_or]
    · have odd : ((frame.map Character.data).foldl (· + ·) 0 != 0) = true := bne_iff_ne.2 hsum
      simp only [odd, Bool.or_true]
  · rfl

/-! ## Lengths of displays -/

theorem listPartBytes_length (p : ListPart) : (listPartBytes p).length = 12 + 7 * p.entries.length := by
  have entries : (p.entries.flatMap listEntryBytes).length = 7 * p.entries.length := by
    exact length_flatMap_const fun e _ => by simp [listEntryBytes]
  unfold listPartBytes
  cases p.credits <;> simp [entries] <;> omega

theorem resultPartBytes_length (r : ResultPart) : (resultPartBytes r).length = 9 := by
  cases r <;> simp [resultPartBytes]

theorem displayBytes_list_length (p : ListPart) : (displayBytes (.list p)).length = 13 + 7 * p.entries.length := by
  show (listPartBytes p).length + 1 = _
  rw [listPartBytes_length]
  omega

theorem displayBytes_result_length (r : ResultPart) (p : ListPart) :
    (displayBytes (.result r p)).length = 22 + 7 * p.entries.length := by
  show (resultPartBytes r ++ listPartBytes p).length + 1 = _
  rw [List.length_append, resultPartBytes_length, listPartBytes_length]
  omega

/-- Settles O57: reception takes a frame's characters one after the other, and a low line as a break or one bad character. -/
theorem loopFramesSumToZero : Obligations.LoopFramesSumToZero := by
  unfold Obligations.LoopFramesSumToZero
  refine ⟨fun a type content => ⟨byteSum_loopFrame a type content, ?_, rfl, ?_, fun ha hc => loopParts_loopFrame type ha hc⟩,
    fun bytes => ⟨lineBits_length bytes, charsOf_lineBits bytes, fun k b hb => ⟨?_, ?_, fun i hi => ?_⟩⟩,
    fun frame h => loopParts_of_bad h, fun l n idle bytes => ?_, displayBytes_list_length, displayBytes_result_length,
    rfl, rfl, rfl⟩
  · simp [loopFrame_eq]
  · simp [loopFrame_eq]
  · exact lineBits_getElem? hb (by decide : 0 < 10)
  · exact lineBits_getElem? hb (by decide : 9 < 10)
  · rw [Nat.add_assoc, lineBits_getElem? hb (by omega), charBits_data b hi]
  · have wakes := wakes_of_whole l bytes
    rw [← charsOf_lineBits] at wakes
    refine ⟨fun h => ⟨charsOf_break h idle bytes, ?_, ?_⟩, fun h10 h680 => ⟨charsOf_low h10 h680 idle bytes, ?_, ?_⟩⟩
    · exact (congrArg (List.filterMap (decodeWake l)) (charsOf_break h idle bytes)).trans wakes
    · obtain ⟨m, rfl⟩ : ∃ m, n = m + 1 := ⟨n - 1, by omega⟩
      have low := inBreak_of_long h (List.replicate (idle + 1) true ++ lineBits bytes)
      rw [List.append_assoc]
      exact if_pos low
    · exact (congrArg (List.filterMap (decodeWake l)) (charsOf_low h10 h680 idle bytes)).trans wakes
    · show decodeBreak l (heldLine n idle bytes) = none
      rw [heldLine_eq, decodeBreak_append l (by simpa using h680), decodeBreak_idle, decodeBreak_lineBits]

end Sys2Proof.Machine
end

