-- ==== Sys2Proof/Proofs/BadgeMessages.lean ====
section
/-! PROOFS. A BADGE message: what the lookup finds, and the visit it opens (R8, R70, R71). -/

namespace Sys2Proof.Machine

/-! ## Operations while a roll call is in flight -/

section
variable {s : State} {l : Nat}

/-- A loop with a roll call in flight keeps its record, whichever terminal a display becomes pending for (R59, R64). -/
theorem loopRec_pend_inFlight (h : inFlight s l = true) (n : Nat) (d : Display) : loopRec (pend s n d) l = loopRec s l := by
  unfold pend
  split
  · rfl
  · rfl
  · by_cases hl : l = n / 16
    · subst hl
      unfold startIfIdle
      rw [show inFlight (putTerminal s n { terminal s n with pending := some d }) (n / 16) = true from h]
      rfl
    · rw [loopRec_startIfIdle_ne _ hl]
      rfl
  · rfl

theorem loopRec_endVisit_inFlight (h : inFlight s l = true) (n : Nat) (d : Display) :
    loopRec (endVisit s n d) l = loopRec s l := by
  unfold endVisit
  split
  · rfl
  · exact loopRec_pend_inFlight (s := dropVisit s n) h n d

theorem loopRec_endOtherVisit_inFlight (h : inFlight s l = true) (a n : Nat) :
    loopRec (endOtherVisit s a n) l = loopRec s l := by
  unfold endOtherVisit
  split
  · rfl
  · split
    · rfl
    · exact loopRec_endVisit_inFlight h _ _

end

/-! ## A message collected stays collected -/

section
variable {s : State} {x : Nat}

theorem flagged_startIfIdle (l : Nat) (h : (terminal s x).flagged = false) :
    (terminal (startIfIdle s l) x).flagged = false := by
  obtain same | cleared := sameBeside_startIfIdle s l x
  · rw [same, h]
  · rw [cleared]

theorem flagged_pend (n : Nat) (d : Display) (h : (terminal s x).flagged = false) :
    (terminal (pend s n d) x).flagged = false := by
  have written : ∀ r : Terminal, r.flagged = (terminal s n).flagged → (terminal (putTerminal s n r) x).flagged = false := by
    intro r hr
    rw [terminal_putTerminal]
    split
    · subst_vars
      exact hr.trans h
    · exact h
  unfold pend
  split
  · exact written _ rfl
  · exact written _ rfl
  · exact flagged_startIfIdle _ (written _ rfl)
  · exact written _ rfl

theorem flagged_endOtherVisit (a n : Nat) (h : (terminal s x).flagged = false) :
    (terminal (endOtherVisit s a n) x).flagged = false := by
  unfold endOtherVisit endVisit
  split
  · exact h
  · split
    · exact h
    · split
      · exact h
      · exact flagged_pend (s := dropVisit s _) _ _ h

theorem flagged_showList (n : Nat) (v : Visit) (asked : Nat) (h : (terminal s x).flagged = false) :
    (terminal (showList s n v asked) x).flagged = false := by
  refine flagged_pend n _ ?_
  rw [computeList_frame]
  exact h

theorem flagged_takeBadge (n k : Nat) (h : (terminal s x).flagged = false) :
    (terminal (takeBadge s n k) x).flagged = false := by
  have touched : ∀ a, (terminal (touch s a) x).flagged = false := fun a => by
    rw [(frame_touch s a).terminal x (by decide), h]
  unfold takeBadge
  split
  · exact flagged_pend (s := dropVisit s n) n _ h
  · exact flagged_pend (s := dropVisit (touch s _) n) n _ (touched _)
  · exact flagged_showList (s := dropVisit (endOtherVisit (touch s _) _ n) n) n _ 0 (flagged_endOtherVisit _ _ (touched _))

end

/-! ## What the lookup finds -/

section
variable {s : State} {k x : Nat}

theorem lookupBadge_of_unknown (h : k = 0 ∨ badgeHolder s k = none) : lookupBadge s k = .unknown := by
  unfold lookupBadge
  obtain h | h := h <;> simp [h]

theorem lookupBadge_of_suspended (hk : k ≠ 0) (hx : badgeHolder s k = some x) (hst : (account s x).state = .suspended) :
    lookupBadge s k = .suspended x := by
  simp [lookupBadge, hk, hx, hst]

theorem lookupBadge_of_active (hk : k ≠ 0) (hx : badgeHolder s k = some x) (hst : (account s x).state = .active) :
    lookupBadge s k = .found x := by
  simp [lookupBadge, hk, hx, hst]

theorem lookupBadge_accepted (s : State) (l a k : Nat) : lookupBadge (accepted s l a) k = lookupBadge s k := rfl

end

/-! ## The figures of a LIST -/

section
variable (s : State) (n : Nat) (v : Visit) (asked : Nat)

theorem Frame.listing {w : List Field} {s t : State} (h : Frame w s t) (a q : Nat) (hf : .jobs ∉ w) :
    listing t a q = listing s a q := by
  have jobs : t.jobs = s.jobs := h.same .jobs hf
  unfold Machine.listing Machine.job Machine.handleOf Machine.slot
  rw [jobs]

theorem pageGiven_zero (len : Nat) : pageGiven len 0 = 0 := ite_self 0

theorem computeList_account : (computeList s n v asked).2.account = v.account := rfl

theorem computeList_warned :
    (computeList s n v asked).2.warned = (account (touch s v.account) v.account).warned := rfl

theorem computeList_pageCount :
    (computeList s n v asked).2.pageCount = pageCount (listing s v.account (terminal s n).pool).length := by
  unfold computeList
  rw [touch_frame]
  rfl

theorem computeList_entries_length :
    (computeList s n v asked).2.entries.length =
      (pageOf (listing s v.account (terminal s n).pool)
        (pageGiven (listing s v.account (terminal s n).pool).length asked)).length := by
  unfold computeList
  dsimp only
  rw [entriesFrom_length, touch_frame]
  rfl

end

/-! ## An account touched twice -/

theorem touch_accounts_congr {s t : State} (hacc : t.accounts = s.accounts) (hten : t.tenants = s.tenants) (a : Nat) :
    (touch t a).accounts = (touch s a).accounts := by
  unfold touch putAccount account tenantRec
  rw [hacc, hten]
  split
  · exact hacc
  · rfl

theorem canonical_accounts {s : State} (h : Canonical s = true) : Table.wf (fun _ => ({} : Account)) s.accounts = true := by
  simp only [Canonical, Bool.and_eq_true] at h
  simp only [h]

/-- An account just touched is left as it is by a further touch. -/
theorem touch_touch_accounts {s : State} (hs : Canonical s = true) (a : Nat) :
    (touch (touch s a) a).accounts = (touch s a).accounts := by
  have touched := canonical_touch hs a
  refine Table.ext_get _ (canonical_accounts (canonical_touch touched a)) (canonical_accounts touched) fun b => ?_
  show account (touch (touch s a) a) b = account (touch s a) b
  by_cases hb : b = a
  · rw [hb, account_touch_touch]
  · rw [account_touch_ne _ hb]

/-! ## A visit opened -/

/-- The account touched and every visit that stands in the way ended: at its other terminal, and at this one (R70). -/
def madeWay (s : State) (x n : Nat) : State := dropVisit (endOtherVisit (touch s x) x n) n

/-- The visit a BADGE opens, before its LIST is computed. -/
def newVisit (s : State) (x : Nat) : Visit := { account := x, page := 0, pageHandles := [], idleDeadline := idleDeadline s }

section
variable {s : State} {x n : Nat}

theorem takeBadge_of_unknown {k : Nat} (h : lookupBadge s k = .unknown) :
    takeBadge s n k = pend (dropVisit s n) n .unknownBadge := by
  rw [takeBadge, h]

theorem takeBadge_of_suspended {k : Nat} (h : lookupBadge s k = .suspended x) :
    takeBadge s n k = pend (dropVisit (touch s x) n) n .suspended := by
  rw [takeBadge, h]

theorem takeBadge_of_active {k : Nat} (h : lookupBadge s k = .found x) :
    takeBadge s n k = showList (madeWay s x n) n (newVisit s x) 0 := by
  rw [takeBadge, h]
  rfl

theorem frame_endOtherVisit (s : State) (x n : Nat) : Frame Field.loopSide s (endOtherVisit s x n) := by
  unfold endOtherVisit
  split
  · exact Frame.refl _ s
  · exact (Frame.refl _ s).ite (frame_endVisit s _ _)

theorem frame_madeWay_touch (s : State) (x n : Nat) : Frame Field.loopSide (touch s x) (madeWay s x n) :=
  (frame_endOtherVisit _ x n).comp (frame_putVisit _ n none) (by decide)

theorem frame_madeWay (s : State) (x n : Nat) : Frame Field.visitSide s (madeWay s x n) :=
  (frame_touch s x).comp (frame_madeWay_touch s x n) (by decide)

theorem loopRec_madeWay {l : Nat} (h : inFlight s l = true) : loopRec (madeWay s x n) l = loopRec s l := by
  have touched := (frame_touch s x).loopRec l (by decide)
  refine (loopRec_endOtherVisit_inFlight (s := touch s x) ?_ x n).trans touched
  rwa [inFlight, touched]

theorem pool_pend (s : State) (u : Nat) (d : Display) (n : Nat) :
    (terminal (pend s u d) n).pool = (terminal s n).pool := by
  have written : ∀ r : Terminal, r.pool = (terminal s u).pool → (terminal (putTerminal s u r) n).pool = (terminal s n).pool := by
    intro r hr
    rw [terminal_putTerminal]
    split
    · subst_vars
      exact hr
    · rfl
  unfold pend
  split
  · exact written _ rfl
  · exact written _ rfl
  · obtain same | cleared := sameBeside_startIfIdle (putTerminal s u { terminal s u with pending := some d }) (u / 16) n
    · rw [same]
      exact written _ rfl
    · rw [cleared]
      exact written _ rfl
  · exact written _ rfl

theorem pool_endVisit (s : State) (u : Nat) (d : Display) (n : Nat) :
    (terminal (endVisit s u d) n).pool = (terminal s n).pool := by
  unfold endVisit
  split
  · rfl
  · exact pool_pend (dropVisit s u) u d n

theorem pool_madeWay (s : State) (x n : Nat) : (terminal (madeWay s x n) n).pool = (terminal s n).pool := by
  have touched : (terminal (touch s x) n).pool = (terminal s n).pool := by rw [(frame_touch s x).terminal n (by decide)]
  refine Eq.trans ?_ touched
  show (terminal (endOtherVisit (touch s x) x n) n).pool = _
  unfold endOtherVisit
  split
  · rfl
  · split
    · rfl
    · exact pool_endVisit _ _ _ n

theorem visit_of_endOtherVisit {a m : Nat} {v : Visit} (h : visit (endOtherVisit s a n) m = some v) :
    visit s m = some v := by
  unfold endOtherVisit at h
  split at h
  · exact h
  · split at h
    · exact h
    · rw [visit_endVisit] at h
      split at h
      · cases h
      · exact h

/-- The visits at the other terminals once a visit is opened: none of the account, and each as it was (R69, R70). -/
theorem visit_opened_ne (hs : Canonical s = true) (hv : VisitsUnique s) {u : Nat} {v : Visit} (hu : u ≠ n)
    (h : visit (showList (madeWay s x n) n (newVisit s x) 0) u = some v) : v.account ≠ x ∧ visit s u = some v := by
  have frame := frame_touch s x
  rw [visit_showList_ne _ _ 0 hu, madeWay, dropVisit, visit_putVisit, if_neg hu] at h
  refine ⟨fun ha => hu ?_, ?_⟩
  · exact visit_endOtherVisit (canonical_touch hs x) ((closes_touch s x).visitsUnique hv) h ha
  · rw [← frame.visit u (by decide)]
    exact visit_of_endOtherVisit h

/-- The visit opened, on page 0 of the account's listing (R70, R71). -/
theorem visit_opened (s : State) (x n : Nat) :
    visit (showList (madeWay s x n) n (newVisit s x) 0) n = some
      { account := x, page := 0, pageHandles := ((listing s x (terminal s n).pool).take 6).map (handleOf s)
        idleDeadline := idleDeadline s } := by
  have frame := frame_madeWay s x n
  have handles : handleOf (madeWay s x n) = handleOf s := funext fun i => frame.handleOf i (by decide)
  rw [visit_showList]
  dsimp only [newVisit]
  rw [pool_madeWay, frame.listing _ _ (by decide), handles, pageGiven_zero]
  rfl

theorem accounts_opened (hs : Canonical s = true) :
    (showList (madeWay s x n) n (newVisit s x) 0).accounts = (touch s x).accounts := by
  have frame := frame_madeWay_touch s x n
  have shown : (showList (madeWay s x n) n (newVisit s x) 0).accounts = (touch (madeWay s x n) x).accounts := by
    refine ((frame_pend _ n _).same .accounts (by decide)).trans ?_
    rw [computeList_frame]
    rfl
  rw [shown, touch_accounts_congr (frame.same .accounts (by decide)) (frame.same .tenants (by decide)),
    touch_touch_accounts hs]

/-- The LIST pending for the visit opened (R71). -/
theorem list_opened (hpolled : polled s (n / 16) = true) (hflight : inFlight s (n / 16) = true) :
    ∃ part, (terminal (showList (madeWay s x n) n (newVisit s x) 0) n).pending = some (.list part) ∧ part.account = x
      ∧ part.page = 0 ∧ part.entries.length = min 6 (listing s x (terminal s n).pool).length
      ∧ part.pageCount = pageCount (listing s x (terminal s n).pool).length
      ∧ part.warned = (account (touch s x) x).warned := by
  have frame := frame_madeWay_touch s x n
  have whole := frame_madeWay s x n
  have loop := loopRec_madeWay (x := x) (n := n) hflight
  have listed : listing (madeWay s x n) x (terminal (madeWay s x n) n).pool = listing s x (terminal s n).pool := by
    rw [pool_madeWay, whole.listing _ _ (by decide)]
  refine ⟨(computeList (madeWay s x n) n (newVisit s x) 0).2, ?_, rfl, ?_, ?_, ?_, ?_⟩
  · rw [showList_inFlight _ 0 (by rwa [polled, loop]) (by rwa [inFlight, loop]), terminal_putTerminal, if_pos rfl]
  · rw [computeList_page, pageGiven_zero]
  · rw [computeList_entries_length, pageGiven_zero]
    exact (List.length_take ..).trans (congrArg (fun l : List Nat => min 6 l.length) listed)
  · rw [computeList_pageCount]
    exact congrArg (fun l : List Nat => pageCount l.length) listed
  · rw [computeList_warned]
    show (account (touch (madeWay s x n) x) x).warned = _
    rw [account_touch_congr (frame.account x (by decide)) fun y => frame.tenantRec y (by decide), account_touch_touch]

end

/-! ## The command -/

theorem exec_badge (l : Fin 4) (a : Fin 16) (number : BitVec 24) (s : State) :
    exec (.badge l a number) s =
      event (fun s => fetch s l.val a.val true fun s => takeBadge s (terminalNo l.val a.val) number.toNat) s := rfl

theorem canonical_accepted {s : State} (hs : Canonical s = true) (l a : Nat) : Canonical (accepted s l a) = true :=
  canonical_putTerminal ((Wrote.refl.transmit [(l, fetchFrame a), (l, acceptFrame a)]).canonical hs) _ _

theorem visit_refused {s : State} {n : Nat} (d : Display) :
    visit (pend (dropVisit s n) n d) n = none ∧ ∀ x, x ≠ n → visit (pend (dropVisit s n) n d) x = visit s x := by
  refine ⟨?_, fun x hx => ?_⟩
  · rw [visit_pend, dropVisit, visit_putVisit, if_pos rfl]
  · rw [visit_pend, dropVisit, visit_putVisit, if_neg hx]

/-- Settles O58: the lookup decides between a display alone and a visit opened, whose LIST meets a roll call in flight. -/
theorem badgeOpensAVisit : Obligations.BadgeOpensAVisit := by
  unfold Obligations.BadgeOpensAVisit
  intro s l a rest number hs hv hr n q hphase hturns hstate
  have h : Fetching s l.val a.val :=
    ⟨hr, (polled_iff s l.val).2 hstate, hphase, fetchTurn_of_phase hphase hturns⟩
  obtain ⟨t, hnext, hsettled, ht⟩ := message_taken (takeBadge · n number.toNat) h.running h.turn rfl
  have flagged : (terminal (accepted s l.val a.val) n).flagged = false := by rw [terminal_accepted]
  have written : Frame [.deskSet, .attn, .loops, .terminals, .visits, .sent, .accounts, .draws] s t := by
    have passed : Frame [.deskSet, .attn, .loops] (takeBadge (accepted s l.val a.val) n number.toNat) t := ht
    exact (Frame.comp (w := [.loops, .terminals, .visits, .sent, .accounts, .draws]) (w₁ := [.terminals, .sent])
      (accepted_frame s l.val a.val) (frame_takeBadge _ n _) (by decide)).comp passed (by decide)
  have numbered : number ≠ 0 → number.toNat ≠ 0 := fun h h0 => h (BitVec.eq_of_toNat_eq h0)
  have accounts : t.accounts = (takeBadge (accepted s l.val a.val) n number.toNat).accounts := by rw [ht]; rfl
  have canonical := canonical_accepted hs l.val a.val
  have unique : VisitsUnique (accepted s l.val a.val) := hv
  have looked := lookupBadge_accepted s l.val a.val number.toNat
  have polledThere := h.accepted_polled
  have inFlightThere := h.accepted_inFlight
  have pool : (terminal (accepted s l.val a.val) n).pool = (terminal s n).pool := by rw [terminal_accepted]
  have frame : Frame [.terminals, .sent] s (accepted s l.val a.val) := accepted_frame s l.val a.val
  generalize accepted s l.val a.val = e at *
  have visits : ∀ u, visit e u = visit s u := fun u => frame.visit u (by decide)
  have touched : ∀ x, (touch e x).accounts = (touch s x).accounts :=
    touch_accounts_congr (frame.same .accounts (by decide)) (frame.same .tenants (by decide))
  refine ⟨t, hnext, hsettled, ?_, fun hno => ?_, fun x h0 hx hst => ?_, fun x h0 hx hst => ?_, written⟩
  · rw [terminal_of_passed ht]
    exact flagged_takeBadge n number.toNat flagged
  · have found := looked.trans (lookupBadge_of_unknown (hno.imp_left fun h => by rw [h]; rfl))
    rw [takeBadge_of_unknown found] at ht accounts
    obtain ⟨closed, others⟩ := visit_refused (s := e) (n := n) .unknownBadge
    refine ⟨(visit_of_passed ht n).trans closed, ?_, ?_, fun x hx => ?_⟩
    · rw [terminal_of_passed ht]
      exact pending_pend .unknownBadge polledThere
    · rw [accounts, (frame_pend _ n _).same .accounts (by decide)]
      exact frame.same .accounts (by decide)
    · rw [visit_of_passed ht, others x hx, visits]
  · have found := looked.trans (lookupBadge_of_suspended (numbered h0) hx hst)
    rw [takeBadge_of_suspended found] at ht accounts
    obtain ⟨closed, others⟩ := visit_refused (s := touch e x) (n := n) .suspended
    refine ⟨(visit_of_passed ht n).trans closed, ?_, ?_, fun u hu => ?_⟩
    · rw [terminal_of_passed ht]
      refine pending_pend .suspended ?_
      rwa [polled, show loopRec (dropVisit (touch e x) n) (n / 16) = loopRec e (n / 16) from
        (frame_touch e x).loopRec _ (by decide)]
    · rw [accounts, (frame_pend _ n _).same .accounts (by decide)]
      exact touched x
    · rw [visit_of_passed ht, others u hu, (frame_touch e x).visit u (by decide), visits]
  · have found := looked.trans (lookupBadge_of_active (numbered h0) hx hst)
    rw [takeBadge_of_active found] at ht accounts
    intro listed
    refine ⟨?_, ?_, ?_, fun u v hu huv => ?_⟩
    · have handles : handleOf e = handleOf s := funext fun i => frame.handleOf i (by decide)
      have now : idleDeadline e = idleDeadline s := congrArg (deadline · 45) (frame.same .seconds (by decide))
      rw [visit_of_passed ht, visit_opened, pool, now, idleDeadline_eq_min, handles, frame.listing _ _ (by decide)]
    · have shown := list_opened (x := x) polledThere inFlightThere
      rw [pool, account_touch_congr (frame.account x (by decide)) fun y => frame.tenantRec y (by decide),
        frame.listing _ _ (by decide)] at shown
      rw [terminal_of_passed ht]
      exact shown
    · rw [accounts, accounts_opened canonical, touched]
    · rw [visit_of_passed ht] at huv
      rw [← visits]
      exact visit_opened_ne canonical unique hu huv

end Sys2Proof.Machine
end

