-- ==== Sys2Proof/Proofs/PickMessages.lean ====
section
/-! PROOFS. PICK and PICK ALL: the release decision run from a terminal's message, and the RESULT it shows (R50, R72 to
R74). -/

namespace Sys2Proof.Machine

/-! ## A release decision reads no terminal

The decision meets the state an accepted message left, which has other terminals and other frames sent than the state the
message met. -/

/-- `s` with other terminals and other frames sent. -/
def dressed (terms : Table Terminal) (frames : List (Nat × List Bool)) (s : State) : State :=
  { s with terminals := terms, sent := frames }

section
variable (terms : Table Terminal) (frames : List (Nat × List Bool)) (s : State)

@[simp] theorem account_dressed (x : Nat) : account (dressed terms frames s) x = account s x := rfl
@[simp] theorem tenantRec_dressed (x : Nat) : tenantRec (dressed terms frames s) x = tenantRec s x := rfl
@[simp] theorem job_dressed (i : Nat) : job (dressed terms frames s) i = job s i := rfl
@[simp] theorem resolve_dressed (h : Nat) : resolve (dressed terms frames s) h = resolve s h := rfl
@[simp] theorem route_dressed (q : Nat) (need : Need) : route (dressed terms frames s) q need = route s q need := rfl
@[simp] theorem crossesWarning_dressed (a : Nat) :
    crossesWarning (dressed terms frames s) a = crossesWarning s a := rfl
@[simp] theorem addReserved_dressed (a amount : Nat) :
    addReserved (dressed terms frames s) a amount = dressed terms frames (addReserved s a amount) := rfl
@[simp] theorem putJob_dressed (i : Nat) (j : Job) :
    putJob (dressed terms frames s) i j = dressed terms frames (putJob s i j) := rfl
@[simp] theorem releaseJob_dressed (i q p : Nat) :
    releaseJob (dressed terms frames s) i q p = dressed terms frames (releaseJob s i q p) := rfl
@[simp] theorem listing_dressed (a q : Nat) : listing (dressed terms frames s) a q = listing s a q := rfl
@[simp] theorem handleOf_dressed : handleOf (dressed terms frames s) = handleOf s := rfl

@[simp] theorem touch_dressed (a : Nat) : touch (dressed terms frames s) a = dressed terms frames (touch s a) := by
  unfold touch
  rw [apply_ite (dressed terms frames)]
  rfl

@[simp] theorem touchOpt_dressed (o : Option Nat) :
    touchOpt (dressed terms frames s) o = dressed terms frames (touchOpt s o) := by
  cases o with
  | none => rfl
  | some a => exact touch_dressed terms frames s a

@[simp] theorem reserveTouched_dressed (o : Nat) :
    reserveTouched (dressed terms frames s) o = dressed terms frames (reserveTouched s o) := by
  simp [reserveTouched]

@[simp] theorem warnAccount_dressed (a : Nat) :
    warnAccount (dressed terms frames s) a = dressed terms frames (warnAccount s a) := by
  unfold warnAccount
  rw [apply_ite (dressed terms frames)]
  rfl

@[simp] theorem onAccount_addReserved_dressed (amount : Nat) (o : Option Nat) :
    onAccount (dressed terms frames s) addReserved amount o = dressed terms frames (onAccount s addReserved amount o) := by
  cases o <;> rfl

theorem reserve_dressed (i pc due : Nat) (mono : Bool) :
    reserve (dressed terms frames s) i pc due mono =
      { reserve s i pc due mono with state := dressed terms frames (reserve s i pc due mono).state } := by
  unfold reserve
  simp only [job_dressed, reserveTouched_dressed, account_dressed]
  generalize reserveTouched s (job s i).owner = u
  cases (account u (job s i).owner).department with
  | none =>
    dsimp only
    split
    · rfl
    · rw [← warnAccount_dressed]
      rfl
  | some d =>
    dsimp only
    split
    · rfl
    · simp only [addReserved_dressed, onAccount_addReserved_dressed, putJob_dressed, job_dressed, warnAccount_dressed,
        crossesWarning_dressed]
      rfl

theorem attempt_dressed (i q : Nat) (need : Need) (mono : Bool) :
    attempt (dressed terms frames s) i q need mono =
      { attempt s i q need mono with state := dressed terms frames (attempt s i q need mono).state } := by
  unfold attempt
  simp only [route_dressed, job_dressed, touch_dressed, account_dressed, tenantRec_dressed, reserve_dressed,
    releaseJob_dressed]
  split
  · rfl
  · split
    · rfl
    · split <;> rfl

/-- What a decision makes of its first attempt (R46 to R48). -/
def afterFirst (i q : Nat) (j : Job) (first : Attempt) : Decision :=
  match first.failure with
  | none => { state := first.state, result := .released, warning := first.warning }
  | some f =>
    if !fallbackAllowed first.state j then { state := first.state, result := f, warning := false }
    else
      let second := attempt first.state i q .mono true
      match second.failure with
      | none => { state := second.state, result := .releasedMono, warning := second.warning }
      | some g => { state := second.state, result := g, warning := false }

theorem decideSlot_eq_afterFirst (i q : Nat) :
    decideSlot s i q =
      afterFirst i q (job s i) (attempt s i q (if 0 < (job s i).sidesColour then .colour else .mono) false) := by
  unfold decideSlot afterFirst
  rfl

theorem afterFirst_dressed (i q : Nat) (j : Job) (first : Attempt) :
    afterFirst i q j { first with state := dressed terms frames first.state } =
      { afterFirst i q j first with state := dressed terms frames (afterFirst i q j first).state } := by
  have allowed : ∀ t j, fallbackAllowed (dressed terms frames t) j = fallbackAllowed t j := fun _ _ => rfl
  unfold afterFirst
  simp only [attempt_dressed, allowed]
  cases first.failure with
  | none => rfl
  | some f =>
    dsimp only
    split
    · rfl
    · generalize attempt first.state i q .mono true = second
      cases second.failure <;> rfl

theorem decideSlot_dressed (i q : Nat) :
    decideSlot (dressed terms frames s) i q =
      { decideSlot s i q with state := dressed terms frames (decideSlot s i q).state } := by
  rw [decideSlot_eq_afterFirst, decideSlot_eq_afterFirst, attempt_dressed, afterFirst_dressed]
  rfl

theorem decideRelease_dressed (h a q : Nat) :
    decideRelease (dressed terms frames s) h a q =
      { decideRelease s h a q with state := dressed terms frames (decideRelease s h a q).state } := by
  have allowed : ∀ i, mayRelease (dressed terms frames s) i a q = mayRelease s i a q := fun _ => rfl
  unfold decideRelease
  simp only [resolve_dressed, allowed, decideSlot_dressed]
  split
  · rfl
  · split <;> rfl

/-- PICK ALL decides the same of two states that differ in their terminals and frames, one decision after the other. -/
theorem decideAll_dressed (a q : Nat) :
    decideAll (dressed terms frames s) a q =
      { decideAll s a q with state := dressed terms frames (decideAll s a q).state } := by
  have step : ∀ (handles : List Nat) (r : AllResult),
      handles.foldl (fun r h => r.add (decideRelease r.state h a q)) { r with state := dressed terms frames r.state } =
        { handles.foldl (fun r h => r.add (decideRelease r.state h a q)) r with
          state := dressed terms frames (handles.foldl (fun r h => r.add (decideRelease r.state h a q)) r).state } := by
    intro handles
    induction handles with
    | nil => exact fun _ => rfl
    | cons h handles ih =>
      intro r
      simp only [List.foldl_cons, decideRelease_dressed]
      exact ih (r.add (decideRelease r.state h a q))
  unfold decideAll
  rw [listing_dressed, handleOf_dressed]
  exact step _ { state := s }

theorem accepted_eq_dressed (l a : Nat) :
    accepted s l a = dressed (accepted s l a).terminals (accepted s l a).sent s := rfl

end

/-! ## A RESULT shown -/

section
variable {s : State} {n : Nat}

/-- A RESULT shown while a roll call is in flight is pending, with the listing part of its visit (R74). -/
theorem pending_showResult (v : Visit) (r : ResultPart) (hpolled : polled s (n / 16) = true) :
    ∃ part, (terminal (showResult s n v r) n).pending = some (.result r part) ∧ part.account = v.account := by
  have loop : ∀ x, loopRec (computeList s n v v.page).1 x = loopRec s x := fun x => by rw [computeList_frame]; rfl
  exact ⟨(computeList s n v v.page).2, pending_pend _ (by rwa [polled, loop]), rfl⟩

theorem visit_showResult (v : Visit) (r : ResultPart) :
    ∃ w, visit (showResult s n v r) n = some w ∧ w.account = v.account ∧ w.idleDeadline = v.idleDeadline := by
  have shown : visit (showResult s n v r) n = some _ :=
    (visit_pend _ n _ n).trans ((visit_computeList s n v v.page n).trans (if_pos rfl))
  exact ⟨_, shown, rfl, rfl⟩

theorem accounts_showResult (v : Visit) (r : ResultPart) :
    (showResult s n v r).accounts = (touch s v.account).accounts := by
  refine ((frame_pend _ n _).same .accounts (by decide)).trans ?_
  rw [computeList_frame]

end

/-! ## The messages -/

section
variable {s : State} {n : Nat} {v : Visit}

theorem takePick_of_closed (h : visit s n = none) (entry : Nat) : takePick s n entry = s := by
  rw [takePick, h]

theorem takePickAll_of_closed (h : visit s n = none) : takePickAll s n = s := by
  rw [takePickAll, h]

theorem takePick_of_open (h : visit s n = some v) {entry : Nat} (hentry : entry ≠ 255) :
    takePick s n entry = pickOne s n (renewed s v) entry := by
  rw [takePick, h]
  exact if_neg hentry

theorem takePickAll_of_open (h : visit s n = some v) : takePickAll s n = pickEvery s n (renewed s v) := by
  rw [takePickAll, h]

theorem pickOne_of_gone {entry : Nat} (h : v.pageHandles[entry]? = none) :
    pickOne s n v entry = showResult s n v (.single .gone false) := by
  rw [pickOne, h]

theorem pickOne_of_entry {entry x : Nat} (h : v.pageHandles[entry]? = some x) :
    pickOne s n v entry =
      showResult (decideRelease s x v.account (terminal s n).pool).state n v
        (.single (decideRelease s x v.account (terminal s n).pool).result
          (decideRelease s x v.account (terminal s n).pool).warning) := by
  rw [pickOne, h]

end

theorem exec_pick (l : Fin 4) (a : Fin 16) (entry : Byte) (s : State) :
    exec (.pick l a entry) s =
      event (fun s => fetch s l.val a.val true fun s => takePick s (terminalNo l.val a.val) entry.toNat) s := rfl

theorem exec_pickAll (l : Fin 4) (a : Fin 16) (s : State) :
    exec (.pickAll l a) s =
      event (fun s => fetch s l.val a.val true fun s => takePickAll s (terminalNo l.val a.val)) s := rfl

/-- What a message that shows the RESULT `r` leaves, its decisions having left `u` of the state it met: the records the
decisions wrote, the visit renewed, and the RESULT pending. -/
theorem result_shown {s u : State} {l : Fin 4} {a : Fin 16} {v : Visit} {r : ResultPart} {effect : State → State}
    (h : Fetching s l.val a.val) (released : Frame Field.release s u)
    (heffect : effect (accepted s l.val a.val) =
      showResult (dressed (accepted s l.val a.val).terminals (accepted s l.val a.val).sent u) (terminalNo l.val a.val)
        (renewed s v) r) :
    let n := terminalNo l.val a.val
    ∃ t, event (fun s => fetch s l.val a.val true effect) s = .next t ∧ Settled t
      ∧ (∃ w, visit t n = some w ∧ w.account = v.account ∧ w.idleDeadline = min 4294967295 (s.seconds + 45))
      ∧ (t.jobs = u.jobs ∧ t.dispatch = u.dispatch ∧ t.printers = u.printers ∧ t.releaseCounter = u.releaseCounter)
      ∧ t.accounts = (touch u v.account).accounts
      ∧ ∃ part, (terminal t n).pending = some (.result r part) ∧ part.account = v.account := by
  intro n
  obtain ⟨t, hnext, hsettled, ht⟩ := message_taken effect h.running h.turn heffect
  generalize hm : dressed (accepted s l.val a.val).terminals (accepted s l.val a.val).sent u = m at *
  have dressing : Frame [.terminals, .sent] u m := by rw [← hm]; rfl
  have shown : Frame Field.visitSide m (showResult m n (renewed s v) r) := frame_showResult m n _ r
  have passed : Frame [.deskSet, .attn, .loops] (showResult m n (renewed s v) r) t := ht
  have frame : Frame (.deskSet :: .attn :: .sent :: Field.visitSide) u t :=
    (dressing.comp (w := .sent :: Field.visitSide) shown (by decide)).comp passed (by decide)
  have loop : loopRec m l.val = loopRec s l.val :=
    (dressing.loopRec _ (by decide)).trans (released.loopRec _ (by decide))
  obtain ⟨w, hw, haccount, hdeadline⟩ := visit_showResult (s := m) (n := n) (renewed s v) r
  refine ⟨t, hnext, hsettled, ⟨w, (visit_of_passed ht n).trans hw, haccount, ?_⟩,
    ⟨frame.same .jobs (by decide), frame.same .dispatch (by decide), frame.same .printers (by decide),
      frame.same .releaseCounter (by decide)⟩, ?_, ?_⟩
  · exact hdeadline.trans (idleDeadline_eq_min s)
  · refine (passed.same .accounts (by decide)).trans ((accounts_showResult _ r).trans ?_)
    exact touch_accounts_congr (dressing.same .accounts (by decide)) (dressing.same .tenants (by decide)) v.account
  · rw [terminal_of_passed ht]
    refine pending_showResult (renewed s v) r ?_
    rw [terminalNo_div, polled, loop]
    exact h.polled

/-- Settles O59: the decision is that of the state the message met, and its RESULT is shown on the state it leaves. -/
theorem picksRunTheReleaseDecision : Obligations.PicksRunTheReleaseDecision := by
  unfold Obligations.PicksRunTheReleaseDecision
  intro s l a rest entry hr n q hphase hturns hstate hentry cleared
  have h : Fetching s l.val a.val := ⟨hr, (polled_iff s l.val).2 hstate, hphase, fetchTurn_of_phase hphase hturns⟩
  have one : entry.toNat ≠ 255 := fun he => hentry (BitVec.eq_of_toNat_eq he)
  refine ⟨fun hv c hc => ?_, fun v hv => ?_⟩
  · simp only [List.mem_cons, List.not_mem_nil, or_false] at hc
    obtain rfl | rfl := hc
    · rw [exec_pick]
      exact message_without_effect h (takePick_of_closed (s := accepted s l.val a.val) hv _)
    · rw [exec_pickAll]
      exact message_without_effect h (takePickAll_of_closed (s := accepted s l.val a.val) hv)
  · intro kept
    have met : visit (accepted s l.val a.val) n = some v := hv
    have pool : (terminal (accepted s l.val a.val) n).pool = (terminal s n).pool := by rw [terminal_accepted]
    have renew : renewed (accepted s l.val a.val) v = renewed s v := rfl
    have taken := takePick_of_open met one
    have all := takePickAll_of_open met
    rw [renew] at taken all
    refine ⟨?_, ?_⟩
    · rw [exec_pick]
      cases hx : v.pageHandles[entry.toNat]? with
      | none =>
        obtain ⟨t, hnext, hsettled, hkept, ⟨hjobs, hdispatch, -, -⟩, haccounts, part, hpart, -⟩ :=
          result_shown (v := v) (effect := (takePick · n entry.toNat)) h (Frame.refl _ s)
            (taken.trans (pickOne_of_gone hx))
        exact ⟨t, hnext, hsettled, hkept, fun _ => ⟨hjobs, hdispatch, haccounts, part, hpart⟩, nofun⟩
      | some x =>
        have effect := taken.trans (pickOne_of_entry hx)
        rw [pool, accepted_eq_dressed s, decideRelease_dressed] at effect
        obtain ⟨t, hnext, hsettled, hkept, ⟨hjobs, hdispatch, hprinters, hcounter⟩, -, part, hpart, hacc⟩ :=
          result_shown (v := v) (effect := (takePick · n entry.toNat)) h (frame_decideRelease s x v.account _) effect
        refine ⟨t, hnext, hsettled, hkept, nofun, fun y hy => ?_⟩
        cases hy
        exact ⟨hjobs, hdispatch, hprinters, hcounter, part, hpart, hacc⟩
    · rw [exec_pickAll]
      have effect := all
      rw [pickEvery, pool, accepted_eq_dressed s] at effect
      rw [show (renewed s v).account = v.account from rfl, decideAll_dressed] at effect
      obtain ⟨t, hnext, hsettled, hkept, ⟨hjobs, hdispatch, hprinters, hcounter⟩, -, part, hpart, hacc⟩ :=
        result_shown (v := v) (effect := (takePickAll · n)) h (frame_decideAll s v.account _) effect
      exact ⟨t, hnext, hsettled, hkept, hjobs, hdispatch, hprinters, hcounter, decideAll_counts s _ _, part, hpart, hacc⟩

end Sys2Proof.Machine
end
